-- ==== Sys2Proof/Word.lean ====
section
/-! DEFINITION. The word types of the Mabtern 316: bytes, stamp digits and stamps (00_scope.md section 3, R171). -/

namespace Sys2Proof

/-- One byte of a link frame or a line frame. -/
abbrev Byte := BitVec 8

/-- One hexadecimal digit of a stamp (00_scope.md section 3). -/
abbrev Nibble := BitVec 4

/-- A member's 48-bit factory number; digit 0 is the most significant. -/
abbrev Stamp := BitVec 48

end Sys2Proof
end

