-- ==== Sys2Proof/Config.lean ====
section
/-! DEFINITION. The fixed numbers of the part that no setting changes, each with the rule that gives it. -/

namespace Sys2Proof.Config

/-- Alignment timer, ms (R4). -/
abbrev alignmentMs : Nat := 500
/-- Trip timer, µs (R20). -/
abbrev tripUs : Nat := 200
/-- Off span of CYCLING, µs (R22). -/
abbrev cycleOffUs : Nat := 20000
/-- Highest duty level (R15). -/
abbrev topDuty : Nat := 16
/-- Stuck-line limit, beats (R44). -/
abbrev stuckBeats : Nat := 160
/-- Period of the fault sampler, ms (R45). -/
abbrev samplerMs : Nat := 10
/-- Length of the high watch of the fault sampler, µs (R45). -/
abbrev highWatchUs : Nat := 1000
/-- Link gap timer, µs (R158). -/
abbrev gapUs : Nat := 2000
/-- Largest link payload of a request (R158). -/
abbrev maxLen : Nat := 80
/-- Reply buffer slots (R160). -/
abbrev replySlots : Nat := 24
/-- Urgent lane room (R138). -/
abbrev urgentRoom : Nat := 4
/-- Normal lane room (R138). -/
abbrev normalRoom : Nat := 12
/-- Prefix stack room (R104). -/
abbrev frameRoom : Nat := 48
/-- The most steps of a path or route, so that the level stack holds one record more (R76, R120, R126). -/
abbrev routeRoom : Nat := 4
/-- Junction list room of a level record (R112). -/
abbrev junctionRoom : Nat := 8
/-- Pin table room (R86). -/
abbrev pinRoom : Nat := 32
/-- Highest handle (R63). -/
abbrev topHandle : Nat := 126
/-- Longest sweep interval, ms (R140). -/
abbrev topInterval : Nat := 10000
/-- Rest of a sweep pass that rolled nothing, ms (R153). -/
abbrev emptyRestMs : Nat := 100
/-- Longest DATA payload (Table 3-5). -/
abbrev dataRoom : Nat := 32
/-- Default of BEAT (Table 10-4). -/
abbrev defaultBeat : Nat := 80
/-- Dwell length held from reset until the first ramp start. DESIGN CHOICE (log 7): the spec gives none; this is the dwell of
the default RAMP_MS (Table 2-2). -/
abbrev resetDwell : Nat := 1250
/-- Bound on the grants one grant opportunity can hand out before one of them reaches the line (log 25). -/
abbrev grantFuel : Nat := 200
/-- Free value: the low on which the `n`th operation cut short left the capture unit, as its ticks and its further falling edges,
or none when no cue of that operation had fallen yet (R8, R39). DESIGN CHOICE (log 32): no rule and no command gives it. -/
opaque cutLow : Nat → Option (Nat × Nat)

end Sys2Proof.Config
end

