-- ==== Sys2Proof/Syntax.lean ====
section
/-! DEFINITION. The commands of the part: one constructor of `Instr` for each row of spec/opcode_table.json, with the operands
the rules give the row. -/

namespace Sys2Proof

/-- The three plug inputs MMON reads (R1). -/
inductive PlugInput where
  | presA | presB | lock
  deriving DecidableEq, Repr

/-- One low period of TL as the line shows it to the capture unit: how many ticks the line is low, and how many falling edges
there are, the cue's own included (R39). The unit's saturation is applied to it by the part. -/
structure LowSample where
  ticks : Nat
  edges : Nat
  deriving DecidableEq, Repr

/-- What arrives on RXD in one byte time (R157): a byte with a good stop bit, a bad byte, or a break. -/
inductive RxByte where
  | good (b : Byte)
  | bad
  | breakLow
  deriving DecidableEq, Repr

/-- Rounding modes (Table 4-2). -/
inductive RoundMode where
  | nearestEven | down | up | towardZero
  deriving DecidableEq, Repr

/-- The commands. Each is one whole step of the part (95_what_each_step_holds.md). A request command stands for the whole
frame of that request with a good check (log 9); its first operand is the frame's TAG. -/
inductive Instr where
  /-- INPUT_CHANGE (R1): one plug input takes a level. -/
  | inputChange (input : PlugInput) (made : Bool)
  /-- ALIGNMENT_EXPIRY (R4). -/
  | alignmentExpiry
  /-- DEBOUNCE_EXPIRY (R5). -/
  | debounceExpiry
  /-- BREAK_FILTER_EXPIRY (R9). -/
  | breakFilterExpiry
  /-- RESET_ASSERT (R170): power-on, or RESET_N asserted. -/
  | resetAssert
  /-- RESET_RELEASE (R157): RESET_N released, with the strap levels. -/
  | resetRelease (baud1 baud0 : Bool)
  /-- OVL_ASSERTED (R18). -/
  | ovlAsserted
  /-- OVL_RELEASED (R19). -/
  | ovlReleased
  /-- DWELL_EXPIRY (R18). -/
  | dwellExpiry
  /-- HOLD_EXPIRY (R19). -/
  | holdExpiry
  /-- TRIP_EXPIRY (R20). -/
  | tripExpiry
  /-- SETTLE_EXPIRY (R20). -/
  | settleExpiry
  /-- CYCLE_OFF_SPAN_EXPIRY (R22). -/
  | cycleOffSpanExpiry
  /-- START_UP_TRAIN_DONE (R30). -/
  | startUpTrainDone
  /-- HAIL_DONE (R31): the ticks of each low inside the presence window. -/
  | hailDone (lows : List Nat)
  /-- CALL_DONE (R103): the lows of the 16 slots in slot order. -/
  | callDone (slots : List LowSample)
  /-- ECHO_DONE (R106): the lows of the 16 slots in slot order. -/
  | echoDone (slots : List LowSample)
  /-- NAME_DONE (R107): the lows of the reply cells in cell order. -/
  | nameDone (cells : List LowSample)
  /-- MEASURE_DONE (R49): the calibration low. -/
  | measureDone (low : LowSample)
  /-- ROLL_DONE (R72). -/
  | rollDone (cells : List LowSample)
  /-- LEG_OPEN_DONE (R124). -/
  | legOpenDone (cells : List LowSample)
  /-- LEG_CLOSE_DONE (R123). -/
  | legCloseDone (cells : List LowSample)
  /-- DROP_DONE (R33). -/
  | dropDone
  /-- DATA_DONE (R146). -/
  | dataDone (cells : List LowSample)
  /-- WAKE_TRAIN_DONE (R149). -/
  | wakeTrainDone
  /-- KEEPALIVE_TRAIN_DONE (R43). -/
  | keepaliveTrainDone
  /-- KEEPALIVE_EXPIRY (R43). -/
  | keepaliveExpiry
  /-- STUCK_LINE_EXPIRY (R44). -/
  | stuckLineExpiry
  /-- FAULT_SAMPLE (R45). -/
  | faultSample
  /-- FAULT_CLEAR (R45). -/
  | faultClear
  /-- LEG_SETTLE_EXPIRY (R124). -/
  | legSettleExpiry
  /-- SWEEP_REST_EXPIRY (R153). -/
  | sweepRestExpiry
  /-- LINK_GAP_EXPIRY (R158). -/
  | linkGapExpiry
  /-- FRAME_CHECK (R159): a complete frame (LEN to payload) and its two check bytes. -/
  | frameCheck (body : List Byte) (check : BitVec 16)
  /-- BAD_REQUEST (R161): a complete frame with a good check that is no request. -/
  | badRequest (kind tag : Byte) (payload : List Byte)
  /-- TX_FRAME_DONE (R162). -/
  | txFrameDone
  /-- STATUS (R164). -/
  | status (tag : Byte)
  /-- GET (R165). -/
  | get (tag id : Byte)
  /-- SET (R166). -/
  | set (tag id : Byte) (value : BitVec 16)
  /-- SET_BEAT (R167): SET with id 06h. -/
  | setBeat (tag : Byte) (value : BitVec 16)
  /-- SET_KEEPALIVE_MS (R43): SET with id 0Ah. -/
  | setKeepaliveMs (tag : Byte) (value : BitVec 16)
  /-- PIN (R87). -/
  | pin (tag : Byte) (stamp : Stamp) (handle : Byte) (expected : Option Byte)
  /-- UNPIN (R89). -/
  | unpin (tag : Byte) (stamp : Stamp)
  /-- PINS (R89). -/
  | pins (tag first : Byte)
  /-- ROSTER (R83). -/
  | roster (tag first count : Byte)
  /-- ENTRY (R84). -/
  | entry (tag handle : Byte)
  /-- CLEAR_MARKS for a handle (R82). -/
  | clearMarks (tag handle : Byte)
  /-- CLEAR_MARKS ALL (R82). -/
  | clearMarksAll (tag : Byte)
  /-- FORGET (R79). -/
  | forget (tag handle : Byte)
  /-- DISCOVER RESCAN (R99). -/
  | discoverRescan (tag : Byte)
  /-- DISCOVER FULL (R100). -/
  | discoverFull (tag : Byte)
  /-- DISCOVER CLEAN (R81). -/
  | discoverClean (tag : Byte)
  /-- EXCHANGE (R139). -/
  | exchange (tag handle : Byte) (urgent : Bool) (payload : List Byte)
  /-- ROLL (R147). -/
  | roll (tag handle : Byte) (urgent : Bool)
  /-- CALIBRATE in form RECORD (R55). -/
  | calibrateRecord (tag handle : Byte) (mode : Option RoundMode) (ignoreInexact : Bool)
  /-- CALIBRATE in form PROBE (R56). -/
  | calibrateProbe (tag handle : Byte) (mode : Option RoundMode) (ignoreInexact : Bool)
  /-- WAKE (R140); an operand of 0 is absent (R172). -/
  | wake (tag count low high : Byte)
  /-- SWEEP (R151). -/
  | sweep (tag count : Byte) (stopOnChange : Bool) (interval : BitVec 16)
  /-- CANCEL with target TAG (R154). -/
  | cancel (tag target : Byte)
  /-- CANCEL with target RUNNING_DISCOVERY (R117). -/
  | cancelRunningDiscovery (tag : Byte)
  /-- CANCEL with target RUNNING_SWEEP (R154). -/
  | cancelRunningSweep (tag : Byte)
  /-- PARK (R23). -/
  | park (tag : Byte)
  /-- POWER (R24). -/
  | power (tag : Byte)
  /-- RESTART SESSION (R168). -/
  | restartSession (tag : Byte)
  /-- RESTART FULL (R169), its first step. -/
  | restartFull (tag : Byte)
  /-- RESTART_FULL_RESET (R169): its third step, once the replies have drained. -/
  | restartFullReset
  /-- RECEIVED_BYTE (R158). -/
  | receivedByte (rx : RxByte)
  /-- TL_LEVEL_CHANGE (R44): TL takes a level while the part does not drive it. -/
  | tlLevelChange (high : Bool)
  /-- PWM_PERIOD (R17): a PWM period of SUP_EN ends and the next starts. -/
  | pwmPeriod
  deriving DecidableEq, Repr

end Sys2Proof
end

