-- ==== Sys2Proof/Decode.lean ====
section
/-! DEFINITION. Link frames: the two check codes (R159, R38), the layout of a request payload (Table 11-2, R171, R172) read and
written, and `decodeTableWord`. The opcode table gives no row any bits, so no word spells a command (log 2). -/

namespace Sys2Proof

/-- One step of the link CRC-16: polynomial 1021h, most significant bit first (R159). -/
def crc16Bit (r : BitVec 16) : BitVec 16 :=
  if r.msb then (r <<< 1) ^^^ 0x1021#16 else r <<< 1

/-- One byte into the link CRC-16 (R159). -/
def crc16Byte (r : BitVec 16) (b : Byte) : BitVec 16 :=
  (List.replicate 8 ()).foldl (fun a _ => crc16Bit a) (r ^^^ (b.zeroExtend 16 <<< 8))

/-- The link CRC-16: initial value FFFFh, not reflected, no final inversion (R159). -/
def crc16 (bs : List Byte) : BitVec 16 := bs.foldl crc16Byte 0xFFFF#16

/-- One step of the line CRC-8: polynomial 31h, most significant bit first (R38). -/
def crc8Bit (r : Byte) : Byte :=
  if r.msb then (r <<< 1) ^^^ 0x31#8 else r <<< 1

/-- One byte into the line CRC-8 (R38). -/
def crc8Byte (r b : Byte) : Byte :=
  (List.replicate 8 ()).foldl (fun a _ => crc8Bit a) (r ^^^ b)

/-- The line CRC-8: initial value 00h (R38). -/
def crc8 (bs : List Byte) : Byte := bs.foldl crc8Byte 0x00#8

/-- The low byte of a number. -/
def byteOf (n : Nat) : Byte := BitVec.ofNat 8 n

/-- A number as two bytes, high byte first (R171). -/
def word16 (n : Nat) : List Byte := [byteOf (n / 256), byteOf n]

/-- A stamp as 6 bytes, digit 0 the high nibble of the first (R171). -/
def stampBytes (s : Stamp) : List Byte :=
  [byteOf (s.toNat / 2 ^ 40), byteOf (s.toNat / 2 ^ 32), byteOf (s.toNat / 2 ^ 24),
   byteOf (s.toNat / 2 ^ 16), byteOf (s.toNat / 2 ^ 8), byteOf s.toNat]

/-- Six bytes as a stamp (R171). -/
def stampOf (a b c d e f : Byte) : Stamp :=
  BitVec.ofNat 48 (a.toNat * 2 ^ 40 + b.toNat * 2 ^ 32 + c.toNat * 2 ^ 24 + d.toNat * 2 ^ 16 + e.toNat * 2 ^ 8 + f.toNat)

/-- Rounding mode codes (Table 10-4). -/
def RoundMode.code : RoundMode → Nat
  | .nearestEven => 0
  | .down => 1
  | .up => 2
  | .towardZero => 3

/-- Reading a rounding mode code (Table 10-4). -/
def RoundMode.ofCode : Nat → Option RoundMode
  | 0 => some .nearestEven
  | 1 => some .down
  | 2 => some .up
  | 3 => some .towardZero
  | _ => none

/-- What a taken-in frame reads as (R161, R172): no request; a request refused BAD_VALUE for a field outside its codes; or a
request of one of the rows. -/
inductive FrameReading where
  | badRequest
  | badValue
  | request (i : Instr)
  deriving DecidableEq, Repr

/-- SET by its id: BEAT and KEEPALIVE_MS have rows of their own. -/
def readSet (tag id : Byte) (v : BitVec 16) : Instr :=
  if id = 0x06#8 then .setBeat tag v
  else if id = 0x0A#8 then .setKeepaliveMs tag v
  else .set tag id v

/-- PIN (Table 11-2, R172): kind present above 1 is BAD_VALUE; the expected kind is read only when it is 1. -/
def readPin (tag : Byte) (s : Stamp) (h present kind : Byte) : FrameReading :=
  if present = 0#8 then .request (.pin tag s h none)
  else if present = 1#8 then .request (.pin tag s h (some kind))
  else .badValue

/-- CLEAR_MARKS of handle 0 is CLEAR_MARKS ALL (R172). -/
def readClearMarks (tag h : Byte) : Instr :=
  if h = 0#8 then .clearMarksAll tag else .clearMarks tag h

/-- DISCOVER by its mode (Table 11-2). -/
def readDiscover (tag mode : Byte) : FrameReading :=
  if mode = 0#8 then .request (.discoverRescan tag)
  else if mode = 1#8 then .request (.discoverFull tag)
  else if mode = 2#8 then .request (.discoverClean tag)
  else .badValue

/-- EXCHANGE: a length byte that differs from LEN - 3, or exceeds 32, is a wrong payload length (R172). -/
def readExchange (tag h urgent n : Byte) (payload : List Byte) : FrameReading :=
  if n.toNat = payload.length ∧ n.toNat ≤ Config.dataRoom then .request (.exchange tag h (urgent != 0#8) payload)
  else .badRequest

/-- CALIBRATE: a form, override or IGNORE_INEXACT byte outside its codes is BAD_VALUE (R172). -/
def readCalibrate (tag h form override ignore : Byte) : FrameReading :=
  let mode : Option (Option RoundMode) :=
    if override = 0xFF#8 then some none else (RoundMode.ofCode override.toNat).map some
  match mode with
  | none => .badValue
  | some m =>
    if ignore.toNat > 1 then .badValue
    else if form = 0#8 then .request (.calibrateRecord tag h m (ignore = 1#8))
    else if form = 1#8 then .request (.calibrateProbe tag h m (ignore = 1#8))
    else .badValue

/-- CANCEL by its target type (R172). -/
def readCancel (tag type target : Byte) : FrameReading :=
  if type = 0#8 then .request (.cancel tag target)
  else if type = 1#8 then .request (.cancelRunningDiscovery tag)
  else if type = 2#8 then .request (.cancelRunningSweep tag)
  else .badValue

/-- RESTART by its mode (R172). -/
def readRestart (tag mode : Byte) : FrameReading :=
  if mode = 0#8 then .request (.restartSession tag)
  else if mode = 1#8 then .request (.restartFull tag)
  else .badValue

/-- The payload of a frame of kinds 01h to 0Ah by Table 11-2. -/
def readLow (kind : Nat) (tag : Byte) (p : List Byte) : FrameReading :=
  match kind, p with
  | 0x01, [] => .request (.status tag)
  | 0x02, [id] => .request (.get tag id)
  | 0x03, [id, hi, lo] => .request (readSet tag id (hi ++ lo))
  | 0x04, [a, b, c, d, e, f, h, present, k] => readPin tag (stampOf a b c d e f) h present k
  | 0x05, [a, b, c, d, e, f] => .request (.unpin tag (stampOf a b c d e f))
  | 0x06, [first] => .request (.pins tag first)
  | 0x07, [first, count] => .request (.roster tag first count)
  | 0x08, [h] => .request (.entry tag h)
  | 0x09, [h] => .request (readClearMarks tag h)
  | 0x0A, [h] => .request (.forget tag h)
  | _, _ => .badRequest

/-- The payload of a frame of kinds 0Bh to 14h by Table 11-2. -/
def readHigh (kind : Nat) (tag : Byte) (p : List Byte) : FrameReading :=
  match kind, p with
  | 0x0B, [mode] => readDiscover tag mode
  | 0x0C, h :: urgent :: n :: rest => readExchange tag h urgent n rest
  | 0x0D, [h, urgent] => .request (.roll tag h (urgent != 0#8))
  | 0x0E, [h, form, override, ignore] => readCalibrate tag h form override ignore
  | 0x0F, [count, low, high] => .request (.wake tag count low high)
  | 0x10, [count, opts, hi, lo] => .request (.sweep tag count (opts.getLsbD 0) (hi ++ lo))
  | 0x11, [type, target] => readCancel tag type target
  | 0x12, [] => .request (.park tag)
  | 0x13, [] => .request (.power tag)
  | 0x14, [mode] => readRestart tag mode
  | _, _ => .badRequest

/-- A frame with a good check read as a request (R161, R172): tag 0, an unknown kind or a wrong length is no request. -/
def readRequest (kind tag : Byte) (p : List Byte) : FrameReading :=
  if tag = 0#8 then .badRequest
  else if kind.toNat ≤ 0x0A then readLow kind.toNat tag p
  else readHigh kind.toNat tag p

/-- A flag as a byte. -/
def flagByte (b : Bool) : Byte := if b then 1#8 else 0#8

/-- The KIND, TAG and payload a controller sends for a request command (Table 11-2); none for the other commands. -/
def requestFields : Instr → Option (Byte × Byte × List Byte)
  | .status t => some (0x01#8, t, [])
  | .get t id => some (0x02#8, t, [id])
  | .set t id v => some (0x03#8, t, id :: word16 v.toNat)
  | .setBeat t v => some (0x03#8, t, 0x06#8 :: word16 v.toNat)
  | .setKeepaliveMs t v => some (0x03#8, t, 0x0A#8 :: word16 v.toNat)
  | .pin t s h none => some (0x04#8, t, stampBytes s ++ [h, 0#8, 0#8])
  | .pin t s h (some k) => some (0x04#8, t, stampBytes s ++ [h, 1#8, k])
  | .unpin t s => some (0x05#8, t, stampBytes s)
  | .pins t first => some (0x06#8, t, [first])
  | .roster t first count => some (0x07#8, t, [first, count])
  | .entry t h => some (0x08#8, t, [h])
  | .clearMarks t h => some (0x09#8, t, [h])
  | .clearMarksAll t => some (0x09#8, t, [0#8])
  | .forget t h => some (0x0A#8, t, [h])
  | .discoverRescan t => some (0x0B#8, t, [0#8])
  | .discoverFull t => some (0x0B#8, t, [1#8])
  | .discoverClean t => some (0x0B#8, t, [2#8])
  | .exchange t h u p => some (0x0C#8, t, h :: flagByte u :: byteOf p.length :: p)
  | .roll t h u => some (0x0D#8, t, [h, flagByte u])
  | .calibrateRecord t h m g =>
    some (0x0E#8, t, [h, 0#8, (m.map (fun x => byteOf x.code)).getD 0xFF#8, flagByte g])
  | .calibrateProbe t h m g =>
    some (0x0E#8, t, [h, 1#8, (m.map (fun x => byteOf x.code)).getD 0xFF#8, flagByte g])
  | .wake t c l h => some (0x0F#8, t, [c, l, h])
  | .sweep t c stop iv => some (0x10#8, t, c :: flagByte stop :: word16 iv.toNat)
  | .cancel t target => some (0x11#8, t, [0#8, target])
  | .cancelRunningDiscovery t => some (0x11#8, t, [1#8, 0#8])
  | .cancelRunningSweep t => some (0x11#8, t, [2#8, 0#8])
  | .park t => some (0x12#8, t, [])
  | .power t => some (0x13#8, t, [])
  | .restartSession t => some (0x14#8, t, [0#8])
  | .restartFull t => some (0x14#8, t, [1#8])
  | .inputChange _ _ | .alignmentExpiry | .debounceExpiry | .breakFilterExpiry | .resetAssert | .resetRelease _ _
  | .ovlAsserted | .ovlReleased | .dwellExpiry | .holdExpiry | .tripExpiry | .settleExpiry | .cycleOffSpanExpiry
  | .startUpTrainDone | .hailDone _ | .callDone _ | .echoDone _ | .nameDone _ | .measureDone _ | .rollDone _
  | .legOpenDone _ | .legCloseDone _ | .dropDone | .dataDone _ | .wakeTrainDone | .keepaliveTrainDone
  | .keepaliveExpiry | .stuckLineExpiry | .faultSample | .faultClear | .legSettleExpiry | .sweepRestExpiry
  | .linkGapExpiry | .frameCheck _ _ | .badRequest _ _ _ | .txFrameDone | .restartFullReset | .receivedByte _
  | .tlLevelChange _ | .pwmPeriod => none

/-- The bytes of a link frame from LEN to payload (Table 11-1). -/
def frameBody (kind tag : Byte) (p : List Byte) : List Byte := word16 p.length ++ [kind, tag] ++ p

/-- A whole link frame: SYNC, the body and its check, high byte first (Table 11-1, R159). -/
def linkFrame (body : List Byte) : List Byte := 0xD5#8 :: body ++ word16 (crc16 body).toNat

/-- The command that a table word spells: the table gives no row any bits, so none (log 2). -/
def decodeTableWord (_nbits _w : Nat) : Option Instr := none

end Sys2Proof
end

