-- ==== Sys2Proof/Machine/State.lean ====
section
/-! DEFINITION. The state of the part: every piece of state the spec gives its nine blocks, as plain data, its value after
reset, and the reasons a step could stop (none does, log 27). -/

namespace Sys2Proof.Machine

/-- A timer: `none` when stopped, `some n` while it runs toward `n` (log 4). The unit is said at each field. -/
abbrev Timer := Option Nat

/-! ### MMON (Table 1-1) -/

/-- The plug inputs that are made (R1). -/
structure InputSet where
  presA : Bool
  presB : Bool
  lock : Bool
  deriving DecidableEq, Repr

/-- Mate states (Table 1-1). -/
inductive MateState where
  | opened | partialMate | qualifying | mated | suspect
  deriving DecidableEq, Repr

/-- The mate monitor (Table 1-1). Timers in ms. -/
structure Mmon where
  state : MateState
  debounce : Timer
  breakFilter : Timer
  alignment : Timer
  misaligned : Bool
  inputs : InputSet
  deriving DecidableEq, Repr

/-! ### SSW (Table 2-1) -/

/-- Supply states (Table 2-1). -/
inductive SupplyState where
  | off | ramping | holding | on | cycling | tripped
  deriving DecidableEq, Repr

/-- The causes of an entry into TRIPPED (Table 2-1). -/
inductive TripCause where
  | hold | run
  deriving DecidableEq, Repr

/-- The supply switch (Table 2-1). `step` and `trip` run in µs, `hold` in ms, `dwell` is in µs; `pwm` is the duty level in force
in the PWM period under way, absent when SUP_EN is not switched (R17); `ovl` is the level of OVL. -/
structure Ssw where
  state : SupplyState
  duty : Nat
  step : Timer
  hold : Timer
  trip : Timer
  dwell : Nat
  parked : Bool
  cause : TripCause
  pwm : Option Nat
  ovl : Bool
  deriving DecidableEq, Repr

/-! ### LINE (Table 3-2) -/

/-- One step of a path or of the open route: a junction handle and a leg (00_scope.md section 3). -/
structure RouteStep where
  junction : Nat
  leg : Nat
  deriving DecidableEq, Repr

/-- A path or route, outermost step first. -/
abbrev Route := List RouteStep

/-- Line states (Table 3-2). -/
inductive LineState where
  | off | idle | busy | faulted
  deriving DecidableEq, Repr

/-- A train: cycles, and the low and high of each in beats (R37). -/
structure Train where
  count : Nat
  low : Nat
  high : Nat
  deriving DecidableEq, Repr

/-- The line operations (R29, Table 3-5, R37). `call` carries the prefix digits, so its digit count is their number. -/
inductive OpKind where
  | hail
  | call (digits : List Nibble)
  | echo (stamp : Stamp)
  | name (stamp : Stamp) (nonce handle : Nat)
  | measure
  | roll
  | legOpen (leg : Nat)
  | legClose (leg : Nat)
  | drop
  | data (payload : List Byte)
  | startUp (train : Train)
  | wake (train : Train)
  | keepalive (train : Train)
  deriving DecidableEq, Repr

/-- An operation in flight: what it is, whom it addresses, the trim fixed for it (R33), the request frame it sends with its
check byte (R38; empty for a hail or a train), and its turnaround gap in ticks (R62; 0 for a hail or a train). -/
structure LineOp where
  kind : OpKind
  audience : Nat
  trim : Int
  frame : List Byte
  gap : Nat
  deriving DecidableEq, Repr

/-- The capture unit (R39). -/
structure Capture where
  ticks : Nat
  edges : Nat
  saturated : Bool
  deriving DecidableEq, Repr

/-- A start-up train pending (R30): its count alone while it waits to be started, since WAKE_LOW and WAKE_HIGH are read at its
start (Table 10-4), and the whole train once it has been started, since a tainted train is run again with its values. -/
inductive OwedTrain where
  | waiting (count : Nat)
  | begun (train : Train)
  deriving DecidableEq, Repr

/-- The line engine (Table 3-2). `startUp` is the start-up train pending; `keepalive` runs in ms, `watch` in ticks, `sampler` in
ms, `highWatch` in µs (R45); `tlHigh` is the level of TL seen while the part does not drive it. `cuts` is the model's own: the
number of operations cut short so far, which `Config.cutLow` is applied to (log 32). -/
structure Line where
  state : LineState
  beat : Nat
  tickPhase : Nat
  startUp : Option OwedTrain
  op : Option LineOp
  capture : Capture
  cuts : Nat
  route : Route
  keepalive : Timer
  keepaliveDue : Bool
  watch : Timer
  sampler : Timer
  highWatch : Timer
  tlHigh : Bool
  deriving DecidableEq, Repr

/-! ### RATE (R48) -/

/-- Calibration forms (R48). -/
inductive CalibForm where
  | record | probe
  deriving DecidableEq, Repr

/-- The calibration choices (R48). -/
structure CalibChoices where
  mode : RoundMode
  form : CalibForm
  ignoreInexact : Bool
  deriving DecidableEq, Repr

/-- The rate unit holds the choices of the calibration in hand, or none (R48). -/
structure Rate where
  choices : Option CalibChoices
  deriving DecidableEq, Repr

/-! ### RSTR (Tables 5-1, 5-2) -/

/-- Entry states (Table 5-3). -/
inductive EntryState where
  | named | calibrated | silent | departed
  deriving DecidableEq, Repr

/-- Drift conditions (R55). -/
inductive Drift where
  | steady | faster | slower
  deriving DecidableEq, Repr

/-- One roster entry (Table 5-2). An empty `faultedLegs` is an absent list (R65). -/
structure Entry where
  handle : Nat
  stamp : Stamp
  kind : Byte
  path : Route
  state : EntryState
  namedAt : Nat
  trim : Option Int
  drift : Option Drift
  misses : Nat
  errors : Nat
  clamped : Bool
  oddAnswer : Bool
  duplicate : Bool
  pinConflict : Bool
  kindMismatch : Bool
  notEntered : Bool
  faultedLegs : List Nat
  nonce : Option Nat
  deriving DecidableEq, Repr

/-- The roster (Table 5-1); `reserved` is 0 when no handle is reserved. -/
structure Rstr where
  entries : List Entry
  generation : Nat
  reserved : Nat
  clampedSummary : Bool
  deriving DecidableEq, Repr

/-! ### PINS (Table 6-1) -/

/-- One pin (Table 6-1). -/
structure Pin where
  stamp : Stamp
  handle : Nat
  expected : Option Byte
  deriving DecidableEq, Repr

/-! ### DISC (Tables 7-1, 7-4, 7-8, 8-3) -/

/-- Discovery states (Table 7-1). -/
inductive DiscState where
  | idle | armed | walking | resolving | measuring | opening | returning | restoring
  deriving DecidableEq, Repr

/-- Who started the discovery (Table 7-1). -/
inductive Origin where
  | auto
  | requested (tag : Byte)
  deriving DecidableEq, Repr

/-- Discovery modes (Table 7-1). -/
inductive DiscMode where
  | rescan | full | clean
  deriving DecidableEq, Repr

/-- Discovery outcomes (Table 7-8). -/
inductive DiscOutcome where
  | complete | incomplete | aborted
  deriving DecidableEq, Repr

/-- Abort reasons (Table 7-8). -/
inductive AbortReason where
  | sessionEnd | parked | supply | line | cancelled
  deriving DecidableEq, Repr

/-- The result record (Table 7-8). The counts that no rule saturates have no bound here: DESIGN CHOICE (log 24). -/
structure ResultRecord where
  mode : DiscMode
  auto : Bool
  outcome : Option DiscOutcome
  reason : Option AbortReason
  namedNew : Nat
  restored : Nat
  duplicates : Nat
  phantoms : Nat
  calibFailures : Nat
  leftUnnamed : Nat
  notEntered : Nat
  legsFaulted : Nat
  departed : Nat
  segments : Nat
  incomplete : Nat
  largestPass : Nat
  generation : Option Nat
  deriving DecidableEq, Repr

/-- A junction of a level's junction list, with the named_at it held when listed (R126). -/
structure Listed where
  handle : Nat
  namedAt : Nat
  deriving DecidableEq, Repr

/-- A level record (Table 8-3); the cursor is `index` and `leg`. -/
structure Level where
  depth : Nat
  entry : Option RouteStep
  junctions : List Listed
  index : Nat
  leg : Nat
  walkDone : Bool
  deriving DecidableEq, Repr

/-- The pass record (Table 7-1), with the WALK_PASSES value kept for the segment (R113). -/
structure Pass where
  number : Nat
  kept : Nat
  overflowed : Bool
  failed : Bool
  outOfHandles : Bool
  leftUnnamed : Nat
  deriving DecidableEq, Repr

/-- Sources of a handle choice (R90). -/
inductive ChoiceSource where
  | pin | memory | dynamic | fallback
  deriving DecidableEq, Repr

/-- A handle choice that gives a handle (R90). -/
structure Choice where
  handle : Nat
  source : ChoiceSource
  restores : Bool
  expected : Option Byte
  conflict : Bool
  mismatch : Bool
  deriving DecidableEq, Repr

/-- A calibration owed to an entry just named (R111). -/
structure CalibDue where
  handle : Nat
  namedAt : Nat
  deriving DecidableEq, Repr

/-- The leaf record (Table 7-4): the round's 11 digits and the final digits left after the one in hand; the stamp in hand; its
ECHO tries and limit (absent before its first ECHO); the nonces to name (absent before its last try) and whether that try
showed two or more (R108); the choice of the member in hand, its nonce being the head of the nonces; whether the next choice
starts at step 3 with PIN_KIND_MISMATCH (R94); the calibration owed (R111). -/
structure Leaf where
  digits : List Nibble
  remaining : List Nibble
  stamp : Stamp
  tries : Nat
  tryLimit : Option Nat
  nonces : Option (List Nat)
  twins : Bool
  choice : Option Choice
  mismatch : Bool
  calib : Option CalibDue
  deriving DecidableEq, Repr

/-- Discovery steps (Table 7-2). -/
inductive DiscStep where
  | hail | call | echo | naming | pendingDrop | calibration | opening | returnCheck
  deriving DecidableEq, Repr

/-- The discovery engine (Table 7-1). The stacks have their top at the head; a frame of the prefix stack is its digits. `next`
is the step decided for the next grant (R97); `cancelled` is a CANCEL taken while the step in hand runs (R117). -/
structure Disc where
  state : DiscState
  origin : Option Origin
  mode : Option DiscMode
  waiting : Bool
  lineOpenSeen : Bool
  levels : List Level
  frames : List (List Nibble)
  pass : Pass
  leaf : Option Leaf
  pendingDrop : Option Nat
  result : Option ResultRecord
  abandoned : Bool
  next : Option DiscStep
  cancelled : Bool
  deriving DecidableEq, Repr

/-! ### JOBQ (Tables 9-2, 9-5; the grant: R141 to R145, R10, R121) -/

/-- Job kinds with the arguments fixed at acceptance (Table 9-2, R140). -/
inductive JobKind where
  | exchange (payload : List Byte)
  | roll
  | calibrate (form : CalibForm) (mode : Option RoundMode) (ignoreInexact : Bool)
  | wake (train : Train) (clamped : Bool)
  | drop
  deriving DecidableEq, Repr

/-- A job (Table 9-2); `handle` and `namedAt` are 0 for WAKE. -/
structure Job where
  tag : Byte
  kind : JobKind
  urgent : Bool
  handle : Nat
  namedAt : Nat
  deriving DecidableEq, Repr

/-- Sweep phases (Table 9-5). -/
inductive SweepPhase where
  | rolling | resting | ending
  deriving DecidableEq, Repr

/-- The sweep (Table 9-5); its rest timer runs in ms. Pass changes have no bound here: DESIGN CHOICE (log 46). -/
structure Sweep where
  tag : Byte
  count : Nat
  stopOnChange : Bool
  interval : Nat
  clamped : Bool
  passes : Nat
  position : Nat
  passChanges : Nat
  totalChanges : Nat
  phase : SweepPhase
  rest : Timer
  rolled : Bool
  deriving DecidableEq, Repr

/-- What a route switch is made for. -/
inductive SwitchUse where
  | job | sweep | restore | opening | closing
  deriving DecidableEq, Repr

/-- A route switch in progress (R121): the length of the common prefix, the kept STEP_RETRIES and LEG_SETTLE_MS, the retries
used by the leg exchange in hand (R122), the leg settle (ms) and whether it ended during SUSPECT (R125), the status byte of
the last leg opened, and whether an unanswered LEG_CLOSE departed a junction (R123). -/
structure Switch where
  purpose : SwitchUse
  target : Route
  common : Nat
  retries : Nat
  settleMs : Nat
  used : Nat
  settle : Timer
  resume : Bool
  status : Option Nat
  closeDeparted : Bool
  deriving DecidableEq, Repr

/-- Why a naming step sends a DROP (R109, R94). -/
inductive DropCause where
  | failed | withdrawn
  deriving DecidableEq, Repr

/-- The work of a discovery step under its grant: the STEP_RETRIES read at its start and the retries used by the operation in
hand; the frame a CALL round holds (R103); the values a naming step keeps (R107) and its DROP. -/
structure DiscWork where
  step : DiscStep
  retries : Nat
  used : Nat
  frame : List Nibble
  nameRetries : Nat
  nameUsed : Nat
  autoCalib : Bool
  dropping : Option DropCause
  deriving DecidableEq, Repr

/-- The holder of the line with its work: a job with the EXCHANGE_RETRIES it keeps and the retries used (R144, R145); a
discovery step; a sweep roll of a handle; the keepalive. -/
inductive Work where
  | job (job : Job) (retries used : Nat)
  | disc (work : DiscWork)
  | sweep (handle retries used : Nat)
  | keepalive
  deriving DecidableEq, Repr

/-- A grant: the work, the route switch in progress, and the operation SUSPECT tainted, to be dealt with at the return (R10). -/
structure Grant where
  work : Work
  switch : Option Switch
  tainted : Option LineOp
  deriving DecidableEq, Repr

/-- The job queue and the arbiter (R138, R141); lanes with their head first. -/
structure Jobq where
  urgent : List Job
  normal : List Job
  sweep : Option Sweep
  grant : Option Grant
  deriving DecidableEq, Repr

/-! ### LINK (Table 10-1) -/

/-- The result codes (Table 11-6). -/
inductive Result where
  | ok | clamped | deferred | busy | notReady | queueFull | unknownHandle | staleHandle | notLive | routeFail | legFault
  | noReply | erasure | checkError | badReply | disturbed | lineFault | supplyOff | sessionLost | parked | cancelled
  | tooLate | notFound | handleTaken | pinClash | pinFull | live | liveBelow | badValue | badRequest | tagInUse
  | frameCheck | calibFail | restarted | complete | incomplete | aborted
  deriving DecidableEq, Repr

/-- A reply that holds a slot (R162): its KIND and TAG bytes, result and payload. -/
structure Reply where
  kind : Byte
  tag : Byte
  result : Result
  payload : List Byte
  deriving DecidableEq, Repr

/-- An outstanding request (R161): its tag and kind byte. -/
structure Request where
  tag : Byte
  kind : Byte
  deriving DecidableEq, Repr

/-- Causes of a session end that a MATE notice names (R12). -/
inductive EndCause where
  | filterExpiry | breakTaken | restart
  deriving DecidableEq, Repr

/-- Causes of a SUPPLY notice (R26). -/
inductive SupplyCause where
  | tripHold | tripRun | park
  deriving DecidableEq, Repr

/-- What a LINE notice names as in flight (R47). -/
inductive InFlight where
  | nothing | hail | wake | keepalive
  | verb (code : Nat)
  deriving DecidableEq, Repr

/-- Causes of a ROSTER notice (R78, R153). -/
inductive RosterCause where
  | cascade | sweep
  deriving DecidableEq, Repr

/-- The six notices with their content (R163, Table 11-11). A MATE notice with a cause is an END, without one a START. -/
inductive Notice where
  | mate (cause : Option EndCause) (state : MateState) (inputs : InputSet)
  | supply (state : SupplyState) (parked : Bool) (cause : SupplyCause) (duty departed : Nat)
  | discoveryDone (record : ResultRecord)
  | roster (cause : RosterCause) (generation count junction leg : Nat)
  | line (cleared : Bool) (inFlight : InFlight) (route : Route)
  | misaligned (inputs : InputSet)
  deriving DecidableEq, Repr

/-- Receiver states (Table 10-1). -/
inductive RxState where
  | hunt | header | payload | check
  deriving DecidableEq, Repr

/-- The frame on TXD (R162). -/
inductive TxFrame where
  | reply (reply : Reply)
  | notice (notice : Notice)
  deriving DecidableEq, Repr

/-- The settings table (Table 10-4). -/
structure Settings where
  mateDebounceMs : Nat
  breakFilterMs : Nat
  rampMs : Nat
  holdMs : Nat
  settleMs : Nat
  beat : Nat
  wakeCount : Nat
  wakeLow : Nat
  wakeHigh : Nat
  keepaliveMs : Nat
  answerWait : Nat
  nonceTries : Nat
  walkPasses : Nat
  nameRetries : Nat
  stepRetries : Nat
  exchangeRetries : Nat
  maxDepth : Nat
  legSettleMs : Nat
  missLimit : Nat
  driftLimit : Nat
  roundMode : RoundMode
  dynBase : Nat
  autoDiscover : Bool
  autoCalibrate : Bool
  deriving DecidableEq, Repr

/-- The link port (Table 10-1). `frame` holds the bytes after SYNC; `replies` are the holding slots, oldest first, the one on
TXD included; `outstanding` are the reserved slots. -/
structure Link where
  baud : Nat
  rx : RxState
  frame : List Byte
  gap : Timer
  replies : List Reply
  outstanding : List Request
  notices : List Notice
  settings : Settings
  deferred : Bool
  tx : Option TxFrame
  restarting : Bool
  deriving DecidableEq, Repr

/-! ### The part -/

/-- The state of the part, and the queue of commands that wait. `resetHeld`: RESET_N is held asserted. -/
structure State where
  resetHeld : Bool
  mmon : Mmon
  ssw : Ssw
  line : Line
  rate : Rate
  rstr : Rstr
  pins : List Pin
  disc : Disc
  jobq : Jobq
  link : Link
  pending : List Instr
  deriving DecidableEq, Repr

/-- Faults: the spec names no behaviour that stops the part, so there is none (log 27). -/
inductive Fault where
  deriving DecidableEq, Repr

/-- Refusals. -/
inductive Refusal where
  /-- Raised by exec for a row that has no meaning yet; safe. No arm of exec raises it. -/
  | notModelled (mnemonic : String)
  deriving DecidableEq, Repr

/-- The outcome of one step. -/
abbrev Out := Host.Outcome State Fault Refusal

/-! ### One block replaced -/

def State.withMmon (s : State) (m : Mmon) : State := { s with mmon := m }
def State.withSsw (s : State) (w : Ssw) : State := { s with ssw := w }
def State.withLine (s : State) (l : Line) : State := { s with line := l }
def State.withRate (s : State) (r : Rate) : State := { s with rate := r }
def State.withRstr (s : State) (r : Rstr) : State := { s with rstr := r }
def State.withPins (s : State) (p : List Pin) : State := { s with pins := p }
def State.withDisc (s : State) (d : Disc) : State := { s with disc := d }
def State.withJobq (s : State) (q : Jobq) : State := { s with jobq := q }
def State.withLink (s : State) (k : Link) : State := { s with link := k }

/-! ### Reset values -/

/-- The defaults of Table 10-4. -/
def Settings.default : Settings where
  mateDebounceMs := 50
  breakFilterMs := 2
  rampMs := 20
  holdMs := 5
  settleMs := 10
  beat := Config.defaultBeat
  wakeCount := 16
  wakeLow := 4
  wakeHigh := 4
  keepaliveMs := 0
  answerWait := 7
  nonceTries := 3
  walkPasses := 3
  nameRetries := 2
  stepRetries := 2
  exchangeRetries := 1
  maxDepth := 4
  legSettleMs := 5
  missLimit := 3
  driftLimit := 8
  roundMode := .nearestEven
  dynBase := 33
  autoDiscover := true
  autoCalibrate := true

/-- No plug input made. -/
def InputSet.none : InputSet := ⟨false, false, false⟩

/-- MMON at a reset, before it evaluates its inputs (R13). -/
def Mmon.reset (inputs : InputSet) : Mmon :=
  { state := .opened, debounce := .none, breakFilter := .none, alignment := .none, misaligned := false, inputs }

/-- SSW at a reset (R15). -/
def Ssw.reset (ovl : Bool) : Ssw :=
  { state := .off, duty := 0, step := .none, hold := .none, trip := .none, dwell := Config.resetDwell, parked := false,
    cause := .hold, pwm := .none, ovl }

/-- The capture unit at a reset (R39). -/
def Capture.reset : Capture := ⟨0, 0, false⟩

/-- LINE at a reset (R28, R27); the count of operations cut short is no state of the part and goes on (log 32). -/
def Line.reset (tlHigh : Bool) (cuts : Nat) : Line :=
  { state := .off, beat := Config.defaultBeat, tickPhase := 0, startUp := .none, op := .none, capture := Capture.reset, cuts,
    route := [], keepalive := .none, keepaliveDue := false, watch := .none, sampler := .none, highWatch := .none, tlHigh }

/-- RSTR at a reset (R85). -/
def Rstr.reset : Rstr := { entries := [], generation := 0, reserved := 0, clampedSummary := false }

/-- The pass record cleared (R96). -/
def Pass.cleared : Pass :=
  { number := 0, kept := 0, overflowed := false, failed := false, outOfHandles := false, leftUnnamed := 0 }

/-- DISC at a reset (R96). -/
def Disc.reset : Disc :=
  { state := .idle, origin := .none, mode := .none, waiting := false, lineOpenSeen := false, levels := [], frames := [],
    pass := Pass.cleared, leaf := .none, pendingDrop := .none, result := .none, abandoned := false, next := .none,
    cancelled := false }

/-- JOBQ at a reset (R138). -/
def Jobq.reset : Jobq := { urgent := [], normal := [], sweep := .none, grant := .none }

/-- LINK at a reset, with the baud it is to have (Table 10-1, R170). -/
def Link.reset (baud : Nat) : Link :=
  { baud, rx := .hunt, frame := [], gap := .none, replies := [], outstanding := [], notices := [],
    settings := Settings.default, deferred := false, tx := .none, restarting := false }

/-- The part right after a power-on whose RESET_N has been released, no tool coupled, straps 00 (R13, R15, R28, R48, R85, R86,
R96, R138, R157, R170). The levels of the pins are DESIGN CHOICES (log 7, log 8). -/
def State.reset : State where
  resetHeld := false
  mmon := Mmon.reset InputSet.none
  ssw := Ssw.reset false
  line := Line.reset false 0
  rate := ⟨.none⟩
  rstr := Rstr.reset
  pins := []
  disc := Disc.reset
  jobq := Jobq.reset
  link := Link.reset 115200
  pending := []

end Sys2Proof.Machine
end

