-- ==== Sys2Proof/Machine/Flags.lean ====
section
/-! DEFINITION. Numeric codes and packed bits: the kind byte, result and state codes, and the records the part sends
(Tables 11-5 to 11-11, R171), as bytes. -/

namespace Sys2Proof.Machine

/-- A set bit as a number. -/
def bit (b : Bool) : Nat := if b then 1 else 0

/-! ### The kind byte (Table 11-5) -/

/-- The class code of a kind byte: bits 1..0 (R64). -/
def kindClass (k : Byte) : Nat := k.toNat % 4

/-- A kind reads JUNCTION when its class code is 2 (R64). -/
def kindIsJunction (k : Byte) : Bool := kindClass k == 2

/-- The leg count of a JUNCTION: its leg field plus 1 (R64). -/
def kindLegs (k : Byte) : Nat := k.toNat / 4 % 4 + 1

/-! ### Codes -/

/-- Table 11-6. -/
def Result.code : Result → Byte
  | .ok => 0x00 | .clamped => 0x01 | .deferred => 0x02 | .busy => 0x03 | .notReady => 0x04 | .queueFull => 0x05
  | .unknownHandle => 0x06 | .staleHandle => 0x07 | .notLive => 0x08 | .routeFail => 0x09 | .legFault => 0x0A
  | .noReply => 0x0B | .erasure => 0x0C | .checkError => 0x0D | .badReply => 0x0E | .disturbed => 0x0F
  | .lineFault => 0x10 | .supplyOff => 0x11 | .sessionLost => 0x12 | .parked => 0x13 | .cancelled => 0x14
  | .tooLate => 0x15 | .notFound => 0x16 | .handleTaken => 0x17 | .pinClash => 0x18 | .pinFull => 0x19
  | .live => 0x1A | .liveBelow => 0x1B | .badValue => 0x1C | .badRequest => 0x1D | .tagInUse => 0x1E
  | .frameCheck => 0x1F | .calibFail => 0x20 | .restarted => 0x21 | .complete => 0x22 | .incomplete => 0x23
  | .aborted => 0x24

/-- Table 11-8, offset 0. -/
def MateState.code : MateState → Nat
  | .opened => 0 | .partialMate => 1 | .qualifying => 2 | .mated => 3 | .suspect => 4

/-- Table 11-8, offset 2. -/
def SupplyState.code : SupplyState → Nat
  | .off => 0 | .ramping => 1 | .holding => 2 | .on => 3 | .cycling => 4 | .tripped => 5

/-- Table 11-8, offset 4 bit 1. -/
def TripCause.code : TripCause → Nat
  | .hold => 0 | .run => 1

/-- Table 11-8, offset 5. -/
def LineState.code : LineState → Nat
  | .off => 0 | .idle => 1 | .busy => 2 | .faulted => 3

/-- Table 11-8, offset 16. -/
def DiscState.code : DiscState → Nat
  | .idle => 0 | .armed => 1 | .walking => 2 | .resolving => 3 | .measuring => 4 | .opening => 5 | .returning => 6
  | .restoring => 7

/-- Table 11-8, offset 18: NONE while the record is empty or its discovery runs (R96). -/
def DiscOutcome.code : Option DiscOutcome → Nat
  | none => 0 | some .complete => 1 | some .incomplete => 2 | some .aborted => 3

/-- Table 11-9, offset 3. -/
def AbortReason.code : Option AbortReason → Nat
  | none => 0 | some .sessionEnd => 1 | some .parked => 2 | some .supply => 3 | some .line => 4 | some .cancelled => 5

/-- Table 11-9, offset 0. -/
def DiscMode.code : DiscMode → Nat
  | .rescan => 0 | .full => 1 | .clean => 2

/-- Section 11.4: entry states. -/
def EntryState.code : EntryState → Nat
  | .named => 0 | .calibrated => 1 | .silent => 2 | .departed => 3

/-- Section 11.4: drift, absent 0. -/
def Drift.code : Option Drift → Nat
  | none => 0 | some .steady => 1 | some .faster => 2 | some .slower => 3

/-- Table 11-4: verb codes; none for a hail or a train. -/
def OpKind.verb : OpKind → Option Nat
  | .call _ => some 1 | .echo _ => some 2 | .name _ _ _ => some 3 | .measure => some 4 | .roll => some 5
  | .legOpen _ => some 6 | .legClose _ => some 7 | .drop => some 8 | .data _ => some 9
  | .hail | .startUp _ | .wake _ | .keepalive _ => none

/-- What a LINE notice names for an operation in flight (R47). -/
def OpKind.inFlight : OpKind → InFlight
  | .hail => .hail
  | .startUp _ | .wake _ => .wake
  | .keepalive _ => .keepalive
  | .call _ => .verb 1 | .echo _ => .verb 2 | .name _ _ _ => .verb 3 | .measure => .verb 4 | .roll => .verb 5
  | .legOpen _ => .verb 6 | .legClose _ => .verb 7 | .drop => .verb 8 | .data _ => .verb 9

/-- Table 11-11: LINE notice, in flight. -/
def InFlight.code : InFlight → Nat
  | .nothing => 0 | .hail => 1 | .wake => 2 | .keepalive => 3 | .verb c => c + 0x10

/-- Table 11-11: notice kinds. -/
def Notice.kind : Notice → Byte
  | .mate _ _ _ => 0xF0 | .supply _ _ _ _ _ => 0xF1 | .discoveryDone _ => 0xF2 | .roster _ _ _ _ _ => 0xF3
  | .line _ _ _ => 0xF4 | .misaligned _ => 0xF5

/-! ### Records -/

/-- The input set as STATUS offset 1, bits 0..2 (Table 11-8). -/
def InputSet.code (i : InputSet) : Nat := bit i.presA + 2 * bit i.presB + 4 * bit i.lock

/-- A route as its length and 4 steps, padded with 00h (Tables 11-7, 11-8). -/
def routeBytes (r : Route) : List Byte :=
  let steps := r.flatMap (fun st => [byteOf st.junction, byteOf st.leg])
  byteOf r.length :: (steps ++ List.replicate (8 - steps.length) 0#8)

/-- The entry record (Table 11-7), 24 bytes. -/
def Entry.bytes (e : Entry) : List Byte :=
  byteOf e.handle :: stampBytes e.stamp ++
  [e.kind,
   byteOf (e.state.code + 4 * Drift.code e.drift + 16 * bit e.trim.isSome + 32 * bit e.nonce.isSome
     + 64 * bit e.clamped + 128 * bit e.oddAnswer)] ++
  word16 e.namedAt ++
  [BitVec.ofInt 8 (e.trim.getD 0),
   byteOf (e.misses % 16 + 16 * e.nonce.getD 0),
   byteOf e.errors,
   byteOf (bit e.duplicate + 2 * bit e.pinConflict + 4 * bit e.kindMismatch + 8 * bit e.notEntered
     + 16 * bit (e.faultedLegs.contains 1) + 32 * bit (e.faultedLegs.contains 2)
     + 64 * bit (e.faultedLegs.contains 3) + 128 * bit (e.faultedLegs.contains 4))] ++
  routeBytes e.path

/-- The discovery result record (Table 11-9), 18 bytes. -/
def ResultRecord.bytes (r : ResultRecord) : List Byte :=
  [byteOf r.mode.code, byteOf (bit (!r.auto)), byteOf (DiscOutcome.code r.outcome), byteOf (AbortReason.code r.reason),
   byteOf r.namedNew, byteOf r.restored, byteOf r.duplicates, byteOf r.phantoms, byteOf r.calibFailures,
   byteOf r.leftUnnamed, byteOf r.notEntered, byteOf r.legsFaulted, byteOf r.departed, byteOf r.segments,
   byteOf r.incomplete, byteOf r.largestPass] ++ word16 (r.generation.getD 0)

/-- A calibration result (Table 4-3, R54), with the entry's state and marks after it (Table 11-10). -/
structure CalibResult where
  ticks : Nat
  edges : Nat
  choices : CalibChoices
  trim : Option Int
  inexact : Bool
  clamped : Bool
  delta : Option Int
  drift : Option Drift
  deriving DecidableEq, Repr

/-- The calibration result record (Table 11-10), 10 bytes; `e` is the entry after the calibration. The fields of an entry removed
during its MEASURE read 0, as absent ones do (R171, log 39), and so do the bits that the table does not name (log 47). -/
def CalibResult.bytes (c : CalibResult) (e : Option Entry) : List Byte :=
  word16 c.ticks ++
  [byteOf c.edges,
   byteOf (c.choices.mode.code + 4 * bit (c.choices.form == .probe) + 8 * bit c.inexact + 16 * bit c.clamped
     + 32 * bit c.delta.isSome + 64 * bit c.trim.isSome),
   BitVec.ofInt 8 (c.trim.getD 0)] ++
  word16 (BitVec.ofInt 16 (c.delta.getD 0)).toNat ++
  [byteOf (Drift.code c.drift), byteOf ((e.map (fun e => e.state.code)).getD 0),
   byteOf ((e.map (fun e => bit e.clamped + 2 * bit e.oddAnswer)).getD 0)]

/-- Notice payloads (Table 11-11). Bits of a byte to which no table gives a meaning read 0; so does bit 3 of the input set in a MATE and
a MISALIGNED notice, which is misaligned-reported in STATUS and no part of the set: DESIGN CHOICE (log 47). -/
def Notice.payload : Notice → List Byte
  | .mate cause st i =>
    [byteOf (bit cause.isSome),
     byteOf (match cause with | none => 0 | some .filterExpiry => 1 | some .breakTaken => 2 | some .restart => 3),
     byteOf st.code, byteOf i.code]
  | .supply st parked cause duty departed =>
    [byteOf st.code, byteOf (bit parked), byteOf (match cause with | .tripHold => 0 | .tripRun => 1 | .park => 2),
     byteOf duty, byteOf departed]
  | .discoveryDone r => r.bytes
  | .roster cause g count j leg =>
    byteOf (match cause with | .cascade => 0 | .sweep => 1) :: word16 g ++ [byteOf count, byteOf j, byteOf leg]
  | .line cleared f r => [byteOf (bit cleared), byteOf f.code] ++ routeBytes r
  | .misaligned i => [byteOf i.code]

/-- A reply frame (R162): LEN counts the RESULT byte and the payload. -/
def Reply.frame (r : Reply) : List Byte := linkFrame (frameBody r.kind r.tag (r.result.code :: r.payload))

/-- A notice frame (R163): tag 0, no RESULT byte. -/
def Notice.frame (n : Notice) : List Byte := linkFrame (frameBody n.kind 0#8 n.payload)

/-- The bytes the transmitter sends back to back for the frame on TXD (R157). -/
def TxFrame.bytes : TxFrame → List Byte
  | .reply r => r.frame
  | .notice n => n.frame

/-- Free slots of the reply buffer: those neither reserved nor holding (R160). -/
def Link.freeSlots (k : Link) : Nat := Config.replySlots - (k.replies.length + k.outstanding.length)

/-- How many entries are in a state (R63). -/
def Rstr.count (r : Rstr) (st : EntryState) : Nat := (r.entries.filter (fun e => e.state == st)).length

/-- The STATUS payload (Table 11-8, R164), 34 bytes. Fields of an absent sweep read 0 (R171), and so do the bits that the table does not
name: DESIGN CHOICE (log 47). -/
def State.statusBytes (s : State) : List Byte :=
  [byteOf s.mmon.state.code, byteOf (s.mmon.inputs.code + 8 * bit s.mmon.misaligned),
   byteOf s.ssw.state.code, byteOf s.ssw.duty, byteOf (bit s.ssw.parked + 2 * s.ssw.cause.code),
   byteOf s.line.state.code, byteOf s.line.beat] ++
  routeBytes s.line.route ++
  [byteOf s.disc.state.code, byteOf (bit s.disc.waiting),
   byteOf (DiscOutcome.code (s.disc.result.bind (fun r => r.outcome)))] ++
  word16 s.rstr.generation ++
  [byteOf s.rstr.reserved, byteOf (s.rstr.count .named), byteOf (s.rstr.count .calibrated), byteOf (s.rstr.count .silent),
   byteOf (s.rstr.count .departed), byteOf (bit s.rstr.clampedSummary + 2 * bit s.link.deferred),
   byteOf s.jobq.urgent.length, byteOf s.jobq.normal.length, byteOf (bit s.jobq.sweep.isSome)] ++
  word16 ((s.jobq.sweep.map (fun w => w.passes)).getD 0) ++
  [byteOf ((s.jobq.sweep.map (fun w => w.position)).getD 0), byteOf s.link.freeSlots]

/-! ### Pins the part drives -/

/-- What SUP_EN does (R15, R17): off, switched on for the first 16 × k ticks of each 256-tick period, or held on. -/
inductive Gate where
  | off
  | switched (onTicks : Nat)
  | held
  deriving DecidableEq, Repr

/-- SUP_EN (R15, R17). -/
def State.supEn (s : State) : Gate :=
  match s.ssw.state with
  | .ramping | .holding => .switched (16 * s.ssw.pwm.getD 0)
  | .on => .held
  | .off | .cycling | .tripped => .off

/-- The pull-up on TL is enabled while the supply is ON (R20). -/
def State.pullUp (s : State) : Bool := s.ssw.state == .on

/-- RDY: at least two slots free, and RESET_N not held (R160, R157). -/
def State.rdy (s : State) : Bool := !s.resetHeld && decide (2 ≤ s.link.freeSlots)

/-- The frame bytes on TXD; empty at the idle level (R157). -/
def State.txd (s : State) : List Byte := (s.link.tx.map TxFrame.bytes).getD []

end Sys2Proof.Machine
end

