-- ==== Sys2Proof/Machine/Operands.lean ====
section
/-! DEFINITION. How the lows that a DONE command carries are read: the capture unit (R39), the windows of reply cells and slots
(R59 to R61), the decoding of replies (R40, R41), the judging of a calibration (R49 to R55) and the turnaround gap (R62). -/

namespace Sys2Proof.Machine

/-- A value brought into a range: raised to its lowest or lowered to its highest value (R140, R166). -/
def bring (lo hi v : Nat) : Nat := min hi (max lo v)

/-! ### The capture unit -/

/-- The capture unit restarted at the falling edge of a cue: 0 ticks, 1 edge, the saturated mark clear (R39). -/
def Capture.restart : Capture := { ticks := 0, edges := 1, saturated := false }

/-- The capture unit after some more ticks of low and some more falling edges (R39): the level count stops at 65535 and sets the
saturated mark, the edge count stops at 15. -/
def Capture.count (c : Capture) (ticks edges : Nat) : Capture :=
  { ticks := min (c.ticks + ticks) 65535, edges := min (c.edges + edges) 15
    saturated := c.saturated || decide (65535 ≤ c.ticks + ticks) }

/-- The capture unit's values at the end of a low, whose edges count its cue's own (R39). -/
def LowSample.capture (l : LowSample) : Capture := Capture.restart.count l.ticks (l.edges - 1)

/-- A bare cue: the part's own low of one beat (R60). It stands for a cell or slot the command does not list (log 5). -/
def bareCue (beat : Nat) : Capture := Capture.restart.count beat 0

/-! ### Reply cells (R59, R60) -/

/-- Reply-cell classes (Table 4-8, R60). -/
inductive CellClass where
  | runt | zero | erased | one | stretch | split
  deriving DecidableEq, Repr

/-- "q ≥ k" as the exact comparison of R59. -/
def reaches (beat : Nat) (trim : Int) (low k : Nat) : Bool :=
  decide ((k : Int) * beat * (512 + trim) ≤ (low : Int) * 2048)

/-- The class of a reply cell (R59, R60). -/
def cellClass (beat : Nat) (trim : Int) (c : Capture) : CellClass :=
  if 2 ≤ c.edges then .split
  else if c.saturated then .stretch
  else if reaches beat trim c.ticks 20 then .stretch
  else if reaches beat trim c.ticks 13 then .one
  else if reaches beat trim c.ticks 11 then .erased
  else if reaches beat trim c.ticks 6 then .zero
  else .runt

/-! ### Slots (R61) -/

/-- Slot classes (R61). -/
inductive SlotClass where
  | occupied | faint | empty
  deriving DecidableEq, Repr

/-- The class of a slot, on the part's beat alone (R61). -/
def slotClass (beat : Nat) (c : Capture) : SlotClass :=
  if c.saturated then .occupied
  else if 2 * beat ≤ c.ticks then .occupied
  else if 5 * beat ≤ 4 * c.ticks then .faint
  else .empty

/-- The captures of the 16 slots (R35); slots not listed are bare cues (log 5). -/
def roundCaptures (beat : Nat) (slots : List LowSample) : List Capture :=
  (slots.map LowSample.capture ++ List.replicate 16 (bareCue beat)).take 16

/-- The slot classes of a round (R35). -/
def roundClasses (beat : Nat) (slots : List LowSample) : List SlotClass :=
  (roundCaptures beat slots).map (slotClass beat)

/-- The answered slots of a round, ascending: OCCUPIED and FAINT alike (R103, R61). -/
def answeredSlots (beat : Nat) (slots : List LowSample) : List Nat :=
  (List.range 16).filter (fun i => (roundClasses beat slots)[i]? != some SlotClass.empty)

/-- The capture unit after a round: the values of its last slot (R39). -/
def roundLast (beat : Nat) (slots : List LowSample) : Capture :=
  ((roundCaptures beat slots).getLast?).getD (bareCue beat)

/-- A hail's result: PRESENT when a low inside the window reaches BEAT / 2 ticks (R31). -/
def hailPresent (beat : Nat) (lows : List Nat) : Bool := lows.any (fun l => decide (beat ≤ 2 * l))

/-! ### Replies (R40, R41) -/

/-- Decode outcomes (R41). -/
inductive DecodeFail where
  | noReply | erasure | checkError | badReply
  deriving DecidableEq, Repr

/-- The result a job is answered with for a decode outcome (R145). -/
def DecodeFail.result : DecodeFail → Result
  | .noReply => .noReply | .erasure => .erasure | .checkError => .checkError | .badReply => .badReply

/-- A bit list, least significant first, as a byte (R40). -/
def bitsByte (bs : List Bool) : Byte := byteOf (bs.foldr (fun b n => bit b + 2 * n) 0)

/-- Reading `n` cells into bits (R40, R41): the bits read, or the outcome that ends the reply; the cells left; and the capture
of the last cell clocked. `first`: the next cell is the reply's first. -/
def readBits (beat : Nat) (trim : Int) : Nat → Bool → List Capture → Capture →
    Except DecodeFail (List Bool) × List Capture × Capture
  | 0, _, cells, last => (.ok [], cells, last)
  | n + 1, first, cells, _ =>
    let c := cells.headD (bareCue beat)
    let rest := cells.tail
    match cellClass beat trim c with
    | .zero =>
      match readBits beat trim n false rest c with
      | (.ok bs, r, l) => (.ok (false :: bs), r, l)
      | (.error e, r, l) => (.error e, r, l)
    | .one =>
      match readBits beat trim n false rest c with
      | (.ok bs, r, l) => (.ok (true :: bs), r, l)
      | (.error e, r, l) => (.error e, r, l)
    | .runt => (.error (if first then .noReply else .erasure), rest, c)
    | .erased | .stretch | .split => (.error .erasure, rest, c)

/-- A bit list cut into bytes, `n` of them (R40). -/
def bitsBytes : Nat → List Bool → List Byte
  | 0, _ => []
  | n + 1, bs => bitsByte (bs.take 8) :: bitsBytes n (bs.drop 8)

/-- A decoded reply or its outcome, with the capture unit's values after it. -/
structure Decoded where
  reply : Except DecodeFail (List Byte)
  capture : Capture

/-- The reply bytes followed by their check: the bytes when the check matches, CHECK_ERROR otherwise (R38, R41). -/
def checkReply (bytes : List Byte) (check : Byte) : Except DecodeFail (List Byte) :=
  if crc8 bytes = check then .ok bytes else .error .checkError

/-- The reply of NAME, ROLL, LEG_OPEN and LEG_CLOSE: one byte and its check, 16 cells (R40, R41). -/
def decodeByteReply (beat : Nat) (trim : Int) (cells : List LowSample) : Decoded :=
  match readBits beat trim 16 true (cells.map LowSample.capture) (bareCue beat) with
  | (.error e, _, l) => ⟨.error e, l⟩
  | (.ok bs, _, l) => ⟨checkReply [bitsByte (bs.take 8)] (bitsByte (bs.drop 8)), l⟩

/-- The reply of DATA: a length byte of at most 32, that many bytes and their check (R40, R41). -/
def decodeDataReply (beat : Nat) (trim : Int) (cells : List LowSample) : Decoded :=
  match readBits beat trim 8 true (cells.map LowSample.capture) (bareCue beat) with
  | (.error e, _, l) => ⟨.error e, l⟩
  | (.ok bs, rest, l) =>
    let n := (bitsByte bs).toNat
    if Config.dataRoom < n then ⟨.error .badReply, l⟩
    else
      match readBits beat trim (8 * n + 8) false rest l with
      | (.error e, _, l') => ⟨.error e, l'⟩
      | (.ok more, _, l') =>
        ⟨checkReply (bitsByte bs :: bitsBytes n more) (bitsByte (more.drop (8 * n))), l'⟩

/-! ### Calibration (R49 to R55) -/

/-- The three conditions on a measurement (R49). -/
def calibValid (beat : Nat) (c : Capture) : Bool :=
  decide (c.edges = 1 ∧ c.saturated = false ∧ 32 * beat ≤ c.ticks ∧ c.ticks ≤ 128 * beat)

/-- The numerator of the trim quotient, over the denominator BEAT (R50). -/
def quotientNum (beat ticks : Nat) : Int := ((ticks : Int) - 64 * beat) * 8

/-- Rounding the quotient N / D, D positive, by a mode (R51, Table 4-2). -/
def roundQuotient (mode : RoundMode) (n d : Int) : Int :=
  let q := n / d
  let r := n % d
  match mode with
  | .nearestEven =>
    if 2 * r < d then q else if d < 2 * r then q + 1 else if q % 2 = 0 then q else q + 1
  | .down => q
  | .up => if r = 0 then q else q + 1
  | .towardZero => if r = 0 ∨ 0 ≤ n then q else q + 1

/-- Clamping to the trim range (R53). -/
def clampTrim (t : Int) : Int := if 127 < t then 127 else if t < -128 then -128 else t

/-- The drift a difference sets (R55). -/
def driftOf (limit : Nat) (delta : Int) : Drift :=
  if (limit : Int) < delta then .slower else if delta < -(limit : Int) then .faster else .steady

/-- Judging a calibration low (R49 to R54): `stored` is the entry's trim at that moment, `limit` DRIFT_LIMIT. -/
def judge (beat : Nat) (ch : CalibChoices) (c : Capture) (stored : Option Int) (limit : Nat) : CalibResult :=
  if calibValid beat c then
    let n := quotientNum beat c.ticks
    let t := roundQuotient ch.mode n beat
    let k := clampTrim t
    let delta := stored.map (fun old => k - old)
    { ticks := c.ticks, edges := c.edges, choices := ch, trim := some k,
      inexact := decide (n % (beat : Int) ≠ 0) && !ch.ignoreInexact,
      clamped := decide (k ≠ t), delta,
      drift := if ch.form = .record then delta.map (driftOf limit) else none }
  else
    { ticks := c.ticks, edges := c.edges, choices := ch, trim := none, inexact := false, clamped := false, delta := none,
      drift := none }

/-- What a calibration does to the entry it measured (R55 to R58). -/
def Entry.calibrated (e : Entry) (c : CalibResult) : Entry :=
  match c.trim with
  | none => e
  | some t =>
    let e := { e with clamped := e.clamped || c.clamped }
    if c.choices.form = .record then
      { e with
        trim := some t
        drift := if c.drift.isSome then c.drift else e.drift
        state := if e.state = .named then .calibrated else e.state }
    else e

/-! ### The turnaround gap (R62) -/

/-- The turnaround gap in ticks (R62). -/
def gapTicks (beat answerWait : Nat) (trim : Int) : Nat :=
  beat * (answerWait + 1) * (512 + trim.toNat) / 512

/-! ### Request frames (R38, Table 11-4) -/

/-- A digit list as stamp digits 0.., the rest 0 (R171). -/
def stampOfDigits (ds : List Nibble) : Stamp :=
  BitVec.ofNat 48 ((ds ++ List.replicate (12 - ds.length) 0#4).foldl (fun n d => 16 * n + d.toNat) 0)

/-- The arguments of a verb (Table 11-4). -/
def OpKind.args : OpKind → List Byte
  | .call ds => byteOf ds.length :: stampBytes (stampOfDigits ds)
  | .echo s => stampBytes s
  | .name s n h => stampBytes s ++ [byteOf n, byteOf h]
  | .legOpen g | .legClose g => [byteOf g]
  | .data p => byteOf p.length :: p
  | .measure | .roll | .drop | .hail | .startUp _ | .wake _ | .keepalive _ => []

/-- The line request frame: audience, verb, arguments and check (R38); empty for a hail or a train. -/
def lineFrame (audience : Nat) (k : OpKind) : List Byte :=
  match k.verb with
  | none => []
  | some v =>
    let body := byteOf audience :: byteOf v :: k.args
    body ++ [crc8 body]

/-! ### What LINE drives (R31, R32, R37) -/

/-- A low that LINE drives and the release after it, both in beats. -/
structure Symbol where
  low : Nat
  high : Nat
  deriving DecidableEq, Repr

/-- The attention that begins a request frame (R32). -/
def attention : Symbol := ⟨12, 4⟩

/-- A request cell: 6 beats, of which 2 are low for a 0 bit and 4 for a 1 bit (R32). -/
def requestCell (b : Bool) : Symbol := if b then ⟨4, 2⟩ else ⟨2, 4⟩

/-- A byte as eight request cells, least significant bit first (R32). -/
def requestByte (b : Byte) : List Symbol := (List.range 8).map (fun i => requestCell (b.getLsbD i))

/-- A request frame on the line: the attention, then the bytes in frame order (R32). -/
def requestSymbols (frame : List Byte) : List Symbol := attention :: frame.flatMap requestByte

/-- How long some symbols last, in beats. -/
def symbolBeats (ss : List Symbol) : Nat := (ss.map (fun y => y.low + y.high)).sum

/-- The cycles of a train (R37). -/
def Train.symbols (t : Train) : List Symbol := List.replicate t.count ⟨t.low, t.high⟩

/-- What LINE drives for an operation before its turnaround gap: a request frame (R32), a train (R37), or a hail with its presence
window of 8 beats (R31). The cues of the reply part, one beat each, follow the gap (R34 to R36). -/
def LineOp.symbols (op : LineOp) : List Symbol :=
  match op.kind with
  | .hail => [⟨48, 8⟩]
  | .startUp t | .wake t | .keepalive t => t.symbols
  | .call _ | .echo _ | .name _ _ _ | .measure | .roll | .legOpen _ | .legClose _ | .drop | .data _ => requestSymbols op.frame

/-- What LINE drives on TL for the operation in flight; nothing when there is none. -/
def State.tl (s : State) : List Symbol := (s.line.op.map LineOp.symbols).getD []

/-! ### An operation cut short (R8, R28, R44) -/

/-- The operation has a reply part whose lows the capture unit times (R34 to R36): a hail, a train and a DROP have none. -/
def OpKind.clocks : OpKind → Bool
  | .call _ | .echo _ | .name _ _ _ | .measure | .roll | .legOpen _ | .legClose _ | .data _ => true
  | .hail | .drop | .startUp _ | .wake _ | .keepalive _ => false

/-- What the capture unit keeps when an operation that clocks lows is cut short (R39): the values of its last low, which are free,
or the values it had when none of its cues had fallen (log 32). -/
def Line.cutCapture (l : Line) : Capture :=
  match Config.cutLow l.cuts with
  | some (ticks, edges) => Capture.restart.count ticks edges
  | none => l.capture

/-- LINE without its operation in flight, which ends tainted, LINE_FAULT or OFF: its result is discarded (R8, R28, R44). -/
def Line.cut (l : Line) : Line :=
  if l.op.any (fun op => op.kind.clocks) then { l with op := none, capture := l.cutCapture, cuts := l.cuts + 1 }
  else { l with op := none }

end Sys2Proof.Machine
end

