-- ==== Sys2Proof/Machine/Roster.lean ====
section
/-! DEFINITION. The roster's own rules (chapter 5), the pin table (chapter 6) and handle choice (R90 to R93), as operations on
`Rstr`, `Entry` and the pin list. -/

namespace Sys2Proof.Machine

/-! ### Entries -/

/-- Live: NAMED, CALIBRATED or SILENT (section 5.3). -/
def Entry.live (e : Entry) : Bool := e.state != .departed

/-- The entry is a junction by its stored kind (R64). -/
def Entry.isJunction (e : Entry) : Bool := kindIsJunction e.kind

/-- The path passes through the junction `h`. -/
def Entry.behind (h : Nat) (e : Entry) : Bool := e.path.any (fun st => st.junction == h)

/-- The path passes through leg `g` of the junction `h`. -/
def Entry.behindLeg (h g : Nat) (e : Entry) : Bool := e.path.any (fun st => st.junction == h && st.leg == g)

/-- The entry made DEPARTED, every other field kept (R75). -/
def Entry.depart (e : Entry) : Entry := { e with state := .departed }

/-- One failed line attempt: errors gain 1, held at 255 (R74). -/
def Entry.addError (e : Entry) : Entry := { e with errors := min (e.errors + 1) 255 }

/-- CLEAR_MARKS of the entry (R82). -/
def Entry.clearMarks (e : Entry) : Entry :=
  { e with clamped := false, oddAnswer := false, errors := 0, misses := 0 }

/-! ### The map -/

/-- The entry at a handle. -/
def Rstr.find (r : Rstr) (h : Nat) : Option Entry := r.entries.find? (fun e => e.handle == h)

/-- A handle that no entry holds and that is not reserved is free (R63). -/
def Rstr.free (r : Rstr) (h : Nat) : Bool := (r.find h).isNone && r.reserved != h

/-- The entry at a handle, the reserved handle finding none (R71). -/
def Rstr.lookup (r : Rstr) (h : Nat) : Option Entry := if r.reserved = h then none else r.find h

/-- One advance of the generation: from 65535 to 1 (R69). -/
def advance (g : Nat) : Nat := if g = 65535 then 1 else g + 1

/-- As many advances as entries changed (R70). -/
def advanceBy : Nat → Nat → Nat
  | 0, g => g
  | n + 1, g => advanceBy n (advance g)

/-- One entry changed in a field that does not advance the generation (R69). -/
def Rstr.update (r : Rstr) (h : Nat) (f : Entry → Entry) : Rstr :=
  { r with entries := r.entries.map (fun e => if e.handle = h then f e else e) }

/-- A new entry in handle order. -/
def insertEntry (e : Entry) : List Entry → List Entry
  | [] => [e]
  | x :: xs => if e.handle < x.handle then e :: x :: xs else x :: insertEntry e xs

/-- The live entries that meet a condition made DEPARTED, in handle order, with their number; the generation advances once for
each (R70, R75 to R77). -/
def Rstr.departWhere (r : Rstr) (p : Entry → Bool) : Rstr × Nat :=
  let n := (r.entries.filter (fun e => e.live && p e)).length
  ({ r with
     entries := r.entries.map (fun e => if e.live && p e then e.depart else e)
     generation := advanceBy n r.generation }, n)

/-- The entries that meet a condition removed, in handle order; the generation advances once for each (R70). -/
def Rstr.removeWhere (r : Rstr) (p : Entry → Bool) : Rstr :=
  { r with
    entries := r.entries.filter (fun e => !p e)
    generation := advanceBy (r.entries.filter p).length r.generation }

/-- The cascade of a junction's departure (R76): the junction and every entry behind it. -/
def Rstr.cascade (r : Rstr) (j : Nat) : Rstr × Nat :=
  r.departWhere (fun e => e.handle == j || e.behind j)

/-- Inserting a leg into an ascending list without repeats (R77). -/
def insertLeg (g : Nat) : List Nat → List Nat
  | [] => [g]
  | x :: xs => if g < x then g :: x :: xs else if g = x then x :: xs else x :: insertLeg g xs

/-- A leg reported FAULTED: added to the junction's faulted legs, and the entries behind it made DEPARTED (R77). -/
def Rstr.legCascade (r : Rstr) (j g : Nat) : Rstr × Nat :=
  (r.update j (fun e => { e with faultedLegs := insertLeg g e.faultedLegs })).departWhere (fun e => e.behindLeg j g)

/-- A leg reported CONNECTED or EMPTY leaves the faulted legs (R77). -/
def Rstr.legGood (r : Rstr) (j g : Nat) : Rstr :=
  r.update j (fun e => { e with faultedLegs := e.faultedLegs.filter (fun x => x != g) })

/-- An entry removed with every entry behind it when it is a junction (R79, R80, R94). -/
def Rstr.removeTree (r : Rstr) (h : Nat) : Rstr :=
  let tree := ((r.find h).map Entry.isJunction).getD false
  r.removeWhere (fun e => e.handle == h || (tree && e.behind h))

/-- A junction has a live entry behind it (R80, R144). -/
def Rstr.liveBehind (r : Rstr) (h : Nat) : Bool :=
  ((r.find h).map Entry.isJunction).getD false && r.entries.any (fun e => e.live && e.behind h)

/-- An answered roll of the entry at `h` by a kind byte (R72), with whether its state changed. -/
def Rstr.rollAnswered (r : Rstr) (h : Nat) (kind : Byte) : Rstr × Bool :=
  match r.find h with
  | none => (r, false)
  | some e =>
    let r := r.update h (fun e => { e with misses := 0, oddAnswer := e.oddAnswer || e.kind != kind })
    if e.state = .silent then
      ({ r.update h (fun e => { e with state := if e.trim.isSome then .calibrated else .named }) with
         generation := advance r.generation }, true)
    else (r, false)

/-- An unanswered roll of the entry at `h` (R73), with whether its state changed. -/
def Rstr.rollUnanswered (r : Rstr) (h limit : Nat) : Rstr × Bool :=
  match r.find h with
  | none => (r, false)
  | some e =>
    let m := min (e.misses + 1) 15
    let r := r.update h (fun e => { e with misses := m })
    if limit ≤ m ∧ (e.state = .named ∨ e.state = .calibrated) then
      ({ r.update h (fun e => { e with state := .silent }) with generation := advance r.generation }, true)
    else (r, false)

/-- The live entry with the lowest handle above a position (R151). -/
def Rstr.nextLive (r : Rstr) (position : Nat) : Option Entry :=
  r.entries.find? (fun e => e.live && decide (position < e.handle))

/-! ### The pin table (R86, R87) -/

/-- The pin for a stamp. -/
def pinFor (ps : List Pin) (s : Stamp) : Option Pin := ps.find? (fun p => p.stamp == s)

/-- The pin that holds a handle. -/
def pinAt (ps : List Pin) (h : Nat) : Option Pin := ps.find? (fun p => p.handle == h)

/-- A pin in handle order. -/
def insertPin (p : Pin) : List Pin → List Pin
  | [] => [p]
  | x :: xs => if p.handle < x.handle then p :: x :: xs else x :: insertPin p xs

/-- The table without the pin for a stamp. -/
def dropPin (ps : List Pin) (s : Stamp) : List Pin := ps.filter (fun p => p.stamp != s)

/-- The outcome of a PIN request by Table 6-2 (R87), with the table afterwards. A PIN of the stamp of a DEPARTED entry at that entry's
handle is no obstacle, also while a naming restores the entry: DESIGN CHOICE (log 41). -/
def pinRequest (ps : List Pin) (r : Rstr) (s : Stamp) (h : Nat) (k : Option Byte) : Result × List Pin :=
  if h = 0 ∨ Config.topHandle < h then (.badValue, ps)
  else if (pinAt ps h).any (fun p => p.stamp != s) then (.pinClash, ps)
  else if (r.find h).any (fun e => e.stamp != s) || r.reserved == h then (.handleTaken, ps)
  else if (pinFor ps s).isNone && decide (Config.pinRoom ≤ ps.length) then (.pinFull, ps)
  else (.ok, insertPin ⟨s, h, k⟩ (dropPin ps s))

/-! ### Handle choice (Table 6-3) -/

/-- The lowest free, unpinned handle among candidates given in ascending order (R93). -/
def lowestOpen (r : Rstr) (ps : List Pin) (hs : List Nat) : Option Nat :=
  hs.find? (fun h => r.free h && (pinAt ps h).isNone)

/-- Steps 3 to 5: dynamic, fallback, none (R93). -/
def chooseOpen (r : Rstr) (ps : List Pin) (dynBase : Nat) (conflict mismatch : Bool) : Option Choice :=
  match lowestOpen r ps (List.range' dynBase (Config.topHandle + 1 - dynBase)) with
  | some h => some ⟨h, .dynamic, false, none, conflict, mismatch⟩
  | none =>
    (lowestOpen r ps (List.range' 1 (dynBase - 1))).map (fun h => ⟨h, .fallback, false, none, conflict, mismatch⟩)

/-- The choice for a stamp (R90 to R93); `mismatch` starts it at step 3 with PIN_KIND_MISMATCH (R94). -/
def chooseHandle (r : Rstr) (ps : List Pin) (dynBase : Nat) (s : Stamp) (mismatch : Bool) : Option Choice :=
  if mismatch then chooseOpen r ps dynBase false true
  else
    match pinFor ps s with
    | some p =>
      if r.free p.handle then some ⟨p.handle, .pin, false, p.expected, false, false⟩
      else if (r.find p.handle).any (fun e => !e.live && e.stamp == s) then
        some ⟨p.handle, .pin, true, p.expected, false, false⟩
      else chooseOpen r ps dynBase true false
    | none =>
      match r.entries.find? (fun e => !e.live && e.stamp == s) with
      | some e => some ⟨e.handle, .memory, true, none, false, false⟩
      | none => chooseOpen r ps dynBase false false

/-! ### Naming (R66 to R68, R94, R108) -/

/-- The live entries that carry a stamp at another handle gain DUPLICATE (R66, R108). -/
def Rstr.markTwins (r : Rstr) (s : Stamp) (h : Nat) : Rstr :=
  { r with entries := r.entries.map (fun e =>
      if e.live && e.stamp == s && e.handle != h then { e with duplicate := true } else e) }

/-- A live entry carries the stamp at another handle (R108). -/
def Rstr.hasTwin (r : Rstr) (s : Stamp) (h : Nat) : Bool :=
  r.entries.any (fun e => e.live && e.stamp == s && e.handle != h)

/-- Creating the entry of a confirmed NAME (R66). The reservation ends (R71). No entry holds the handle then, so the entry takes
its place in handle order. -/
def Rstr.create (r : Rstr) (s : Stamp) (c : Choice) (kind : Byte) (path : Route) (nonce : Option Nat) : Rstr :=
  let dup := nonce.isSome || r.hasTwin s c.handle
  let g := advance r.generation
  let e : Entry :=
    { handle := c.handle, stamp := s, kind, path, state := .named, namedAt := g, trim := none, drift := none, misses := 0,
      errors := 0, clamped := false, oddAnswer := false, duplicate := dup, pinConflict := c.conflict,
      kindMismatch := c.mismatch, notEntered := false, faultedLegs := [], nonce }
  let r := r.markTwins s c.handle
  { r with
    entries := insertEntry e (r.entries.filter (fun x => x.handle != c.handle))
    generation := g
    reserved := if r.reserved = c.handle then 0 else r.reserved }

/-- Restoring the DEPARTED entry of a confirmed NAME (R67), and the removals under it when its path or kind changes (R68). A differing
kind byte adds ODD_ANSWER and keeps a CLAMPED mark: DESIGN CHOICE (log 40). -/
def Rstr.restore (r : Rstr) (old : Entry) (c : Choice) (kind : Byte) (path : Route) (nonce : Option Nat) : Rstr :=
  let dup := nonce.isSome || r.hasTwin old.stamp old.handle
  let r := r.markTwins old.stamp old.handle
  let r := { r.update old.handle (fun e =>
      { e with
        state := .named, misses := 0, path, kind, oddAnswer := e.oddAnswer || e.kind != kind, faultedLegs := [],
        duplicate := dup, pinConflict := c.conflict, kindMismatch := c.mismatch, notEntered := false, nonce }) with
    generation := advance r.generation }
  if old.path ≠ path ∨ old.kind ≠ kind then r.removeWhere (fun e => e.behind old.handle) else r

/-- After a naming by a pin: the DEPARTED entry that carries the stamp at another handle, the lowest, is removed with every
entry behind it (R94). -/
def Rstr.dropMemory (r : Rstr) (s : Stamp) (h : Nat) : Rstr :=
  match r.entries.find? (fun e => !e.live && e.stamp == s && e.handle != h) with
  | none => r
  | some e => r.removeTree e.handle

end Sys2Proof.Machine
end

