-- ==== Sys2Proof/Machine/Ops.lean ====
section
/-! DEFINITION. The shared operations: replies, notices and the transmitter (chapter 10); the line engine's starts and ends
(chapter 3); the ramp, trip, park and cycle of the supply (chapter 2); the end of a discovery (R119), the flush of JOBQ (R155),
the session start and end (R6, R11) and the resets. -/

namespace Sys2Proof.Machine

/-! ### LINK: replies, notices, the transmitter -/

/-- A reply made into a slot (R160, R162). -/
def State.pushReply (s : State) (r : Reply) : State := s.withLink { s.link with replies := s.link.replies ++ [r] }

/-- The reply of an outstanding request: its reserved slot becomes holding, and the request is no longer outstanding (R160,
R161). A tag that is not outstanding has no reply to make. -/
def State.answer (s : State) (tag : Byte) (result : Result) (payload : List Byte) : State :=
  match s.link.outstanding.find? (fun q => q.tag == tag) with
  | none => s
  | some q =>
    (s.withLink { s.link with outstanding := s.link.outstanding.filter (fun q => q.tag != tag) }).pushReply
      ⟨q.kind + 0x80#8, tag, result, payload⟩

/-- A notice into the pending list: it replaces one of its kind in place, or joins the end (R163). -/
def putNotice (n : Notice) : List Notice → List Notice
  | [] => [n]
  | x :: xs => if x.kind = n.kind then n :: xs else x :: putNotice n xs

/-- Raising a notice (R163). -/
def State.raise (s : State) (n : Notice) : State := s.withLink { s.link with notices := putNotice n s.link.notices }

/-- The transmitter, when free, begins the oldest holding reply, or else the head notice (R162); no notice while a RESTART
FULL is carried out (R169). Made at the end of a step, so that a step's replies go before its notices (log 10). -/
def State.kick (s : State) : State :=
  match s.link.tx with
  | some _ => s
  | none =>
    match s.link.replies with
    | r :: _ => s.withLink { s.link with tx := some (.reply r) }
    | [] =>
      if s.link.restarting then s
      else
        match s.link.notices with
        | [] => s
        | n :: ns => s.withLink { s.link with tx := some (.notice n), notices := ns }

/-- LINK takes no frame while RESET_N is held (R157) or a RESTART FULL is carried out (R169); MMON and SSW take no input
then either (R13, R169). -/
def State.deaf (s : State) : Bool := s.resetHeld || s.link.restarting

/-- A complete frame leaves the receiver in HUNT, the gap timer stopped (R158). -/
def State.frameOver (s : State) : State := s.withLink { s.link with rx := .hunt, frame := [], gap := none }

/-- A slot reserved for a request, which is outstanding from then on (R159, R161). -/
def State.reserveSlot (s : State) (tag kind : Byte) : State :=
  s.withLink { s.link with outstanding := s.link.outstanding ++ [⟨tag, kind⟩] }

/-- The ERROR reply BAD_REQUEST, with the received kind as payload (R161). -/
def badRequestReply (kind tag : Byte) : Reply := ⟨0x80#8, tag, .badRequest, [kind]⟩

/-- A complete frame with a good check that reads as a request (R159, R161): discarded when no slot is free; refused when its
tag is 0 or in use; otherwise handed to its owner with its slot reserved. -/
def State.takeIn (s : State) (tag kind : Byte) (owner : State → State) : State :=
  if s.deaf then s
  else
    let s := s.frameOver
    if s.link.freeSlots = 0 then s
    else if tag = 0#8 then s.pushReply (badRequestReply kind tag)
    else if s.link.outstanding.any (fun q => q.tag == tag) then s.pushReply ⟨kind + 0x80#8, tag, .tagInUse, []⟩
    else owner (s.reserveSlot tag kind)

/-- A complete frame with a good check that is no request (R161). -/
def State.takeBad (s : State) (tag kind : Byte) : State :=
  if s.deaf then s
  else
    let s := s.frameOver
    if s.link.freeSlots = 0 then s else s.pushReply (badRequestReply kind tag)

/-! ### LINE -/

/-- The keepalive timer restarted from 0, or stopped when KEEPALIVE_MS is 0 (R43). -/
def keepaliveFrom (t : Settings) : Timer := if t.keepaliveMs = 0 then none else some t.keepaliveMs

/-- The trim fixed for an operation: the stored trim of the entry addressed, 0 otherwise (R33). -/
def State.opTrim (s : State) (audience : Nat) : Int :=
  if audience = 0 then 0 else ((s.rstr.find audience).bind (fun e => e.trim)).getD 0

/-- The operation LINE would start now for a kind and an audience: trim, frame and gap are fixed (R33, R38, R62). -/
def State.lineOp (s : State) (k : OpKind) (audience : Nat) : LineOp :=
  let t := s.opTrim audience
  { kind := k, audience, trim := t, frame := lineFrame audience k,
    gap := if k.verb.isSome then gapTicks s.line.beat s.link.settings.answerWait t else 0 }

/-- LINE starts an operation and is BUSY until it ends (R29). It drives the line, so the stuck-line watch stops; a low that the
line still shows at the part's release is seen as a change of level then, and is timed from there (R44, log 6). -/
def State.startOp (s : State) (k : OpKind) (audience : Nat) : State :=
  s.withLine { s.line with state := .busy, op := some (s.lineOp k audience), watch := none, tlHigh := true }

/-- An operation ends by completion or a decode outcome: LINE is IDLE, TL high, the keepalive timer restarts (R29, R43). -/
def State.endOp (s : State) : State :=
  s.withLine { s.line with
    state := .idle, op := none, watch := none, tlHigh := true, keepalive := keepaliveFrom s.link.settings }

/-- The capture unit's values after an operation (R39). -/
def State.setCapture (s : State) (c : Capture) : State := s.withLine { s.line with capture := c }

/-- RATE drops the calibration choices (R48). -/
def State.dropChoices (s : State) : State := s.withRate ⟨none⟩

/-- The stuck-line watch of a low present now: it runs while LINE is IDLE and MMON is MATED (R44). -/
def State.armWatch (s : State) : State :=
  if s.line.state = .idle ∧ s.mmon.state = .mated ∧ s.line.tlHigh = false then
    s.withLine { s.line with watch := some (Config.stuckBeats * s.line.beat) }
  else s

/-- LINE enters OFF: the operation in flight ends OFF, the route is emptied, timers and marks cleared (R28); the holder is none
(R143), the calibration choices are dropped (R48) and line-open seen is cleared (R96). -/
def State.lineOff (s : State) : State :=
  let s := s.withLine { s.line.cut with
    state := .off, route := [], keepalive := none, keepaliveDue := false, startUp := none, watch := none,
    sampler := none, highWatch := none }
  let s := s.withDisc { s.disc with lineOpenSeen := false }
  (s.withJobq { s.jobq with grant := none }).dropChoices

/-- One failed line attempt at an entry (R74). -/
def State.addError (s : State) (h : Nat) : State := s.withRstr (s.rstr.update h Entry.addError)

/-! ### The end of a discovery -/

/-- An arming: ARMED by an automatic start that has not begun (R96). -/
def Disc.arming (d : Disc) : Bool := d.state == .armed && d.origin == some .auto

/-- A discovery is running from its start to its end (R96). -/
def Disc.running (d : Disc) : Bool := d.state != .idle && !d.arming

/-- The result record completed (R119). -/
def ResultRecord.finish (r : ResultRecord) (o : DiscOutcome) (why : Option AbortReason) (g : Nat) : ResultRecord :=
  { r with outcome := some o, reason := why, generation := some g }

/-- A fresh result record (R100). -/
def ResultRecord.fresh (m : DiscMode) (auto : Bool) : ResultRecord :=
  { mode := m, auto, outcome := none, reason := none, namedNew := 0, restored := 0, duplicates := 0, phantoms := 0,
    calibFailures := 0, leftUnnamed := 0, notEntered := 0, legsFaulted := 0, departed := 0, segments := 0, incomplete := 0,
    largestPass := 0, generation := none }

/-- DISC goes IDLE: the stacks and the leaf are emptied, the pending DROP dropped, origin and mode cleared (R115 to R119, R126). -/
def Disc.toIdle (d : Disc) : Disc :=
  { d with
    state := .idle, origin := none, mode := none, waiting := false, levels := [], frames := [], leaf := none,
    pendingDrop := none, next := none, cancelled := false }

/-- No handle reserved (R71). -/
def State.releaseAll (s : State) : State := s.withRstr { s.rstr with reserved := 0 }

/-- A discovery ends (R119): the record is completed, the reservation released (R71), DISC goes IDLE, and the requester is
answered with `code` and the record, or DISCOVERY_DONE is raised. -/
def State.endDiscovery (s : State) (o : DiscOutcome) (why : Option AbortReason) (code : Result) : State :=
  let fresh := ResultRecord.fresh (s.disc.mode.getD .rescan) (s.disc.origin == some .auto)
  let rec' := (s.disc.result.getD fresh).finish o why s.rstr.generation
  let origin := s.disc.origin
  let s := (s.withDisc { s.disc.toIdle with result := some rec' }).releaseAll
  match origin with
  | some (.requested tag) => s.answer tag code rec'.bytes
  | _ => s.raise (.discoveryDone rec')

/-- A discovery ended from outside by an event (R116): a running one ends ABORTED, an arming is dropped (R98). A cancelled discovery
that is finishing its step ends here too, with the reason of the event: DESIGN CHOICE (log 37). -/
def State.abortDiscovery (s : State) (why : AbortReason) (code : Result) : State :=
  if s.disc.running then s.endDiscovery .aborted (some why) code
  else if s.disc.arming then s.withDisc s.disc.toIdle
  else s

/-- A change of the result record of the discovery that runs. -/
def State.record (s : State) (f : ResultRecord → ResultRecord) : State :=
  s.withDisc { s.disc with result := s.disc.result.map f }

/-! ### JOBQ: flushes -/

/-- A sweep's reply payload (Table 11-3). -/
def Sweep.payload (w : Sweep) : List Byte := word16 w.passes ++ word16 w.totalChanges ++ word16 w.interval

/-- The job in flight, when a job holds the line. -/
def Jobq.inFlight (q : Jobq) : Option Job :=
  match q.grant with
  | some ⟨.job j _ _, _, _⟩ => some j
  | _ => none

/-- The sweep holds the line for a roll. -/
def Jobq.sweepHolds (q : Jobq) : Bool :=
  match q.grant with
  | some ⟨.sweep _ _ _, _, _⟩ => true
  | _ => false

/-- DISC holds the line. -/
def Jobq.discHolds (q : Jobq) : Bool :=
  match q.grant with
  | some ⟨.disc _, _, _⟩ => true
  | _ => false

/-- Several jobs answered with one result, in order. -/
def State.answerJobs (s : State) (code : Result) : List Job → State
  | [] => s
  | j :: js => (s.answer j.tag code []).answerJobs code js

/-- The sweep answered and its slot emptied. -/
def State.endSweep (s : State) (code : Result) : State :=
  match s.jobq.sweep with
  | none => s
  | some w => (s.withJobq { s.jobq with sweep := none }).answer w.tag code w.payload

/-- What a flush answers the sweep with: an ENDING sweep CANCELLED (R155), but RESTARTED at a RESTART FULL, which answers every
request so (R169). -/
def Sweep.flushCode (w : Sweep) (code : Result) : Result := if w.phase = .ending ∧ code ≠ .restarted then .cancelled else code

/-- The flush of JOBQ (R155): the job in flight first, then both lanes from head to end, then the sweep. The lanes, the sweep slot
and the holder are then empty. -/
def State.flushJobs (s : State) (code : Result) : State :=
  let jobs := s.jobq.inFlight.toList ++ s.jobq.urgent ++ s.jobq.normal
  let s := (s.withJobq { s.jobq with urgent := [], normal := [], grant := none }).answerJobs code jobs
  s.endSweep ((s.jobq.sweep.map (fun w => w.flushCode code)).getD code)

/-- The work of a holder that LINE ends without a flush (R156, R44, R152): a job in flight is answered with `code`, a sweep
being cancelled is answered CANCELLED, and the holder is none. A sweep that goes on keeps its position, and rolled this pass as it was:
of the mark R152 says nothing where an entry into CYCLING ends the roll OFF, DESIGN CHOICE (log 45). Nor does the sweep look for its next entry there: DESIGN CHOICE
(log 51). -/
def State.dropHolder (s : State) (code : Result) : State :=
  let job := s.jobq.inFlight
  let ending := s.jobq.sweepHolds && s.jobq.sweep.any (fun w => w.phase == .ending)
  let s := s.withJobq { s.jobq with grant := none }
  let s := match job with
    | some j => s.answer j.tag code []
    | none => s
  if ending then s.endSweep .cancelled else s

/-! ### SSW -/

/-- The dwell length for a RAMP_MS value (R16). -/
def dwellOf (rampMs : Nat) : Nat := rampMs * 1000 / 16

/-- A ramp starts (R16): the dwell is fixed, level 1, the PWM period begins; with OVL asserted it holds at once. -/
def State.rampStart (s : State) : State :=
  let d := dwellOf s.link.settings.rampMs
  let w := { s.ssw with state := .ramping, duty := 1, step := some d, hold := none, trip := none, dwell := d, pwm := some 1 }
  s.withSsw (if w.ovl then { w with state := .holding, step := none, hold := some s.link.settings.holdMs } else w)

/-- The supply without power, in a state: SUP_EN off, level 0, every timer stopped (R21, R23, R25). -/
def Ssw.unpowered (w : Ssw) (st : SupplyState) : Ssw :=
  { w with state := st, duty := 0, step := none, hold := none, trip := none, pwm := none }

/-- Every live entry made DEPARTED as one bulk event, with their number (R75). -/
def State.departAll (s : State) : State × Nat :=
  let (r, n) := s.rstr.departWhere (fun _ => true)
  (s.withRstr r, n)

/-- An entry into TRIPPED (R21): the discovery's and the jobs' replies, then the SUPPLY notice (R26). No rule orders DISC and the
rest within the event; the model ends the discovery first: DESIGN CHOICE. So its record carries the generation before the bulk
departure (log 34), and its DISCOVERY_DONE is raised before the SUPPLY notice (log 33). -/
def State.trip (s : State) (cause : TripCause) : State :=
  let duty := s.ssw.duty
  let s := s.abortDiscovery .supply .aborted
  let s := (s.flushJobs .supplyOff).lineOff
  let s := s.withSsw { s.ssw.unpowered .tripped with cause }
  let (s, n) := s.departAll
  s.raise (.supply .tripped s.ssw.parked (match cause with | .hold => .tripHold | .run => .tripRun) duty n)

/-- The supply parked (R23): replies for the flushed work, then the PARK reply, then the SUPPLY notice. The discovery is ended
before the bulk departure and before the notice, as at a trip: DESIGN CHOICE (log 33, log 34). -/
def State.parkSupply (s : State) (tag : Byte) : State :=
  let s := s.abortDiscovery .parked .aborted
  let s := (s.flushJobs .parked).lineOff
  let s := s.withSsw { s.ssw.unpowered .off with parked := true }
  let (s, n) := s.departAll
  (s.answer tag .ok []).raise (.supply .off true .park 0 n)

/-- An entry into CYCLING (R22): LINE goes OFF without a flush of the lanes (R156). -/
def State.cycle (s : State) : State :=
  let s := (s.dropHolder .supplyOff).lineOff
  s.withSsw { s.ssw with
    state := .cycling, duty := 0, step := some Config.cycleOffUs, hold := none, trip := none, pwm := none }

/-! ### MMON: evaluation, session start and end -/

/-- The three classes of an input set (R1). -/
inductive InputClass where
  | none | some | all
  deriving DecidableEq, Repr

/-- The class of an input set (R1). -/
def InputSet.cls (i : InputSet) : InputClass :=
  if i.presA && i.presB && i.lock then .all else if i.presA || i.presB || i.lock then .some else .none

/-- The level of one input in the set. -/
def InputSet.get (i : InputSet) : PlugInput → Bool
  | .presA => i.presA
  | .presB => i.presB
  | .lock => i.lock

/-- The set with one input at a level. -/
def InputSet.put (i : InputSet) : PlugInput → Bool → InputSet
  | .presA, b => { i with presA := b }
  | .presB, b => { i with presB := b }
  | .lock, b => { i with lock := b }

/-- MMON enters the state its input set calls for outside a session, every timer afresh (R2, R3, R13, R14): OPEN, a new stay in
PARTIAL, or QUALIFYING. -/
def Mmon.enter (m : Mmon) (debounceMs : Nat) : Mmon :=
  let m := { m with debounce := none, breakFilter := none, alignment := none, misaligned := false }
  match m.inputs.cls with
  | .none => { m with state := .opened }
  | .some => { m with state := .partialMate, alignment := some Config.alignmentMs }
  | .all => { m with state := .qualifying, debounce := some debounceMs }

/-- MMON evaluates its input set (R13, R14). -/
def State.evaluate (s : State) : State := s.withMmon (s.mmon.enter s.link.settings.mateDebounceMs)

/-- DISC arms an automatic discovery when AUTO_DISCOVER is on (R98). -/
def State.arm (s : State) : State :=
  if s.link.settings.autoDiscover then
    s.withDisc { s.disc with state := .armed, origin := some .auto, mode := some .rescan }
  else s

/-- The session start (R6, Table 1-3). -/
def State.sessionStart (s : State) : State :=
  let s := s.withMmon { s.mmon with state := .mated, debounce := none }
  let s := s.rampStart
  let s := s.withLine { s.line with beat := s.link.settings.beat, tickPhase := 0 }
  let s := s.arm
  let s := s.withLink { s.link with deferred := false }
  s.raise (.mate none .mated s.mmon.inputs)

/-- The effects of a session end on every block but MMON (R11, Table 1-4): `code` answers the jobs and the sweep, `discCode` the
requested discovery. -/
def State.sessionEnd (s : State) (code discCode : Result) : State :=
  let s := s.abortDiscovery .sessionEnd discCode
  let s := (s.flushJobs code).lineOff
  let s := s.withSsw { s.ssw.unpowered .off with parked := false }
  let s := s.withDisc { s.disc with pass := Pass.cleared }
  s.withRstr { s.rstr with entries := [], generation := 0, reserved := 0 }

/-- A session end that raises its MATE notice (R12): the blocks take it, MMON enters the state its inputs call for. The
DISCOVERY_DONE of an automatic discovery that it aborts is raised before the MATE notice, which no rule orders: DESIGN CHOICE
(log 33). -/
def State.endSession (s : State) (cause : EndCause) : State :=
  let s := (s.sessionEnd .sessionLost .aborted).evaluate
  s.raise (.mate (some cause) s.mmon.state s.mmon.inputs)

/-- A session is live in MATED and SUSPECT (section 1). -/
def State.live (s : State) : Bool := s.mmon.state == .mated || s.mmon.state == .suspect

/-! ### Resets -/

/-- The power-on values of every block, at a baud (R13, R15, R28, R48, R85, R86, R96, R138, R170); the pin levels stay, and so
does the command queue. -/
def State.powerOn (s : State) : State :=
  { resetHeld := s.resetHeld
    mmon := Mmon.reset s.mmon.inputs
    ssw := Ssw.reset s.ssw.ovl
    line := Line.reset s.line.tlHigh s.line.cuts
    rate := ⟨none⟩
    rstr := Rstr.reset
    pins := []
    disc := Disc.reset
    jobq := Jobq.reset
    link := Link.reset s.link.baud
    pending := s.pending }

/-- The baud of the straps (Table 0-5). -/
def baudOf : Bool → Bool → Nat
  | false, false => 115200
  | false, true => 460800
  | true, false => 1000000
  | true, true => 3000000

end Sys2Proof.Machine
end

