-- ==== Sys2Proof/Machine/Route.lean ====
section
/-! DEFINITION. Route switching (R121 to R125): which leg exchange comes next, what each exchange does to the open route and
the roster, and how a switch ends. -/

namespace Sys2Proof.Machine

/-- Outcomes a switch hands its holder, LINE_FAULT and OFF apart, which end the holder's work themselves (R125). -/
inductive SwitchOutcome where
  | done | routeFail | legFault | disturbed
  deriving DecidableEq, Repr

/-- A switch that has ended: its outcome and the switch as it stood. -/
structure SwitchEnd where
  outcome : SwitchOutcome
  switch : Switch
  deriving DecidableEq, Repr

/-- Length of the longest common prefix of two routes (R121). -/
def commonLen : Route → Route → Nat
  | a :: as, b :: bs => if a = b then commonLen as bs + 1 else 0
  | _, _ => 0

/-- The check of R121 before a LEG_OPEN: the junction is held by a live JUNCTION entry whose path is the open route, and the leg
is one of its legs. -/
def Rstr.stepGood (r : Rstr) (openRoute : Route) (st : RouteStep) : Bool :=
  (r.find st.junction).any (fun e =>
    e.live && e.isJunction && e.path == openRoute && decide (1 ≤ st.leg ∧ st.leg ≤ kindLegs e.kind))

/-- The route cut before the first step that names the junction (R123, R124). -/
def truncateBefore (j : Nat) (r : Route) : Route := r.takeWhile (fun st => st.junction != j)

/-- The grant with its switch replaced. -/
def State.putSwitch (s : State) (sw : Option Switch) : State :=
  s.withJobq { s.jobq with grant := s.jobq.grant.map (fun g => { g with switch := sw }) }

/-- The open route replaced. -/
def State.putRoute (s : State) (r : Route) : State := s.withLine { s.line with route := r }

/-- A saturating count 0..255 (Table 7-8; for the pass record's count of Table 7-1 that is log 49). -/
def satAdd (n k : Nat) : Nat := min (n + k) 255

/-- The account of a cascade of `n` entries at junction `j`, leg `g` (0 for the junction's own departure): a job or sweep raises
a ROSTER notice (R78), and the sweep counts the changes (R152); a discovery counts them in its record (R132). The sweep's count has no
bound here, so an entry that changes in two grants of a pass counts twice: DESIGN CHOICE (log 46). -/
def State.countCascade (s : State) (use : SwitchUse) (j g n : Nat) : State :=
  match use with
  | .job => s.raise (.roster .cascade s.rstr.generation n j g)
  | .sweep =>
    (s.withJobq { s.jobq with sweep := s.jobq.sweep.map (fun w => { w with passChanges := w.passChanges + n }) }).raise
      (.roster .cascade s.rstr.generation n j g)
  | .restore | .opening | .closing => s.record (fun r => { r with departed := r.departed + n })

/-- The junction `j` departs for want of an answer: the cascade (R76) and its account. -/
def State.departJunction (s : State) (use : SwitchUse) (j : Nat) : State :=
  let (r, n) := s.rstr.cascade j
  (s.withRstr r).countCascade use j 0 n

/-- The leg `g` of `j` is faulted: the leg cascade (R77), its account, and the count of legs faulted of a discovery (R132). -/
def State.faultLeg (s : State) (use : SwitchUse) (j g : Nat) : State :=
  let (r, n) := s.rstr.legCascade j g
  let s := (s.withRstr r).countCascade use j g n
  match use with
  | .job | .sweep => s
  | .restore | .opening | .closing => s.record (fun r => { r with legsFaulted := satAdd r.legsFaulted 1 })

/-- The next leg exchange of a switch, or its end (R121): close what lies beyond the prefix the open route shares with the target,
deepest first; then open the target's steps, shallowest first, each checked against the roster. -/
def State.switchNext (s : State) (sw : Switch) : State × Option SwitchEnd :=
  let sw := { sw with used := 0, settle := none, resume := false }
  if commonLen s.line.route sw.target < s.line.route.length then
    match s.line.route.getLast? with
    | some st => ((s.putSwitch (some sw)).startOp (.legClose st.leg) st.junction, none)
    | none => (s.putSwitch none, some ⟨.done, sw⟩)
  else
    match sw.target.drop s.line.route.length with
    | [] => (s.putSwitch none, some ⟨.done, sw⟩)
    | st :: _ =>
      if s.rstr.stepGood s.line.route st then ((s.putSwitch (some sw)).startOp (.legOpen st.leg) st.junction, none)
      else (s.putSwitch none, some ⟨.routeFail, sw⟩)

/-- A switch starts (R121): STEP_RETRIES is `retries`, LEG_SETTLE_MS is read. -/
def State.startSwitch (s : State) (use : SwitchUse) (target : Route) (retries : Nat) : State × Option SwitchEnd :=
  s.switchNext
    { purpose := use, target, common := commonLen s.line.route target, retries, settleMs := s.link.settings.legSettleMs,
      used := 0, settle := none, resume := false, status := none, closeDeparted := false }

/-- A LEG_OPEN whose reply decodes, by its status (Table 8-2). -/
def State.legOpened (s : State) (sw : Switch) (j g status : Nat) : State × Option SwitchEnd :=
  if status = 1 ∨ status = 2 then
    let s := (s.withRstr (s.rstr.legGood j g)).putRoute (s.line.route ++ [⟨j, g⟩])
    (s.putSwitch (some { sw with used := 0, settle := some sw.settleMs, status := some status }), none)
  else ((s.faultLeg sw.purpose j g).putSwitch none, some ⟨.legFault, sw⟩)

/-- An unanswered LEG_OPEN (Table 8-2). -/
def State.legOpenUnanswered (s : State) (sw : Switch) (j : Nat) : State × Option SwitchEnd :=
  (((s.departJunction sw.purpose j).putRoute (truncateBefore j s.line.route)).putSwitch none, some ⟨.routeFail, sw⟩)

/-- A LEG_CLOSE whose reply decodes closes the step, whatever its status (R123). -/
def State.legClosed (s : State) (sw : Switch) : State × Option SwitchEnd :=
  (s.putRoute s.line.route.dropLast).switchNext sw

/-- An unanswered LEG_CLOSE departs its junction; the switch ends ROUTE_FAIL when its target goes through that junction beyond
the common prefix, and goes on otherwise (R123). -/
def State.legCloseUnanswered (s : State) (sw : Switch) (j : Nat) : State × Option SwitchEnd :=
  let s := (s.departJunction sw.purpose j).putRoute (truncateBefore j s.line.route)
  let sw := { sw with closeDeparted := true }
  if (sw.target.drop sw.common).any (fun st => st.junction == j) then (s.putSwitch none, some ⟨.routeFail, sw⟩)
  else s.switchNext sw

/-- A leg exchange that decodes or fails (R122): `decoded` is its status or the decode outcome. A decode outcome adds to the
junction's errors (R74) and is retried while the limit allows. -/
def State.legEnded (s : State) (sw : Switch) (k : OpKind) (j : Nat) (decoded : Except DecodeFail (List Byte)) :
    State × Option SwitchEnd :=
  match decoded, k with
  | .ok bs, .legOpen g => s.legOpened sw j g ((bs.headD 0#8).toNat)
  | .ok _, _ => s.legClosed sw
  | .error _, k =>
    let s := s.addError j
    if sw.used < sw.retries then ((s.putSwitch (some { sw with used := sw.used + 1 })).startOp k j, none)
    else
      match k with
      | .legOpen _ => s.legOpenUnanswered sw j
      | _ => s.legCloseUnanswered sw j

/-- A leg exchange that was tainted, dealt with at the return (R10, R122): run again while the limit allows, else the switch ends
DISTURBED with the route as it is. -/
def State.legTainted (s : State) (sw : Switch) (k : OpKind) (j : Nat) : State × Option SwitchEnd :=
  if sw.used < sw.retries then ((s.putSwitch (some { sw with used := sw.used + 1 })).startOp k j, none)
  else (s.putSwitch none, some ⟨.disturbed, sw⟩)

end Sys2Proof.Machine
end

