-- ==== Sys2Proof/Machine/Walk.lean ====
section
/-! DEFINITION. The discovery engine (chapters 7 and 8): the next step decided between grants, the step made under a grant, and
what each operation of a step does when it ends. -/

namespace Sys2Proof.Machine

/-! ### The stacks -/

/-- The level route: the entry steps from the root upward (R126). -/
def Disc.levelRoute (d : Disc) : Route := (d.levels.filterMap (fun l => l.entry)).reverse

/-- The top level record changed. -/
def Disc.mapTop (d : Disc) (f : Level → Level) : Disc :=
  match d.levels with
  | [] => d
  | l :: ls => { d with levels := f l :: ls }

/-- The junction at the cursor of the top record (Table 8-3). -/
def Disc.cursorItem (d : Disc) : Option Listed := d.levels.head?.bind (fun l => l.junctions[l.index]?)

/-- The step (J, g) at the cursor of the top record. -/
def Disc.cursorStep (d : Disc) : Option RouteStep :=
  d.levels.head?.bind (fun l => (l.junctions[l.index]?).map (fun j => ⟨j.handle, l.leg⟩))

/-- The cursor moved to the next junction index with leg 1. -/
def Level.nextJunction (l : Level) : Level := { l with index := l.index + 1, leg := 1 }

/-- The cursor of the top record moved to the next junction. -/
def State.nextJunction (s : State) : State := s.withDisc (s.disc.mapTop Level.nextJunction)

/-- The cursor moved to leg g + 1, or to the next junction after the junction's last leg (R128). A junction that the roster no longer
holds counts as one without a further leg: DESIGN CHOICE (log 42). -/
def State.nextLeg (s : State) : State :=
  s.withDisc (s.disc.mapTop (fun l =>
    let legs := (((l.junctions[l.index]?).bind (fun j => s.rstr.find j.handle)).map (fun e => kindLegs e.kind)).getD 0
    if l.leg < legs then { l with leg := l.leg + 1 } else l.nextJunction))

/-- The abandoned mark set (R126). -/
def State.abandon (s : State) : State := s.withDisc { s.disc with abandoned := true }

/-- The check of R127 on a listed junction: held by a live entry with the listed named_at whose path is the level route. -/
def Rstr.listedGood (r : Rstr) (j : Listed) (route : Route) : Bool :=
  (r.find j.handle).any (fun e => e.live && e.namedAt == j.namedAt && e.path == route)

/-- The path of a listed junction: its entry's, while the handle holds the entry with the listed named_at, and the level route, on
which it was listed, once it does not (R127, log 23). -/
def Rstr.listedPath (r : Rstr) (j : Listed) (route : Route) : Route :=
  match r.find j.handle with
  | some e => if e.namedAt = j.namedAt then e.path else route
  | none => route

/-- NOT_ENTERED added to the entries at some handles, each counted (R112). -/
def State.notEntered (s : State) (hs : List Nat) : State :=
  (s.withRstr { s.rstr with entries := s.rstr.entries.map (fun e =>
    if hs.contains e.handle then { e with notEntered := true } else e) }).record
      (fun r => { r with notEntered := r.notEntered + hs.length })

/-- A level record pushed, its junction list seeded with the live JUNCTION entries on its segment, up to 8 (R101, R129). -/
def State.pushLevel (s : State) (route : Route) (entry : Option RouteStep) : State :=
  let js := s.rstr.entries.filter (fun e => e.live && e.isJunction && e.path == route)
  let level : Level :=
    { depth := route.length, entry, junctions := (js.take Config.junctionRoom).map (fun e => ⟨e.handle, e.namedAt⟩),
      index := 0, leg := 1, walkDone := false }
  let s := s.notEntered ((js.drop Config.junctionRoom).map (fun e => e.handle))
  s.withDisc { s.disc with levels := level :: s.disc.levels, pass := Pass.cleared, frames := [], leaf := none }

/-- A junction in the list's handle order. -/
def insertListed (j : Listed) : List Listed → List Listed
  | [] => [j]
  | x :: xs => if j.handle < x.handle then j :: x :: xs else x :: insertListed j xs

/-- A newly named junction joins the list of the current level, or is counted as not entered when 8 hold it (R112). -/
def State.listJunction (s : State) (h namedAt : Nat) : State :=
  match s.disc.levels with
  | [] => s
  | top :: _ =>
    if top.junctions.any (fun j => j.handle == h) then s
    else if Config.junctionRoom ≤ top.junctions.length then s.notEntered [h]
    else s.withDisc (s.disc.mapTop (fun l => { l with junctions := insertListed ⟨h, namedAt⟩ l.junctions }))

/-! ### Deciding the next step (R97) -/

/-- The discovery state that names a step (Table 7-2). -/
def DiscStep.state : DiscStep → DiscState
  | .hail | .call => .walking
  | .echo | .naming | .pendingDrop => .resolving
  | .calibration => .measuring
  | .opening => .opening
  | .returnCheck => .returning

/-- DISC decides its next step, sets the state that names it and waiting (R97). -/
def State.ask (s : State) (st : DiscStep) : State :=
  s.withDisc { s.disc with next := some st, state := st.state, waiting := true }

/-- A discovery reaches its end: COMPLETE or INCOMPLETE (R119, R133). -/
def State.finishDiscovery (s : State) : State :=
  let r := s.disc.result.getD (ResultRecord.fresh .rescan false)
  if r.incomplete = 0 ∧ r.notEntered = 0 ∧ s.disc.abandoned = false then s.endDiscovery .complete none .complete
  else s.endDiscovery .incomplete none .incomplete

/-- Descent decisions at the top record (R127, R130, R133), at most one for each junction left in its list. -/
def State.descend : Nat → State → State
  | 0, s => s
  | n + 1, s =>
    match s.disc.levels with
    | [] => s
    | top :: below =>
      match top.junctions[top.index]? with
      | none =>
        match top.entry with
        | some _ => (s.withDisc { s.disc with levels := below }).ask .returnCheck
        | none => s.finishDiscovery
      | some j =>
        let route := s.disc.levelRoute
        if top.leg = 1 ∧ s.link.settings.maxDepth ≤ (s.rstr.listedPath j route).length then
          let marked := (s.rstr.find j.handle).any (fun e => e.namedAt == j.namedAt)
          let s := if marked then s.notEntered [j.handle]
            else s.record (fun r => { r with notEntered := r.notEntered + 1 })
          s.nextJunction.descend n
        else if s.rstr.listedGood j route then s.ask .opening
        else s.abandon.nextJunction.descend n

/-- The descent decision at the top record, with enough fuel for its list. -/
def State.descent (s : State) : State :=
  s.descend ((s.disc.levels.head?.map (fun l => l.junctions.length)).getD 0 + 2)

/-- A pass ends (R113): a further pass, or the end of the segment's walk and the descent from it. -/
def State.passEnd (s : State) : State :=
  let p := s.disc.pass
  if p.outOfHandles = false ∧ (p.overflowed ∨ p.failed) ∧ p.number < p.kept then s.ask .hail
  else
    let bad := p.overflowed || p.failed || p.outOfHandles
    let s := s.record (fun r =>
      { r with
        leftUnnamed := satAdd r.leftUnnamed p.leftUnnamed
        segments := satAdd r.segments 1
        incomplete := if bad then satAdd r.incomplete 1 else r.incomplete
        largestPass := max r.largestPass p.number })
    (s.withDisc (s.disc.mapTop (fun l => { l with walkDone := true }))).descent

/-- The next step of a segment's walk with no leaf in hand (R102, R103, R113). -/
def State.walkNext (s : State) : State :=
  if s.disc.pass.number = 0 then s.ask .hail
  else if s.disc.frames = [] then s.passEnd
  else s.ask .call

/-- The leaf record of a stamp of a leaf round (Table 7-4). -/
def Leaf.first (digits : List Nibble) (d : Nibble) (rest : List Nibble) : Leaf :=
  { digits, remaining := rest, stamp := stampOfDigits (digits ++ [d]), tries := 0, tryLimit := none, nonces := none,
    twins := false, choice := none, mismatch := false, calib := none }

/-- The leaf round goes on with its next final digit, or the leaf record is removed (R105). -/
def Leaf.nextDigit (l : Leaf) : Option Leaf :=
  match l.remaining with
  | [] => none
  | d :: ds => some (Leaf.first l.digits d ds)

/-- The leaf replaced. -/
def State.putLeaf (s : State) (l : Option Leaf) : State := s.withDisc { s.disc with leaf := l }

/-- The next step with a leaf in hand (R105 to R108, R111). -/
def State.leafNext (s : State) (l : Leaf) : State :=
  match l.calib, l.nonces with
  | some _, _ => s.ask .calibration
  | none, none => s.ask .echo
  | none, some (_ :: _) => s.ask .naming
  | none, some [] =>
    match l.nextDigit with
    | some l' => (s.putLeaf (some l')).ask .echo
    | none => (s.putLeaf none).walkNext

/-- DISC decides its next step (R97): a pending DROP first (R109), the descent once the segment's walk is done (R127), else the
walk. -/
def State.discNext (s : State) : State :=
  if s.disc.pendingDrop.isSome then s.ask .pendingDrop
  else
    match s.disc.levels with
    | [] => s
    | top :: _ =>
      if top.walkDone then s.descent
      else
        match s.disc.leaf with
        | some l => s.leafNext l
        | none => s.walkNext

/-- The end of a step (R97): DISC releases the line; a cancelled discovery ends there (R117, log 16); otherwise DISC takes up
the result and decides its next step. -/
def State.stepDone (s : State) : State :=
  let s := s.withJobq { s.jobq with grant := none }
  if s.disc.cancelled then s.endDiscovery .aborted (some .cancelled) .aborted else s.discNext

/-! ### Leaving ARMED (R101) -/

/-- DISC leaves ARMED when line-open seen is set and LINE is not FAULTED (R101). An automatic discovery starts here (R100). -/
def State.leaveArmed (s : State) : State :=
  if s.disc.state = .armed ∧ s.disc.lineOpenSeen = true ∧ s.line.state ≠ .faulted then
    let s := if s.disc.origin = some .auto then
        s.withDisc { s.disc with result := some (ResultRecord.fresh (s.disc.mode.getD .rescan) true), abandoned := false }
      else s
    ((s.withDisc { s.disc with levels := [] }).pushLevel [] none).ask .hail
  else s

/-- The line open event at DISC (R30, R96). -/
def State.lineOpen (s : State) : State := (s.withDisc { s.disc with lineOpenSeen := true }).leaveArmed

/-! ### Counts, and failed steps (R114, R137) -/

/-- The pass record changed. -/
def State.putPass (s : State) (f : Pass → Pass) : State := s.withDisc { s.disc with pass := f s.disc.pass }

/-- The failed mark of the pass (R114). -/
def State.failPass (s : State) : State := s.putPass (fun p => { p with failed := true })

/-- Members left unnamed in the pass (R109, R110). The count stops at 255, the end of the range that Table 7-1 gives it: DESIGN CHOICE
(log 49). -/
def State.leaveUnnamed (s : State) (n : Nat) : State :=
  s.putPass (fun p => { p with leftUnnamed := satAdd p.leftUnnamed n })

/-- The nonce in hand removed from the nonces to name (R108). -/
def Leaf.dropNonce (l : Leaf) : Leaf :=
  { l with nonces := l.nonces.map List.tail, choice := none, mismatch := false, calib := none }

/-- The nonce in hand removed from the current leaf. -/
def State.dropNonce (s : State) : State := s.putLeaf (s.disc.leaf.map Leaf.dropNonce)

/-- A failed naming is over (R109): the failed mark, the left-unnamed count, and on with the next nonce. -/
def State.countFailedNaming (s : State) : State := (s.failPass.leaveUnnamed 1).dropNonce

/-- A calibration of DISC that failed is counted (R111). -/
def State.countCalibFailure (s : State) : State := s.record (fun r => { r with calibFailures := satAdd r.calibFailures 1 })

/-- The reservation of a handle released (R71). -/
def State.release (s : State) (h : Nat) : State :=
  if s.rstr.reserved = h then s.withRstr { s.rstr with reserved := 0 } else s

/-- A step that has failed (Tables 7-5 and 8-6), its DROP apart: its effect, and the end of the step. -/
def State.failStep (s : State) (st : DiscStep) : State :=
  let s := match st with
    | .hail => s.failPass.withDisc { s.failPass.disc with frames := [] }
    | .call | .pendingDrop => s.failPass
    | .echo => (s.failPass.leaveUnnamed 1).putLeaf (s.disc.leaf.bind Leaf.nextDigit)
    | .naming => s.countFailedNaming
    | .calibration => s.failPass.countCalibFailure.dropNonce
    | .opening => s.abandon.nextLeg
    | .returnCheck => s.nextLeg
  s.stepDone

/-! ### Naming (R107 to R110) -/

/-- The work of a DISC step replaced. -/
def State.putDiscWork (s : State) (w : DiscWork) : State :=
  s.withJobq { s.jobq with grant := s.jobq.grant.map (fun g => { g with work := .disc w }) }

/-- A naming gets no handle (R110): the walk of the segment ends out of handles. -/
def State.outOfHandles (s : State) (left : Nat) : State :=
  let s := (s.putPass (fun p => { p with outOfHandles := true })).leaveUnnamed left
  (s.withDisc { s.disc with leaf := none, frames := [] }).stepDone

/-- A naming step's choice and NAME (R107, R90): the handle is reserved when it is free. -/
def State.beginNaming (s : State) (l : Leaf) (n : Nat) (left : Nat) : State :=
  match chooseHandle s.rstr s.pins s.link.settings.dynBase l.stamp l.mismatch with
  | none => s.outOfHandles left
  | some c =>
    let s := if c.restores then s else s.withRstr { s.rstr with reserved := c.handle }
    (s.putLeaf (some { l with choice := some c })).startOp (.name l.stamp n c.handle) 0

/-- A failed or withdrawn naming sends DROP under the same grant (R109, R94). -/
def State.sendDrop (s : State) (w : DiscWork) (why : DropCause) (h : Nat) : State :=
  (s.putDiscWork { w with dropping := some why, used := 0 }).startOp .drop h

/-- A naming has failed (R109): the DROP of the handle goes out. -/
def State.namingFailed (s : State) (w : DiscWork) (h : Nat) : State := s.sendDrop w .failed h

/-- A choice is withdrawn (R94, R95); `mismatch` when a pin's expected kind differs from the confirm. -/
def State.withdraw (s : State) (w : DiscWork) (l : Leaf) (h : Nat) (mismatch : Bool) : State :=
  (s.putLeaf (some { l with choice := none, mismatch })).sendDrop w .withdrawn h

/-- The roster part of a completing naming (R66, R67, R94, R95): an entry restored or created, and whether it was restored. -/
def State.nameEntry (s : State) (l : Leaf) (c : Choice) (n : Nat) (kind : Byte) : State × Bool :=
  let nonce := if l.twins then some n else none
  let old := if c.restores then s.rstr.find c.handle else none
  let r := match old with
    | some e => s.rstr.restore e c kind s.line.route nonce
    | none => s.rstr.create l.stamp c kind s.line.route nonce
  let r := if c.source = .pin then r.dropMemory l.stamp c.handle else r
  (s.withRstr r, old.isSome)

/-- A naming completes (R107, R108, R111, R112). -/
def State.nameDone (s : State) (w : DiscWork) (l : Leaf) (c : Choice) (n : Nat) (kind : Byte) : State :=
  let (s, restored) := s.nameEntry l c n kind
  let e := s.rstr.find c.handle
  let dup := e.any (fun e => e.duplicate)
  let at' := (e.map (fun e => e.namedAt)).getD 0
  let s := s.record (fun r =>
    { r with
      namedNew := if restored then r.namedNew else r.namedNew + 1
      restored := if restored then r.restored + 1 else r.restored
      duplicates := if dup then r.duplicates + 1 else r.duplicates })
  let s := if kindIsJunction kind then s.listJunction c.handle at' else s
  let s := if w.autoCalib then s.putLeaf (some { l with choice := none, mismatch := false, calib := some ⟨c.handle, at'⟩ })
    else s.putLeaf (some l.dropNonce)
  s.stepDone

/-- A NAME's confirm is taken (R94, R95): the choice is withdrawn, or the naming completes. Where both withdrawals hold, that of
R94 is taken: DESIGN CHOICE (log 36). -/
def State.confirm (s : State) (w : DiscWork) (l : Leaf) (c : Choice) (n : Nat) (kind : Byte) : State :=
  if c.source = .pin ∧ c.expected.any (fun k => k != kind) then s.withdraw w l c.handle true
  else if c.restores = true ∧ (s.rstr.find c.handle).isNone = true ∧ (pinAt s.pins c.handle).any (fun p => p.stamp != l.stamp) then
    s.withdraw w l c.handle false
  else s.nameDone w l c n kind

/-- A NAME attempt ends (R107): its confirm is taken, or it is tried again within NAME_RETRIES, or the naming has failed. -/
def State.nameEnded (s : State) (w : DiscWork) (k : OpKind) (n h : Nat) (reply : Except DecodeFail (List Byte)) : State :=
  match reply with
  | .error _ =>
    if w.nameUsed < w.nameRetries then (s.putDiscWork { w with nameUsed := w.nameUsed + 1 }).startOp k 0
    else s.namingFailed w h
  | .ok bs =>
    match s.disc.leaf with
    | none => s.stepDone
    | some l =>
      match l.choice with
      | none => s.stepDone
      | some c => s.confirm w l c n (bs.headD 0#8)

/-- The DROP of a discovery step completes (R109, R94). -/
def State.discDropped (s : State) (w : DiscWork) (h : Nat) : State :=
  match w.dropping with
  | some .failed => (s.release h).countFailedNaming.stepDone
  | some .withdrawn => (s.release h).stepDone
  | none => ((s.withDisc { s.disc with pendingDrop := none }).release h).stepDone

/-- The DROP of a naming is tainted beyond its retries: it becomes pending, and the reservation is kept (R109). The member that a failed
naming leaves unnamed is counted here, and its nonce is done with here, where the DROP becomes pending: R109 puts both after the DROP's
completion and gives the completion of a pending DROP neither, so this is a DESIGN CHOICE (log 43). -/
def State.dropPending (s : State) (why : DropCause) (h : Nat) : State :=
  let s := s.failPass.withDisc { s.failPass.disc with pendingDrop := some h }
  (match why with
   | .failed => s.countFailedNaming
   | .withdrawn => s).stepDone

/-! ### The walk's operations end -/

/-- A hail completes (R102). -/
def State.hailed (s : State) (present : Bool) : State :=
  (s.withDisc { s.disc with frames := if present then [[]] else [] }).stepDone

/-- One push of a CALL round (R103, R104). -/
def pushFrame (d : Disc) (f : List Nibble) : Disc :=
  if Config.frameRoom ≤ d.frames.length then { d with pass := { d.pass with overflowed := true } }
  else { d with frames := f :: d.frames }

/-- A slot or digit number as a digit. -/
def digitOf (n : Nat) : Nibble := BitVec.ofNat 4 n

/-- A CALL round completes (R103 to R105): `answered` is in ascending order. -/
def State.called (s : State) (f : List Nibble) (answered : List Nat) : State :=
  if f.length + 1 < 12 then
    (s.withDisc (answered.reverse.foldl (fun d n => pushFrame d (f ++ [digitOf n])) s.disc)).stepDone
  else
    match answered.map digitOf with
    | [] => s.stepDone
    | d :: ds => (s.putLeaf (some (Leaf.first f d ds))).stepDone

/-- An ECHO round completes (R106). -/
def State.echoed (s : State) (answered : List Nat) : State :=
  match s.disc.leaf with
  | none => s.stepDone
  | some l =>
    let l := { l with tries := l.tries + 1 }
    if 2 ≤ answered.length ∨ l.tryLimit.getD 0 ≤ l.tries then
      let s := if answered = [] then s.record (fun r => { r with phantoms := satAdd r.phantoms 1 }) else s
      (s.putLeaf (some { l with nonces := some answered, twins := decide (2 ≤ answered.length) })).stepDone
    else (s.putLeaf (some l)).stepDone

/-- A recorded or probed calibration stored (R55 to R57). When the entry has been removed during its MEASURE, a clamped one still
sets the summary CLAMPED mark, since R57 sets it for every clamped calibration: DEDUCED (log 39). -/
def State.storeCalib (s : State) (h : Nat) (c : CalibResult) : State :=
  let r := s.rstr.update h (fun e => e.calibrated c)
  s.withRstr { r with clampedSummary := r.clampedSummary || c.clamped }

/-- RATE judges a calibration low of the entry at `h` and drops the choices (R48 to R55). -/
def State.judgeLow (s : State) (h : Nat) (c : Capture) : State × CalibResult :=
  let ch := s.rate.choices.getD ⟨s.link.settings.roundMode, .record, false⟩
  let res := judge s.line.beat ch c ((s.rstr.find h).bind (fun e => e.trim)) s.link.settings.driftLimit
  ((s.storeCalib h res).dropChoices, res)

/-- The calibration step of a discovery ends (R111). -/
def State.discMeasured (s : State) (h : Nat) (c : Capture) : State :=
  let (s, res) := s.judgeLow h c
  (if res.trim.isNone then s.countCalibFailure else s).dropNonce.stepDone

/-! ### Descent under a grant -/

/-- The close of a leg, after EMPTY or a return check, ends (R128, R130, R137). -/
def State.closingEnded (s : State) (e : SwitchEnd) : State :=
  match e.outcome with
  | .done => (if e.switch.closeDeparted then s.abandon.nextJunction else s.nextLeg).stepDone
  | .disturbed => s.nextLeg.stepDone
  | .routeFail | .legFault => s.abandon.nextJunction.stepDone

/-- DISC closes the leg at the cursor under the same grant (R128, R130), with the STEP_RETRIES that the return check, or the switch of the
opening, keeps: DESIGN CHOICE (log 44). -/
def State.closeLeg (s : State) (retries : Nat) : State :=
  match s.startSwitch .closing s.disc.levelRoute retries with
  | (s, none) => s
  | (s, some e) => s.closingEnded e

/-- An opening step's switch ends (Table 8-4). -/
def State.openingEnded (s : State) (e : SwitchEnd) : State :=
  match e.outcome with
  | .done =>
    if e.switch.status = some 1 then
      (s.pushLevel s.line.route s.disc.cursorStep).stepDone
    else s.closeLeg e.switch.retries
  | .legFault => s.nextLeg.stepDone
  | .routeFail => s.abandon.nextJunction.stepDone
  | .disturbed => s.failStep .opening

/-- The return check's ROLL is answered (R130): the roster takes it, and the leg is closed when the route still holds it. -/
def State.checkAnswered (s : State) (w : DiscWork) (j : Nat) (kind : Byte) : State :=
  let s := s.withRstr (s.rstr.rollAnswered j kind).1
  if s.disc.cursorStep.any (fun st => s.line.route == s.disc.levelRoute ++ [st]) then s.closeLeg w.retries
  else s.nextLeg.stepDone

/-- The return check's ROLL goes unanswered (R131). -/
def State.checkUnanswered (s : State) (j : Nat) : State :=
  let s := s.departJunction .closing j
  (s.putRoute (s.line.route.take s.disc.levelRoute.length)).abandon.nextJunction.stepDone

/-- A ROLL attempt of the return check ends (R130, R131). -/
def State.checkRolled (s : State) (w : DiscWork) (j : Nat) (reply : Except DecodeFail (List Byte)) : State :=
  match reply with
  | .ok bs => s.checkAnswered w j (bs.headD 0#8)
  | .error _ =>
    let s := s.addError j
    if w.used < w.retries then (s.putDiscWork { w with used := w.used + 1 }).startOp .roll j else s.checkUnanswered j

/-! ### The step under its grant -/

/-- The step's own work, the route being the one it needs (R97, R128, R130). The switch of an opening step takes STEP_RETRIES as it
stands here, at the switch's start (R121), which after a restoration is later than the start of the step that Table 7-7 names (R118):
DESIGN CHOICE (log 44). -/
def State.stepBody (s : State) (w : DiscWork) : State :=
  let s := s.withDisc { s.disc with state := w.step.state }
  match w.step with
  | .hail => s.startOp .hail 0
  | .call => s.startOp (.call w.frame) 0
  | .echo =>
    match s.disc.leaf with
    | none => s.stepDone
    | some l =>
      let l := if l.tryLimit.isNone then { l with tries := 0, tryLimit := some s.link.settings.nonceTries } else l
      (s.putLeaf (some l)).startOp (.echo l.stamp) 0
  | .naming =>
    match s.disc.leaf with
    | none => s.stepDone
    | some l =>
      match l.nonces with
      | some (n :: ns) => s.beginNaming l n (ns.length + 1)
      | _ => s.stepDone
  | .pendingDrop =>
    match s.disc.pendingDrop with
    | none => s.stepDone
    | some h => s.startOp .drop h
  | .calibration =>
    match s.disc.leaf.bind (fun l => l.calib) with
    | none => s.stepDone
    | some c =>
      if (s.rstr.find c.handle).any (fun e => e.live && e.namedAt == c.namedAt) then
        (s.withRate ⟨some ⟨s.link.settings.roundMode, .record, false⟩⟩).startOp .measure c.handle
      else s.dropNonce.stepDone
  | .opening =>
    match s.disc.cursorStep with
    | none => s.stepDone
    | some st =>
      match s.startSwitch .opening (s.disc.levelRoute ++ [st]) s.link.settings.stepRetries with
      | (s, none) => s
      | (s, some e) => s.openingEnded e
  | .returnCheck =>
    match s.disc.cursorItem with
    | none => s.stepDone
    | some j =>
      if s.rstr.listedGood j s.disc.levelRoute then s.startOp .roll j.handle else s.abandon.nextJunction.stepDone

/-- A restoration fails at a step of the level route (R135, R136): the levels above the open route's end are popped with the
work they carried, and the cursor moves on. What the record counted when the walk of a popped segment ended stays counted: DESIGN CHOICE
(log 50). -/
def State.restoreFailed (s : State) (o : SwitchOutcome) : State :=
  let levels := s.disc.levels.filter (fun l => decide (l.depth ≤ s.line.route.length))
  let s := s.withDisc { s.disc with levels, frames := [], pass := Pass.cleared, leaf := none, abandoned := true }
  (if o = .legFault then s.nextLeg else s.nextJunction).stepDone

/-- The switch of a restoration ends (R134 to R137). -/
def State.restoreEnded (s : State) (w : DiscWork) (e : SwitchEnd) : State :=
  match e.outcome with
  | .done => s.stepBody w
  | .routeFail | .legFault => s.restoreFailed e.outcome
  | .disturbed => s.failStep w.step

/-- What a step does at its grant before its route is looked at: a hail counts its pass and clears the marks (R102), a CALL round
takes its frame (R103). WALK_PASSES is read here, before a restoration: DESIGN CHOICE (log 38). -/
def State.stepOpen (s : State) (st : DiscStep) : State × List Nibble :=
  match st with
  | .hail =>
    (s.putPass (fun p =>
      { number := p.number + 1, kept := if p.number = 0 then s.link.settings.walkPasses else p.kept, overflowed := false,
        failed := false, outOfHandles := false, leftUnnamed := 0 }), [])
  | .call => (s.withDisc { s.disc with frames := s.disc.frames.tail }, s.disc.frames.headD [])
  | .echo | .naming | .pendingDrop | .calibration | .opening | .returnCheck => (s, [])

/-- The route a step needs at its grant (Table 8-5). -/
def State.neededRoute (s : State) (st : DiscStep) : Route :=
  let level := s.disc.levelRoute
  if st = .returnCheck ∧ s.disc.cursorStep.any (fun c => s.line.route == level ++ [c]) then s.line.route else level

/-- DISC is granted the line for a step (R97, R134). The settings of the step are read here, at the grant, before a restoration made
under it: DESIGN CHOICE (log 38); the switch of an opening step reads STEP_RETRIES for itself (log 44). -/
def State.beginStep (s : State) (st : DiscStep) : State :=
  let (s, frame) := (s.withDisc { s.disc with waiting := false, next := none }).stepOpen st
  let t := s.link.settings
  let w : DiscWork :=
    { step := st, retries := t.stepRetries, used := 0, frame, nameRetries := t.nameRetries, nameUsed := 0,
      autoCalib := t.autoCalibrate, dropping := none }
  let s := s.withJobq { s.jobq with grant := some { work := .disc w, switch := none, tainted := none } }
  let needed := s.neededRoute st
  if s.line.route = needed then s.stepBody w
  else
    match (s.withDisc { s.disc with state := .restoring }).startSwitch .restore needed t.stepRetries with
    | (s, none) => s
    | (s, some e) => s.restoreEnded w e

/-- A discovery operation that was tainted, dealt with at the return (R10, R114): run again within STEP_RETRIES, else the step
has failed. -/
def State.discTainted (s : State) (w : DiscWork) (op : LineOp) : State :=
  if w.used < w.retries then (s.putDiscWork { w with used := w.used + 1 }).startOp op.kind op.audience
  else
    match op.kind, w.dropping with
    | .name _ _ h, _ => s.namingFailed w h
    | .drop, some why => s.dropPending why op.audience
    | _, _ => s.dropChoices.failStep w.step

end Sys2Proof.Machine
end

