-- ==== Sys2Proof/Machine/Arbiter.lean ====
section
/-! DEFINITION. Line jobs, the sweep and the arbiter (chapter 9): dispatch, the work of each job, the sweep's passes, the grant
loop, and the dealing with a taint at the return (R10). -/

namespace Sys2Proof.Machine

/-! ### Jobs -/

/-- A job ends: its request is answered, RATE drops any choices (R48), and the line is released. -/
def State.endJob (s : State) (j : Job) (code : Result) (payload : List Byte) : State :=
  (s.withJobq { s.jobq with grant := none }).dropChoices.answer j.tag code payload

/-- The dispatch checks in order (R144): the result that ends the job, or none when it passes. -/
def State.dispatch (s : State) (j : Job) : Option Result :=
  match j.kind with
  | .wake _ _ => none
  | k =>
    match s.rstr.lookup j.handle with
    | none => some .unknownHandle
    | some e =>
      if e.namedAt ≠ j.namedAt then some .staleHandle
      else if e.live = false then some .notLive
      else if k = .drop ∧ e.state ≠ .silent then some .live
      else if k = .drop ∧ s.rstr.liveBehind j.handle = true then some .liveBelow
      else none

/-- The calibration choices of a CALIBRATE job, fixed when its first MEASURE is asked for (R48). -/
def State.chooseCalib (s : State) (form : CalibForm) (mode : Option RoundMode) (ignoreInexact : Bool) : State :=
  s.withRate ⟨some ⟨mode.getD s.link.settings.roundMode, form, ignoreInexact⟩⟩

/-- A job asks LINE for its own operation (R146 to R150). -/
def State.jobOp (s : State) (j : Job) : State :=
  match j.kind with
  | .exchange p => s.startOp (.data p) j.handle
  | .roll => s.startOp .roll j.handle
  | .calibrate form mode ignore => (s.chooseCalib form mode ignore).startOp .measure j.handle
  | .wake t _ => s.startOp (.wake t) 0
  | .drop => s.startOp .drop j.handle

/-- The result a failed switch gives a job (R145). -/
def SwitchOutcome.result : SwitchOutcome → Result
  | .done => .ok | .routeFail => .routeFail | .legFault => .legFault | .disturbed => .disturbed

/-- The route switch of a job ends (R145). -/
def State.jobSwitched (s : State) (j : Job) (e : SwitchEnd) : State :=
  if e.outcome = .done then s.jobOp j else s.endJob j e.outcome.result []

/-- A job is granted the line (R143 to R145): its dispatch checks, then its route switch to the entry's path, then its operation;
a WAKE makes no switch (R149). -/
def State.beginJob (s : State) (j : Job) : State :=
  match s.dispatch j with
  | some code => s.answer j.tag code []
  | none =>
    let t := s.link.settings
    let s := s.withJobq { s.jobq with
      grant := some { work := .job j t.exchangeRetries 0, switch := none, tainted := none } }
    match j.kind with
    | .wake _ _ => s.jobOp j
    | _ =>
      match s.startSwitch .job (((s.rstr.find j.handle).map (fun e => e.path)).getD []) t.stepRetries with
      | (s, none) => s
      | (s, some e) => s.jobSwitched j e

/-- The retry count of the work in hand. -/
def Grant.retry (g : Grant) : Grant :=
  match g.work with
  | .job j r u => { g with work := .job j r (u + 1) }
  | .sweep h r u => { g with work := .sweep h r (u + 1) }
  | .disc w => { g with work := .disc { w with used := w.used + 1 } }
  | .keepalive => g

/-- The holder runs an operation again as a further attempt (R10, R145). -/
def State.rerun (s : State) (k : OpKind) (audience : Nat) : State :=
  (s.withJobq { s.jobq with grant := s.jobq.grant.map Grant.retry }).startOp k audience

/-- The fields of a ROLL reply: kind byte, state and misses afterwards (R147, Table 11-3). The fields of an entry removed during
the roll read 00h, as absent ones do (R171, log 39). -/
def State.rollFields (s : State) (h : Nat) (kind : Byte) : List Byte :=
  match s.rstr.find h with
  | none => [kind, 0#8, 0#8]
  | some e => [kind, byteOf e.state.code, byteOf e.misses]

/-- A ROLL job's attempt ends (R147). -/
def State.jobRolled (s : State) (j : Job) (retries used : Nat) (reply : Except DecodeFail (List Byte)) : State :=
  match reply with
  | .ok bs =>
    let kind := bs.headD 0#8
    let s := s.withRstr (s.rstr.rollAnswered j.handle kind).1
    s.endJob j .ok (s.rollFields j.handle kind)
  | .error e =>
    let s := s.addError j.handle
    if used < retries then s.rerun .roll j.handle
    else
      let s := s.withRstr (s.rstr.rollUnanswered j.handle s.link.settings.missLimit).1
      s.endJob j e.result (s.rollFields j.handle 0#8)

/-- An EXCHANGE job's attempt ends (R146): `reply` is the length byte and the bytes. -/
def State.jobExchanged (s : State) (j : Job) (retries used : Nat) (k : OpKind) (reply : Except DecodeFail (List Byte)) :
    State :=
  match reply with
  | .ok bs => s.endJob j .ok bs
  | .error e =>
    let s := s.addError j.handle
    if used < retries then s.rerun k j.handle else s.endJob j e.result []

/-- A CALIBRATE job's MEASURE ends (R148). -/
def State.jobMeasured (s : State) (j : Job) (c : Capture) : State :=
  let (s, res) := s.judgeLow j.handle c
  s.endJob j (if res.trim.isSome then .ok else .calibFail) (res.bytes (s.rstr.find j.handle))

/-- A WAKE job's train completes (R149). -/
def State.jobWoken (s : State) (j : Job) (t : Train) : State :=
  let clamped := match j.kind with
    | .wake _ c => c
    | _ => false
  s.endJob j (if clamped then .clamped else .ok) [byteOf t.count, byteOf t.low, byteOf t.high]

/-- A DROP job's DROP completes (R150, R80). -/
def State.jobDropped (s : State) (j : Job) : State := (s.withRstr (s.rstr.removeTree j.handle)).endJob j .ok []

/-! ### The sweep -/

/-- The sweep replaced. -/
def State.putSweep (s : State) (w : Option Sweep) : State := s.withJobq { s.jobq with sweep := w }

/-- A pass of the sweep ends (R153). -/
def State.sweepPassEnd (s : State) (w : Sweep) : State :=
  let w := { w with passes := min (w.passes + 1) 65535, totalChanges := min (w.totalChanges + w.passChanges) 65535 }
  let s := if 1 ≤ w.passChanges then s.raise (.roster .sweep s.rstr.generation w.passChanges 0 0) else s
  if (1 ≤ w.count ∧ w.passes = w.count) ∨ (w.stopOnChange = true ∧ 1 ≤ w.passChanges) then
    (s.putSweep (some w)).endSweep (if w.clamped then .clamped else .ok)
  else
    let rest := if w.rolled = false ∧ w.interval < Config.emptyRestMs then Config.emptyRestMs else w.interval
    s.putSweep (some { w with
      position := 0, passChanges := 0, rolled := false,
      phase := if rest = 0 then .rolling else .resting
      rest := if rest = 0 then none else some rest })

/-- The sweep looks for its next entry; when none exists in ROLLING its pass ends (R151). -/
def State.sweepSeek (s : State) : State :=
  match s.jobq.sweep with
  | none => s
  | some w => if w.phase = .rolling ∧ (s.rstr.nextLive w.position).isNone then s.sweepPassEnd w else s

/-- The sweep looks for its next entry, and once more in the pass that an interval of 0 starts at once (R151, R153). -/
def State.sweepLook (s : State) : State := s.sweepSeek.sweepSeek

/-- A sweep roll of `h` ends (R152): `judged` entries changed by the roll itself; the sweep releases the line and looks for its
next entry, or ends when it is being cancelled (R154). Pass changes are counted without a bound, although Table 9-5 gives 0..126: DESIGN
CHOICE (log 46). -/
def State.endRoll (s : State) (h changed : Nat) : State :=
  let s := s.withJobq { s.jobq with grant := none }
  match s.jobq.sweep with
  | none => s
  | some w =>
    let w := { w with position := h, rolled := true, passChanges := w.passChanges + changed }
    let s := s.putSweep (some w)
    if w.phase = .ending then s.endSweep .cancelled else s.sweepLook

/-- The route switch of a sweep roll ends (R152). -/
def State.sweepSwitched (s : State) (h : Nat) (e : SwitchEnd) : State :=
  if e.outcome = .done then s.startOp .roll h else s.endRoll h 0

/-- The sweep is granted the line for its next entry (R152). -/
def State.beginRoll (s : State) (e : Entry) : State :=
  let t := s.link.settings
  let s := s.withJobq { s.jobq with
    grant := some { work := .sweep e.handle t.exchangeRetries 0, switch := none, tainted := none } }
  match s.startSwitch .sweep e.path t.stepRetries with
  | (s, none) => s
  | (s, some x) => s.sweepSwitched e.handle x

/-- A sweep roll's attempt ends (R152, R72, R73); for an entry removed during the roll the roster stays as it is (log 39). -/
def State.sweepRolled (s : State) (h retries used : Nat) (reply : Except DecodeFail (List Byte)) : State :=
  match reply with
  | .ok bs =>
    let (r, changed) := s.rstr.rollAnswered h (bs.headD 0#8)
    (s.withRstr r).endRoll h (bit changed)
  | .error _ =>
    let s := s.addError h
    if used < retries then s.rerun .roll h
    else
      let (r, changed) := s.rstr.rollUnanswered h s.link.settings.missLimit
      (s.withRstr r).endRoll h (bit changed)

/-! ### Grants -/

/-- The conditions of a grant (R141). -/
def State.canGrant (s : State) : Bool :=
  s.jobq.grant.isNone && s.line.state == .idle && s.disc.lineOpenSeen && s.ssw.state == .on && s.mmon.state == .mated

/-- The claims of the arbiter (Table 9-4). -/
inductive Claim where
  | urgent (job : Job) (rest : List Job)
  | disc (step : DiscStep)
  | normal (job : Job) (rest : List Job)
  | sweep
  | keepalive
  deriving DecidableEq, Repr

/-- DISC's claim: running, past ARMED and waiting (Table 9-4). -/
def State.discClaim (s : State) : Option Claim :=
  if s.disc.running ∧ s.disc.state ≠ .armed ∧ s.disc.waiting = true then s.disc.next.map Claim.disc else none

/-- The head of the urgent lane as a claim. -/
def State.urgentClaim (s : State) : Option Claim :=
  match s.jobq.urgent with
  | [] => none
  | j :: js => some (.urgent j js)

/-- The claims below DISC, in the order of Table 9-4. -/
def State.lowClaim (s : State) : Option Claim :=
  match s.jobq.normal with
  | j :: js => some (.normal j js)
  | [] =>
    if s.jobq.sweep.any (fun w => w.phase == .rolling) then some .sweep
    else if s.line.keepaliveDue then some .keepalive else none

/-- The claim an opportunity grants (R141); `afterUrgent` at the release of an urgent job. -/
def State.claim (s : State) (afterUrgent : Bool) : Option Claim :=
  if afterUrgent then s.discClaim.or (s.urgentClaim.or s.lowClaim)
  else s.urgentClaim.or (s.discClaim.or s.lowClaim)

/-- LINE emits a keepalive train for its grant (R43, R37). -/
def State.beginKeepalive (s : State) : State :=
  let t := s.link.settings
  (s.withJobq { s.jobq with grant := some { work := .keepalive, switch := none, tainted := none } }).startOp
    (.keepalive ⟨2, t.wakeLow, t.wakeHigh⟩) 0

/-- A claim is granted. The second part says whether an urgent job that passed its dispatch checks has already released the
line (log 14). A sweep without a next entry ends its pass instead (R151, log 20). -/
def State.grantClaim (s : State) (c : Claim) : State × Bool :=
  match c with
  | .urgent j js =>
    let passed := (s.dispatch j).isNone
    ((s.withJobq { s.jobq with urgent := js }).beginJob j, passed)
  | .disc st => (s.beginStep st, false)
  | .normal j js => ((s.withJobq { s.jobq with normal := js }).beginJob j, false)
  | .sweep =>
    match (s.jobq.sweep).bind (fun w => s.rstr.nextLive w.position) with
    | some e => (s.beginRoll e, false)
    | none => (s.sweepLook, false)
  | .keepalive => (s.beginKeepalive, false)

/-- Grant opportunities one after another until a holder keeps the line or no claim is left (R141, R143, log 25). -/
def State.arbitrateFrom : Nat → Bool → State → State
  | 0, _, s => s
  | n + 1, afterUrgent, s =>
    if s.canGrant then
      match s.claim afterUrgent with
      | none => s
      | some c =>
        let (s, f) := s.grantClaim c
        State.arbitrateFrom n f s
    else s

/-- A grant opportunity (R141). -/
def State.arbitrate (s : State) : State := s.arbitrateFrom Config.grantFuel false

/-- The grant opportunity at the end of a step in which the holder `before` may have released the line: after an urgent job, DISC
comes first (R141). -/
def State.regrant (s : State) (before : State) : State :=
  s.arbitrateFrom Config.grantFuel (before.jobq.inFlight.any (fun j => j.urgent))

/-! ### Switch ends, and taints at the return -/

/-- The holder takes the outcome of its route switch (R125). -/
def State.switchEnded (s : State) (w : Work) (e : SwitchEnd) : State :=
  match w with
  | .job j _ _ => s.jobSwitched j e
  | .sweep h _ _ => s.sweepSwitched h e
  | .disc d =>
    match e.switch.purpose with
    | .opening => s.openingEnded e
    | .closing => s.closingEnded e
    | .restore | .job | .sweep => s.restoreEnded d e
  | .keepalive => s

/-- A switch goes on or has ended. -/
def State.switchWent (r : State × Option SwitchEnd) (w : Work) : State :=
  match r.2 with
  | none => r.1
  | some e => r.1.switchEnded w e

/-- A job's operation was tainted (R145): run again within EXCHANGE_RETRIES, else DISTURBED. -/
def State.jobTainted (s : State) (j : Job) (retries used : Nat) (op : LineOp) : State :=
  if used < retries then s.rerun op.kind op.audience else s.endJob j .disturbed []

/-- A sweep roll was tainted (R152). -/
def State.sweepTainted (s : State) (h retries used : Nat) : State :=
  if used < retries then s.rerun .roll h else s.endRoll h 0

/-- A keepalive train was tainted: it is not run again, and keepalive-due is set (R10, R43). It is set although a SET of
KEEPALIVE_MS to 0 cleared it during SUSPECT: DESIGN CHOICE (log 35). -/
def State.keepaliveTainted (s : State) : State :=
  (s.withLine { s.line with keepaliveDue := true }).withJobq { s.jobq with grant := none }

/-- The holder deals with its tainted operation at the return (R10). -/
def State.dealTaint (s : State) (g : Grant) (op : LineOp) : State :=
  let s := s.withJobq { s.jobq with grant := some { g with tainted := none } }
  match g.switch with
  | some sw => State.switchWent (s.legTainted sw op.kind op.audience) g.work
  | none =>
    match g.work with
    | .job j r u => s.jobTainted j r u op
    | .sweep h r u => s.sweepTainted h r u
    | .disc w => s.discTainted w op
    | .keepalive => s.keepaliveTainted

end Sys2Proof.Machine
end

