-- ==== Sys2Proof/Machine/Supply.lean ====
section
/-! DEFINITION. The commands of the supply switch (chapter 2), PARK and POWER among them. -/

namespace Sys2Proof.Machine

/-- OVL_ASSERTED (R18, R20): a hold begins in RAMPING, the trip timer starts in ON. -/
def execOvlAsserted (s : State) : Out :=
  if s.ssw.ovl = true then .next s
  else
    let w := { s.ssw with ovl := true }
    if s.deaf then .next (s.withSsw w)
    else
      match w.state with
      | .ramping => .next (s.withSsw { w with state := .holding, step := none, hold := some s.link.settings.holdMs })
      | .on => .next (s.withSsw { w with trip := some Config.tripUs })
      | .off | .holding | .cycling | .tripped => .next (s.withSsw w)

/-- OVL_RELEASED (R19, R20): the held level gets a full fresh dwell, the trip timer stops. -/
def execOvlReleased (s : State) : Out :=
  if s.ssw.ovl = false then .next s
  else
    let w := { s.ssw with ovl := false }
    if s.deaf then .next (s.withSsw w)
    else
      match w.state with
      | .holding => .next (s.withSsw { w with state := .ramping, hold := none, step := some w.dwell })
      | .on => .next (s.withSsw { w with trip := none })
      | .off | .ramping | .cycling | .tripped => .next (s.withSsw w)

/-- DWELL_EXPIRY (R18, R20): the level rises, or the supply enters ON from level 16. OVL is released in RAMPING. -/
def execDwellExpiry (s : State) : Out :=
  if s.ssw.state = .ramping ∧ s.ssw.step.isSome then
    if s.ssw.duty < Config.topDuty then
      .next (s.withSsw { s.ssw with duty := s.ssw.duty + 1, step := some s.ssw.dwell })
    else
      .next (s.withSsw { s.ssw with
        state := .on, duty := Config.topDuty, step := some (s.link.settings.settleMs * 1000), pwm := none })
  else .next s

/-- HOLD_EXPIRY (R19, R21). -/
def execHoldExpiry (s : State) : Out :=
  if s.ssw.state = .holding ∧ s.ssw.hold.isSome then .next (s.trip .hold).kick else .next s

/-- TRIP_EXPIRY (R20, R21). -/
def execTripExpiry (s : State) : Out :=
  if s.ssw.state = .on ∧ s.ssw.trip.isSome then .next (s.trip .run).kick else .next s

/-- The train an owed start-up train is emitted as: a tainted one has its own values again (R30), one not yet started takes
WAKE_LOW and WAKE_HIGH at its start (Table 10-4). -/
def OwedTrain.train (o : OwedTrain) (t : Settings) : Train :=
  match o with
  | .waiting count => ⟨count, t.wakeLow, t.wakeHigh⟩
  | .begun train => train

/-- LINE emits the start-up train that is pending (R30). -/
def State.startTrain (s : State) (o : OwedTrain) : State :=
  let t := o.train s.link.settings
  (s.withLine { s.line with startUp := some (.begun t) }).startOp (.startUp t) 0

/-- LINE, in IDLE, owes the start-up train with the WAKE_COUNT of this moment and emits it, or opens the line at once when
WAKE_COUNT is 0 (R30). In SUSPECT the train waits for the return (R8). -/
def State.startUp (s : State) : State :=
  let count := s.link.settings.wakeCount
  if count = 0 then
    (s.withLine { s.line with startUp := none, keepalive := keepaliveFrom s.link.settings }).armWatch.lineOpen.arbitrate
  else if s.mmon.state = .mated then s.startTrain (.waiting count)
  else s.withLine { s.line with startUp := some (.waiting count) }

/-- Supply ready (R20, R30). -/
def State.supplyReady (s : State) : State :=
  if s.line.state = .off then (s.withLine { s.line with state := .idle }).startUp else s

/-- SETTLE_EXPIRY (R20, R30). -/
def execSettleExpiry (s : State) : Out :=
  if s.ssw.state = .on ∧ s.ssw.step.isSome then .next (s.withSsw { s.ssw with step := none }).supplyReady.kick else .next s

/-- CYCLE_OFF_SPAN_EXPIRY (R22, R16). -/
def execCycleOffSpanExpiry (s : State) : Out :=
  if s.ssw.state = .cycling ∧ s.ssw.step.isSome then .next s.rampStart else .next s

/-- PWM_PERIOD (R17): the next period begins at the duty level then held. -/
def execPwmPeriod (s : State) : Out :=
  if s.ssw.state = .ramping ∨ s.ssw.state = .holding then .next (s.withSsw { s.ssw with pwm := some s.ssw.duty })
  else .next s

/-- PARK at its owner (R23). -/
def State.ownPark (s : State) (tag : Byte) : State :=
  if s.mmon.state ≠ .mated then s.answer tag .notReady []
  else if s.ssw.parked = true then s.answer tag .ok []
  else s.parkSupply tag

/-- POWER at its owner (R24, R98). -/
def State.ownPower (s : State) (tag : Byte) : State :=
  if s.mmon.state ≠ .mated then s.answer tag .notReady []
  else
    match s.ssw.state with
    | .ramping | .holding | .on | .cycling => s.answer tag .ok []
    | .off | .tripped => ((s.withSsw { s.ssw with parked := false }).rampStart.arm).answer tag .ok []

/-- PARK taken in. -/
def State.takePark (s : State) (tag : Byte) : State := s.takeIn tag 0x12#8 (fun s => s.ownPark tag)

/-- POWER taken in. -/
def State.takePower (s : State) (tag : Byte) : State := s.takeIn tag 0x13#8 (fun s => s.ownPower tag)

/-- PARK (R23). -/
def execPark (tag : Byte) (s : State) : Out := .next (s.takePark tag).kick

/-- POWER (R24). -/
def execPower (tag : Byte) (s : State) : Out := .next (s.takePower tag).kick

end Sys2Proof.Machine
end

