-- ==== Sys2Proof/Machine/LineEvents.lean ====
section
/-! DEFINITION. The ends of line operations and the timers and level of the tool line (chapter 3, and the leg settle of R124, the
rest of R153). A DONE whose operation is not in flight, or an expiry whose timer is stopped, has no effect (log 3). -/

namespace Sys2Proof.Machine

/-- The work in hand of the holder. -/
def State.work (s : State) : Option Work := s.jobq.grant.map (fun g => g.work)

/-- START_UP_TRAIN_DONE (R30): line open. -/
def execStartUpTrainDone (s : State) : Out :=
  match s.line.op with
  | some ⟨.startUp _, _, _, _, _⟩ =>
    let s := s.endOp
    .next ((s.withLine { s.line with startUp := none }).lineOpen.arbitrate).kick
  | _ => .next s

/-- HAIL_DONE (R31, R102). -/
def execHailDone (lows : List Nat) (s : State) : Out :=
  match s.line.op, s.work with
  | some ⟨.hail, _, _, _, _⟩, some (.disc _) =>
    .next ((s.endOp.hailed (hailPresent s.line.beat lows)).regrant s).kick
  | _, _ => .next s

/-- CALL_DONE (R35, R103). -/
def execCallDone (slots : List LowSample) (s : State) : Out :=
  match s.line.op, s.work with
  | some ⟨.call _, _, _, _, _⟩, some (.disc w) =>
    let e := s.endOp.setCapture (roundLast s.line.beat slots)
    .next ((e.called w.frame (answeredSlots s.line.beat slots)).regrant s).kick
  | _, _ => .next s

/-- ECHO_DONE (R35, R106). -/
def execEchoDone (slots : List LowSample) (s : State) : Out :=
  match s.line.op, s.work with
  | some ⟨.echo _, _, _, _, _⟩, some (.disc _) =>
    let e := s.endOp.setCapture (roundLast s.line.beat slots)
    .next ((e.echoed (answeredSlots s.line.beat slots)).regrant s).kick
  | _, _ => .next s

/-- NAME_DONE (R40, R41, R107). -/
def execNameDone (cells : List LowSample) (s : State) : Out :=
  match s.line.op, s.work with
  | some ⟨.name stamp n h, _, trim, _, _⟩, some (.disc w) =>
    let d := decodeByteReply s.line.beat trim cells
    let e := s.endOp.setCapture d.capture
    .next ((e.nameEnded w (.name stamp n h) n h d.reply).regrant s).kick
  | _, _ => .next s

/-- MEASURE_DONE (R36, R48 to R58): for a discovery's calibration (R111) or a CALIBRATE job (R148). -/
def execMeasureDone (low : LowSample) (s : State) : Out :=
  match s.line.op, s.work with
  | some ⟨.measure, h, _, _, _⟩, some (.disc _) =>
    .next (((s.endOp.setCapture (LowSample.capture low)).discMeasured h (LowSample.capture low)).regrant s).kick
  | some ⟨.measure, _, _, _, _⟩, some (.job j _ _) =>
    .next (((s.endOp.setCapture (LowSample.capture low)).jobMeasured j (LowSample.capture low)).regrant s).kick
  | _, _ => .next s

/-- ROLL_DONE (R40, R41, R72, R73): for a return check (R130), a ROLL job (R147) or a sweep roll (R152). -/
def execRollDone (cells : List LowSample) (s : State) : Out :=
  match s.line.op with
  | some ⟨.roll, h, trim, _, _⟩ =>
    let d := decodeByteReply s.line.beat trim cells
    let e := s.endOp.setCapture d.capture
    match s.work with
    | some (.disc w) => .next ((e.checkRolled w h d.reply).regrant s).kick
    | some (.job j r u) => .next ((e.jobRolled j r u d.reply).regrant s).kick
    | some (.sweep x r u) => .next ((e.sweepRolled x r u d.reply).regrant s).kick
    | _ => .next s
  | _ => .next s

/-- A leg exchange ends for the switch of the holder (R122 to R125). -/
def State.legDone (s : State) (k : OpKind) (j : Nat) (trim : Int) (cells : List LowSample) : State :=
  match s.jobq.grant with
  | some ⟨w, some sw, _⟩ =>
    let d := decodeByteReply s.line.beat trim cells
    let e := s.endOp.setCapture d.capture
    ((State.switchWent (e.legEnded sw k j d.reply) w).regrant s).kick
  | _ => s

/-- LEG_OPEN_DONE (R124). -/
def execLegOpenDone (cells : List LowSample) (s : State) : Out :=
  match s.line.op with
  | some ⟨.legOpen g, j, trim, _, _⟩ => .next (s.legDone (.legOpen g) j trim cells)
  | _ => .next s

/-- LEG_CLOSE_DONE (R123). -/
def execLegCloseDone (cells : List LowSample) (s : State) : Out :=
  match s.line.op with
  | some ⟨.legClose g, j, trim, _, _⟩ => .next (s.legDone (.legClose g) j trim cells)
  | _ => .next s

/-- DROP_DONE (R33): for a DROP job (R150) or a discovery's DROP (R109, R94). -/
def execDropDone (s : State) : Out :=
  match s.line.op, s.work with
  | some ⟨.drop, h, _, _, _⟩, some (.disc w) => .next ((s.endOp.discDropped w h).regrant s).kick
  | some ⟨.drop, _, _, _, _⟩, some (.job j _ _) => .next ((s.endOp.jobDropped j).regrant s).kick
  | _, _ => .next s

/-- DATA_DONE (R40, R41, R146). -/
def execDataDone (cells : List LowSample) (s : State) : Out :=
  match s.line.op, s.work with
  | some ⟨.data p, _, trim, _, _⟩, some (.job j r u) =>
    let d := decodeDataReply s.line.beat trim cells
    let e := s.endOp.setCapture d.capture
    .next ((e.jobExchanged j r u (.data p) d.reply).regrant s).kick
  | _, _ => .next s

/-- WAKE_TRAIN_DONE (R149). -/
def execWakeTrainDone (s : State) : Out :=
  match s.line.op, s.work with
  | some ⟨.wake t, _, _, _, _⟩, some (.job j _ _) => .next ((s.endOp.jobWoken j t).regrant s).kick
  | _, _ => .next s

/-- KEEPALIVE_TRAIN_DONE (R43). -/
def execKeepaliveTrainDone (s : State) : Out :=
  match s.line.op with
  | some ⟨.keepalive _, _, _, _, _⟩ =>
    let e := s.endOp
    .next ((((e.withLine { e.line with keepaliveDue := false }).withJobq { e.jobq with grant := none })).regrant s).kick
  | _ => .next s

/-- KEEPALIVE_EXPIRY (R43). -/
def execKeepaliveExpiry (s : State) : Out :=
  if s.line.keepalive.isSome then
    .next ((s.withLine { s.line with keepalive := none, keepaliveDue := true }).arbitrate).kick
  else .next s

/-- The in-flight field of a FAULT notice (R47). -/
def Line.inFlight (l : Line) : InFlight := (l.op.map (fun op => op.kind.inFlight)).getD .nothing

/-- A keepalive train is in flight. -/
def Line.keepaliveRuns (l : Line) : Bool :=
  match l.op with
  | some ⟨.keepalive _, _, _, _, _⟩ => true
  | _ => false

/-- LINE enters FAULTED (R44 to R47): a discovery past ARMED ends ABORTED (R115), the job in flight LINE_FAULT (R156), a sweep in ENDING
is answered CANCELLED (log 21), and the LINE notice follows. That the discovery is answered before the job or the sweep is a DESIGN CHOICE
(log 15), and so is the DISCOVERY_DONE of an automatic discovery before the LINE notice (log 33). A cancelled discovery that is finishing
its step ends with the reason LINE: DESIGN CHOICE (log 37). -/
def State.stuck (s : State) : State :=
  let inFlight := s.line.inFlight
  let s := s.withLine { s.line.cut with
    state := .faulted, keepalive := none, keepaliveDue := s.line.keepaliveDue && !s.line.keepaliveRuns,
    watch := none, sampler := some Config.samplerMs, highWatch := none, tlHigh := false }
  let s := s.dropChoices
  let s := if s.disc.running ∧ s.disc.state ≠ .armed then s.endDiscovery .aborted (some .line) .aborted else s
  let s := s.dropHolder .lineFault
  s.raise (.line false inFlight s.line.route)

/-- STUCK_LINE_EXPIRY (R44): a low that the watch times passes its limit. A rising edge taken first has stopped the watch (R46). -/
def execStuckLineExpiry (s : State) : Out :=
  if s.mmon.state = .mated ∧ (s.line.state = .busy ∨ s.line.state = .idle) ∧ s.line.watch.isSome then .next s.stuck.kick
  else .next s

/-- FAULT_SAMPLE (R45): a sample that reads the line high starts the high watch. -/
def execFaultSample (s : State) : Out :=
  if s.line.state = .faulted ∧ s.line.sampler.isSome ∧ s.line.tlHigh = true then
    .next (s.withLine { s.line with sampler := some Config.samplerMs, highWatch := some Config.highWatchUs })
  else .next s

/-- The fault clears (R45, R30, R101): a start-up train still owed is emitted first, otherwise the arbiter may grant. -/
def State.clearFault (s : State) : State :=
  let s := (s.withLine { s.line with
    state := .idle, sampler := none, highWatch := none, keepalive := keepaliveFrom s.link.settings }).raise
      (.line true .nothing s.line.route)
  if s.line.startUp.isSome then s.startUp else s.leaveArmed.arbitrate

/-- FAULT_CLEAR (R45). -/
def execFaultClear (s : State) : Out :=
  if s.line.state = .faulted ∧ s.line.highWatch.isSome then .next s.clearFault.kick else .next s

/-- LEG_SETTLE_EXPIRY (R124, R125): the switch takes its next exchange, after the return when the coupling is suspect. -/
def execLegSettleExpiry (s : State) : Out :=
  match s.jobq.grant with
  | some ⟨w, some sw, _⟩ =>
    if sw.settle.isSome then
      if s.mmon.state = .mated ∧ s.line.state = .idle then
        .next ((State.switchWent (s.switchNext sw) w).regrant s).kick
      else .next (s.putSwitch (some { sw with settle := none, resume := true }))
    else .next s
  | _ => .next s

/-- SWEEP_REST_EXPIRY (R153, R151). -/
def execSweepRestExpiry (s : State) : Out :=
  match s.jobq.sweep with
  | some w =>
    if w.phase = .resting ∧ w.rest.isSome then
      .next ((s.putSweep (some { w with phase := .rolling, rest := none })).sweepLook.arbitrate).kick
    else .next s
  | none => .next s

/-- TL_LEVEL_CHANGE (R44, R45), of the level seen while the part does not drive TL: a falling edge, or the part's release of a low
that the line outlasts, starts the stuck-line watch while LINE is IDLE or BUSY and MMON is MATED; a rising edge, or the part's
driving next, stops it (log 6). In FAULTED a low abandons the high watch. -/
def execTlLevelChange (high : Bool) (s : State) : Out :=
  if s.line.tlHigh = high then .next s
  else if high = true then .next (s.withLine { s.line with tlHigh := true, watch := none })
  else
    let l := { s.line with tlHigh := false }
    match l.state with
    | .faulted => .next (s.withLine { l with highWatch := none })
    | .idle | .busy =>
      .next (s.withLine (if s.mmon.state = .mated then { l with watch := some (Config.stuckBeats * l.beat) } else l))
    | .off => .next (s.withLine l)

end Sys2Proof.Machine
end

