-- ==== Sys2Proof/Machine/LineRequests.lean ====
section
/-! DEFINITION. The requests for line work: the line jobs and FORGET (R139, R140, R79, R80), the sweep (R151), DISCOVER (R99, R100)
and CANCEL (R117, R154). -/

namespace Sys2Proof.Machine

/-! ### Acceptance (Table 9-3) -/

/-- The tests on session and supply (Table 9-3, rows 2 and 3). -/
def State.lineRefusal (s : State) : Option Result :=
  if s.live = false then some .notReady
  else if (s.ssw.state = .off ∧ s.ssw.parked = true) ∨ s.ssw.state = .tripped then some .supplyOff
  else none

/-- The test on the handle's range (Table 9-3, row 1). -/
def rangeRefusal (h : Nat) : Option Result := if h = 0 ∨ Config.topHandle < h then some .badValue else none

/-- The tests on the entry (Table 9-3, rows 4 and 5). -/
def State.entryRefusal (s : State) (h : Nat) : Option Result :=
  match s.rstr.lookup h with
  | none => some .unknownHandle
  | some e => if e.live then none else some .notLive

/-- The test on the lane's room (Table 9-3, row 7). -/
def State.laneRefusal (s : State) (urgent : Bool) : Option Result :=
  if (if urgent then Config.urgentRoom ≤ s.jobq.urgent.length else Config.normalRoom ≤ s.jobq.normal.length) then
    some .queueFull
  else none

/-- The tests of a job addressed to a handle, in order (R139). -/
def State.jobRefusal (s : State) (h : Nat) (urgent : Bool) : Option Result :=
  (rangeRefusal h).or (s.lineRefusal.or ((s.entryRefusal h).or (s.laneRefusal urgent)))

/-- A job joins the end of its lane (R138, R140). -/
def State.enqueue (s : State) (j : Job) : State :=
  s.withJobq (if j.urgent then { s.jobq with urgent := s.jobq.urgent ++ [j] } else { s.jobq with normal := s.jobq.normal ++ [j] })

/-- A job request at JOBQ (R139, R140): refused, or queued with the entry's named_at recorded; the arbiter is told. -/
def State.ownJob (s : State) (tag : Byte) (h : Nat) (urgent : Bool) (k : JobKind) : State :=
  match s.jobRefusal h urgent with
  | some code => s.answer tag code []
  | none =>
    (s.enqueue ⟨tag, k, urgent, h, ((s.rstr.find h).map (fun e => e.namedAt)).getD 0⟩).arbitrate

/-- A WAKE value: the one given, or the setting when it is 0 (R140, R172). -/
def wakeGiven (given : Byte) (setting : Nat) : Nat := if given = 0#8 then setting else given.toNat

/-- The train a WAKE fixes at acceptance, and its clamped mark (R140). -/
def wakeTrain (t : Settings) (count low high : Byte) : Train × Bool :=
  let c := wakeGiven count t.wakeCount
  let l := wakeGiven low t.wakeLow
  let h := wakeGiven high t.wakeHigh
  let tr : Train := ⟨bring 1 64 c, bring 1 15 l, bring 1 15 h⟩
  (tr, decide (tr ≠ ⟨c, l, h⟩))

/-- WAKE at JOBQ (R139, R140). -/
def State.ownWake (s : State) (tag count low high : Byte) : State :=
  match s.lineRefusal.or (s.laneRefusal false) with
  | some code => s.answer tag code []
  | none =>
    let (tr, clamped) := wakeTrain s.link.settings count low high
    (s.enqueue ⟨tag, .wake tr clamped, false, 0, 0⟩).arbitrate

/-- SWEEP at JOBQ (R139, R140, R151). -/
def State.ownSweep (s : State) (tag : Byte) (count : Nat) (stop : Bool) (interval : Nat) : State :=
  match s.lineRefusal.or (if s.jobq.sweep.isSome then some .busy else none) with
  | some code => s.answer tag code []
  | none =>
    ((s.putSweep (some
      { tag, count, stopOnChange := stop, interval := min interval Config.topInterval,
        clamped := decide (Config.topInterval < interval), passes := 0, position := 0, passChanges := 0, totalChanges := 0,
        phase := .rolling, rest := none, rolled := false })).sweepLook).arbitrate

/-- FORGET of a SILENT entry (R80, R139): LIVE_BELOW, a refusal of the acceptance rows, or a DROP job. -/
def State.forgetSilent (s : State) (tag : Byte) (e : Entry) : State :=
  if s.rstr.liveBehind e.handle then s.answer tag .liveBelow []
  else
    match s.lineRefusal.or (s.laneRefusal false) with
    | some code => s.answer tag code []
    | none => (s.enqueue ⟨tag, .drop, false, e.handle, e.namedAt⟩).arbitrate

/-- FORGET at RSTR (R79, Table 5-4). -/
def State.ownForget (s : State) (tag : Byte) (h : Nat) : State :=
  match s.rstr.lookup h with
  | none => s.answer tag .unknownHandle []
  | some e =>
    match e.state with
    | .named | .calibrated => s.answer tag .live []
    | .departed => (s.withRstr (s.rstr.removeTree h)).answer tag .ok []
    | .silent => s.forgetSilent tag e

/-! ### DISCOVER (R99, R100) -/

/-- The tests of Table 7-3 that follow the mode's. -/
def State.discoverRefusal (s : State) : Option Result :=
  if s.mmon.state ≠ .mated then some .notReady
  else if s.ssw.parked = true ∨ s.ssw.state = .tripped then some .notReady
  else if s.disc.running then some .busy
  else none

/-- The start effects of a mode on roster and supply (R100, R75, R81, R22). -/
def State.discoverStart (s : State) (m : DiscMode) : State :=
  match m with
  | .rescan => s
  | .full => s.departAll.1.cycle
  | .clean => (s.withRstr (s.rstr.removeWhere (fun _ => true))).cycle

/-- DISCOVER at DISC (R99 to R101). A requested discovery that stays ARMED has waiting clear: DESIGN CHOICE (log 48). -/
def State.ownDiscover (s : State) (tag : Byte) (m : DiscMode) : State :=
  match s.discoverRefusal with
  | some code => s.answer tag code []
  | none =>
    let s := s.withDisc { s.disc.toIdle with
      state := .armed, origin := some (.requested tag), mode := some m, result := some (ResultRecord.fresh m false),
      abandoned := false }
    (s.discoverStart m).leaveArmed.arbitrate

/-! ### CANCEL (R117, R154) -/

/-- CANCEL of the discovery (Table 7-6). -/
def State.cancelDisc (s : State) (tag : Byte) : State :=
  if s.disc.arming then (s.withDisc s.disc.toIdle).answer tag .ok []
  else if s.disc.running = false then s.answer tag .notFound []
  else if s.jobq.discHolds then (s.withDisc { s.disc with cancelled := true }).answer tag .ok []
  else (s.endDiscovery .aborted (some .cancelled) .aborted).answer tag .ok []

/-- CANCEL of the sweep (Table 9-6). -/
def State.cancelSweep (s : State) (tag : Byte) : State :=
  match s.jobq.sweep with
  | none => s.answer tag .notFound []
  | some w =>
    if w.phase = .ending then s.answer tag .ok []
    else if s.jobq.sweepHolds then (s.putSweep (some { w with phase := .ending })).answer tag .ok []
    else (s.endSweep .cancelled).answer tag .ok []

/-- The lanes without the job of a tag. -/
def Jobq.without (q : Jobq) (target : Byte) : Jobq :=
  { q with
    urgent := q.urgent.filter (fun j => j.tag != target)
    normal := q.normal.filter (fun j => j.tag != target) }

/-- CANCEL of a tag (Table 9-6): a queued job, the job in flight, the sweep, or the discovery of that tag. -/
def State.cancelTag (s : State) (tag target : Byte) : State :=
  if (s.jobq.urgent ++ s.jobq.normal).any (fun j => j.tag == target) then
    ((s.withJobq (s.jobq.without target)).answer target .cancelled []).answer tag .ok []
  else if s.jobq.inFlight.any (fun j => j.tag == target) then s.answer tag .tooLate []
  else if s.jobq.sweep.any (fun w => w.tag == target) then s.cancelSweep tag
  else if s.disc.origin = some (.requested target) then s.cancelDisc tag
  else s.answer tag .notFound []

/-! ### Taking in -/

/-- FORGET taken in. -/
def State.takeForget (s : State) (tag h : Byte) : State := s.takeIn tag 0x0A#8 (fun s => s.ownForget tag h.toNat)
/-- DISCOVER RESCAN taken in. -/
def State.takeRescan (s : State) (tag : Byte) : State := s.takeIn tag 0x0B#8 (fun s => s.ownDiscover tag .rescan)
/-- DISCOVER FULL taken in. -/
def State.takeFull (s : State) (tag : Byte) : State := s.takeIn tag 0x0B#8 (fun s => s.ownDiscover tag .full)
/-- DISCOVER CLEAN taken in. -/
def State.takeClean (s : State) (tag : Byte) : State := s.takeIn tag 0x0B#8 (fun s => s.ownDiscover tag .clean)
/-- EXCHANGE taken in. -/
def State.takeExchange (s : State) (tag h : Byte) (urgent : Bool) (p : List Byte) : State :=
  s.takeIn tag 0x0C#8 (fun s => s.ownJob tag h.toNat urgent (.exchange p))
/-- ROLL taken in. -/
def State.takeRoll (s : State) (tag h : Byte) (urgent : Bool) : State :=
  s.takeIn tag 0x0D#8 (fun s => s.ownJob tag h.toNat urgent .roll)
/-- CALIBRATE taken in. -/
def State.takeCalibrate (s : State) (tag h : Byte) (form : CalibForm) (mode : Option RoundMode) (ignore : Bool) : State :=
  s.takeIn tag 0x0E#8 (fun s => s.ownJob tag h.toNat false (.calibrate form mode ignore))
/-- WAKE taken in. -/
def State.takeWake (s : State) (tag count low high : Byte) : State := s.takeIn tag 0x0F#8 (fun s => s.ownWake tag count low high)
/-- SWEEP taken in. -/
def State.takeSweep (s : State) (tag count : Byte) (stop : Bool) (interval : BitVec 16) : State :=
  s.takeIn tag 0x10#8 (fun s => s.ownSweep tag count.toNat stop interval.toNat)
/-- CANCEL of a tag taken in. -/
def State.takeCancel (s : State) (tag target : Byte) : State := s.takeIn tag 0x11#8 (fun s => s.cancelTag tag target)
/-- CANCEL of the running discovery taken in. -/
def State.takeCancelDisc (s : State) (tag : Byte) : State := s.takeIn tag 0x11#8 (fun s => s.cancelDisc tag)
/-- CANCEL of the running sweep taken in. -/
def State.takeCancelSweep (s : State) (tag : Byte) : State := s.takeIn tag 0x11#8 (fun s => s.cancelSweep tag)

/-! ### The commands -/

/-- FORGET (R79, R80). -/
def execForget (tag h : Byte) (s : State) : Out := .next (s.takeForget tag h).kick
/-- DISCOVER RESCAN (R99). -/
def execDiscoverRescan (tag : Byte) (s : State) : Out := .next (s.takeRescan tag).kick
/-- DISCOVER FULL (R100). -/
def execDiscoverFull (tag : Byte) (s : State) : Out := .next (s.takeFull tag).kick
/-- DISCOVER CLEAN (R81, R100). -/
def execDiscoverClean (tag : Byte) (s : State) : Out := .next (s.takeClean tag).kick
/-- EXCHANGE (R139, R146). -/
def execExchange (tag h : Byte) (urgent : Bool) (p : List Byte) (s : State) : Out := .next (s.takeExchange tag h urgent p).kick
/-- ROLL (R139, R147). -/
def execRoll (tag h : Byte) (urgent : Bool) (s : State) : Out := .next (s.takeRoll tag h urgent).kick
/-- CALIBRATE in form RECORD (R55, R148). -/
def execCalibrateRecord (tag h : Byte) (mode : Option RoundMode) (ignoreInexact : Bool) (s : State) : Out :=
  .next (s.takeCalibrate tag h .record mode ignoreInexact).kick
/-- CALIBRATE in form PROBE (R56, R148). -/
def execCalibrateProbe (tag h : Byte) (mode : Option RoundMode) (ignoreInexact : Bool) (s : State) : Out :=
  .next (s.takeCalibrate tag h .probe mode ignoreInexact).kick
/-- WAKE (R140, R149). -/
def execWake (tag count low high : Byte) (s : State) : Out := .next (s.takeWake tag count low high).kick
/-- SWEEP (R140, R151). -/
def execSweep (tag count : Byte) (stop : Bool) (interval : BitVec 16) (s : State) : Out :=
  .next (s.takeSweep tag count stop interval).kick
/-- CANCEL of a tag (R154). -/
def execCancel (tag target : Byte) (s : State) : Out := .next (s.takeCancel tag target).kick
/-- CANCEL of RUNNING_DISCOVERY (R117). -/
def execCancelRunningDiscovery (tag : Byte) (s : State) : Out := .next (s.takeCancelDisc tag).kick
/-- CANCEL of RUNNING_SWEEP (R154). -/
def execCancelRunningSweep (tag : Byte) (s : State) : Out := .next (s.takeCancelSweep tag).kick

end Sys2Proof.Machine
end

