-- ==== Sys2Proof/Machine/Requests.lean ====
section
/-! DEFINITION. The requests answered at once from the state of one block: STATUS, GET and SET (R164 to R167), the pin table (R87,
R89), the roster reads and marks (R82 to R84). Each has its owner's part, its taking-in (R159, R161) and its command. -/

namespace Sys2Proof.Machine

/-! ### The settings table (Table 10-4) -/

/-- The value the table holds for an id (R165). -/
def Settings.value (t : Settings) : Nat → Option Nat
  | 0x01 => some t.mateDebounceMs | 0x02 => some t.breakFilterMs | 0x03 => some t.rampMs | 0x04 => some t.holdMs
  | 0x05 => some t.settleMs | 0x06 => some t.beat | 0x07 => some t.wakeCount | 0x08 => some t.wakeLow
  | 0x09 => some t.wakeHigh | 0x0A => some t.keepaliveMs | 0x0B => some t.answerWait | 0x0C => some t.nonceTries
  | 0x0D => some t.walkPasses | 0x0E => some t.nameRetries | 0x0F => some t.stepRetries | 0x10 => some t.exchangeRetries
  | 0x11 => some t.maxDepth | 0x12 => some t.legSettleMs | 0x13 => some t.missLimit | 0x14 => some t.driftLimit
  | 0x15 => some t.roundMode.code | 0x16 => some t.dynBase | 0x17 => some (bit t.autoDiscover)
  | 0x18 => some (bit t.autoCalibrate)
  | _ => none

/-- The range of a numeric setting, BEAT and the enumerations apart (Table 10-4). -/
def settingRange : Nat → Option (Nat × Nat)
  | 0x01 => some (2, 250) | 0x02 => some (0, 20) | 0x03 => some (1, 100) | 0x04 => some (1, 50) | 0x05 => some (1, 200)
  | 0x07 => some (0, 64) | 0x08 => some (1, 15) | 0x09 => some (1, 15) | 0x0A => some (0, 5000) | 0x0B => some (3, 31)
  | 0x0C => some (1, 8) | 0x0D => some (1, 8) | 0x0E => some (0, 3) | 0x0F => some (0, 3) | 0x10 => some (0, 3)
  | 0x11 => some (0, 4) | 0x12 => some (1, 100) | 0x13 => some (1, 15) | 0x14 => some (0, 127) | 0x16 => some (1, 126)
  | _ => none

/-- The table with a value stored at the id of a setting; ROUND_MODE, AUTO_DISCOVER and AUTO_CALIBRATE take their codes. -/
def Settings.store (t : Settings) (id v : Nat) : Settings :=
  match id with
  | 0x01 => { t with mateDebounceMs := v } | 0x02 => { t with breakFilterMs := v } | 0x03 => { t with rampMs := v }
  | 0x04 => { t with holdMs := v } | 0x05 => { t with settleMs := v } | 0x06 => { t with beat := v }
  | 0x07 => { t with wakeCount := v } | 0x08 => { t with wakeLow := v } | 0x09 => { t with wakeHigh := v }
  | 0x0A => { t with keepaliveMs := v } | 0x0B => { t with answerWait := v } | 0x0C => { t with nonceTries := v }
  | 0x0D => { t with walkPasses := v } | 0x0E => { t with nameRetries := v } | 0x0F => { t with stepRetries := v }
  | 0x10 => { t with exchangeRetries := v } | 0x11 => { t with maxDepth := v } | 0x12 => { t with legSettleMs := v }
  | 0x13 => { t with missLimit := v } | 0x14 => { t with driftLimit := v }
  | 0x15 => { t with roundMode := (RoundMode.ofCode v).getD t.roundMode } | 0x16 => { t with dynBase := v }
  | 0x17 => { t with autoDiscover := v == 1 } | 0x18 => { t with autoCalibrate := v == 1 }
  | _ => t

/-- The number of codes of an enumerated setting (Table 10-4). -/
def settingCodes : Nat → Option Nat
  | 0x15 => some 4 | 0x17 => some 2 | 0x18 => some 2
  | _ => none

/-- A SET of a setting other than BEAT (R166): the table afterwards and the result, or none when it is refused. -/
def Settings.set (t : Settings) (id v : Nat) : Option (Settings × Result) :=
  match settingRange id with
  | some (lo, hi) => some (t.store id (bring lo hi v), if bring lo hi v = v then .ok else .clamped)
  | none =>
    match settingCodes id with
    | some n => if v < n then some (t.store id v, .ok) else none
    | none => none

/-- The SET reply's payload: id, the value held afterwards, deferred (Table 11-3). -/
def setPayload (t : Settings) (id : Byte) (deferred : Bool) : List Byte :=
  id :: word16 ((t.value id.toNat).getD 0) ++ [flagByte deferred]

/-- The settings replaced. -/
def State.putSettings (s : State) (t : Settings) : State := s.withLink { s.link with settings := t }

/-- A SET that is refused (R166, log 13). -/
def State.refuseSet (s : State) (tag id : Byte) : State :=
  s.answer tag .badValue (if (s.link.settings.value id.toNat).isSome then setPayload s.link.settings id false else [])

/-- BEAT brought to one of 40, 80 and 160 (R167). -/
def bringBeat (v : Nat) : Nat := if v < 60 then 40 else if v < 120 then 80 else 160

/-- SET of BEAT at LINK (R167). -/
def State.ownSetBeat (s : State) (tag : Byte) (v : Nat) : State :=
  let b := bringBeat v
  let deferred := s.live && b != s.line.beat
  let t := { s.link.settings with beat := b }
  let code : Result := if b ≠ v then .clamped else if deferred then .deferred else .ok
  (s.withLink { s.link with settings := t, deferred := deferred }).answer tag code (setPayload t 0x06#8 deferred)

/-- The keepalive timer after a SET of KEEPALIVE_MS (R43). -/
def State.resetKeepalive (s : State) (ms : Nat) : State :=
  if ms = 0 then s.withLine { s.line with keepalive := none, keepaliveDue := false }
  else if s.line.state = .idle ∨ s.line.state = .busy then s.withLine { s.line with keepalive := some ms }
  else s

/-- SET of KEEPALIVE_MS at LINK (R166, R43). -/
def State.ownSetKeepalive (s : State) (tag : Byte) (v : Nat) : State :=
  let ms := bring 0 5000 v
  let t := { s.link.settings with keepaliveMs := ms }
  ((s.putSettings t).resetKeepalive ms).answer tag (if ms = v then .ok else .clamped) (setPayload t 0x0A#8 false)

/-- SET of any other setting at LINK (R166). -/
def State.ownSet (s : State) (tag id : Byte) (v : Nat) : State :=
  if id = 0x06#8 then s.ownSetBeat tag v
  else if id = 0x0A#8 then s.ownSetKeepalive tag v
  else
    match s.link.settings.set id.toNat v with
    | none => s.refuseSet tag id
    | some (t, code) => (s.putSettings t).answer tag code (setPayload t id false)

/-- GET at LINK (R165). -/
def State.ownGet (s : State) (tag id : Byte) : State :=
  match s.link.settings.value id.toNat with
  | none => s.answer tag .badValue []
  | some v => s.answer tag .ok (id :: word16 v)

/-! ### The pin table -/

/-- A pin as 9 bytes (Table 11-3). -/
def Pin.bytes (p : Pin) : List Byte :=
  stampBytes p.stamp ++ [byteOf p.handle, flagByte p.expected.isSome, p.expected.getD 0#8]

/-- PIN at PINS (R87). -/
def State.ownPin (s : State) (tag : Byte) (stamp : Stamp) (h : Nat) (expected : Option Byte) : State :=
  let (code, ps) := pinRequest s.pins s.rstr stamp h expected
  (s.withPins ps).answer tag code []

/-- UNPIN at PINS (R89). -/
def State.ownUnpin (s : State) (tag : Byte) (stamp : Stamp) : State :=
  if (pinFor s.pins stamp).isSome then (s.withPins (dropPin s.pins stamp)).answer tag .ok []
  else s.answer tag .notFound []

/-- The PINS payload (R89, Table 11-3): up to 8 pins at or above `first`. -/
def pinsPayload (ps : List Pin) (first : Nat) : List Byte :=
  let above := ps.filter (fun p => decide (first ≤ p.handle))
  [byteOf ps.length, flagByte (decide (8 < above.length)), byteOf (above.take 8).length] ++
    (above.take 8).flatMap Pin.bytes

/-- PINS at PINS (R89). -/
def State.ownPins (s : State) (tag first : Byte) : State := s.answer tag .ok (pinsPayload s.pins first.toNat)

/-! ### The roster -/

/-- The ROSTER payload (R83, Table 11-3): up to `n` entries at or above `first`. -/
def rosterPayload (r : Rstr) (first n : Nat) : List Byte :=
  let above := r.entries.filter (fun e => decide (first ≤ e.handle))
  word16 r.generation ++ [flagByte (decide (n < above.length)), byteOf (above.take n).length] ++
    (above.take n).flatMap Entry.bytes

/-- ROSTER at RSTR (R83). -/
def State.ownRoster (s : State) (tag first count : Byte) : State :=
  let n := bring 1 16 count.toNat
  s.answer tag (if n = count.toNat then .ok else .clamped) (rosterPayload s.rstr first.toNat n)

/-- ENTRY at RSTR (R84, R172). -/
def State.ownEntry (s : State) (tag h : Byte) : State :=
  match s.rstr.lookup h.toNat with
  | none => s.answer tag .unknownHandle []
  | some e => s.answer tag .ok (word16 s.rstr.generation ++ e.bytes)

/-- CLEAR_MARKS of a handle at RSTR (R82). -/
def State.ownClearMarks (s : State) (tag h : Byte) : State :=
  match s.rstr.lookup h.toNat with
  | none => s.answer tag .unknownHandle []
  | some _ => (s.withRstr (s.rstr.update h.toNat Entry.clearMarks)).answer tag .ok []

/-- CLEAR_MARKS ALL at RSTR (R82). -/
def State.ownClearMarksAll (s : State) (tag : Byte) : State :=
  (s.withRstr { s.rstr with entries := s.rstr.entries.map Entry.clearMarks, clampedSummary := false }).answer tag .ok []

/-! ### Taking in -/

/-- STATUS taken in. -/
def State.takeStatus (s : State) (tag : Byte) : State := s.takeIn tag 0x01#8 (fun s => s.answer tag .ok s.statusBytes)
/-- GET taken in. -/
def State.takeGet (s : State) (tag id : Byte) : State := s.takeIn tag 0x02#8 (fun s => s.ownGet tag id)
/-- SET taken in. -/
def State.takeSet (s : State) (tag id : Byte) (v : BitVec 16) : State := s.takeIn tag 0x03#8 (fun s => s.ownSet tag id v.toNat)
/-- SET of BEAT taken in. -/
def State.takeSetBeat (s : State) (tag : Byte) (v : BitVec 16) : State :=
  s.takeIn tag 0x03#8 (fun s => s.ownSetBeat tag v.toNat)
/-- SET of KEEPALIVE_MS taken in. -/
def State.takeSetKeepalive (s : State) (tag : Byte) (v : BitVec 16) : State :=
  s.takeIn tag 0x03#8 (fun s => s.ownSetKeepalive tag v.toNat)
/-- PIN taken in. -/
def State.takePin (s : State) (tag : Byte) (stamp : Stamp) (h : Byte) (k : Option Byte) : State :=
  s.takeIn tag 0x04#8 (fun s => s.ownPin tag stamp h.toNat k)
/-- UNPIN taken in. -/
def State.takeUnpin (s : State) (tag : Byte) (stamp : Stamp) : State := s.takeIn tag 0x05#8 (fun s => s.ownUnpin tag stamp)
/-- PINS taken in. -/
def State.takePins (s : State) (tag first : Byte) : State := s.takeIn tag 0x06#8 (fun s => s.ownPins tag first)
/-- ROSTER taken in. -/
def State.takeRoster (s : State) (tag first count : Byte) : State :=
  s.takeIn tag 0x07#8 (fun s => s.ownRoster tag first count)
/-- ENTRY taken in. -/
def State.takeEntry (s : State) (tag h : Byte) : State := s.takeIn tag 0x08#8 (fun s => s.ownEntry tag h)
/-- CLEAR_MARKS taken in. -/
def State.takeClearMarks (s : State) (tag h : Byte) : State := s.takeIn tag 0x09#8 (fun s => s.ownClearMarks tag h)
/-- CLEAR_MARKS ALL taken in. -/
def State.takeClearMarksAll (s : State) (tag : Byte) : State := s.takeIn tag 0x09#8 (fun s => s.ownClearMarksAll tag)

/-! ### The commands -/

/-- STATUS (R164). -/
def execStatus (tag : Byte) (s : State) : Out := .next (s.takeStatus tag).kick
/-- GET (R165). -/
def execGet (tag id : Byte) (s : State) : Out := .next (s.takeGet tag id).kick
/-- SET (R166). -/
def execSet (tag id : Byte) (v : BitVec 16) (s : State) : Out := .next (s.takeSet tag id v).kick
/-- SET_BEAT (R167). -/
def execSetBeat (tag : Byte) (v : BitVec 16) (s : State) : Out := .next (s.takeSetBeat tag v).kick
/-- SET_KEEPALIVE_MS (R43, R166). -/
def execSetKeepaliveMs (tag : Byte) (v : BitVec 16) (s : State) : Out := .next (s.takeSetKeepalive tag v).kick
/-- PIN (R87). -/
def execPin (tag : Byte) (stamp : Stamp) (h : Byte) (k : Option Byte) (s : State) : Out := .next (s.takePin tag stamp h k).kick
/-- UNPIN (R89). -/
def execUnpin (tag : Byte) (stamp : Stamp) (s : State) : Out := .next (s.takeUnpin tag stamp).kick
/-- PINS (R89). -/
def execPins (tag first : Byte) (s : State) : Out := .next (s.takePins tag first).kick
/-- ROSTER (R83). -/
def execRoster (tag first count : Byte) (s : State) : Out := .next (s.takeRoster tag first count).kick
/-- ENTRY (R84). -/
def execEntry (tag h : Byte) (s : State) : Out := .next (s.takeEntry tag h).kick
/-- CLEAR_MARKS of a handle (R82). -/
def execClearMarks (tag h : Byte) (s : State) : Out := .next (s.takeClearMarks tag h).kick
/-- CLEAR_MARKS ALL (R82). -/
def execClearMarksAll (tag : Byte) (s : State) : Out := .next (s.takeClearMarksAll tag).kick

end Sys2Proof.Machine
end

