-- ==== Sys2Proof/Machine/LinkPort.lean ====
section
/-! DEFINITION. RESTART (R168, R169), the receiver (R157, R158), the judging of a complete frame (R159, R161) and the end of a
transmitted frame (R160, R162). -/

namespace Sys2Proof.Machine

/-! ### RESTART -/

/-- RESTART SESSION at LINK (R168, R14): a live session ends first; MMON evaluates its inputs afresh; the MATE notice follows the
reply (log 11). -/
def State.ownRestartSession (s : State) (tag : Byte) : State :=
  if s.live then
    let s := (((s.sessionEnd .sessionLost .aborted).answer tag .ok []).evaluate)
    s.raise (.mate (some .restart) s.mmon.state s.mmon.inputs)
  else s.evaluate.answer tag .ok []

/-- Every request outstanding but `tag` answered RESTARTED (R169). -/
def State.answerOthers (s : State) (tag : Byte) : List Request → State
  | [] => s
  | q :: qs => (if q.tag = tag then s else s.answer q.tag .restarted []).answerOthers tag qs

/-- MMON while a RESTART FULL is carried out: no timer runs (R169, log 22). -/
def Mmon.stopped (m : Mmon) : Mmon := Mmon.reset m.inputs

/-- RESTART FULL at LINK, its first step (R169): the session end with RESTARTED, the other requests, the RESTART reply last; from
then on LINK takes no frame. -/
def State.ownRestartFull (s : State) (tag : Byte) : State :=
  let s := if s.live then s.sessionEnd .restarted .restarted else s
  let s := (s.answerOthers tag s.link.outstanding).answer tag .ok []
  (s.withMmon s.mmon.stopped).withLink { s.link with restarting := true }

/-- RESTART SESSION taken in. -/
def State.takeRestartSession (s : State) (tag : Byte) : State := s.takeIn tag 0x14#8 (fun s => s.ownRestartSession tag)

/-- RESTART FULL taken in. -/
def State.takeRestartFull (s : State) (tag : Byte) : State := s.takeIn tag 0x14#8 (fun s => s.ownRestartFull tag)

/-- RESTART SESSION (R168). -/
def execRestartSession (tag : Byte) (s : State) : Out := .next (s.takeRestartSession tag).kick

/-- RESTART FULL (R169), its first step. -/
def execRestartFull (tag : Byte) (s : State) : Out := .next (s.takeRestartFull tag).kick

/-- RESTART_FULL_RESET (R169), its third step, once every holding reply has been sent: the values of power-on, the baud kept, and
MMON evaluates its inputs (R13). With no RESTART FULL under way, or before every reply has left, it does nothing: DESIGN CHOICE
(log 3). -/
def execRestartFullReset (s : State) : Out :=
  if s.link.restarting = true ∧ s.link.replies = [] ∧ s.link.tx = none then .next s.powerOn.evaluate else .next s

/-! ### A frame with a good check -/

/-- A request taken in, by its row. The rows that are no requests do nothing here. -/
def State.request (s : State) : Instr → State
  | .status t => s.takeStatus t
  | .get t id => s.takeGet t id
  | .set t id v => s.takeSet t id v
  | .setBeat t v => s.takeSetBeat t v
  | .setKeepaliveMs t v => s.takeSetKeepalive t v
  | .pin t st h k => s.takePin t st h k
  | .unpin t st => s.takeUnpin t st
  | .pins t first => s.takePins t first
  | .roster t first count => s.takeRoster t first count
  | .entry t h => s.takeEntry t h
  | .clearMarks t h => s.takeClearMarks t h
  | .clearMarksAll t => s.takeClearMarksAll t
  | .forget t h => s.takeForget t h
  | .discoverRescan t => s.takeRescan t
  | .discoverFull t => s.takeFull t
  | .discoverClean t => s.takeClean t
  | .exchange t h u p => s.takeExchange t h u p
  | .roll t h u => s.takeRoll t h u
  | .calibrateRecord t h m g => s.takeCalibrate t h .record m g
  | .calibrateProbe t h m g => s.takeCalibrate t h .probe m g
  | .wake t c l h => s.takeWake t c l h
  | .sweep t c stop iv => s.takeSweep t c stop iv
  | .cancel t target => s.takeCancel t target
  | .cancelRunningDiscovery t => s.takeCancelDisc t
  | .cancelRunningSweep t => s.takeCancelSweep t
  | .park t => s.takePark t
  | .power t => s.takePower t
  | .restartSession t => s.takeRestartSession t
  | .restartFull t => s.takeRestartFull t
  | .inputChange _ _ | .alignmentExpiry | .debounceExpiry | .breakFilterExpiry | .resetAssert | .resetRelease _ _
  | .ovlAsserted | .ovlReleased | .dwellExpiry | .holdExpiry | .tripExpiry | .settleExpiry | .cycleOffSpanExpiry
  | .startUpTrainDone | .hailDone _ | .callDone _ | .echoDone _ | .nameDone _ | .measureDone _ | .rollDone _
  | .legOpenDone _ | .legCloseDone _ | .dropDone | .dataDone _ | .wakeTrainDone | .keepaliveTrainDone
  | .keepaliveExpiry | .stuckLineExpiry | .faultSample | .faultClear | .legSettleExpiry | .sweepRestExpiry
  | .linkGapExpiry | .frameCheck _ _ | .badRequest _ _ _ | .txFrameDone | .restartFullReset | .receivedByte _
  | .tlLevelChange _ | .pwmPeriod => s

/-- A frame with a good check (R159, R161, R172): no request, a request refused BAD_VALUE, or a request handed to its owner. -/
def State.serve (s : State) (kind tag : Byte) (p : List Byte) : State :=
  match readRequest kind tag p with
  | .badRequest => s.takeBad tag kind
  | .badValue => s.takeIn tag kind (fun s => s.answer tag .badValue [])
  | .request i => s.request i

/-- The ERROR reply of a bad check (R159). -/
def frameCheckReply : Reply := ⟨0x80#8, 0#8, .frameCheck, [0x00#8]⟩

/-- A frame whose check does not match (R159): an ERROR reply when a slot is free. -/
def State.badCheck (s : State) : State :=
  if s.deaf then s
  else
    let s := s.frameOver
    if s.link.freeSlots = 0 then s else s.pushReply frameCheckReply

/-- A complete frame is judged (R158, R159); `body` runs from LEN to the payload. -/
def State.judgeFrame (s : State) (body : List Byte) (check : BitVec 16) : State :=
  if crc16 body = check then
    match body with
    | _ :: _ :: kind :: tag :: p => s.serve kind tag p
    | _ => s.frameOver
  else s.badCheck

/-- FRAME_CHECK (R159). -/
def execFrameCheck (body : List Byte) (check : BitVec 16) (s : State) : Out := .next (s.judgeFrame body check).kick

/-- BAD_REQUEST (R161). -/
def execBadRequest (kind tag : Byte) (p : List Byte) (s : State) : Out := .next (s.serve kind tag p).kick

/-! ### The receiver (R158) -/

/-- LEN of the frame in hand (R158, R171). -/
def lenOf : List Byte → Nat
  | hi :: lo :: _ => (hi ++ lo).toNat
  | _ => 0

/-- The frame in hand with one more byte; the gap timer restarts (R158). -/
def State.putFrame (s : State) (rx : RxState) (f : List Byte) : State :=
  s.withLink { s.link with rx, frame := f, gap := some Config.gapUs }

/-- A good byte in HEADER: LEN, KIND and TAG (R158, log 28). -/
def State.rxHeader (s : State) (f : List Byte) : State :=
  if f.length = 2 ∧ Config.maxLen < lenOf f then s.frameOver
  else if f.length < 4 then s.putFrame .header f
  else s.putFrame (if lenOf f = 0 then .check else .payload) f

/-- A good byte taken by the receiver (R158). -/
def State.rxByte (s : State) (b : Byte) : State :=
  let f := s.link.frame ++ [b]
  match s.link.rx with
  | .hunt => if b = 0xD5#8 then s.putFrame .header [] else s
  | .header => s.rxHeader f
  | .payload => s.putFrame (if f.length < 4 + lenOf f then .payload else .check) f
  | .check =>
    if f.length < 6 + lenOf f then s.putFrame .check f
    else s.judgeFrame (f.take (4 + lenOf f)) ((f.getD (4 + lenOf f) 0#8) ++ (f.getD (5 + lenOf f) 0#8))

/-- A bad byte or a break: a frame in hand is abandoned (R157, R158). -/
def State.rxBad (s : State) : State :=
  match s.link.rx with
  | .hunt => s
  | .header | .payload | .check => s.frameOver

/-- RECEIVED_BYTE (R157, R158). -/
def execReceivedByte (rx : RxByte) (s : State) : Out :=
  if s.deaf then .next s
  else
    match rx with
    | .good b => .next (s.rxByte b).kick
    | .bad | .breakLow => .next s.rxBad

/-- LINK_GAP_EXPIRY (R158): the frame in hand is abandoned. -/
def execLinkGapExpiry (s : State) : Out := if s.link.gap.isSome then .next s.frameOver else .next s

/-- TX_FRAME_DONE (R160, R162, R163): the slot of a sent reply is free; the transmitter takes the next frame. -/
def execTxFrameDone (s : State) : Out :=
  match s.link.tx with
  | some (.reply _) => .next (s.withLink { s.link with tx := none, replies := s.link.replies.tail }).kick
  | some (.notice _) => .next (s.withLink { s.link with tx := none }).kick
  | none => .next s

end Sys2Proof.Machine
end

