-- ==== Sys2Proof/Machine/Mate.lean ====
section
/-! DEFINITION. The commands of the mate monitor (chapter 1) and of RESET_N (R13, R157, R170). -/

namespace Sys2Proof.Machine

/-- The entry into SUSPECT (R7, R8): the filter runs toward `filter`, the operation in flight is tainted, LINE is IDLE, the
stuck-line watch is suspended. A tainted start-up train stays owed with its values (R30). -/
def State.suspect (s : State) (filter : Nat) : State :=
  let s := s.withMmon { s.mmon with state := .suspect, breakFilter := some filter }
  match s.line.op with
  | none => s.withLine { s.line with watch := none }
  | some op =>
    let s := s.withLine { s.line.cut with
      state := .idle, watch := none, keepalive := keepaliveFrom s.link.settings }
    match op.kind with
    | .startUp _ => s
    | _ => s.withJobq { s.jobq with grant := s.jobq.grant.map (fun g => { g with tainted := some op }) }

/-- The holder goes on after a return (R10, R125): its tainted operation first, or the exchange that a leg settle left due. -/
def State.holderResumes (s : State) : State :=
  match s.jobq.grant with
  | none => s
  | some g =>
    match g.tainted, g.switch with
    | some op, _ => s.dealTaint g op
    | none, some sw => if sw.resume then State.switchWent (s.switchNext sw) g.work else s
    | none, none => s

/-- The return to MATED (R9): an owed start-up train is emitted (R30), or the holder goes on (R10), or the arbiter grants (R143). -/
def State.comeBack (s : State) : State :=
  let s := (s.withMmon { s.mmon with state := .mated, breakFilter := none }).armWatch
  if s.line.state = .idle then
    match s.line.startUp with
    | some o => s.startTrain o
    | none => s.holderResumes.regrant s
  else s

/-- A break taken in MATED (R7). -/
def State.takeBreak (s : State) : State :=
  let filter := s.link.settings.breakFilterMs
  if filter = 0 then s.endSession .breakTaken else s.suspect filter

/-- MMON handles an input change by its state and the class of the new input set (R1, Table 1-2). -/
def State.takeInput (s : State) : State :=
  match s.mmon.state, s.mmon.inputs.cls with
  | .opened, _ => s.evaluate
  | .partialMate, .some => s
  | .partialMate, _ => s.evaluate
  | .qualifying, _ => s.evaluate
  | .mated, .all => s
  | .mated, _ => s.takeBreak
  | .suspect, .all => s.comeBack
  | .suspect, _ => s

/-- INPUT_CHANGE (R1 to R10). While RESET_N is held or a RESTART FULL is carried out only the level is kept (R13, R169). -/
def execInputChange (input : PlugInput) (made : Bool) (s : State) : Out :=
  if s.mmon.inputs.get input = made then .next s
  else
    let s := s.withMmon { s.mmon with inputs := s.mmon.inputs.put input made }
    if s.deaf then .next s else .next s.takeInput.kick

/-- ALIGNMENT_EXPIRY (R4). -/
def execAlignmentExpiry (s : State) : Out :=
  if s.mmon.state = .partialMate ∧ s.mmon.alignment.isSome then
    .next ((s.withMmon { s.mmon with alignment := none, misaligned := true }).raise (.misaligned s.mmon.inputs)).kick
  else .next s

/-- DEBOUNCE_EXPIRY (R5, R6). -/
def execDebounceExpiry (s : State) : Out :=
  if s.mmon.state = .qualifying ∧ s.mmon.debounce.isSome then .next s.sessionStart.kick else .next s

/-- BREAK_FILTER_EXPIRY (R9, R11). -/
def execBreakFilterExpiry (s : State) : Out :=
  if s.mmon.state = .suspect ∧ s.mmon.breakFilter.isSome then .next (s.endSession .filterExpiry).kick else .next s

/-- RESET_ASSERT (R170, R13): every block takes its reset values; nothing is answered. -/
def execResetAssert (s : State) : Out := .next { s.powerOn with resetHeld := true }

/-- RESET_RELEASE (R157, R13, R170): the straps are read and MMON evaluates its inputs. While RESET_N is not held it does nothing:
DESIGN CHOICE (log 3). -/
def execResetRelease (baud1 baud0 : Bool) (s : State) : Out :=
  if s.resetHeld then
    let s : State := { s.powerOn with resetHeld := false }
    .next (s.withLink { s.link with baud := baudOf baud1 baud0 }).evaluate
  else .next s

end Sys2Proof.Machine
end

