-- ==== Sys2Proof/Machine/Dispatch.lean ====
section
/-! DEFINITION. One arm for each command. -/

namespace Sys2Proof.Machine

def exec (i : Instr) (s : State) : Host.Outcome State Fault Refusal :=
  match i with
  | .inputChange input made => Sys2Proof.Machine.execInputChange input made s
  | .alignmentExpiry => Sys2Proof.Machine.execAlignmentExpiry s
  | .debounceExpiry => Sys2Proof.Machine.execDebounceExpiry s
  | .breakFilterExpiry => Sys2Proof.Machine.execBreakFilterExpiry s
  | .resetAssert => Sys2Proof.Machine.execResetAssert s
  | .resetRelease baud1 baud0 => Sys2Proof.Machine.execResetRelease baud1 baud0 s
  | .ovlAsserted => Sys2Proof.Machine.execOvlAsserted s
  | .ovlReleased => Sys2Proof.Machine.execOvlReleased s
  | .dwellExpiry => Sys2Proof.Machine.execDwellExpiry s
  | .holdExpiry => Sys2Proof.Machine.execHoldExpiry s
  | .tripExpiry => Sys2Proof.Machine.execTripExpiry s
  | .settleExpiry => Sys2Proof.Machine.execSettleExpiry s
  | .cycleOffSpanExpiry => Sys2Proof.Machine.execCycleOffSpanExpiry s
  | .startUpTrainDone => Sys2Proof.Machine.execStartUpTrainDone s
  | .hailDone lows => Sys2Proof.Machine.execHailDone lows s
  | .callDone slots => Sys2Proof.Machine.execCallDone slots s
  | .echoDone slots => Sys2Proof.Machine.execEchoDone slots s
  | .nameDone cells => Sys2Proof.Machine.execNameDone cells s
  | .measureDone low => Sys2Proof.Machine.execMeasureDone low s
  | .rollDone cells => Sys2Proof.Machine.execRollDone cells s
  | .legOpenDone cells => Sys2Proof.Machine.execLegOpenDone cells s
  | .legCloseDone cells => Sys2Proof.Machine.execLegCloseDone cells s
  | .dropDone => Sys2Proof.Machine.execDropDone s
  | .dataDone cells => Sys2Proof.Machine.execDataDone cells s
  | .wakeTrainDone => Sys2Proof.Machine.execWakeTrainDone s
  | .keepaliveTrainDone => Sys2Proof.Machine.execKeepaliveTrainDone s
  | .keepaliveExpiry => Sys2Proof.Machine.execKeepaliveExpiry s
  | .stuckLineExpiry => Sys2Proof.Machine.execStuckLineExpiry s
  | .faultSample => Sys2Proof.Machine.execFaultSample s
  | .faultClear => Sys2Proof.Machine.execFaultClear s
  | .legSettleExpiry => Sys2Proof.Machine.execLegSettleExpiry s
  | .sweepRestExpiry => Sys2Proof.Machine.execSweepRestExpiry s
  | .linkGapExpiry => Sys2Proof.Machine.execLinkGapExpiry s
  | .frameCheck body check => Sys2Proof.Machine.execFrameCheck body check s
  | .badRequest kind tag payload => Sys2Proof.Machine.execBadRequest kind tag payload s
  | .txFrameDone => Sys2Proof.Machine.execTxFrameDone s
  | .status tag => Sys2Proof.Machine.execStatus tag s
  | .get tag id => Sys2Proof.Machine.execGet tag id s
  | .set tag id value => Sys2Proof.Machine.execSet tag id value s
  | .setBeat tag value => Sys2Proof.Machine.execSetBeat tag value s
  | .setKeepaliveMs tag value => Sys2Proof.Machine.execSetKeepaliveMs tag value s
  | .pin tag stamp handle expected => Sys2Proof.Machine.execPin tag stamp handle expected s
  | .unpin tag stamp => Sys2Proof.Machine.execUnpin tag stamp s
  | .pins tag first => Sys2Proof.Machine.execPins tag first s
  | .roster tag first count => Sys2Proof.Machine.execRoster tag first count s
  | .entry tag handle => Sys2Proof.Machine.execEntry tag handle s
  | .clearMarks tag handle => Sys2Proof.Machine.execClearMarks tag handle s
  | .clearMarksAll tag => Sys2Proof.Machine.execClearMarksAll tag s
  | .forget tag handle => Sys2Proof.Machine.execForget tag handle s
  | .discoverRescan tag => Sys2Proof.Machine.execDiscoverRescan tag s
  | .discoverFull tag => Sys2Proof.Machine.execDiscoverFull tag s
  | .discoverClean tag => Sys2Proof.Machine.execDiscoverClean tag s
  | .exchange tag handle urgent payload => Sys2Proof.Machine.execExchange tag handle urgent payload s
  | .roll tag handle urgent => Sys2Proof.Machine.execRoll tag handle urgent s
  | .calibrateRecord tag handle mode ignoreInexact => Sys2Proof.Machine.execCalibrateRecord tag handle mode ignoreInexact s
  | .calibrateProbe tag handle mode ignoreInexact => Sys2Proof.Machine.execCalibrateProbe tag handle mode ignoreInexact s
  | .wake tag count low high => Sys2Proof.Machine.execWake tag count low high s
  | .sweep tag count stopOnChange interval => Sys2Proof.Machine.execSweep tag count stopOnChange interval s
  | .cancel tag target => Sys2Proof.Machine.execCancel tag target s
  | .cancelRunningDiscovery tag => Sys2Proof.Machine.execCancelRunningDiscovery tag s
  | .cancelRunningSweep tag => Sys2Proof.Machine.execCancelRunningSweep tag s
  | .park tag => Sys2Proof.Machine.execPark tag s
  | .power tag => Sys2Proof.Machine.execPower tag s
  | .restartSession tag => Sys2Proof.Machine.execRestartSession tag s
  | .restartFull tag => Sys2Proof.Machine.execRestartFull tag s
  | .restartFullReset => Sys2Proof.Machine.execRestartFullReset s
  | .receivedByte rx => Sys2Proof.Machine.execReceivedByte rx s
  | .tlLevelChange high => Sys2Proof.Machine.execTlLevelChange high s
  | .pwmPeriod => Sys2Proof.Machine.execPwmPeriod s

end Sys2Proof.Machine
end

