-- ==== Sys2Proof/WellFormed.lean ====
section
/-! DEFINITION. Which commands the environment can send: the operand ranges that the rules give each row. The meanings are
total; an ill-formed command is one the part's pins cannot produce (log 3, log 9). -/

namespace Sys2Proof

/-- A low period as the line can show it after a cue: it holds at least the cue's own tick and falling edge (R39). -/
def LowSample.wellFormed (l : LowSample) : Bool := decide (1 ≤ l.ticks ∧ 1 ≤ l.edges)

/-- A slot round has 16 slots (R35). -/
def roundWellFormed (slots : List LowSample) : Bool := slots.length == 16 && slots.all LowSample.wellFormed

/-- A byte reply has up to 16 cells (R40). -/
def replyWellFormed (cells : List LowSample) : Bool := decide (1 ≤ cells.length ∧ cells.length ≤ 16) && cells.all LowSample.wellFormed

/-- A DATA reply has up to 16 + 8 × 32 cells (R40). -/
def dataWellFormed (cells : List LowSample) : Bool :=
  decide (1 ≤ cells.length ∧ cells.length ≤ 16 + 8 * Config.dataRoom) && cells.all LowSample.wellFormed

/-- The operand ranges of each command. -/
def Instr.wellFormed : Instr → Bool
  | .callDone slots | .echoDone slots => roundWellFormed slots
  | .nameDone cells | .rollDone cells | .legOpenDone cells | .legCloseDone cells => replyWellFormed cells
  | .dataDone cells => dataWellFormed cells
  | .measureDone low => low.wellFormed
  | .frameCheck body check =>
    decide (4 ≤ body.length ∧ body.length ≤ 4 + Config.maxLen) && body.take 2 == word16 (body.length - 4) && check != crc16 body
  | .badRequest kind tag p => decide (p.length ≤ Config.maxLen) && readRequest kind tag p == .badRequest
  | .set t id _ => t != 0#8 && id != 0x06#8 && id != 0x0A#8
  | .clearMarks t h => t != 0#8 && h != 0#8
  | .exchange t _ _ p => t != 0#8 && decide (p.length ≤ Config.dataRoom)
  | .status t | .get t _ | .setBeat t _ | .setKeepaliveMs t _ | .pin t _ _ _ | .unpin t _ | .pins t _ | .roster t _ _
  | .entry t _ | .clearMarksAll t | .forget t _ | .discoverRescan t | .discoverFull t | .discoverClean t | .roll t _ _
  | .calibrateRecord t _ _ _ | .calibrateProbe t _ _ _ | .wake t _ _ _ | .sweep t _ _ _ | .cancel t _
  | .cancelRunningDiscovery t | .cancelRunningSweep t | .park t | .power t | .restartSession t | .restartFull t => t != 0#8
  | .inputChange _ _ | .alignmentExpiry | .debounceExpiry | .breakFilterExpiry | .resetAssert | .resetRelease _ _
  | .ovlAsserted | .ovlReleased | .dwellExpiry | .holdExpiry | .tripExpiry | .settleExpiry | .cycleOffSpanExpiry
  | .startUpTrainDone | .hailDone _ | .dropDone | .wakeTrainDone | .keepaliveTrainDone
  | .keepaliveExpiry | .stuckLineExpiry | .faultSample | .faultClear | .legSettleExpiry | .sweepRestExpiry
  | .linkGapExpiry | .txFrameDone | .restartFullReset | .receivedByte _ | .tlLevelChange _ | .pwmPeriod => true

end Sys2Proof
end

