-- ==== Sys2Proof/Laws/PerInstr.lean ====
section
/-! SUPPORT. Per command: the frame that Table 11-2 gives a well-formed request reads back as that request (R161, R171, R172). One
lemma for each constructor; a command that is no request has no frame. -/

namespace Sys2Proof.Laws.RequestRoundTrip

/-- The request frame of the command, if it has one, reads as the command. -/
def Statement (i : Instr) : Prop :=
  i.wellFormed = true → ∀ k t p, requestFields i = some (k, t, p) → readRequest k t p = .request i

/-- Two bytes of a 16-bit number join into it. -/
theorem word16_join (v : BitVec 16) : (byteOf (v.toNat / 256) ++ byteOf v.toNat : BitVec 16) = v := by
  apply BitVec.eq_of_toNat_eq
  have h := v.isLt
  simp only [byteOf, BitVec.toNat_append, BitVec.toNat_ofNat]
  rw [← Nat.shiftLeft_add_eq_or_of_lt (by omega), Nat.shiftLeft_eq]
  omega

/-- Six bytes of a stamp join into it. -/
theorem stamp_join (s : Stamp) : stampOf (byteOf (s.toNat / 1099511627776)) (byteOf (s.toNat / 4294967296)) (byteOf (s.toNat / 16777216))
    (byteOf (s.toNat / 65536)) (byteOf (s.toNat / 256)) (byteOf s.toNat) = s := by
  apply BitVec.eq_of_toNat_eq
  have h := s.isLt
  simp only [stampOf, byteOf, BitVec.toNat_ofNat]
  omega

theorem flag_ne (b : Bool) : (flagByte b != 0#8) = b := by cases b <;> decide

/-- A command without a request frame. -/
theorem of_no_frame {i : Instr} (f : requestFields i = none) : Statement i := by
  intro _ k t p h
  rw [f] at h; cases h

/-- A command whose frame has a tag and a payload that its kind reads back. -/
theorem of_frame {i : Instr} {k t : Byte} {p : List Byte} (f : requestFields i = some (k, t, p))
    (tag : i.wellFormed = true → (t != 0#8) = true)
    (read : i.wellFormed = true → (if k.toNat ≤ 0x0A then readLow k.toNat t p else readHigh k.toNat t p) = .request i) :
    Statement i := by
  intro w k' t' p' h
  rw [f] at h; cases h
  rw [readRequest, if_neg (bne_iff_ne.1 (tag w)), read w]

/-- The first of two conditions. -/
theorem and_left {a b : Bool} (h : (a && b) = true) : a = true := (Bool.and_eq_true_iff.1 h).1

/-- The second of two conditions. -/
theorem and_right {a b : Bool} (h : (a && b) = true) : b = true := (Bool.and_eq_true_iff.1 h).2

theorem inputChange (input : PlugInput) (made : Bool) : Statement (Instr.inputChange input made) := of_no_frame rfl

theorem alignmentExpiry : Statement Instr.alignmentExpiry := of_no_frame rfl

theorem debounceExpiry : Statement Instr.debounceExpiry := of_no_frame rfl

theorem breakFilterExpiry : Statement Instr.breakFilterExpiry := of_no_frame rfl

theorem resetAssert : Statement Instr.resetAssert := of_no_frame rfl

theorem resetRelease (baud1 baud0 : Bool) : Statement (Instr.resetRelease baud1 baud0) := of_no_frame rfl

theorem ovlAsserted : Statement Instr.ovlAsserted := of_no_frame rfl

theorem ovlReleased : Statement Instr.ovlReleased := of_no_frame rfl

theorem dwellExpiry : Statement Instr.dwellExpiry := of_no_frame rfl

theorem holdExpiry : Statement Instr.holdExpiry := of_no_frame rfl

theorem tripExpiry : Statement Instr.tripExpiry := of_no_frame rfl

theorem settleExpiry : Statement Instr.settleExpiry := of_no_frame rfl

theorem cycleOffSpanExpiry : Statement Instr.cycleOffSpanExpiry := of_no_frame rfl

theorem startUpTrainDone : Statement Instr.startUpTrainDone := of_no_frame rfl

theorem hailDone (lows : List Nat) : Statement (Instr.hailDone lows) := of_no_frame rfl

theorem callDone (slots : List LowSample) : Statement (Instr.callDone slots) := of_no_frame rfl

theorem echoDone (slots : List LowSample) : Statement (Instr.echoDone slots) := of_no_frame rfl

theorem nameDone (cells : List LowSample) : Statement (Instr.nameDone cells) := of_no_frame rfl

theorem measureDone (low : LowSample) : Statement (Instr.measureDone low) := of_no_frame rfl

theorem rollDone (cells : List LowSample) : Statement (Instr.rollDone cells) := of_no_frame rfl

theorem legOpenDone (cells : List LowSample) : Statement (Instr.legOpenDone cells) := of_no_frame rfl

theorem legCloseDone (cells : List LowSample) : Statement (Instr.legCloseDone cells) := of_no_frame rfl

theorem dropDone : Statement Instr.dropDone := of_no_frame rfl

theorem dataDone (cells : List LowSample) : Statement (Instr.dataDone cells) := of_no_frame rfl

theorem wakeTrainDone : Statement Instr.wakeTrainDone := of_no_frame rfl

theorem keepaliveTrainDone : Statement Instr.keepaliveTrainDone := of_no_frame rfl

theorem keepaliveExpiry : Statement Instr.keepaliveExpiry := of_no_frame rfl

theorem stuckLineExpiry : Statement Instr.stuckLineExpiry := of_no_frame rfl

theorem faultSample : Statement Instr.faultSample := of_no_frame rfl

theorem faultClear : Statement Instr.faultClear := of_no_frame rfl

theorem legSettleExpiry : Statement Instr.legSettleExpiry := of_no_frame rfl

theorem sweepRestExpiry : Statement Instr.sweepRestExpiry := of_no_frame rfl

theorem linkGapExpiry : Statement Instr.linkGapExpiry := of_no_frame rfl

theorem frameCheck (body : List Byte) (check : BitVec 16) : Statement (Instr.frameCheck body check) := of_no_frame rfl

theorem badRequest (kind tag : Byte) (payload : List Byte) : Statement (Instr.badRequest kind tag payload) := of_no_frame rfl

theorem txFrameDone : Statement Instr.txFrameDone := of_no_frame rfl

theorem status (tag : Byte) : Statement (Instr.status tag) := of_frame rfl (fun w => w) (fun _ => rfl)

theorem get (tag id : Byte) : Statement (Instr.get tag id) := of_frame rfl (fun w => w) (fun _ => rfl)

theorem set (tag id : Byte) (value : BitVec 16) : Statement (Instr.set tag id value) :=
  of_frame rfl (fun w => and_left (and_left w)) (fun w => by
    have a : id ≠ 0x06#8 := bne_iff_ne.1 (and_right (and_left w))
    have b : id ≠ 0x0A#8 := bne_iff_ne.1 (and_right w)
    show FrameReading.request (readSet tag id (byteOf (value.toNat / 256) ++ byteOf value.toNat)) = _
    rw [readSet, if_neg a, if_neg b, word16_join])

theorem setBeat (tag : Byte) (value : BitVec 16) : Statement (Instr.setBeat tag value) :=
  of_frame rfl (fun w => w) (fun _ => by
    show FrameReading.request (readSet tag 0x06#8 (byteOf (value.toNat / 256) ++ byteOf value.toNat)) = _
    rw [word16_join]; rfl)

theorem setKeepaliveMs (tag : Byte) (value : BitVec 16) : Statement (Instr.setKeepaliveMs tag value) :=
  of_frame rfl (fun w => w) (fun _ => by
    show FrameReading.request (readSet tag 0x0A#8 (byteOf (value.toNat / 256) ++ byteOf value.toNat)) = _
    rw [word16_join]; rfl)

theorem pin (tag : Byte) (stamp : Stamp) (handle : Byte) (expected : Option Byte) : Statement (Instr.pin tag stamp handle expected) :=
  match expected with
  | none => of_frame rfl (fun w => w) (fun _ => congrArg (fun x => FrameReading.request (Instr.pin tag x handle none)) (stamp_join stamp))
  | some k =>
    of_frame rfl (fun w => w) (fun _ => congrArg (fun x => FrameReading.request (Instr.pin tag x handle (some k))) (stamp_join stamp))

theorem unpin (tag : Byte) (stamp : Stamp) : Statement (Instr.unpin tag stamp) :=
  of_frame rfl (fun w => w) (fun _ => congrArg (fun x => FrameReading.request (Instr.unpin tag x)) (stamp_join stamp))

theorem pins (tag first : Byte) : Statement (Instr.pins tag first) := of_frame rfl (fun w => w) (fun _ => rfl)

theorem roster (tag first count : Byte) : Statement (Instr.roster tag first count) := of_frame rfl (fun w => w) (fun _ => rfl)

theorem entry (tag handle : Byte) : Statement (Instr.entry tag handle) := of_frame rfl (fun w => w) (fun _ => rfl)

theorem clearMarks (tag handle : Byte) : Statement (Instr.clearMarks tag handle) :=
  of_frame rfl (fun w => and_left w) (fun w => by
    show FrameReading.request (readClearMarks tag handle) = _
    rw [readClearMarks, if_neg (bne_iff_ne.1 (and_right w))])

theorem clearMarksAll (tag : Byte) : Statement (Instr.clearMarksAll tag) := of_frame rfl (fun w => w) (fun _ => rfl)

theorem forget (tag handle : Byte) : Statement (Instr.forget tag handle) := of_frame rfl (fun w => w) (fun _ => rfl)

theorem discoverRescan (tag : Byte) : Statement (Instr.discoverRescan tag) := of_frame rfl (fun w => w) (fun _ => rfl)

theorem discoverFull (tag : Byte) : Statement (Instr.discoverFull tag) := of_frame rfl (fun w => w) (fun _ => rfl)

theorem discoverClean (tag : Byte) : Statement (Instr.discoverClean tag) := of_frame rfl (fun w => w) (fun _ => rfl)

theorem exchange (tag handle : Byte) (urgent : Bool) (payload : List Byte) : Statement (Instr.exchange tag handle urgent payload) :=
  of_frame rfl (fun w => and_left w) (fun w => by
    have room : payload.length ≤ 32 := of_decide_eq_true (and_right w)
    have l : (byteOf payload.length).toNat = payload.length := by simp only [byteOf, BitVec.toNat_ofNat]; omega
    show readExchange tag handle (flagByte urgent) (byteOf payload.length) payload = _
    rw [readExchange, l, if_pos ⟨rfl, room⟩, flag_ne])

theorem roll (tag handle : Byte) (urgent : Bool) : Statement (Instr.roll tag handle urgent) :=
  of_frame rfl (fun w => w) (fun _ => by
    show FrameReading.request (Instr.roll tag handle (flagByte urgent != 0#8)) = _
    rw [flag_ne])

theorem calibrateRecord (tag handle : Byte) (mode : Option RoundMode) (ignoreInexact : Bool) : Statement (Instr.calibrateRecord tag handle mode ignoreInexact) :=
  of_frame rfl (fun w => w) (fun _ => by
    show readCalibrate tag handle 0#8 _ _ = _
    cases mode with
    | none => cases ignoreInexact <;> rfl
    | some m => cases m <;> cases ignoreInexact <;> rfl)

theorem calibrateProbe (tag handle : Byte) (mode : Option RoundMode) (ignoreInexact : Bool) : Statement (Instr.calibrateProbe tag handle mode ignoreInexact) :=
  of_frame rfl (fun w => w) (fun _ => by
    show readCalibrate tag handle 1#8 _ _ = _
    cases mode with
    | none => cases ignoreInexact <;> rfl
    | some m => cases m <;> cases ignoreInexact <;> rfl)

theorem wake (tag count low high : Byte) : Statement (Instr.wake tag count low high) := of_frame rfl (fun w => w) (fun _ => rfl)

theorem sweep (tag count : Byte) (stopOnChange : Bool) (interval : BitVec 16) : Statement (Instr.sweep tag count stopOnChange interval) :=
  of_frame rfl (fun w => w) (fun _ => by
    show FrameReading.request (Instr.sweep tag count ((flagByte stopOnChange).getLsbD 0)
      (byteOf (interval.toNat / 256) ++ byteOf interval.toNat)) = _
    rw [word16_join]
    cases stopOnChange <;> rfl)

theorem cancel (tag target : Byte) : Statement (Instr.cancel tag target) := of_frame rfl (fun w => w) (fun _ => rfl)

theorem cancelRunningDiscovery (tag : Byte) : Statement (Instr.cancelRunningDiscovery tag) :=
  of_frame rfl (fun w => w) (fun _ => rfl)

theorem cancelRunningSweep (tag : Byte) : Statement (Instr.cancelRunningSweep tag) := of_frame rfl (fun w => w) (fun _ => rfl)

theorem park (tag : Byte) : Statement (Instr.park tag) := of_frame rfl (fun w => w) (fun _ => rfl)

theorem power (tag : Byte) : Statement (Instr.power tag) := of_frame rfl (fun w => w) (fun _ => rfl)

theorem restartSession (tag : Byte) : Statement (Instr.restartSession tag) := of_frame rfl (fun w => w) (fun _ => rfl)

theorem restartFull (tag : Byte) : Statement (Instr.restartFull tag) := of_frame rfl (fun w => w) (fun _ => rfl)

theorem restartFullReset : Statement Instr.restartFullReset := of_no_frame rfl

theorem receivedByte (rx : RxByte) : Statement (Instr.receivedByte rx) := of_no_frame rfl

theorem tlLevelChange (high : Bool) : Statement (Instr.tlLevelChange high) := of_no_frame rfl

theorem pwmPeriod : Statement Instr.pwmPeriod := of_no_frame rfl

end Sys2Proof.Laws.RequestRoundTrip
end

