-- ==== Sys2Proof/Safety.lean ====
section
/-! DEFINITION. What the statements call a sound state of each block, and the words they use for replies and notices. -/

namespace Sys2Proof.Machine

/-! ### Words of the statements -/

/-- A command frame with this tag is taken in as a request (R159, R161): LINK takes frames, a slot is free, the tag is usable. -/
def State.Takes (s : State) (tag : Byte) : Prop :=
  s.deaf = false ∧ s.link.freeSlots ≠ 0 ∧ tag ≠ 0#8 ∧ s.link.outstanding.all (fun q => q.tag != tag) = true

/-- A notice is pending or on TXD (R163). -/
def State.Tells (s : State) (n : Notice) : Prop := n ∈ s.link.notices ∨ s.link.tx = some (.notice n)

/-- LINK right after a frame whose request was answered at once: the receiver is in HUNT, one more reply holds a slot, and no
request stays outstanding for it (R158, R160, R161). -/
def Link.replied (k : Link) (r : Reply) : Link :=
  { k with rx := .hunt, frame := [], gap := none, replies := k.replies ++ [r] }

/-- LINK right after a frame whose request stays outstanding (R158, R161). -/
def Link.held (k : Link) (tag kind : Byte) : Link :=
  { k with rx := .hunt, frame := [], gap := none, outstanding := k.outstanding ++ [⟨tag, kind⟩] }

/-- Nothing waits for the transmitter: it is busy, or there is no reply to send and no notice it may send (R162). -/
def State.Settled (s : State) : Prop :=
  s.link.tx = none → s.link.replies = [] ∧ (s.link.restarting = true ∨ s.link.notices = [])

/-- No claim on the tool line (Table 9-4). -/
def State.NoClaim (s : State) : Prop := ∀ b, s.claim b = none

/-- LINK once an outstanding request is answered (R160 to R162). -/
def Link.answered (k : Link) (q : Request) (r : Result) (payload : List Byte) : Link :=
  { k with
    outstanding := k.outstanding.filter (fun x => x.tag != q.tag)
    replies := k.replies ++ [⟨q.kind + 0x80#8, q.tag, r, payload⟩] }

/-- The request `q` is outstanding, and is the first with its tag (R161). -/
def State.Owes (s : State) (q : Request) : Prop := s.link.outstanding.find? (fun x => x.tag == q.tag) = some q

/-- The replies that hold a slot, oldest first, by tag and result (R162). -/
def State.said (s : State) : List (Byte × Result) := s.link.replies.map (fun r => (r.tag, r.result))

/-- LINE once an operation has ended by completion or a decode outcome (R29, R43). -/
def Line.ended (l : Line) (t : Settings) : Line :=
  { l with
    state := .idle, op := none, watch := none, tlHigh := true
    keepalive := if t.keepaliveMs = 0 then none else some t.keepaliveMs }

/-- LINE once an operation is started; it drives TL from its first symbol on (R29, R44). -/
def Line.started (l : Line) (op : LineOp) : Line := { l with state := .busy, op := some op, watch := none, tlHigh := true }

/-- LINE once the supply has left ON (R28); what the capture unit keeps of an operation cut short is free (R39, log 32). -/
def Line.unpowered (l : Line) : Line :=
  { l.cut with
    state := .off, route := [], keepalive := none, keepaliveDue := false, startUp := none, watch := none
    sampler := none, highWatch := none }

/-- SSW at a ramp start with these settings (R16, R18). -/
def Ssw.ramping (w : Ssw) (t : Settings) : Ssw :=
  if w.ovl then
    { w with
      state := .holding, duty := 1, step := none, hold := some t.holdMs, trip := none, dwell := t.rampMs * 1000 / 16
      pwm := some 1 }
  else
    { w with
      state := .ramping, duty := 1, step := some (t.rampMs * 1000 / 16), hold := none, trip := none
      dwell := t.rampMs * 1000 / 16, pwm := some 1 }

/-- DISC once an automatic discovery is armed, when AUTO_DISCOVER is on (R98). -/
def Disc.armedBy (d : Disc) (t : Settings) : Disc :=
  if t.autoDiscover then { d with state := .armed, origin := some .auto, mode := some .rescan } else d

/-- The number of live entries. -/
def Rstr.liveCount (r : Rstr) : Nat := (r.entries.filter (fun e => e.state != .departed)).length

/-- The roster once every live entry has been made DEPARTED as one bulk event (R70, R75). -/
def Rstr.allDeparted (r : Rstr) : Rstr :=
  { r with
    entries := r.entries.map (fun e => if e.state = .departed then e else { e with state := .departed })
    generation := advanceBy r.liveCount r.generation }

/-- MMON where its input set puts it outside a session (R2, R3, R13). -/
def Mmon.approach (m : Mmon) (debounceMs : Nat) : Mmon :=
  match m.inputs.cls with
  | .none =>
    { state := .opened, debounce := none, breakFilter := none, alignment := none, misaligned := false, inputs := m.inputs }
  | .some =>
    { state := .partialMate, debounce := none, breakFilter := none, alignment := some 500, misaligned := false
      inputs := m.inputs }
  | .all =>
    { state := .qualifying, debounce := some debounceMs, breakFilter := none, alignment := none, misaligned := false
      inputs := m.inputs }

/-- DISC gone IDLE: origin and mode absent, both stacks empty, leaf and pending DROP absent (R96, R116, R119). -/
def Disc.idled (d : Disc) : Disc :=
  { d with
    state := .idle, origin := none, mode := none, waiting := false, levels := [], frames := [], leaf := none
    pendingDrop := none, next := none, cancelled := false }

/-- How an event from outside leaves DISC, with the pass record it leaves: IDLE, line-open seen clear (R96). A running discovery ends
ABORTED with the reason, also when its CANCEL has been taken (log 37), its record carrying the generation before the event's departures
(R116, R119; log 34), and an automatic one is told by DISCOVERY_DONE; an arming is dropped, and the record of its predecessor stays
(R98). -/
def State.DiscStopped (s t : State) (why : AbortReason) (pass : Pass) : Prop :=
  let off := { s.disc.idled with lineOpenSeen := false, pass }
  (s.disc.state = .idle → t.disc = { s.disc with lineOpenSeen := false, pass }) ∧
    (s.disc.state = .armed → s.disc.origin = some .auto → t.disc = off) ∧
    (s.disc.running = true → ∃ made, t.disc = { off with result := some made } ∧
      made.outcome = some .aborted ∧ made.reason = some why ∧ made.generation = some s.rstr.generation ∧
      (∀ rec, s.disc.result = some rec →
        made = { rec with outcome := some .aborted, reason := some why, generation := some s.rstr.generation }) ∧
      (s.disc.origin = some .auto → t.Tells (.discoveryDone made)))

/-- JOBQ empty: no job queued, no sweep, no holder (R155). -/
def State.JobqEmpty (t : State) : Prop := t.jobq = ⟨[], [], none, none⟩

/-- What a trip leaves (R21, R26, R28, R75, Table 2-3). -/
def State.TrippedFrom (s t : State) (cause : TripCause) (notice : SupplyCause) : Prop :=
  t.mmon = s.mmon ∧
    t.ssw = { s.ssw with state := .tripped, duty := 0, step := none, hold := none, trip := none, pwm := none, cause } ∧
    t.line = s.line.unpowered ∧ t.rate = ⟨none⟩ ∧ t.pins = s.pins ∧ t.JobqEmpty ∧ s.DiscStopped t .supply s.disc.pass ∧
    t.rstr = { s.rstr.allDeparted with reserved := if s.disc.running then 0 else s.rstr.reserved } ∧
    t.Tells (.supply .tripped s.ssw.parked notice s.ssw.duty s.rstr.liveCount)

/-- What a session end leaves in every block but MMON (R11, Table 1-4). -/
def State.EndedFrom (s t : State) : Prop :=
  t.ssw = { s.ssw with
    state := .off, duty := 0, step := none, hold := none, trip := none, pwm := none, parked := false } ∧
    t.line = s.line.unpowered ∧ t.rate = ⟨none⟩ ∧ t.pins = s.pins ∧ t.JobqEmpty ∧ s.DiscStopped t .sessionEnd Pass.cleared ∧
    t.rstr = { s.rstr with entries := [], generation := 0, reserved := 0 } ∧
    t.link.settings = s.link.settings ∧ t.link.deferred = s.link.deferred

/-- The tags of the requests a flush answers, in its order: the discovery, the job in flight, the lanes, the sweep (R155, R162). -/
def State.flushTags (s : State) : List Byte :=
  (match s.disc.origin with
   | some (.requested tag) => if s.disc.running then [tag] else []
   | _ => []) ++
    (s.jobq.inFlight.toList ++ s.jobq.urgent ++ s.jobq.normal).map (fun j => j.tag) ++ (s.jobq.sweep.map (fun w => w.tag)).toList

/-- What a flush answers them with: an ENDING sweep CANCELLED (R116, R155), but RESTARTED like the rest at a RESTART FULL (R169). -/
def State.flushSays (s : State) (code : Result) : List (Byte × Result) :=
  (match s.disc.origin with
   | some (.requested tag) => if s.disc.running then [(tag, .aborted)] else []
   | _ => []) ++
    (s.jobq.inFlight.toList ++ s.jobq.urgent ++ s.jobq.normal).map (fun j => (j.tag, code)) ++
    (s.jobq.sweep.map (fun w => (w.tag, if w.phase = .ending ∧ code ≠ .restarted then .cancelled else code))).toList

/-- Every request a flush answers is outstanding, each under a tag of its own (R161). -/
def State.FlushReady (s : State) : Prop :=
  s.flushTags.Nodup ∧ ∀ tag ∈ s.flushTags, ∃ q ∈ s.link.outstanding, q.tag = tag

/-- Good bytes received one after another (R158). -/
def State.receive (s : State) : List Byte → Out
  | [] => .next s
  | b :: bs =>
    match exec (.receivedByte (.good b)) s with
    | .next t => t.receive bs
    | o => o

/-- DISC walks a segment and has no DROP to send and no CANCEL to honour (R97, R127). -/
def State.Walks (s : State) : Prop :=
  s.disc.cancelled = false ∧ s.disc.pendingDrop = none ∧ ∃ top below, s.disc.levels = top :: below ∧ top.walkDone = false

/-- DISC once it has decided a step and asked for the line (R97). -/
def Disc.decided (d : Disc) (st : DiscStep) : Disc :=
  { d with
    next := some st, waiting := true
    state := match st with
      | .hail | .call => .walking
      | .echo | .naming | .pendingDrop => .resolving
      | .calibration => .measuring
      | .opening => .opening
      | .returnCheck => .returning }

/-- JOBQ once the holder has released the line (R143). -/
def Jobq.released (q : Jobq) : Jobq := { q with grant := none }

/-- A holder with no route switch under way and no tainted operation. -/
def State.Holds (s : State) (w : Work) : Prop := s.jobq.grant = some ⟨w, none, none⟩

/-- The leaf record of the next final digit of a leaf round, its stamp that of the round's 11 digits and this one (R105). -/
def Leaf.following (l : Leaf) (d : Nibble) (ds : List Nibble) : Leaf :=
  { digits := l.digits, remaining := ds, stamp := stampOfDigits (l.digits ++ [d]), tries := 0, tryLimit := none, nonces := none
    twins := false, choice := none, mismatch := false, calib := none }

/-- The leaf record with the nonce in hand done (R108). -/
def Leaf.nonceDone (l : Leaf) : Leaf :=
  { l with nonces := l.nonces.map List.tail, choice := none, mismatch := false, calib := none }

/-- A pass with one more member left unnamed, its failed mark set (R109, R114); the count stops at 255 (log 49). -/
def Pass.missed (p : Pass) : Pass := { p with failed := true, leftUnnamed := min (p.leftUnnamed + 1) 255 }

/-- DISC once a step that decides no leg has failed at the return (Table 7-5): a hail, a CALL round, an ECHO, a naming, a pending DROP
or a calibration. -/
def Disc.failsWith (d : Disc) (st : DiscStep) (x : Disc) : Prop :=
  (st = .hail ∧ x = { d with pass := { d.pass with failed := true }, frames := [] }) ∨
    ((st = .call ∨ st = .pendingDrop) ∧ x = { d with pass := { d.pass with failed := true } }) ∨
    (st = .echo ∧ x = { d with
      pass := d.pass.missed
      leaf := d.leaf.bind (fun l => match l.remaining with
        | [] => none
        | n :: ns => some (l.following n ns)) }) ∨
    (st = .naming ∧ x = { d with pass := d.pass.missed, leaf := d.leaf.map Leaf.nonceDone }) ∨
    (st = .calibration ∧ x = { d with
      pass := { d.pass with failed := true }, leaf := d.leaf.map Leaf.nonceDone
      result := d.result.map (fun r => { r with calibFailures := min (r.calibFailures + 1) 255 }) })

/-- The record of a discovery that has reached its end (R119, R133). -/
def ResultRecord.reached (r : ResultRecord) (abandoned : Bool) (generation : Nat) : ResultRecord :=
  { r with
    outcome := some (if r.incomplete = 0 ∧ r.notEntered = 0 ∧ abandoned = false then .complete else .incomplete)
    reason := none, generation := some generation }

/-- The record of a discovery that is ended for a reason (R115 to R117, R119). -/
def ResultRecord.stopped (r : ResultRecord) (why : AbortReason) (generation : Nat) : ResultRecord :=
  { r with outcome := some .aborted, reason := some why, generation := some generation }

/-- The result code of an outcome (R119). -/
def DiscOutcome.result : DiscOutcome → Result
  | .complete => .complete | .incomplete => .incomplete | .aborted => .aborted

/-- LINK once the end of the discovery has been told: the DISCOVER request answered with the outcome and the record, or
DISCOVERY_DONE raised (R119). -/
def State.DiscTold (s : State) (made : ResultRecord) (k : Link) : Prop :=
  ∃ o, made.outcome = some o ∧
    (s.disc.origin = some .auto ∧ k = { s.link with notices := putNotice (.discoveryDone made) s.link.notices } ∨
      ∃ q, s.disc.origin = some (.requested q.tag) ∧ s.Owes q ∧ k = s.link.answered q o.result made.bytes)

/-- The part once a discovery has ended with a record: no handle reserved, DISC IDLE (R71, R119). -/
def State.discEnded (s : State) (made : ResultRecord) (k : Link) : State :=
  { s with rstr := { s.rstr with reserved := 0 }, disc := { s.disc.idled with result := some made }, link := k }

/-- The record once the walk of a segment has ended with a pass (R113). -/
def ResultRecord.walked (r : ResultRecord) (p : Pass) : ResultRecord :=
  { r with
    leftUnnamed := min (r.leftUnnamed + p.leftUnnamed) 255
    segments := min (r.segments + 1) 255
    incomplete := if p.overflowed || p.failed || p.outOfHandles then min (r.incomplete + 1) 255 else r.incomplete
    largestPass := max r.largestPass p.number }

/-- A pass after which the segment is walked again (R113). -/
def Pass.again (p : Pass) : Prop := p.outOfHandles = false ∧ (p.overflowed = true ∨ p.failed = true) ∧ p.number < p.kept

/-- The roster with one more failed line attempt at an entry (R74). -/
def Rstr.erred (r : Rstr) (h : Nat) : Rstr :=
  { r with entries := r.entries.map (fun e => if e.handle = h then { e with errors := min (e.errors + 1) 255 } else e) }

/-- The roster bars a LEG_OPEN of a step at the end of a route: no live JUNCTION entry with that path holds its handle, or the leg is
none of its legs (R121). -/
def Rstr.Bars (r : Rstr) (route : Route) (st : RouteStep) : Prop :=
  ∀ c, r.find st.junction = some c →
    c.state = .departed ∨ kindIsJunction c.kind = false ∨ c.path ≠ route ∨ st.leg = 0 ∨ kindLegs c.kind < st.leg

/-- The cursor at the next junction index with leg 1 (R127). -/
def Level.atNextJunction (l : Level) : Level := { l with index := l.index + 1, leg := 1 }

/-- The cursor at the next leg of a junction with so many legs, or at the next junction after its last leg (R128). -/
def Level.atNextLeg (l : Level) (legs : Nat) : Level := if l.leg < legs then { l with leg := l.leg + 1 } else l.atNextJunction

/-- The cursor of the top record stands at a listed junction whose handle an entry holds (Table 8-3). -/
def State.AtJunction (s : State) (top : Level) (j : Listed) (c : Entry) : Prop :=
  top.junctions[top.index]? = some j ∧ s.rstr.find j.handle = some c

/-- The part once a step of a discovery that goes on is over: DISC has released the line and decided its next step, and the arbiter
has granted what it may (R97, R142). The statements on HAIL_DONE give the decisions, those on the arbiter the grants. -/
def State.onward (t before : State) : State :=
  State.kick (State.regrant (State.discNext { t with jobq := { t.jobq with grant := none } }) before)

/-- DISC once a restoration has failed with the route cut to a length: every record above the one on whose segment the route ends is
popped with the work it carried, and the abandoned mark is set (R135, R136); the counts of the result record stay (log 50). -/
def Disc.restoreLost (d : Disc) (length : Nat) : Disc :=
  { d with
    levels := d.levels.filter (fun l => decide (l.depth ≤ length)), frames := [], pass := Pass.cleared, leaf := none
    abandoned := true }

/-- LINE once an operation that clocked lows has ended, the capture unit at the values of its last low (R39). -/
def Line.endedWith (l : Line) (t : Settings) (c : Capture) : Line := { l.ended t with capture := c }

/-- Every step of the open route names a live entry (R120). -/
def State.RouteLive (s : State) : Prop := ∀ st ∈ s.line.route, ∃ e, s.rstr.find st.junction = some e ∧ e.state ≠ .departed

/-- The part once an armed discovery in a mode has left ARMED: the root level is taken up, its junctions seeded from the roster, and
DISC asks for its hail; an automatic discovery starts here, with a fresh record (R100, R101, R112). -/
def State.rooted (s : State) (m : DiscMode) : State :=
  let here := s.rstr.entries.filter (fun e => e.state != .departed && kindIsJunction e.kind && e.path == [])
  let beyond := (here.drop 8).map (fun e => e.handle)
  let auto := s.disc.origin = some .auto
  let record : Option ResultRecord :=
    if auto then some ⟨m, true, none, none, 0, 0, 0, 0, 0, 0, 0, 0, 0, 0, 0, 0, none⟩ else s.disc.result
  { s with
    rstr := { s.rstr with
      entries := s.rstr.entries.map (fun e => if beyond.contains e.handle then { e with notEntered := true } else e) }
    disc := Disc.decided { s.disc with
      frames := [], pass := Pass.cleared, leaf := none
      levels := [⟨0, none, (here.take 8).map (fun e => ⟨e.handle, e.namedAt⟩), 0, 1, false⟩]
      abandoned := if auto then false else s.disc.abandoned
      result := record.map (fun r => { r with notEntered := r.notEntered + beyond.length }) } .hail }

/-- What a LINE notice names as in flight (R47). -/
def Line.names (l : Line) : InFlight :=
  match l.op with
  | none => .nothing
  | some op =>
    match op.kind with
    | .hail => .hail
    | .startUp _ | .wake _ => .wake
    | .keepalive _ => .keepalive
    | .call _ => .verb 1
    | .echo _ => .verb 2
    | .name _ _ _ => .verb 3
    | .measure => .verb 4
    | .roll => .verb 5
    | .legOpen _ => .verb 6
    | .legClose _ => .verb 7
    | .drop => .verb 8
    | .data _ => .verb 9

/-- An operation of a kind is in flight. -/
def State.Runs (s : State) (k : OpKind) (op : LineOp) : Prop := s.line.op = some op ∧ op.kind = k

/-- The roster `t` is `r` but for the entry at `h`, which is `e`, and the generation. -/
def Rstr.Puts (r t : Rstr) (h : Nat) (e : Entry) : Prop :=
  t.find h = some e ∧ (∀ x, x ≠ h → t.find x = r.find x) ∧ t.reserved = r.reserved ∧ t.clampedSummary = r.clampedSummary

/-- A decode of a reply of one byte (R40, R41). -/
def State.Reads (s : State) (op : LineOp) (cells : List LowSample) (k : Byte) : Prop :=
  (decodeByteReply s.line.beat op.trim cells).reply = .ok [k]

/-- A reply that ends in a decode outcome (R41). -/
def State.Misreads (s : State) (op : LineOp) (cells : List LowSample) (e : DecodeFail) : Prop :=
  (decodeByteReply s.line.beat op.trim cells).reply = .error e

/-- The capture unit after a reply of one byte (R39). -/
def State.lastCell (s : State) (op : LineOp) (cells : List LowSample) : Capture :=
  (decodeByteReply s.line.beat op.trim cells).capture

/-- The conditions of a grant (R141). -/
def State.Free (s : State) : Prop :=
  s.jobq.grant = none ∧ s.line.state = .idle ∧ s.disc.lineOpenSeen = true ∧ s.ssw.state = .on ∧ s.mmon.state = .mated

/-- JOBQ with the line granted to some work. -/
def Jobq.granted (q : Jobq) (w : Work) : Jobq := { q with grant := some ⟨w, none, none⟩ }

/-! ### How the sweep and a route switch go on -/

/-- A pass of the sweep `w` is over in `t`, its last roll counted: `u` is the part once the sweep has ended, or rests, or with an interval
of 0 has begun its next pass (R153). -/
def State.PassOver (t : State) (w : Sweep) (u : State) : Prop :=
  let done := min (w.passes + 1) 65535
  let total := min (w.totalChanges + w.passChanges) 65535
  let rest := if w.rolled = false ∧ w.interval < 100 then 100 else w.interval
  let told := { t.link with
    notices := if 1 ≤ w.passChanges then putNotice (.roster .sweep t.rstr.generation w.passChanges 0 0) t.link.notices
      else t.link.notices }
  let ends := (1 ≤ w.count ∧ done = w.count) ∨ (w.stopOnChange = true ∧ 1 ≤ w.passChanges)
  (¬ends ∧ u = { t with
    link := told
    jobq := { t.jobq with sweep := some { w with
      passes := done, totalChanges := total, position := 0, passChanges := 0, rolled := false
      phase := if rest = 0 then .rolling else .resting
      rest := if rest = 0 then none else some rest } } }) ∨
  ∃ q, ends ∧ t.Owes q ∧ q.tag = w.tag ∧ u = { t with
    jobq := { t.jobq with sweep := none }
    link := told.answered q (if w.clamped then .clamped else .ok) (word16 done ++ word16 total ++ word16 w.interval) }

/-- The sweep `w` without the line goes on from `t`: `u` is the part once it has found its next entry, or its pass is over (R151, R153),
and so is the pass without any entry that an interval of 0 starts at once (log 20); an ENDING sweep is answered CANCELLED (R154). -/
def State.SweepGoesOn (t : State) (w : Sweep) (u : State) : Prop :=
  let claims := fun (v : State) => ∃ y, v.jobq.sweep = some y ∧ y.phase = .rolling
  (w.phase = .rolling ∧ (∃ e, t.rstr.nextLive w.position = some e) ∧ u = { t with jobq := { t.jobq with sweep := some w } }) ∨
  (w.phase = .rolling ∧ t.rstr.nextLive w.position = none ∧ t.PassOver w u ∧
    (claims u → ∃ e, t.rstr.nextLive 0 = some e)) ∨
  (w.phase = .rolling ∧ t.rstr.nextLive w.position = none ∧ t.rstr.nextLive 0 = none ∧
    ∃ v y, t.PassOver w v ∧ v.jobq.sweep = some y ∧ y.phase = .rolling ∧ v.PassOver y u) ∨
  ∃ q, w.phase = .ending ∧ t.Owes q ∧ q.tag = w.tag ∧ u = { t with
    jobq := { t.jobq with sweep := none }
    link := t.link.answered q .cancelled (word16 w.passes ++ word16 w.totalChanges ++ word16 w.interval) }

/-- The next leg exchange of a switch to a target (R121): the open route's last step beyond the prefix it shares with the target is
closed, or else the target's first step beyond the open route is opened, the roster allowing it. -/
def State.SwitchAsks (t : State) (target : Route) (op : LineOp) : Prop :=
  (∃ (pre rest more : Route) (st : RouteStep), t.line.route = pre ++ more ++ [st] ∧ target = pre ++ rest ∧
    rest.head? ≠ (more ++ [st]).head? ∧ op = t.lineOp (.legClose st.leg) st.junction) ∨
  ∃ (st : RouteStep) (rest : Route) (c : Entry), target = t.line.route ++ st :: rest ∧ t.rstr.find st.junction = some c ∧
    c.state ≠ .departed ∧ kindIsJunction c.kind = true ∧ c.path = t.line.route ∧ 1 ≤ st.leg ∧ st.leg ≤ kindLegs c.kind ∧
    op = t.lineOp (.legOpen st.leg) st.junction

/-- The roster bars the target's first step beyond the open route, so that a switch to it ends ROUTE_FAIL (R121). -/
def State.SwitchBarred (t : State) (target : Route) : Prop :=
  ∃ (st : RouteStep) (rest : Route), target = t.line.route ++ st :: rest ∧ t.rstr.Bars t.line.route st

/-- The part once a job has asked LINE for its own operation, a CALIBRATE with its choices fixed (R48, R146 to R150). -/
def State.jobAsks (t : State) (j : Job) (retries used : Nat) : State :=
  let op := match j.kind with
    | .exchange p => t.lineOp (.data p) j.handle
    | .roll => t.lineOp .roll j.handle
    | .calibrate _ _ _ => t.lineOp .measure j.handle
    | .wake train _ => t.lineOp (.wake train) 0
    | .drop => t.lineOp .drop j.handle
  { t with
    line := t.line.started op, jobq := t.jobq.granted (.job j retries used)
    rate := match j.kind with
      | .calibrate form mode ignore => ⟨some ⟨mode.getD t.link.settings.roundMode, form, ignore⟩⟩
      | .exchange _ | .roll | .wake _ _ | .drop => t.rate }

/-- The route switch of the holder `w` goes on from `t`, in an event that struck the state `before`: `u` is the part once its next leg
exchange is asked for (R121); or, at its target, once the job, the sweep's roll or the restored step has gone on (R134, R145, R152); or,
barred by the roster, once a job has been answered ROUTE_FAIL, a sweep has moved on unjudged, or a restoration has been given up
(R136, R145, R152). What an opening and a closing do at their ends, the statements on leg exchanges and leg settles say. -/
def State.SwitchGoesOn (before t : State) (w : Work) (sw : Switch) (u : State) : Prop :=
  (∃ op, t.SwitchAsks sw.target op ∧ u = { t with
    line := t.line.started op
    jobq := { t.jobq with grant := some ⟨w, some { sw with used := 0, settle := none, resume := false }, none⟩ } }) ∨
  (∃ j r n, w = .job j r n ∧
    ((sw.target = t.line.route ∧ u = t.jobAsks j r n) ∨
      ∃ q, t.SwitchBarred sw.target ∧ t.Owes q ∧ q.tag = j.tag ∧ u = State.regrant { t with
        rate := ⟨none⟩, jobq := t.jobq.released, link := t.link.answered q .routeFail [] } before)) ∨
  (∃ h r n, w = .sweep h r n ∧
    ((sw.target = t.line.route ∧ u = { t with line := t.line.started (t.lineOp .roll h), jobq := t.jobq.granted w }) ∨
      ∃ y v, t.SwitchBarred sw.target ∧ t.jobq.sweep = some y ∧
        State.SweepGoesOn { t with jobq := t.jobq.released } { y with position := h, rolled := true } v ∧ u = v.regrant before)) ∨
  ∃ d, w = .disc d ∧ sw.purpose = .restore ∧
    ((sw.target = t.line.route ∧ u = State.regrant (State.stepBody { t with jobq := t.jobq.granted w } d) before) ∨
      ∃ top below, t.SwitchBarred sw.target ∧ t.disc.cancelled = false ∧
        (t.disc.restoreLost t.line.route.length).levels = top :: below ∧ u = State.regrant (State.discNext { t with
          jobq := t.jobq.released
          disc := { t.disc.restoreLost t.line.route.length with levels := top.atNextJunction :: below } }) before)

/-! ### LINK -/

/-- At most 24 slots are reserved or holding (R160). -/
def State.SlotsBounded (s : State) : Prop := s.link.replies.length + s.link.outstanding.length ≤ Config.replySlots

/-- The pending-notice list holds at most one notice of each kind (R163). -/
def State.NoticesDistinct (s : State) : Prop := (s.link.notices.map Notice.kind).Nodup

/-- The three values BEAT may take (Table 3-1). -/
def beatValid (b : Nat) : Bool := b == 40 || b == 80 || b == 160

/-- Every setting is in its range (Table 10-4). -/
def Settings.valid (t : Settings) : Bool :=
  beatValid t.beat &&
  decide (2 ≤ t.mateDebounceMs ∧ t.mateDebounceMs ≤ 250 ∧ t.breakFilterMs ≤ 20 ∧ 1 ≤ t.rampMs ∧ t.rampMs ≤ 100 ∧
    1 ≤ t.holdMs ∧ t.holdMs ≤ 50 ∧ 1 ≤ t.settleMs ∧ t.settleMs ≤ 200) &&
  decide (t.wakeCount ≤ 64 ∧ 1 ≤ t.wakeLow ∧ t.wakeLow ≤ 15 ∧ 1 ≤ t.wakeHigh ∧ t.wakeHigh ≤ 15 ∧ t.keepaliveMs ≤ 5000 ∧
    3 ≤ t.answerWait ∧ t.answerWait ≤ 31 ∧ 1 ≤ t.nonceTries ∧ t.nonceTries ≤ 8 ∧ 1 ≤ t.walkPasses ∧ t.walkPasses ≤ 8) &&
  decide (t.nameRetries ≤ 3 ∧ t.stepRetries ≤ 3 ∧ t.exchangeRetries ≤ 3 ∧ t.maxDepth ≤ 4 ∧ 1 ≤ t.legSettleMs ∧
    t.legSettleMs ≤ 100 ∧ 1 ≤ t.missLimit ∧ t.missLimit ≤ 15 ∧ t.driftLimit ≤ 127 ∧ 1 ≤ t.dynBase ∧ t.dynBase ≤ 126)

/-- The settings table and the BEAT in use hold values of their ranges (R166, R27). -/
def State.SettingsSound (s : State) : Prop := s.link.settings.valid = true ∧ beatValid s.line.beat = true

/-! ### JOBQ -/

/-- At most 4 urgent and 12 normal jobs are queued (R138). -/
def State.LanesBounded (s : State) : Prop :=
  s.jobq.urgent.length ≤ Config.urgentRoom ∧ s.jobq.normal.length ≤ Config.normalRoom

/-! ### SSW and LINE -/

/-- The duty level reads 1..16 in RAMPING and HOLDING, 16 in ON, and 0 in OFF, CYCLING and TRIPPED (R15). -/
def Ssw.dutySound (w : Ssw) : Bool :=
  match w.state with
  | .ramping | .holding => decide (1 ≤ w.duty ∧ w.duty ≤ Config.topDuty)
  | .on => w.duty == Config.topDuty
  | .off | .cycling | .tripped => w.duty == 0

/-- The supply is RAMPING, HOLDING, ON or CYCLING. -/
def Ssw.powered (w : Ssw) : Bool := w.state != .off && w.state != .tripped

/-- The duty level agrees with the supply state, and the supply is powered only in a live session (R15). -/
def State.SupplySound (s : State) : Prop := s.ssw.dutySound = true ∧ (s.ssw.powered = true → s.live = true)

/-- LINE is out of OFF only while the supply is ON, and an operation is in flight only while the supply is ON and MMON is MATED
(R28, R29). -/
def State.LineSupplied (s : State) : Prop :=
  (s.line.state ≠ .off → s.ssw.state = .on) ∧
    (s.line.op.isSome = true → s.line.state ≠ .off ∧ s.mmon.state = .mated)

/-! ### PINS and RSTR -/

/-- A handle of 1..126. -/
def handleValid (h : Nat) : Prop := 1 ≤ h ∧ h ≤ Config.topHandle

/-- The pin table: at most 32 pins in ascending handle order, no two with one stamp (R86). -/
def pinsValid (ps : List Pin) : Prop :=
  ps.length ≤ Config.pinRoom ∧ (ps.map (fun p => p.handle)).Pairwise (· < ·) ∧ (ps.map (fun p => p.stamp)).Nodup ∧
    ∀ p ∈ ps, handleValid p.handle

/-- The pin table is sound (R86). -/
def State.PinsSound (s : State) : Prop := pinsValid s.pins

/-- The roster: entries in ascending handle order with handles 1..126, the reserved handle held by none, the generation in its
range (R63, R69, R71). -/
def Rstr.valid (r : Rstr) : Prop :=
  (r.entries.map (fun e => e.handle)).Pairwise (· < ·) ∧ (∀ e ∈ r.entries, handleValid e.handle) ∧
    (∀ e ∈ r.entries, e.handle ≠ r.reserved) ∧ r.reserved ≤ Config.topHandle ∧ r.generation ≤ 65535

/-- The choice that the current leaf holds names a handle of 1..126. -/
def Disc.choiceValid (d : Disc) : Prop := ∀ l, d.leaf = some l → ∀ c, l.choice = some c → handleValid c.handle

/-- The roster is sound, with what keeps it so: a sound choice in hand, sound pins, and DYN_BASE a handle (R63). -/
def State.RosterSound (s : State) : Prop :=
  s.rstr.valid ∧ s.disc.choiceValid ∧ pinsValid s.pins ∧ handleValid s.link.settings.dynBase

/-- The roster is empty outside a session (R63), in a state whose supply and line are sound. -/
def State.RosterNeedsSession (s : State) : Prop :=
  s.SupplySound ∧ s.LineSupplied ∧ (s.live = false → s.rstr.entries = [])

/-! ### Paths, the open route and the stacks (R65, R76, R104, R120, R126) -/

/-- Every entry's path has at most 4 steps; each step names a JUNCTION entry whose own path is the steps before it, with a leg it
has; and an entry whose path passes through a DEPARTED junction is DEPARTED (R76). -/
def Rstr.PathsSound (r : Rstr) : Prop :=
  ∀ h e, r.find h = some e → e.path.length ≤ Config.routeRoom ∧ ∀ i st, e.path[i]? = some st → ∃ j, r.find st.junction = some j ∧
    j.isJunction = true ∧ j.path = e.path.take i ∧ 1 ≤ st.leg ∧ st.leg ≤ kindLegs j.kind ∧
    (j.state = .departed → e.state = .departed)

/-- A route has at most 4 steps, and each names a live JUNCTION entry whose own path is the steps before it, with a leg it has
(R120). -/
def Rstr.RouteSound (r : Rstr) (route : Route) : Prop :=
  route.length ≤ Config.routeRoom ∧ ∀ i st, route[i]? = some st → r.stepGood (route.take i) st = true

/-- No step of a route names a junction. -/
def Route.Avoids (route : Route) (j : Nat) : Prop := ∀ st ∈ route, st.junction ≠ j

/-- The levels of the stack, top first: each one deeper than the one below, an entry step on every record but the root, and a
cursor past leg 1 only where a leg may be opened (R126, R127). -/
def levelsSound : List Level → Prop
  | [] => True
  | l :: ls => l.depth = ls.length ∧ (l.entry = none ↔ ls = []) ∧ (l.leg = 1 ∨ ls.length < Config.routeRoom) ∧ levelsSound ls

/-- The prefix stack holds at most 48 frames and the level stack at most 5 sound records (R104, R126). -/
def Disc.StacksSound (d : Disc) : Prop :=
  d.frames.length ≤ Config.frameRoom ∧ d.levels.length ≤ Config.routeRoom + 1 ∧ levelsSound d.levels

/-- The top record may have a leg opened or checked behind it: it is not the fifth. -/
def Disc.LegRoom (d : Disc) : Prop := d.levels.length ≤ Config.routeRoom

/-- The steps of descent and return (R128, R130). -/
def DiscStep.descends (st : DiscStep) : Prop := st = .opening ∨ st = .returnCheck

/-- A switch in progress aims at a route of at most 4 steps that its holder may ask for (R121, R128, R130, R134): a job's leads to
its entry and not past it; an opening goes one leg beyond the level route; any other switch of DISC ends on the level route. -/
def State.SwitchSound (s : State) (w : Work) (sw : Switch) : Prop :=
  sw.target.length ≤ Config.routeRoom ∧ (∀ j r u, w = .job j r u → Route.Avoids sw.target j.handle) ∧
    ∀ d, w = .disc d →
      (sw.purpose = .opening ∨ sw.purpose = .closing → s.disc.LegRoom) ∧
      (sw.purpose = .opening → ∃ st, s.disc.cursorStep = some st ∧ sw.target = s.disc.levelRoute ++ [st]) ∧
      (sw.purpose ≠ .opening → sw.target = s.disc.levelRoute)

/-- An operation in flight or tainted under a grant: a LEG_OPEN extends the open route by a step that the roster allows; a job's
DROP names no junction of the open route; a return check's ROLL none of the level route's. -/
def State.OpSound (s : State) (g : Grant) (op : LineOp) : Prop :=
  (∀ leg sw, op.kind = .legOpen leg → g.switch = some sw →
    s.line.route.length < sw.target.length ∧ s.rstr.stepGood s.line.route ⟨op.audience, leg⟩ = true) ∧
  (∀ j r u, op.kind = .drop → g.work = .job j r u → Route.Avoids s.line.route j.handle) ∧
  ∀ d, op.kind = .roll → g.work = .disc d →
    s.disc.LegRoom ∧ Route.Avoids (s.line.route.take s.disc.levelRoute.length) op.audience

/-- A grant stands only with the supply ON in a live session, LINE neither OFF nor FAULTED and no start-up train owed; nothing runs
while a tainted operation or a leg settle is waited out; a step of DISC belongs to a discovery under way, which has decided no
further step. -/
structure State.GrantSound (s : State) (g : Grant) : Prop where
  supplied : s.ssw.state = .on ∧ s.live = true
  lit : s.line.state = .idle ∨ s.line.state = .busy
  owed : s.line.startUp = none
  tainted : g.tainted ≠ none → s.line.op = none
  disc : ∀ d, g.work = .disc d → s.disc.state ≠ .idle ∧ s.disc.state ≠ .armed ∧ s.disc.next = none ∧
    (d.step.descends → s.disc.LegRoom)
  switch : ∀ sw, g.switch = some sw → s.SwitchSound g.work sw ∧
    (sw.settle ≠ none ∨ sw.resume = true → s.line.op = none ∧ g.tainted = none)
  op : ∀ op, s.line.op = some op ∨ g.tainted = some op → s.OpSound g op

/-- The tool's tree is sound: paths, the open route and the stacks obey their rules, with what the holder of the line and DISC keep
in hand to keep them so (R76, R104, R120, R126). -/
structure State.TreeSound (s : State) : Prop where
  paths : s.rstr.PathsSound
  route : s.rstr.RouteSound s.line.route
  stackFit : s.disc.StacksSound
  next : ∀ st, s.disc.next = some st → st.descends → s.disc.LegRoom
  choice : ∀ l c e, s.disc.leaf = some l → l.choice = some c → s.rstr.find c.handle = some e →
    e.state = .departed ∧ c.restores = true
  busy : s.line.op ≠ none → s.line.state = .busy
  starting : s.line.startUp ≠ none → s.disc.lineOpenSeen = false
  opened : s.disc.lineOpenSeen = true → s.line.state ≠ .off
  grant : ∀ g, s.jobq.grant = some g → s.GrantSound g

end Sys2Proof.Machine
end

