-- ==== Sys2Proof/Certificates/Slice0/Obligations.lean ====
section
/-! DEFINITION. The statements for the provers: what each command does (chapters 1 to 10), what the pure rules compute, and the
invariants that every command keeps. Each docstring names the rules its statement comes from. -/

open Sys2Proof Sys2Proof.Machine

/-! ### The step -/

/-- The step runs the command at the front of the queue; on an empty queue the block idles, which is the model's choice (log 1). -/
def Obligations.StepRunsFrontCommand : Prop :=
  (∀ (c : Instr) (rest : List Instr) (s : State), step { s with pending := c :: rest } = exec c { s with pending := rest }) ∧
    ∀ s : State, s.pending = [] → step s = .next s

/-- Every command completes in every state, and leaves the queue alone. 95_what_each_step_holds.md says what each step holds; that no
command stops is read from it (log 27), a command without its timer or operation changing nothing is the model's choice (log 3), and so
is the queue (log 1). The statements below give each command its effect. -/
def Obligations.CommandsCompleteAndKeepQueue : Prop :=
  ∀ (c : Instr) (s : State), ∃ t, exec c s = .next t ∧ t.pending = s.pending

/-! ### Reset -/

/-- RESET_ASSERT puts every block at its reset values; RESET_RELEASE reads the straps and evaluates the plug inputs (R13, R15, R28,
R48, R85, R86, R96, R138, R157, R166, R170). The dwell length and the phase of the tick are the model's choice (log 7), and so is a
RESET_RELEASE while RESET_N is not held changing nothing (log 3). The counter of operations cut short, which the free value of the
capture unit reads, is the model's own and stays (log 32). -/
def Obligations.ResetTakesPowerOnValues : Prop :=
  (∀ s : State, exec .resetAssert s = .next
    { resetHeld := true
      mmon :=
        { state := .opened, debounce := none, breakFilter := none, alignment := none, misaligned := false
          inputs := s.mmon.inputs }
      ssw :=
        { state := .off, duty := 0, step := none, hold := none, trip := none, dwell := Config.resetDwell, parked := false
          cause := .hold, pwm := none, ovl := s.ssw.ovl }
      line :=
        { state := .off, beat := 80, tickPhase := 0, startUp := none, op := none, capture := ⟨0, 0, false⟩, cuts := s.line.cuts
          route := [], keepalive := none, keepaliveDue := false, watch := none, sampler := none, highWatch := none
          tlHigh := s.line.tlHigh }
      rate := ⟨none⟩
      rstr := { entries := [], generation := 0, reserved := 0, clampedSummary := false }
      pins := []
      disc :=
        { state := .idle, origin := none, mode := none, waiting := false, lineOpenSeen := false, levels := [], frames := []
          pass :=
            { number := 0, kept := 0, overflowed := false, failed := false, outOfHandles := false, leftUnnamed := 0 }
          leaf := none, pendingDrop := none, result := none, abandoned := false, next := none, cancelled := false }
      jobq := { urgent := [], normal := [], sweep := none, grant := none }
      link :=
        { baud := s.link.baud, rx := .hunt, frame := [], gap := none, replies := [], outstanding := [], notices := []
          settings :=
            { mateDebounceMs := 50, breakFilterMs := 2, rampMs := 20, holdMs := 5, settleMs := 10, beat := 80, wakeCount := 16
              wakeLow := 4, wakeHigh := 4, keepaliveMs := 0, answerWait := 7, nonceTries := 3, walkPasses := 3
              nameRetries := 2, stepRetries := 2, exchangeRetries := 1, maxDepth := 4, legSettleMs := 5, missLimit := 3
              driftLimit := 8, roundMode := .nearestEven, dynBase := 33, autoDiscover := true, autoCalibrate := true }
          deferred := false, tx := none, restarting := false }
      pending := s.pending }) ∧
  (∀ (s : State) (b1 b0 : Bool), s.resetHeld = true → exec (.resetRelease b1 b0) s = .next
    { s.powerOn with
      resetHeld := false
      mmon := s.mmon.approach 50
      link := { s.powerOn.link with
        baud := if b1 then (if b0 then 3000000 else 1000000) else if b0 then 460800 else 115200 } }) ∧
  ∀ (s : State) (b1 b0 : Bool), s.resetHeld = false → exec (.resetRelease b1 b0) s = .next s

/-- The state after reset meets every invariant stated below (R15, R28, R63, R86, R104, R120, R126, R138, R160, R163, R166). That
State.reset is the part after RESET_N has been released is the model's choice (log 8). -/
def Obligations.ResetMeetsInvariants : Prop :=
  State.reset.SlotsBounded ∧ State.reset.NoticesDistinct ∧ State.reset.LanesBounded ∧ State.reset.SettingsSound ∧
    State.reset.SupplySound ∧ State.reset.LineSupplied ∧ State.reset.RosterSound ∧ State.reset.RosterNeedsSession ∧
    State.reset.TreeSound ∧ State.reset.Settled

/-! ### The mate monitor (chapter 1) -/

/-- Outside a session MMON follows the class of its input set, and reports a stay in PARTIAL of 500 ms once (R1 to R5, R13). An input at
the level it already has, and an expiry without its timer, changing nothing is the model's choice (log 3); that the levels are kept as
they change while a RESTART FULL is carried out is read from R13 and R169 (log 22). -/
def Obligations.ApproachTransitions : Prop :=
  (∀ (s : State) (i : PlugInput) (made : Bool), s.mmon.inputs.get i = made → exec (.inputChange i made) s = .next s) ∧
  (∀ (s : State) (i : PlugInput) (made : Bool), s.mmon.inputs.get i ≠ made → s.deaf = true →
    exec (.inputChange i made) s = .next { s with mmon := { s.mmon with inputs := s.mmon.inputs.put i made } }) ∧
  (∀ (s : State) (i : PlugInput) (made : Bool), s.mmon.inputs.get i ≠ made → s.deaf = false →
    s.mmon.state = .opened ∨ s.mmon.state = .partialMate ∨ s.mmon.state = .qualifying →
    let m := { s.mmon with inputs := s.mmon.inputs.put i made }
    exec (.inputChange i made) s = .next (State.kick { s with
      mmon := if s.mmon.state = .partialMate ∧ m.inputs.cls = .some then m
        else m.approach s.link.settings.mateDebounceMs })) ∧
  (∀ s : State, s.mmon.state = .partialMate → s.mmon.alignment.isSome = true →
    exec .alignmentExpiry s = .next (State.kick { s with
      mmon := { s.mmon with alignment := none, misaligned := true }
      link := { s.link with notices := putNotice (.misaligned s.mmon.inputs) s.link.notices } })) ∧
  ∀ s : State, ¬(s.mmon.state = .partialMate ∧ s.mmon.alignment.isSome = true) → exec .alignmentExpiry s = .next s

/-- The debounce expiry starts the session: SSW ramps, LINE takes BEAT, DISC arms, LINK tells the controller (R5, R6, Table 1-3). In
any other state, and without its timer, the expiry changes nothing: beyond the expiry that a break outruns (R5), that is the model's
choice (log 3). -/
def Obligations.SessionStarts : Prop :=
  (∀ s : State, s.mmon.state = .qualifying → s.mmon.debounce.isSome = true →
    exec .debounceExpiry s = .next (State.kick { s with
      mmon := { s.mmon with state := .mated, debounce := none }
      ssw := s.ssw.ramping s.link.settings
      line := { s.line with beat := s.link.settings.beat, tickPhase := 0 }
      disc := s.disc.armedBy s.link.settings
      link := { s.link with
        deferred := false
        notices := putNotice (.mate none .mated s.mmon.inputs) s.link.notices } })) ∧
  ∀ s : State, ¬(s.mmon.state = .qualifying ∧ s.mmon.debounce.isSome = true) → exec .debounceExpiry s = .next s

/-- A break with a filter of 1 ms or more enters SUSPECT: the operation in flight is abandoned and handed to the holder as tainted,
a start-up train staying owed (R7, R8, R30). An operation without a reply part leaves the capture unit as it was; of one with a reply
part it keeps the last low it timed, which no command gives, so that it is free within R39's ranges (log 32). -/
def Obligations.BreakEntersSuspect : Prop :=
  (∀ (s : State) (i : PlugInput) (made : Bool), s.mmon.inputs.get i ≠ made → s.deaf = false → s.mmon.state = .mated →
    (s.mmon.inputs.put i made).cls ≠ .all → 1 ≤ s.link.settings.breakFilterMs →
    let m := { s.mmon with
      inputs := s.mmon.inputs.put i made, state := .suspect, breakFilter := some s.link.settings.breakFilterMs }
    let cut := { s.line.cut with
      state := .idle, watch := none
      keepalive := if s.link.settings.keepaliveMs = 0 then none else some s.link.settings.keepaliveMs }
    (s.line.op = none → exec (.inputChange i made) s = .next
      (State.kick { s with mmon := m, line := { s.line with watch := none } })) ∧
    (∀ op, s.line.op = some op → (∃ t, op.kind = .startUp t) → exec (.inputChange i made) s = .next
      (State.kick { s with mmon := m, line := cut })) ∧
    ∀ op, s.line.op = some op → (¬∃ t, op.kind = .startUp t) → exec (.inputChange i made) s = .next
      (State.kick { s with
        mmon := m, line := cut
        jobq := { s.jobq with grant := s.jobq.grant.map (fun g => { g with tainted := some op }) } })) ∧
  ∀ (l : Line) (op : LineOp), l.op = some op →
    (op.kind.verb = none ∨ op.kind = .drop → l.cut = { l with op := none }) ∧
    (op.kind.verb ≠ none → op.kind ≠ .drop →
      ∃ c, l.cut = { l with op := none, capture := c, cuts := l.cuts + 1 } ∧
        (c = l.capture ∨ 1 ≤ c.edges ∧ c.edges ≤ 15 ∧ c.ticks ≤ 65535 ∧ (c.saturated = true ↔ c.ticks = 65535)))

/-- In SUSPECT a change short of all keeps the filter running (R9). At the return, while LINE is OFF or FAULTED, MMON enters MATED
and nothing else changes: no watch runs there (R44), nothing is tainted and nothing is granted (R8, R9, R10, R28). With LINE IDLE a
start-up train still owed goes out first, with its own values when it had begun (R8, R30). The holder then runs a tainted operation
again within its limit: EXCHANGE_RETRIES for a job and a sweep roll, STEP_RETRIES for a discovery's step and a leg exchange (R10,
R114, R122, R137, R145, R152). Beyond it a job ends DISTURBED, a sweep roll ends without a change, a step of discovery fails as
Tables 7-5 and 8-6 lay down, a NAME passing to its DROP and that DROP to the pending DROP (R109), whose member is counted there and
then, the model's choice (log 43), and a switch ends DISTURBED with the route as it is (R125). A tainted keepalive train is not run
again: keepalive-due is set (R43), also where a SET of KEEPALIVE_MS to 0 had cleared it, the model's choice (log 35). A leg settle
that ended meanwhile takes its next exchange (R125). The watch times a low that is present at the return from there (R44). Read from
more than one rule are the values of a start-up train that waited to be started (log 12), the count of its own that a DROP begins
(log 17), no DROP after a disturbed restoration of a naming (log 18), and rolled this pass set by a disturbed roll or switch of the
sweep (log 30), whose next pass, begun at once, looks for an entry once more (log 20). The model's choices are also that a pass's
left-unnamed count stops at 255 (log 49), and that the counts of the result record stay when a restoration which the roster bars at
the return gives up levels (R134 to R136, log 50). The end of a discovery whose CANCEL has been taken is stated with CANCEL; a
cursor at a junction whose entry has gone is left out here (log 42). -/
def Obligations.SuspectWaitsAndReturns : Prop :=
  (∀ (s : State) (i : PlugInput) (made : Bool), s.mmon.inputs.get i ≠ made → s.deaf = false → s.mmon.state = .suspect →
    (s.mmon.inputs.put i made).cls ≠ .all →
    exec (.inputChange i made) s = .next (State.kick { s with mmon := { s.mmon with inputs := s.mmon.inputs.put i made } })) ∧
  (∀ (s : State) (i : PlugInput) (made : Bool), s.mmon.inputs.get i ≠ made → s.deaf = false → s.mmon.state = .suspect →
    (s.mmon.inputs.put i made).cls = .all → s.line.state = .off ∨ s.line.state = .faulted →
    exec (.inputChange i made) s = .next (State.kick { s with
      mmon := { s.mmon with inputs := s.mmon.inputs.put i made, state := .mated, breakFilter := none } })) ∧
  ∀ (s : State) (i : PlugInput) (made : Bool), s.mmon.inputs.get i ≠ made → s.deaf = false → s.mmon.state = .suspect →
    (s.mmon.inputs.put i made).cls = .all → s.line.state = .idle →
    let back : State := { s with
      mmon := { s.mmon with inputs := s.mmon.inputs.put i made, state := .mated, breakFilter := none }
      line := { s.line with watch := if s.line.tlHigh then s.line.watch else some (160 * s.line.beat) } }
    let runs := fun (op : LineOp) (g : Option Grant) => exec (.inputChange i made) s = .next (State.kick { back with
      line := back.line.started op, jobq := { s.jobq with grant := g } })
    let leaves := fun t : State => exec (.inputChange i made) s = .next (State.kick (State.regrant t s))
    (∀ t, s.line.startUp = some t →
      let train : Train := match t with
        | .begun train => train
        | .waiting count => ⟨count, s.link.settings.wakeLow, s.link.settings.wakeHigh⟩
      exec (.inputChange i made) s = .next (State.kick { back with
        line := Line.started { back.line with startUp := some (.begun train) } ⟨.startUp train, 0, 0, [], 0⟩ })) ∧
    (s.line.startUp = none → s.jobq.grant = none → leaves back) ∧
    (s.line.startUp = none →
      (∀ (w : Work) (op : LineOp), s.jobq.grant = some ⟨w, none, some op⟩ →
        let again := s.lineOp op.kind op.audience
        (∀ j r u, w = .job j r u →
          (u < r → runs again (some ⟨.job j r (u + 1), none, none⟩)) ∧
          ∀ q, r ≤ u → s.Owes q → q.tag = j.tag → leaves { back with
            jobq := s.jobq.released, rate := ⟨none⟩, link := s.link.answered q .disturbed [] }) ∧
        (∀ h r u, w = .sweep h r u → op.kind = .roll → op.audience = h →
          (u < r → runs again (some ⟨.sweep h r (u + 1), none, none⟩)) ∧
          ∀ x v, r ≤ u → s.jobq.sweep = some x → State.SweepGoesOn { back with jobq := s.jobq.released }
            { x with position := h, rolled := true } v → leaves v) ∧
        (w = .keepalive → leaves { back with line := { back.line with keepaliveDue := true }, jobq := s.jobq.released }) ∧
        ∀ d, w = .disc d →
          let fails := fun x : Disc => exec (.inputChange i made) s = .next (State.onward { back with rate := ⟨none⟩, disc := x } s)
          (d.used < d.retries → runs again (some ⟨.disc { d with used := d.used + 1 }, none, none⟩)) ∧
          (d.retries ≤ d.used →
            (∀ st n h, op.kind = .name st n h →
              runs (s.lineOp .drop h) (some ⟨.disc { d with dropping := some .failed, used := 0 }, none, none⟩)) ∧
            (∀ why, op.kind = .drop → d.dropping = some why → s.disc.cancelled = false → exec (.inputChange i made) s = .next
              (State.onward { back with disc := { s.disc with
                pendingDrop := some op.audience
                pass := if why = .failed then s.disc.pass.missed else { s.disc.pass with failed := true }
                leaf := if why = .failed then s.disc.leaf.map Leaf.nonceDone else s.disc.leaf } } s)) ∧
            ((∀ st n h, op.kind ≠ .name st n h) → d.dropping = none → s.disc.cancelled = false →
              (∀ x, s.disc.failsWith d.step x → fails x) ∧
              ∀ top below j c, d.step = .returnCheck → s.disc.levels = top :: below → s.AtJunction top j c →
                fails { s.disc with levels := top.atNextLeg (kindLegs c.kind) :: below }))) ∧
      (∀ (w : Work) (sw : Switch) (op : LineOp), s.jobq.grant = some ⟨w, some sw, some op⟩ →
        (sw.used < sw.retries →
          runs (s.lineOp op.kind op.audience) (some ⟨w, some { sw with used := sw.used + 1 }, none⟩)) ∧
        (sw.retries ≤ sw.used →
          (∀ j r u q, w = .job j r u → s.Owes q → q.tag = j.tag → leaves { back with
            jobq := s.jobq.released, rate := ⟨none⟩, link := s.link.answered q .disturbed [] }) ∧
          (∀ h r u x v, w = .sweep h r u → s.jobq.sweep = some x → State.SweepGoesOn { back with jobq := s.jobq.released }
            { x with position := h, rolled := true } v → leaves v) ∧
          ∀ d, w = .disc d → s.disc.cancelled = false →
            let fails := fun x : Disc => exec (.inputChange i made) s = .next (State.onward { back with disc := x } s)
            (∀ x, sw.purpose = .restore → s.disc.failsWith d.step x → fails x) ∧
            ∀ top below j c, s.disc.levels = top :: below → s.AtJunction top j c →
              let moved := top.atNextLeg (kindLegs c.kind) :: below
              (sw.purpose = .closing ∨ sw.purpose = .restore ∧ d.step = .returnCheck →
                fails { s.disc with levels := moved }) ∧
              (sw.purpose = .opening ∨ sw.purpose = .restore ∧ d.step = .opening →
                fails { s.disc with levels := moved, abandoned := true }))) ∧
      ∀ (w : Work) (sw : Switch), s.jobq.grant = some ⟨w, some sw, none⟩ →
        (∀ v, sw.resume = true → s.SwitchGoesOn back w sw v → exec (.inputChange i made) s = .next v.kick) ∧
        (sw.resume = false → leaves back))

/-- The break-filter expiry, and a break with a filter of 0, end the session in every block, and the MATE notice says so (R7, R9,
R11, R12, R25, R28, R85, R116, R119, Table 1-4). No rule orders the end of the discovery in it; the model ends it first, so that its
DISCOVERY_DONE is raised before the MATE notice (log 33) and its record holds the generation before the roster is emptied, as R116
says. The reason SESSION_END of a discovery whose CANCEL has been taken is the model's choice (log 37), and so is a
BREAK_FILTER_EXPIRY without its timer changing nothing (log 3). That the reply of a requested discovery is ABORTED is read from R119
(log 29). What the capture unit keeps of an operation cut short is free (log 32). -/
def Obligations.SessionEnds : Prop :=
  (∀ s : State, s.mmon.state = .suspect → s.mmon.breakFilter.isSome = true →
    ∃ t, exec .breakFilterExpiry s = .next t ∧ s.EndedFrom t ∧ t.mmon = s.mmon.approach s.link.settings.mateDebounceMs ∧
      t.Tells (.mate (some .filterExpiry) t.mmon.state t.mmon.inputs)) ∧
  (∀ (s : State) (i : PlugInput) (made : Bool), s.mmon.inputs.get i ≠ made → s.deaf = false → s.mmon.state = .mated →
    (s.mmon.inputs.put i made).cls ≠ .all → s.link.settings.breakFilterMs = 0 →
    ∃ t, exec (.inputChange i made) s = .next t ∧ s.EndedFrom t ∧
      t.mmon = Mmon.approach { s.mmon with inputs := s.mmon.inputs.put i made } s.link.settings.mateDebounceMs ∧
      t.Tells (.mate (some .breakTaken) t.mmon.state t.mmon.inputs)) ∧
  ∀ s : State, ¬(s.mmon.state = .suspect ∧ s.mmon.breakFilter.isSome = true) → exec .breakFilterExpiry s = .next s

/-! ### The supply (chapter 2) -/

/-- OVL holds a ramp and times a trip; its release gives the held level a fresh dwell; a dwell raises the level, and level 16 enters
ON. The end of the off span starts a ramp; a PWM period takes the duty level then held, and SUP_EN follows it (R16 to R20, R22). -/
def Obligations.RampAndOverload : Prop :=
  ((∀ s : State, s.ssw.ovl = false → s.deaf = false → exec .ovlAsserted s = .next { s with
    ssw := match s.ssw.state with
      | .ramping =>
        { s.ssw with ovl := true, state := .holding, step := none, hold := some s.link.settings.holdMs }
      | .on => { s.ssw with ovl := true, trip := some 200 }
      | .off | .holding | .cycling | .tripped => { s.ssw with ovl := true } }) ∧
  (∀ s : State, s.ssw.ovl = true → s.deaf = false → exec .ovlReleased s = .next { s with
    ssw := match s.ssw.state with
      | .holding => { s.ssw with ovl := false, state := .ramping, hold := none, step := some s.ssw.dwell }
      | .on => { s.ssw with ovl := false, trip := none }
      | .off | .ramping | .cycling | .tripped => { s.ssw with ovl := false } }) ∧
  ∀ s : State, s.ssw.state = .ramping → s.ssw.step.isSome = true →
    (s.ssw.duty < 16 → exec .dwellExpiry s = .next
      { s with ssw := { s.ssw with duty := s.ssw.duty + 1, step := some s.ssw.dwell } }) ∧
    (16 ≤ s.ssw.duty → exec .dwellExpiry s = .next
      { s with ssw := { s.ssw with
          state := .on, duty := 16, step := some (s.link.settings.settleMs * 1000), pwm := none } })) ∧
  (∀ s : State, s.ssw.state = .cycling → s.ssw.step.isSome = true →
    exec .cycleOffSpanExpiry s = .next { s with ssw := s.ssw.ramping s.link.settings }) ∧
  ∀ s : State, s.ssw.state = .ramping ∨ s.ssw.state = .holding →
    exec .pwmPeriod s = .next { s with ssw := { s.ssw with pwm := some s.ssw.duty } } ∧
    State.supEn { s with ssw := { s.ssw with pwm := some s.ssw.duty } } = .switched (16 * s.ssw.duty)

/-- The settle expiry gives supply ready: LINE leaves OFF and emits the start-up train, or owes it in SUSPECT; with WAKE_COUNT 0 the line
is open at once, an armed discovery taking up the root level (R8, R20, R30, R44, R100, R101). Read from more than one rule are the train
owed with its count alone, its WAKE_LOW and WAKE_HIGH read when it starts (log 12), and the keepalive timer standing still while a train
is due (log 26). -/
def Obligations.SupplyReadyStartsTrain : Prop :=
  ∀ s : State, s.ssw.state = .on → s.ssw.step.isSome = true → s.line.state = .off →
    let n := s.link.settings.wakeCount
    let t : Train := ⟨n, s.link.settings.wakeLow, s.link.settings.wakeHigh⟩
    let ready := { s.ssw with step := none }
    (1 ≤ n → s.mmon.state = .mated → exec .settleExpiry s = .next (State.kick { s with
      ssw := ready, line := Line.started { s.line with startUp := some (.begun t) } ⟨.startUp t, 0, 0, [], 0⟩ })) ∧
    (1 ≤ n → s.mmon.state ≠ .mated → exec .settleExpiry s = .next (State.kick { s with
      ssw := ready, line := { s.line with state := .idle, startUp := some (.waiting n) } })) ∧
    (n = 0 →
      let opened : State := { s with
        ssw := ready
        line := { s.line with
          state := .idle, startUp := none
          watch := if s.mmon.state = .mated ∧ s.line.tlHigh = false then some (160 * s.line.beat) else s.line.watch
          keepalive := if s.link.settings.keepaliveMs = 0 then none else some s.link.settings.keepaliveMs }
        disc := { s.disc with lineOpenSeen := true } }
      (s.disc.state ≠ .armed → exec .settleExpiry s = .next (State.kick (State.arbitrate opened))) ∧
      ∀ m, s.disc.state = .armed → s.disc.mode = some m → exec .settleExpiry s = .next
        (State.kick (State.arbitrate (opened.rooted m))))

/-- A hold that reaches HOLD_MS, and an overload of 200 µs in ON, trip the supply (R19, R20, R21, R26, R28, R75). No rule orders the
end of the discovery in it; the model ends it first, so that its record holds the generation before the departures (log 34) and its
DISCOVERY_DONE is raised before the SUPPLY notice (log 33). The model's choices are also the reason SUPPLY of a discovery whose
CANCEL has been taken (log 37), the pass record left as it stands (log 31), and an expiry without its timer changing nothing (log
3). What the capture unit keeps of an operation cut short is free (log 32). -/
def Obligations.TripTurnsSupplyOff : Prop :=
  (∀ s : State, s.ssw.state = .holding → s.ssw.hold.isSome = true →
    ∃ t, exec .holdExpiry s = .next t ∧ s.TrippedFrom t .hold .tripHold) ∧
  (∀ s : State, s.ssw.state = .on → s.ssw.trip.isSome = true →
    ∃ t, exec .tripExpiry s = .next t ∧ s.TrippedFrom t .run .tripRun) ∧
  (∀ s : State, ¬(s.ssw.state = .holding ∧ s.ssw.hold.isSome = true) → exec .holdExpiry s = .next s) ∧
  ∀ s : State, ¬(s.ssw.state = .on ∧ s.ssw.trip.isSome = true) → exec .tripExpiry s = .next s

/-- PARK by mate state and parked flag; an accepted PARK turns the supply OFF, flushes and departs, and its reply comes last (R23,
R26, R75, R155). That the discovery is ended first, as at a trip, is the model's choice (log 33, log 34), and so are its reason
PARKED when its CANCEL has been taken (log 37) and the pass record left as it stands (log 31). The tags of the flushed requests are
outstanding, so none of them is the tag of a PARK that is taken in (R161). What the capture unit keeps of an operation cut short is
free (log 32). -/
def Obligations.ParkTurnsSupplyOff : Prop :=
  ∀ (s : State) (tag : Byte), s.Takes tag →
    (s.mmon.state ≠ .mated → exec (.park tag) s = .next
      (State.kick { s with link := s.link.replied ⟨0x92#8, tag, .notReady, []⟩ })) ∧
    (s.mmon.state = .mated → s.ssw.parked = true → exec (.park tag) s = .next
      (State.kick { s with link := s.link.replied ⟨0x92#8, tag, .ok, []⟩ })) ∧
    (s.mmon.state = .mated → s.ssw.parked = false → tag ∉ s.flushTags → ∃ t, exec (.park tag) s = .next t ∧
      t.mmon = s.mmon ∧
      t.ssw = { s.ssw with
        state := .off, duty := 0, step := none, hold := none, trip := none, pwm := none, parked := true } ∧
      t.line = s.line.unpowered ∧ t.rate = ⟨none⟩ ∧ t.pins = s.pins ∧ t.JobqEmpty ∧ s.DiscStopped t .parked s.disc.pass ∧
      t.rstr = { s.rstr.allDeparted with reserved := if s.disc.running then 0 else s.rstr.reserved } ∧
      t.Tells (.supply .off true .park 0 s.rstr.liveCount) ∧ t.link.replies.getLast? = some ⟨0x92#8, tag, .ok, []⟩)

/-- POWER by mate state and supply state; from OFF and TRIPPED it clears the parked flag, ramps and arms (R24, R98). -/
def Obligations.PowerStartsRamp : Prop :=
  ∀ (s : State) (tag : Byte), s.Takes tag →
    (s.mmon.state ≠ .mated → exec (.power tag) s = .next
      (State.kick { s with link := s.link.replied ⟨0x93#8, tag, .notReady, []⟩ })) ∧
    (s.mmon.state = .mated → s.ssw.state ≠ .off → s.ssw.state ≠ .tripped → exec (.power tag) s = .next
      (State.kick { s with link := s.link.replied ⟨0x93#8, tag, .ok, []⟩ })) ∧
    (s.mmon.state = .mated → s.ssw.state = .off ∨ s.ssw.state = .tripped → exec (.power tag) s = .next
      (State.kick { s with
        ssw := Ssw.ramping { s.ssw with parked := false } s.link.settings
        disc := s.disc.armedBy s.link.settings
        link := s.link.replied ⟨0x93#8, tag, .ok, []⟩ }))

/-- The replies of a flush: the discovery's, the job in flight's, the urgent and the normal lane's from head to end, the sweep's,
and a PARK's after them (R116, R155, R162). That the reply of a discovery is ABORTED at a session end too is read from R119 (log
29). -/
def Obligations.FlushAnswersInOrder : Prop :=
  ∀ s : State, s.FlushReady →
    (s.ssw.state = .holding → s.ssw.hold.isSome = true →
      ∃ t, exec .holdExpiry s = .next t ∧ t.said = s.said ++ s.flushSays .supplyOff) ∧
    (s.ssw.state = .on → s.ssw.trip.isSome = true →
      ∃ t, exec .tripExpiry s = .next t ∧ t.said = s.said ++ s.flushSays .supplyOff) ∧
    (s.mmon.state = .suspect → s.mmon.breakFilter.isSome = true →
      ∃ t, exec .breakFilterExpiry s = .next t ∧ t.said = s.said ++ s.flushSays .sessionLost) ∧
    ∀ tag : Byte, s.Takes tag → s.mmon.state = .mated → s.ssw.parked = false →
      ∃ t, exec (.park tag) s = .next t ∧ t.said = s.said ++ s.flushSays .parked ++ [(tag, .ok)]

/-! ### The walk of a segment (chapter 7) -/

/-- START_UP_TRAIN_DONE is line open: an armed discovery of either origin takes up the root level, its junctions seeded from the
roster, and asks for its hail; then the arbiter grants what it may, an urgent job first, and with nothing else in its way the hail
goes out. An automatic discovery starts here, with a fresh record (R30, R100, R101, R102, R112). The command changing nothing
without a start-up train in flight is the model's choice (log 3). That the keepalive timer starts at the end of the train is read
from R30 (log 26); that the record's count of junctions not entered has no bound is the model's choice (log 24). -/
def Obligations.StartUpTrainOpensLine : Prop :=
  (∀ (s : State) (t : Train) (op : LineOp), s.Runs (.startUp t) op → s.disc.state ≠ .armed →
    exec .startUpTrainDone s = .next (State.kick (State.arbitrate { s with
      line := { s.line.ended s.link.settings with startUp := none }
      disc := { s.disc with lineOpenSeen := true } }))) ∧
  (∀ (s : State) (t : Train) (op : LineOp), s.Runs (.startUp t) op → s.disc.state = .armed → s.disc.origin = some .auto →
    s.disc.mode = some .rescan → s.jobq.urgent = [] → s.jobq.grant = none → s.line.route = [] → s.ssw.state = .on →
    s.mmon.state = .mated →
    let here := s.rstr.entries.filter (fun e => e.state != .departed && kindIsJunction e.kind && e.path == [])
    let beyond := (here.drop 8).map (fun e => e.handle)
    ∃ u, exec .startUpTrainDone s = .next u ∧
      u.line = { s.line.ended s.link.settings with startUp := none, state := .busy, op := some ⟨.hail, 0, 0, [], 0⟩ } ∧
      u.disc.state = .walking ∧ u.disc.waiting = false ∧ u.disc.frames = [] ∧ u.disc.leaf = none ∧ u.disc.abandoned = false ∧
      u.disc.lineOpenSeen = true ∧ u.disc.pass = ⟨1, s.link.settings.walkPasses, false, false, false, 0⟩ ∧
      u.disc.result.map (fun r => (r.mode, r.auto, r.outcome, r.notEntered)) = some (.rescan, true, none, beyond.length) ∧
      (∃ root, u.disc.levels = [root] ∧ root.depth = 0 ∧ root.entry = none ∧ root.walkDone = false ∧
        root.junctions = (here.take 8).map (fun e => ⟨e.handle, e.namedAt⟩)) ∧
      (∃ w, u.jobq = s.jobq.granted (.disc w) ∧ w.step = .hail ∧ w.retries = s.link.settings.stepRetries ∧ w.used = 0) ∧
      u.rstr = { s.rstr with
        entries := s.rstr.entries.map (fun e => if beyond.contains e.handle then { e with notEntered := true } else e) } ∧
      u.mmon = s.mmon ∧ u.ssw = s.ssw ∧ u.rate = s.rate ∧ u.pins = s.pins ∧ u.link = s.kick.link) ∧
  (∀ (s : State) (t : Train) (op : LineOp) (m : DiscMode), s.Runs (.startUp t) op → s.disc.state = .armed → s.disc.mode = some m →
    exec .startUpTrainDone s = .next (State.kick (State.arbitrate (State.rooted { s with
      line := { s.line.ended s.link.settings with startUp := none }
      disc := { s.disc with lineOpenSeen := true } } m)))) ∧
  ∀ s : State, (¬∃ t op, s.Runs (.startUp t) op) → exec .startUpTrainDone s = .next s

/-- A PRESENT hail leaves the one frame (0, empty) and asks for a CALL round; an ABSENT hail ends the pass, and a marked pass is
followed by another within WALK_PASSES (R31, R102, R113). Between its steps DISC sends a pending DROP first (R109), then goes on
with the leaf in hand: its calibration, its nonces, its tries, its next final digit (R105 to R108, R111), then with the frames and
the end of the pass (R103, R113). The walk over, it takes the descent decisions: a junction at the depth limit is counted as not
entered, one that the roster no longer holds as listed sets the abandoned mark, the next leg of a good one is opened, a level whose
list is done is popped for its return check, and at the root the discovery ends COMPLETE or INCOMPLETE by its counts, its DISCOVER
request answered with the record or DISCOVERY_DONE raised (R119, R126, R127, R130, R133). The model's choices are the path taken for
a junction that the roster no longer holds (log 23), a count of junctions not entered without a bound (log 24), and the pass record
left as it stands at the discovery's end (log 31). -/
def Obligations.HailDecidesPass : Prop :=
  (∀ (s : State) (op : LineOp) (w : DiscWork) (lows : List Nat), s.Runs .hail op → s.Holds (.disc w) → s.Walks →
    s.disc.leaf = none → s.disc.pass.number ≠ 0 →
    let after := fun d : Disc => State.kick (State.regrant
      { s with line := s.line.ended s.link.settings, jobq := s.jobq.released, disc := d } s)
    ((∃ l ∈ lows, s.line.beat ≤ 2 * l) →
      exec (.hailDone lows) s = .next (after (Disc.decided { s.disc with frames := [[]] } .call))) ∧
    ((∀ l ∈ lows, 2 * l < s.line.beat) →
      (s.disc.pass.again → exec (.hailDone lows) s = .next (after (Disc.decided { s.disc with frames := [] } .hail))) ∧
      ∀ top below, ¬s.disc.pass.again → s.disc.levels = top :: below → exec (.hailDone lows) s = .next (State.onward { s with
        line := s.line.ended s.link.settings
        disc := { s.disc with
          frames := [], levels := { top with walkDone := true } :: below
          result := s.disc.result.map (fun r => r.walked s.disc.pass) } } s))) ∧
  ∀ (s : State) (top : Level) (below : List Level), s.disc.levels = top :: below →
    (∀ h, s.disc.pendingDrop = some h → s.discNext = { s with disc := s.disc.decided .pendingDrop }) ∧
    (s.disc.pendingDrop = none → top.walkDone = false →
      (∀ l, s.disc.leaf = some l →
        (∀ c, l.calib = some c → s.discNext = { s with disc := s.disc.decided .calibration }) ∧
        (l.calib = none → l.nonces = none → s.discNext = { s with disc := s.disc.decided .echo }) ∧
        (∀ n ns, l.calib = none → l.nonces = some (n :: ns) → s.discNext = { s with disc := s.disc.decided .naming }) ∧
        (l.calib = none → l.nonces = some [] →
          (∀ d ds, l.remaining = d :: ds → s.discNext =
            { s with disc := Disc.decided { s.disc with leaf := some (l.following d ds) } .echo }) ∧
          (l.remaining = [] → s.discNext = State.discNext { s with disc := { s.disc with leaf := none } }))) ∧
      (s.disc.leaf = none →
        (s.disc.pass.number = 0 → s.discNext = { s with disc := s.disc.decided .hail }) ∧
        (s.disc.pass.number ≠ 0 → s.disc.frames ≠ [] → s.discNext = { s with disc := s.disc.decided .call }) ∧
        (s.disc.pass.number ≠ 0 → s.disc.frames = [] → s.disc.pass.again → s.discNext = { s with disc := s.disc.decided .hail }) ∧
        (s.disc.pass.number ≠ 0 → s.disc.frames = [] → ¬s.disc.pass.again → s.discNext = State.discNext { s with
          disc := { s.disc with
            levels := { top with walkDone := true } :: below
            result := s.disc.result.map (fun r => r.walked s.disc.pass) } }))) ∧
    (s.disc.pendingDrop = none → top.walkDone = true →
      (∀ j, top.junctions[top.index]? = some j →
        let level := s.disc.levelRoute
        let held := fun e : Entry => s.rstr.find j.handle = some e ∧ e.namedAt = j.namedAt
        let path := match s.rstr.find j.handle with
          | some e => if e.namedAt = j.namedAt then e.path else level
          | none => level
        let deep := top.leg = 1 ∧ s.link.settings.maxDepth ≤ path.length
        let good := ∃ e, held e ∧ e.state ≠ .departed ∧ e.path = level
        let counted := s.disc.result.map (fun r => { r with notEntered := r.notEntered + 1 })
        (deep → (∃ e, held e) → s.discNext = State.discNext { s with
          rstr := { s.rstr with
            entries := s.rstr.entries.map (fun e => if e.handle = j.handle then { e with notEntered := true } else e) }
          disc := { s.disc with levels := top.atNextJunction :: below, result := counted } }) ∧
        (deep → (¬∃ e, held e) → s.discNext = State.discNext { s with
          disc := { s.disc with levels := top.atNextJunction :: below, result := counted } }) ∧
        (¬deep → good → s.discNext = { s with disc := s.disc.decided .opening }) ∧
        (¬deep → ¬good → s.discNext = State.discNext { s with
          disc := { s.disc with levels := top.atNextJunction :: below, abandoned := true } })) ∧
      (top.junctions.length ≤ top.index →
        (∀ st, top.entry = some st → s.discNext = { s with disc := Disc.decided { s.disc with levels := below } .returnCheck }) ∧
        ∀ rec k, top.entry = none → s.disc.result = some rec →
          let made := rec.reached s.disc.abandoned s.rstr.generation
          s.DiscTold made k → s.discNext = s.discEnded made k))

/-- A CALL round above the leaf pushes a frame for each answered slot, highest first, so that the lowest slot is walked next; a push
onto 48 frames is dropped and marks the pass (R103, R104). A round at 11 digits makes the leaf record of its answered slots (R105),
and one without any, like any round that leaves the stack empty, goes on with the next frame or ends the pass: another pass, or the
end of the segment's walk (R103, R113). -/
def Obligations.CallPushesFrames : Prop :=
  ∀ (s : State) (op : LineOp) (ds : List Nibble) (w : DiscWork) (slots : List LowSample), s.Runs (.call ds) op →
    s.Holds (.disc w) → s.Walks →
    let hit := answeredSlots s.line.beat slots
    let room := 48 - s.disc.frames.length
    let fs := (hit.drop (hit.length - room)).map (fun n => w.frame ++ [BitVec.ofNat 4 n]) ++ s.disc.frames
    let line := s.line.endedWith s.link.settings (roundLast s.line.beat slots)
    let after := fun d : Disc =>
      exec (.callDone slots) s = .next (State.kick (State.regrant { s with line := line, jobq := s.jobq.released, disc := d } s))
    (s.disc.leaf = none → s.disc.pass.number ≠ 0 → w.frame.length + 1 < 12 ∨ hit = [] →
      (fs ≠ [] → after (Disc.decided { s.disc with
        frames := fs
        pass := { s.disc.pass with overflowed := s.disc.pass.overflowed || decide (room < hit.length) } } .call)) ∧
      (hit = [] → s.disc.frames = [] → s.disc.pass.again → after (s.disc.decided .hail)) ∧
      ∀ top below, hit = [] → s.disc.frames = [] → ¬s.disc.pass.again → s.disc.levels = top :: below →
        exec (.callDone slots) s = .next (State.onward { s with
          line := line
          disc := { s.disc with
            levels := { top with walkDone := true } :: below
            result := s.disc.result.map (fun r => r.walked s.disc.pass) } } s)) ∧
    ∀ (d : Nat) (rest : List Nat), 12 ≤ w.frame.length + 1 → hit = d :: rest → after (Disc.decided { s.disc with
      leaf := some
        ⟨w.frame, rest.map (BitVec.ofNat 4), stampOfDigits (w.frame ++ [BitVec.ofNat 4 d]), 0, none, none, false, none, false,
          none⟩ } .echo)

/-- An ECHO ends the tries when two or more slots answer or the limit is reached; its answered slots are the nonces to name, and a
last try with none is a phantom, after which DISC goes on with the next final digit, or with the walk after the last one (R105, R106). -/
def Obligations.EchoEndsTries : Prop :=
  ∀ (s : State) (op : LineOp) (st : Stamp) (w : DiscWork) (slots : List LowSample) (l : Leaf) (limit : Nat),
    s.Runs (.echo st) op → s.Holds (.disc w) → s.Walks → s.disc.leaf = some l → l.calib = none → l.nonces = none →
    l.tryLimit = some limit →
    let hit := answeredSlots s.line.beat slots
    let after := fun (leaf : Leaf) (result : Option ResultRecord) (st : DiscStep) => State.kick (State.regrant { s with
      line := s.line.endedWith s.link.settings (roundLast s.line.beat slots)
      jobq := s.jobq.released
      disc := Disc.decided { s.disc with leaf := some leaf, result } st } s)
    (hit.length < 2 → l.tries + 1 < limit →
      exec (.echoDone slots) s = .next (after { l with tries := l.tries + 1 } s.disc.result .echo)) ∧
    (hit ≠ [] → 2 ≤ hit.length ∨ limit ≤ l.tries + 1 → exec (.echoDone slots) s = .next (after
      { l with tries := l.tries + 1, nonces := some hit, twins := decide (2 ≤ hit.length) } s.disc.result .naming)) ∧
    (hit = [] → limit ≤ l.tries + 1 →
      let counted := s.disc.result.map (fun r => { r with phantoms := min (r.phantoms + 1) 255 })
      (∀ d ds, l.remaining = d :: ds → exec (.echoDone slots) s = .next (after (l.following d ds) counted .echo)) ∧
      (l.remaining = [] → exec (.echoDone slots) s = .next (State.onward { s with
        line := s.line.endedWith s.link.settings (roundLast s.line.beat slots)
        disc := { s.disc with leaf := none, result := counted } } s)))

/-- A confirmed NAME of a free handle, or one whose restored entry was forgotten meanwhile (R95), creates the entry with the values
of R66, ends the reservation and marks a live twin; one of a DEPARTED entry restores it, its named_at, trim, drift and errors kept,
and removes the entries behind it when its path or kind has changed (R67, R68). A naming by a pin then removes the lowest DEPARTED
entry that carries the stamp at another handle with what stands behind it (R94). A JUNCTION joins the list of its level in handle
order, or is counted as not entered when 8 stand there (R112). The discovery counts the naming, and the calibration is the next
step, or with AUTO_CALIBRATE off the next nonce (R69, R70, R71, R107, R108, R111). The model's choices are that a CLAMPED mark stays
where the kind byte differs (log 40), and that the counts of members named new, restored and duplicate and of junctions not entered
have no bound (log 24). -/
def Obligations.NameMakesEntry : Prop :=
  ∀ (s : State) (op : LineOp) (st : Stamp) (n h : Nat) (w : DiscWork) (cells : List LowSample) (l : Leaf) (c : Choice) (k : Byte)
    (top : Level) (below : List Level), s.Runs (.name st n h) op → s.Holds (.disc w) → s.disc.cancelled = false →
    s.disc.leaf = some l → l.choice = some c → s.Reads op cells k → s.disc.levels = top :: below → s.rstr.valid → s.RouteLive →
    (c.source = .pin → ∀ x, c.expected = some x → x = k) →
    let g := if s.rstr.generation = 65535 then 1 else s.rstr.generation + 1
    let twin := fun x : Entry => x.state != .departed && x.stamp == l.stamp
    let dup := l.twins || s.rstr.entries.any (fun x => twin x && x.handle != c.handle)
    let lists := kindIsJunction k = true ∧ ∀ j ∈ top.junctions, j.handle ≠ c.handle
    let passed := lists ∧ 8 ≤ top.junctions.length
    let under := fun (m : Entry) (x : Entry) => x.handle == m.handle || (kindIsJunction m.kind && x.path.any (fun st => st.junction == m.handle))
    -- `e` is the entry named, `gone` what its naming removes, `changed` how many of them, `restored` how the record counts it
    let made := fun (e : Entry) (gone : Entry → Bool) (reserved : Nat) (restored : Bool) => ∃ (r : Rstr) (levels : List Level),
      exec (.nameDone cells) s = .next (State.onward { s with
        line := s.line.endedWith s.link.settings (s.lastCell op cells)
        rstr := r
        disc := { s.disc with
          levels := levels
          leaf := some (if w.autoCalib then { l with choice := none, mismatch := false, calib := some ⟨c.handle, e.namedAt⟩ }
            else l.nonceDone)
          result := s.disc.result.map (fun r => { r with
            namedNew := if restored then r.namedNew else r.namedNew + 1
            restored := if restored then r.restored + 1 else r.restored
            duplicates := if dup then r.duplicates + 1 else r.duplicates
            notEntered := if passed then r.notEntered + 1 else r.notEntered }) } } s) ∧
      r.find c.handle = some { e with notEntered := decide passed } ∧
      (∀ x, x ≠ c.handle → r.find x =
        ((s.rstr.find x).filter (fun y => !gone y)).map (fun y => if twin y then { y with duplicate := true } else y)) ∧
      r.generation = advanceBy (s.rstr.entries.filter (fun y => y.handle != c.handle && gone y)).length g ∧
      r.reserved = reserved ∧ r.clampedSummary = s.rstr.clampedSummary ∧
      (¬lists ∨ passed → levels = s.disc.levels) ∧
      ∀ pre post : List Listed, lists → ¬passed → top.junctions = pre ++ post → (∀ x ∈ pre, x.handle < c.handle) →
        (∀ x ∈ post, c.handle < x.handle) →
        levels = { top with junctions := pre ++ ⟨c.handle, e.namedAt⟩ :: post } :: below
    (s.rstr.find c.handle = none → (c.restores = true → ∀ p, pinAt s.pins c.handle = some p → p.stamp = l.stamp) →
      let memory := if c.source = .pin then s.rstr.entries.find? (fun x => x.state == .departed && x.stamp == l.stamp && x.handle != c.handle)
        else none
      made
        { handle := c.handle, stamp := l.stamp, kind := k, path := s.line.route, state := .named, namedAt := g, trim := none
          drift := none, misses := 0, errors := 0, clamped := false, oddAnswer := false, duplicate := dup
          pinConflict := c.conflict, kindMismatch := c.mismatch, notEntered := false, faultedLegs := []
          nonce := if l.twins then some n else none }
        (fun x => memory.any (fun m => under m x)) (if s.rstr.reserved = c.handle then 0 else s.rstr.reserved) false) ∧
    ∀ e, s.rstr.find c.handle = some e → c.restores = true → e.state = .departed → e.stamp = l.stamp →
      let behind := fun x : Entry =>
        (e.path != s.line.route || e.kind != k) && x.path.any (fun st => st.junction == c.handle) && x.handle != c.handle
      let memory := if c.source = .pin then s.rstr.entries.find? (fun x =>
          x.state == .departed && x.stamp == l.stamp && x.handle != c.handle && !behind x)
        else none
      made
        { e with
          state := .named, misses := 0, path := s.line.route, kind := k, oddAnswer := e.oddAnswer || e.kind != k
          faultedLegs := [], duplicate := dup, pinConflict := c.conflict, kindMismatch := c.mismatch
          nonce := if l.twins then some n else none }
        (fun x => behind x || memory.any (fun m => under m x)) s.rstr.reserved true

/-- A NAME that ends in a decode outcome is tried again within NAME_RETRIES; then the naming has failed and DROP(h) goes out under
the same grant (R107, R109). So it does for a choice withdrawn at its confirm: a pin's expected kind differs, and the choice is formed
again from its third step on with PIN_KIND_MISMATCH (R94); or the entry to restore was forgotten and the handle is now pinned for
another stamp, and the choice is formed again from its first step (R95). Where both hold, taking R94 is the model's choice (log 36);
that the DROP counts retries of its own is read from R107 and R109 (log 17). -/
def Obligations.NameFailureDrops : Prop :=
  ∀ (s : State) (op : LineOp) (st : Stamp) (n h : Nat) (w : DiscWork) (cells : List LowSample), s.Runs (.name st n h) op →
    s.Holds (.disc w) →
    let line := s.line.endedWith s.link.settings (s.lastCell op cells)
    (∀ e, s.Misreads op cells e → w.nameUsed < w.nameRetries → exec (.nameDone cells) s = .next (State.kick { s with
      line := line.started (s.lineOp (.name st n h) 0)
      jobq := s.jobq.granted (.disc { w with nameUsed := w.nameUsed + 1 }) })) ∧
    (∀ e, s.Misreads op cells e → w.nameRetries ≤ w.nameUsed → exec (.nameDone cells) s = .next (State.kick { s with
      line := line.started (s.lineOp .drop h)
      jobq := s.jobq.granted (.disc { w with dropping := some .failed, used := 0 }) })) ∧
    ∀ (l : Leaf) (c : Choice) (k : Byte), s.Reads op cells k → s.disc.leaf = some l → l.choice = some c →
      let unlike := c.source = .pin ∧ ∃ x, c.expected = some x ∧ x ≠ k
      let withdrawn := fun mismatch : Bool => exec (.nameDone cells) s = .next (State.kick { s with
        line := line.started (s.lineOp .drop c.handle)
        jobq := s.jobq.granted (.disc { w with dropping := some .withdrawn, used := 0 })
        disc := { s.disc with leaf := some { l with choice := none, mismatch } } })
      (unlike → withdrawn true) ∧
      ∀ p, ¬unlike → c.restores = true → s.rstr.find c.handle = none → pinAt s.pins c.handle = some p → p.stamp ≠ l.stamp →
        withdrawn false

/-- The DROP of a failed naming releases the handle, sets the pass's failed mark, counts a member left unnamed and passes to the
next nonce; after the DROP of a withdrawn choice the naming is asked for again; a pending DROP is pending no more (R71, R94, R109).
That the completion of a pending DROP counts no member, counted when the DROP became pending, is the model's choice (log 43), and so
is the end of that count at 255 (log 49). A DROP job removes its entry with what stands behind it, and advances the generation for
each (R70, R80, R150). -/
def Obligations.DropEndsNamingAndRemoves : Prop :=
  (∀ (s : State) (op : LineOp) (w : DiscWork), s.Runs .drop op → s.Holds (.disc w) → s.disc.cancelled = false →
    let goesOn := fun d : Disc => exec .dropDone s = .next (State.onward { s with
      line := s.line.ended s.link.settings
      rstr := { s.rstr with reserved := if s.rstr.reserved = op.audience then 0 else s.rstr.reserved }
      disc := d } s)
    (∀ l, w.dropping = some .failed → s.disc.leaf = some l →
      goesOn { s.disc with pass := s.disc.pass.missed, leaf := some l.nonceDone }) ∧
    (w.dropping = some .withdrawn → goesOn s.disc) ∧
    (w.dropping = none → goesOn { s.disc with pendingDrop := none })) ∧
  ∀ (s : State) (op : LineOp) (j : Job) (r u : Nat) (q : Request) (e : Entry), s.Runs .drop op → s.Holds (.job j r u) →
    s.Owes q → q.tag = j.tag → s.rstr.find j.handle = some e →
    let gone := fun x : Entry => x.handle == j.handle || (kindIsJunction e.kind && x.path.any (fun st => st.junction == j.handle))
    exec .dropDone s = .next (State.kick (State.regrant { s with
      line := s.line.ended s.link.settings
      jobq := s.jobq.released
      rate := ⟨none⟩
      rstr := { s.rstr with
        entries := s.rstr.entries.filter (fun x => !gone x)
        generation := advanceBy (s.rstr.entries.filter gone).length s.rstr.generation }
      link := s.link.answered q .ok [] } s))

/-- A valid calibration low stores its trim in form RECORD and only its CLAMPED mark in form PROBE; an invalid one changes no entry,
and a clamped one sets the summary mark. The job is answered with the record, OK or CALIB_FAIL; a discovery counts a failure and
goes on with the next nonce (R48 to R58, R111, R148). A calibration whose entry was removed while it ran is judged without a stored
trim and answered with the entry's bytes as 0, which is read from R54, R57, R148 and R171 (log 39). The bits of a record byte to
which no table gives a meaning are 0, the model's choice (log 47). -/
def Obligations.CalibrationsStored : Prop :=
  ∀ (s : State) (op : LineOp) (ch : CalibChoices) (low : LowSample), s.Runs .measure op → s.rate.choices = some ch →
    let line := s.line.endedWith s.link.settings (LowSample.capture low)
    let judged := fun old : Option Int => judge s.line.beat ch (LowSample.capture low) old s.link.settings.driftLimit
    let kept := fun (e : Entry) (c : CalibResult) =>
      if c.trim = none then e
      else if ch.form = .probe then { e with clamped := e.clamped || c.clamped }
      else { e with
        clamped := e.clamped || c.clamped, trim := c.trim, drift := if c.drift = none then e.drift else c.drift
        state := if e.state = .named then .calibrated else e.state }
    (∀ (j : Job) (r u : Nat) (q : Request), s.Holds (.job j r u) → s.Owes q → q.tag = j.tag →
      let answered := fun (c : CalibResult) (e : Option Entry) (t : Rstr) =>
        exec (.measureDone low) s = .next (State.kick (State.regrant { s with
          line := line, jobq := s.jobq.released, rate := ⟨none⟩
          rstr := { t with clampedSummary := s.rstr.clampedSummary || c.clamped }
          link := s.link.answered q (if c.trim = none then .calibFail else .ok) (c.bytes e) } s))
      (∀ e, s.rstr.find j.handle = some e → ∃ t : Rstr,
        answered (judged e.trim) (some (kept e (judged e.trim))) t ∧ s.rstr.Puts t j.handle (kept e (judged e.trim)) ∧
          t.generation = s.rstr.generation) ∧
      (s.rstr.find j.handle = none → answered (judged none) none s.rstr)) ∧
    ∀ w : DiscWork, s.Holds (.disc w) → s.disc.cancelled = false →
      let goesOn := fun (c : CalibResult) (t : Rstr) => exec (.measureDone low) s = .next (State.onward { s with
        line := line, rate := ⟨none⟩, rstr := { t with clampedSummary := s.rstr.clampedSummary || c.clamped }
        disc := { s.disc with
          leaf := s.disc.leaf.map Leaf.nonceDone
          result := s.disc.result.map (fun r =>
            { r with calibFailures := if c.trim = none then min (r.calibFailures + 1) 255 else r.calibFailures }) } } s)
      (∀ e, s.rstr.find op.audience = some e → ∃ t : Rstr,
        goesOn (judged e.trim) t ∧ s.rstr.Puts t op.audience (kept e (judged e.trim)) ∧ t.generation = s.rstr.generation) ∧
      (s.rstr.find op.audience = none → goesOn (judged none) s.rstr)

/-! ### Jobs, the sweep and route switches (chapters 5, 8 and 9) -/

/-- The order of claims (R141, Table 9-4): the urgent lane, DISC, the normal lane, the sweep, the keepalive. No grant is made unless
every condition of R141 holds. At the release of an urgent job, by whatever event, a DISC claim is granted before the head of the urgent
lane; at every other release, and without a DISC claim, the order is that of the table. A job that fails its dispatch checks is answered
and the next opportunity follows at once (R143); that such a job is no release of an urgent job is read from R141 and R143 (log 14). That
a sweep which is granted without a next entry ends its pass instead of rolling is read from R151 and R153 (log 20), and so is the bound
of 200 grants that do not keep the line (log 25). -/
def Obligations.ArbiterOrder : Prop :=
  let discs := fun (s : State) (st : DiscStep) =>
    s.disc.state ≠ .idle ∧ s.disc.state ≠ .armed ∧ s.disc.waiting = true ∧ s.disc.next = some st
  let quiet := fun s : State => s.disc.state = .idle ∨ s.disc.state = .armed ∨ s.disc.waiting = false
  -- the line was held by an urgent job
  let urgent := fun s : State => ∃ (j : Job) (r u : Nat) (sw : Option Switch) (t : Option LineOp),
    s.jobq.grant = some ⟨.job j r u, sw, t⟩ ∧ j.urgent = true
  (∀ s : State, s.arbitrate = s.arbitrateFrom 200 false ∧ (¬s.Free → s.arbitrate = s)) ∧
  (∀ (s : State) (j : Job) (js : List Job), s.jobq.urgent = j :: js → s.claim false = some (.urgent j js)) ∧
  (∀ (s : State) (st : DiscStep), discs s st →
    s.claim true = some (.disc st) ∧ (s.jobq.urgent = [] → s.claim false = some (.disc st))) ∧
  (∀ s : State, s.jobq.urgent = [] → quiet s →
    (∀ j js, s.jobq.normal = j :: js → s.claim false = some (.normal j js)) ∧
    (s.jobq.normal = [] → s.jobq.sweep.any (fun w => w.phase == .rolling) = true → s.claim false = some .sweep) ∧
    (s.jobq.normal = [] → s.jobq.sweep.any (fun w => w.phase == .rolling) = false → s.line.keepaliveDue = true →
      s.claim false = some .keepalive)) ∧
  (∀ s : State, s.jobq.urgent = [] → s.jobq.normal = [] → s.jobq.sweep = none → s.line.keepaliveDue = false → quiet s →
    s.arbitrate = s) ∧
  (∀ s before : State, ¬s.Free → s.regrant before = s) ∧
  (∀ (s before : State) (st : DiscStep), urgent before → s.Free → discs s st →
    s.regrant before = (s.beginStep st).arbitrateFrom 199 false ∧
      ((s.beginStep st).jobq.grant ≠ none → s.regrant before = s.beginStep st)) ∧
  (∀ s before : State, ¬urgent before ∨ quiet s → s.regrant before = s.arbitrate) ∧
  ∀ (s : State) (n : Nat) (after : Bool), s.Free →
    (∀ j js, s.claim after = some (.urgent j js) → s.arbitrateFrom (n + 1) after =
      State.arbitrateFrom n (s.dispatch j).isNone (State.beginJob { s with jobq := { s.jobq with urgent := js } } j)) ∧
    (∀ st, s.claim after = some (.disc st) → s.arbitrateFrom (n + 1) after = (s.beginStep st).arbitrateFrom n false) ∧
    (∀ j js, s.claim after = some (.normal j js) → s.arbitrateFrom (n + 1) after =
      State.arbitrateFrom n false (State.beginJob { s with jobq := { s.jobq with normal := js } } j)) ∧
    (∀ w, s.claim after = some .sweep → s.jobq.sweep = some w →
      (∀ e, s.rstr.nextLive w.position = some e → s.arbitrateFrom (n + 1) after = (s.beginRoll e).arbitrateFrom n false) ∧
      ∀ v, s.rstr.nextLive w.position = none → s.SweepGoesOn w v → s.arbitrateFrom (n + 1) after = v.arbitrateFrom n false) ∧
    (s.claim after = some .keepalive → s.arbitrateFrom (n + 1) after = { s with
      jobq := s.jobq.granted .keepalive
      line := s.line.started ⟨.keepalive ⟨2, s.link.settings.wakeLow, s.link.settings.wakeHigh⟩, 0, 0, [], 0⟩ }) ∧
    (s.claim after = none → s.arbitrateFrom (n + 1) after = s)

/-- What a granted job meets, in either lane: the dispatch checks in their order, then the first leg exchange of the switch to its
entry's path, then its own operation, a WAKE neither; a CALIBRATE fixes its choices as it asks for its first MEASURE (R48, R80,
R121, R143, R144, R145, R146 to R150). The sweep's grant reads EXCHANGE_RETRIES and switches to the path of the entry at its
position, then rolls it (R151, R152); a switch that the roster bars fails there, and sets rolled this pass as log 30 reads it. The
grant of DISC reads the settings of its step, a hail counting its pass and a CALL taking its frame; a step whose route does not
stand restores it first (R97, R102, R103, R118, R134, R136), which the model does with settings read before it (log 38), but for the
switch of an opening step, which takes STEP_RETRIES at its own start (R121, log 44). Then each step asks for its operation, or is
over: a naming with its handle choice and reservation or out of handles (R71, R90, R107, R110), a calibration not owed any more
(R111), a leg or a junction that the roster no longer holds (R121, R127, R128, R130). The model's choices are also the end of a
pass's left-unnamed count at 255 (log 49) and the counts of the record that stay when levels are given up (log 50); that a sweep's
next pass, begun at once, looks once more is read from R151 (log 20). -/
def Obligations.JobGranted : Prop :=
  (∀ (s : State) (j : Job) (q : Request), s.Free → s.disc.state = .idle →
    (j.urgent = true ∧ s.jobq.urgent = [j] ∧ s.jobq.normal = []) ∨
      (j.urgent = false ∧ s.jobq.urgent = [] ∧ s.jobq.normal = [j]) →
    s.jobq.sweep = none → s.line.keepaliveDue = false → s.Owes q → q.tag = j.tag →
    let refused := fun code : Result =>
      ({ s with jobq := { s.jobq with urgent := [], normal := [] }, link := s.link.answered q code [] } : State)
    let running := fun (switch : Option Switch) (op : LineOp) =>
      ({ s with
        jobq := { s.jobq with
          urgent := [], normal := [], grant := some ⟨.job j s.link.settings.exchangeRetries 0, switch, none⟩ }
        line := s.line.started op } : State)
    let switching := fun (target : Route) (common : Nat) => running
      (some ⟨.job, target, common, s.link.settings.stepRetries, s.link.settings.legSettleMs, 0, none, false, none, false⟩)
    (∀ t c, j.kind = .wake t c → s.arbitrate = running none ⟨.wake t, 0, 0, [], 0⟩) ∧
    ((∀ t c, j.kind ≠ .wake t c) →
      (s.rstr.lookup j.handle = none → s.arbitrate = refused .unknownHandle) ∧
      ∀ e : Entry, s.rstr.lookup j.handle = some e →
        let below := kindIsJunction e.kind = true ∧
          ∃ x ∈ s.rstr.entries, x.state ≠ .departed ∧ ∃ st ∈ x.path, st.junction = j.handle
        (e.namedAt ≠ j.namedAt → s.arbitrate = refused .staleHandle) ∧
        (e.namedAt = j.namedAt → e.state = .departed → s.arbitrate = refused .notLive) ∧
        (e.namedAt = j.namedAt → e.state ≠ .departed →
          (j.kind = .drop → e.state ≠ .silent → s.arbitrate = refused .live) ∧
          (j.kind = .drop → e.state = .silent → below → s.arbitrate = refused .liveBelow) ∧
          ((j.kind = .drop → e.state = .silent ∧ ¬below) →
            (e.path = s.line.route →
              (∀ p, j.kind = .exchange p → s.arbitrate = running none (s.lineOp (.data p) j.handle)) ∧
              (j.kind = .roll → s.arbitrate = running none (s.lineOp .roll j.handle)) ∧
              (j.kind = .drop → s.arbitrate = running none (s.lineOp .drop j.handle)) ∧
              ∀ form mode ignore, j.kind = .calibrate form mode ignore → s.arbitrate =
                { running none (s.lineOp .measure j.handle) with
                  rate := ⟨some ⟨mode.getD s.link.settings.roundMode, form, ignore⟩⟩ }) ∧
            (∀ (pre rest : Route) (st : RouteStep) (more : List RouteStep), s.line.route = pre ++ more ++ [st] →
              e.path = pre ++ rest → rest.head? ≠ (more ++ [st]).head? →
              s.arbitrate = switching e.path pre.length (s.lineOp (.legClose st.leg) st.junction)) ∧
            ∀ (st : RouteStep) (rest : List RouteStep), e.path = s.line.route ++ st :: rest →
              (∀ c : Entry, s.rstr.find st.junction = some c → c.state ≠ .departed → kindIsJunction c.kind = true →
                c.path = s.line.route → 1 ≤ st.leg → st.leg ≤ kindLegs c.kind → s.arbitrate =
                  switching e.path s.line.route.length (s.lineOp (.legOpen st.leg) st.junction)) ∧
              (s.rstr.Bars s.line.route st → s.arbitrate = { refused .routeFail with rate := ⟨none⟩ }))))) ∧
  (∀ (s : State) (y : Sweep) (e : Entry), s.Free → s.claim false = some .sweep → s.jobq.sweep = some y →
    s.rstr.nextLive y.position = some e →
    let rolling := fun (switch : Option Switch) (op : LineOp) =>
      ({ s with
        jobq := { s.jobq with grant := some ⟨.sweep e.handle s.link.settings.exchangeRetries 0, switch, none⟩ }
        line := s.line.started op } : State)
    let switching := fun (common : Nat) => rolling
      (some ⟨.sweep, e.path, common, s.link.settings.stepRetries, s.link.settings.legSettleMs, 0, none, false, none, false⟩)
    (e.path = s.line.route → s.arbitrate = rolling none (s.lineOp .roll e.handle)) ∧
    (∀ (pre rest more : Route) (st : RouteStep), s.line.route = pre ++ more ++ [st] → e.path = pre ++ rest →
      rest.head? ≠ (more ++ [st]).head? → s.arbitrate = switching pre.length (s.lineOp (.legClose st.leg) st.junction)) ∧
    ∀ (st : RouteStep) (rest : Route), e.path = s.line.route ++ st :: rest →
      (∀ c : Entry, s.rstr.find st.junction = some c → c.state ≠ .departed → kindIsJunction c.kind = true →
        c.path = s.line.route → 1 ≤ st.leg → st.leg ≤ kindLegs c.kind →
        s.arbitrate = switching s.line.route.length (s.lineOp (.legOpen st.leg) st.junction)) ∧
      ∀ n v, s.rstr.Bars s.line.route st → s.SweepGoesOn { y with position := e.handle, rolled := true } v →
        s.arbitrateFrom (n + 1) false = v.arbitrateFrom n false) ∧
  (∀ (s : State) (st : DiscStep), s.Free → s.claim false = some (.disc st) →
    (∀ n, s.arbitrateFrom (n + 1) false = (s.beginStep st).arbitrateFrom n false) ∧
      ((s.beginStep st).jobq.grant ≠ none → s.arbitrate = s.beginStep st)) ∧
  (∀ (s : State) (st : DiscStep),
    let t := s.link.settings
    let w : DiscWork :=
      ⟨st, t.stepRetries, 0, if st = .call then s.disc.frames.headD [] else [], t.nameRetries, 0, t.autoCalibrate, none⟩
    let d := { s.disc with
      waiting := false, next := none
      frames := if st = .call then s.disc.frames.tail else s.disc.frames
      pass := if st = .hail then
          ⟨s.disc.pass.number + 1, if s.disc.pass.number = 0 then t.walkPasses else s.disc.pass.kept, false, false, false, 0⟩
        else s.disc.pass }
    let level := s.disc.levelRoute
    let stands := s.line.route = level ∨ st = .returnCheck ∧ ∃ c, s.disc.cursorStep = some c ∧ s.line.route = level ++ [c]
    let restoring := fun (common : Nat) (op : LineOp) =>
      ({ s with
        disc := { d with state := .restoring }
        jobq := { s.jobq with
          grant := some ⟨.disc w, some ⟨.restore, level, common, t.stepRetries, t.legSettleMs, 0, none, false, none, false⟩, none⟩ }
        line := s.line.started op } : State)
    (stands → s.beginStep st = State.stepBody { s with disc := d, jobq := s.jobq.granted (.disc w) } w) ∧
    (¬stands →
      (∀ (pre rest more : Route) (last : RouteStep), s.line.route = pre ++ more ++ [last] → level = pre ++ rest →
        rest.head? ≠ (more ++ [last]).head? →
        s.beginStep st = restoring pre.length (s.lineOp (.legClose last.leg) last.junction)) ∧
      ∀ (x : RouteStep) (rest : List RouteStep), level = s.line.route ++ x :: rest →
        (∀ c : Entry, s.rstr.find x.junction = some c → c.state ≠ .departed → kindIsJunction c.kind = true →
          c.path = s.line.route → 1 ≤ x.leg → x.leg ≤ kindLegs c.kind →
          s.beginStep st = restoring s.line.route.length (s.lineOp (.legOpen x.leg) x.junction)) ∧
        ∀ top below, s.rstr.Bars s.line.route x → s.disc.cancelled = false →
          (s.disc.restoreLost s.line.route.length).levels = top :: below →
          s.beginStep st = State.discNext { s with
            disc := { d.restoreLost s.line.route.length with state := .restoring, levels := top.atNextJunction :: below }
            jobq := s.jobq.released })) ∧
  ∀ (s : State) (w : DiscWork),
    let asks := fun (d : Disc) (op : LineOp) => ({ s with disc := d, line := s.line.started op } : State)
    let goesOn := fun d : Disc => State.discNext { s with disc := d, jobq := s.jobq.released }
    (w.step = .hail → s.stepBody w = asks { s.disc with state := .walking } ⟨.hail, 0, 0, [], 0⟩) ∧
    (w.step = .call → s.stepBody w = asks { s.disc with state := .walking } (s.lineOp (.call w.frame) 0)) ∧
    (∀ l, w.step = .echo → s.disc.leaf = some l → s.stepBody w = asks
      { s.disc with
        state := .resolving
        leaf := some (if l.tryLimit = none then { l with tries := 0, tryLimit := some s.link.settings.nonceTries } else l) }
      (s.lineOp (.echo l.stamp) 0)) ∧
    (∀ l n ns, w.step = .naming → s.disc.leaf = some l → l.nonces = some (n :: ns) →
      let choice := chooseHandle s.rstr s.pins s.link.settings.dynBase l.stamp l.mismatch
      (∀ c, choice = some c → s.stepBody w =
        { asks { s.disc with state := .resolving, leaf := some { l with choice := some c } }
            (s.lineOp (.name l.stamp n c.handle) 0) with
          rstr := { s.rstr with reserved := if c.restores then s.rstr.reserved else c.handle } }) ∧
      (choice = none → s.disc.cancelled = false → s.stepBody w = goesOn { s.disc with
        state := .resolving, leaf := none, frames := []
        pass := { s.disc.pass with
          outOfHandles := true, leftUnnamed := min (s.disc.pass.leftUnnamed + (ns.length + 1)) 255 } })) ∧
    (∀ h, w.step = .pendingDrop → s.disc.pendingDrop = some h →
      s.stepBody w = asks { s.disc with state := .resolving } (s.lineOp .drop h)) ∧
    (∀ l c, w.step = .calibration → s.disc.leaf = some l → l.calib = some c →
      let owed := ∃ e, s.rstr.find c.handle = some e ∧ e.state ≠ .departed ∧ e.namedAt = c.namedAt
      (owed → s.stepBody w = { asks { s.disc with state := .measuring } (s.lineOp .measure c.handle) with
        rate := ⟨some ⟨s.link.settings.roundMode, .record, false⟩⟩ }) ∧
      (¬owed → s.disc.cancelled = false → s.stepBody w = goesOn { s.disc with
        state := .measuring
        leaf := some l.nonceDone })) ∧
    (∀ top below j, s.disc.levels = top :: below → top.junctions[top.index]? = some j →
      let level := s.disc.levelRoute
      let past := { s.disc with abandoned := true, levels := top.atNextJunction :: below }
      (w.step = .opening → s.line.route = level →
        (∀ c : Entry, s.rstr.find j.handle = some c → c.state ≠ .departed → kindIsJunction c.kind = true → c.path = level →
          1 ≤ top.leg → top.leg ≤ kindLegs c.kind → s.stepBody w =
            { asks { s.disc with state := .opening } (s.lineOp (.legOpen top.leg) j.handle) with
              jobq := { s.jobq with grant := s.jobq.grant.map (fun g => { g with
                switch := some ⟨.opening, level ++ [⟨j.handle, top.leg⟩], level.length, s.link.settings.stepRetries,
                  s.link.settings.legSettleMs, 0, none, false, none, false⟩ }) } }) ∧
        (s.rstr.Bars level ⟨j.handle, top.leg⟩ → s.disc.cancelled = false →
          s.stepBody w = goesOn { past with state := .opening })) ∧
      (w.step = .returnCheck →
        let good := ∃ e, s.rstr.find j.handle = some e ∧ e.namedAt = j.namedAt ∧ e.state ≠ .departed ∧ e.path = level
        (good → s.stepBody w = asks { s.disc with state := .returning } (s.lineOp .roll j.handle)) ∧
        (¬good → s.disc.cancelled = false → s.stepBody w = goesOn { past with state := .returning })))

/-- A ROLL job: an answer clears misses, compares kinds and revives a SILENT entry; a decode outcome counts an error and is retried;
the last one counts a miss and may make the entry SILENT (R69, R72, R73, R74, R145, R147). That the reply of an unanswered ROLL
carries 00h for the kind byte it lacks is read from R171 (log 19). A job whose entry a FORGET removed during the roll changes no
entry and is answered all the same, the fields that its entry lacks 00h, which is read from R147 and R171 (log 39). DISC's return
check takes an answer in the same way and closes the leg, with the STEP_RETRIES that its step kept, which is the model's choice (log
44), while the open route holds it, else moves its cursor on (R130); its unanswered roll departs the junction with no miss,
truncates the route and sets the abandoned mark (R131, R132). That it counts taints and decode outcomes together is read from R10
and R130 (log 17); that the count of entries departed has no bound is the model's choice (log 24). -/
def Obligations.RollJobTaken : Prop :=
  ∀ (s : State) (op : LineOp) (e : Entry) (cells : List LowSample), s.Runs .roll op →
    let line := s.line.endedWith s.link.settings (s.lastCell op cells)
    let next := if s.rstr.generation = 65535 then 1 else s.rstr.generation + 1
    let err := min (e.errors + 1) 255
    let answered := fun k : Byte =>
      { e with
        misses := 0, oddAnswer := e.oddAnswer || e.kind != k
        state := if e.state = .silent then (if e.trim.isSome then .calibrated else .named) else e.state }
    (∀ (j : Job) (r u : Nat) (q : Request), s.Holds (.job j r u) → s.Owes q → q.tag = j.tag → s.rstr.find j.handle = some e →
      let m := min (e.misses + 1) 15
      let silenced := s.link.settings.missLimit ≤ m ∧ (e.state = .named ∨ e.state = .calibrated)
      (∀ k, s.Reads op cells k → ∃ t : Rstr, exec (.rollDone cells) s = .next (State.kick (State.regrant { s with
            line := line, jobq := s.jobq.released, rate := ⟨none⟩, rstr := t
            link := s.link.answered q .ok [k, byteOf (answered k).state.code, 0#8] } s)) ∧
          s.rstr.Puts t j.handle (answered k) ∧ t.generation = if e.state = .silent then next else s.rstr.generation) ∧
      (∀ f, s.Misreads op cells f → u < r → ∃ t : Rstr, exec (.rollDone cells) s = .next (State.kick { s with
          line := line.started (s.lineOp .roll j.handle), jobq := s.jobq.granted (.job j r (u + 1)), rstr := t }) ∧
        s.rstr.Puts t j.handle { e with errors := err } ∧ t.generation = s.rstr.generation) ∧
      ∀ f, s.Misreads op cells f → r ≤ u →
        let e' := { e with errors := err, misses := m, state := if silenced then .silent else e.state }
        ∃ t : Rstr, exec (.rollDone cells) s = .next (State.kick (State.regrant { s with
            line := line, jobq := s.jobq.released, rate := ⟨none⟩, rstr := t
            link := s.link.answered q f.result [0#8, byteOf e'.state.code, byteOf m] } s)) ∧
          s.rstr.Puts t j.handle e' ∧ t.generation = if silenced then next else s.rstr.generation) ∧
    (∀ (j : Job) (r u : Nat) (q : Request), s.Holds (.job j r u) → s.Owes q → q.tag = j.tag → s.rstr.find j.handle = none →
      let ends := fun (code : Result) (fields : List Byte) => exec (.rollDone cells) s = .next (State.kick (State.regrant { s with
        line := line, jobq := s.jobq.released, rate := ⟨none⟩, link := s.link.answered q code fields } s))
      (∀ k, s.Reads op cells k → ends .ok [k, 0#8, 0#8]) ∧
      (∀ f, s.Misreads op cells f → u < r → exec (.rollDone cells) s = .next (State.kick { s with
        line := line.started (s.lineOp .roll j.handle), jobq := s.jobq.granted (.job j r (u + 1)) })) ∧
      ∀ f, s.Misreads op cells f → r ≤ u → ends f.result [0#8, 0#8, 0#8]) ∧
    ∀ (d : DiscWork) (top : Level) (below : List Level) (j : Listed) (c : Entry), s.Holds (.disc d) → s.disc.cancelled = false →
      s.disc.levels = top :: below → s.AtJunction top j c → s.rstr.find op.audience = some e →
      let level := s.disc.levelRoute
      let here := level ++ [⟨j.handle, top.leg⟩]
      (∀ k, s.Reads op cells k → ∃ t : Rstr,
        s.rstr.Puts t op.audience (answered k) ∧ t.generation = (if e.state = .silent then next else s.rstr.generation) ∧
        (s.line.route = here → exec (.rollDone cells) s = .next (State.kick { s with
          line := line.started (s.lineOp (.legClose top.leg) j.handle), rstr := t
          jobq := { s.jobq with grant := some ⟨.disc d, some ⟨.closing, level, level.length, d.retries,
            s.link.settings.legSettleMs, 0, none, false, none, false⟩, none⟩ } })) ∧
        (s.line.route ≠ here → exec (.rollDone cells) s = .next (State.onward { s with
          line := line, rstr := t
          disc := { s.disc with levels := top.atNextLeg (kindLegs c.kind) :: below } } s))) ∧
      (∀ f, s.Misreads op cells f → d.used < d.retries → exec (.rollDone cells) s = .next (State.kick { s with
        line := line.started (s.lineOp .roll op.audience), rstr := s.rstr.erred op.audience
        jobq := s.jobq.granted (.disc { d with used := d.used + 1 }) })) ∧
      ∀ f, s.Misreads op cells f → d.retries ≤ d.used →
        let gone := (s.rstr.erred op.audience).cascade op.audience
        exec (.rollDone cells) s = .next (State.onward { s with
          line := { line with route := s.line.route.take level.length }, rstr := gone.1
          disc := { s.disc with
            levels := top.atNextJunction :: below, abandoned := true
            result := s.disc.result.map (fun r => { r with departed := r.departed + gone.2 }) } } s)

/-- A sweep roll's answer, or the last of its unanswered attempts, moves the position and counts its change; with a next entry the
pass goes on, without one it ends, and the sweep ends by its count or at a change, or rests, 100 ms or more after a pass that rolled
nothing, or begins its next pass at once with an interval of 0; an ENDING sweep is answered CANCELLED; a rest's end starts the next
pass (R72, R73, R74, R151, R152, R153, R154). A roll whose entry a FORGET removed meanwhile changes no entry and moves the position
all the same, which is read from R79 and R152 (log 39). A leg that is faulted in the roll's switch ends the roll without a change of
its own (R152); that it sets rolled this pass is read from R152 (log 30). That pass changes have no bound is the model's choice (log
46), and so is a SWEEP_REST_EXPIRY without a sweep or its timer changing nothing (log 3). That a pass begun at once looks for its
next entry once more is read from R151 (log 20). -/
def Obligations.SweepPasses : Prop :=
  (∀ (s : State) (op : LineOp) (h r u : Nat) (w : Sweep) (e : Entry) (cells : List LowSample), s.Runs .roll op →
    s.Holds (.sweep h r u) → s.jobq.sweep = some w → s.rstr.find h = some e →
    let line := s.line.endedWith s.link.settings (s.lastCell op cells)
    let advanced := if s.rstr.generation = 65535 then 1 else s.rstr.generation + 1
    -- a roll that makes `f x` of the entry `x` at `h`, its state changed or not
    let passes := fun (f : Entry → Entry) (changed : Bool) => ∀ v, State.SweepGoesOn { s with
        line := line, jobq := s.jobq.released
        rstr := { s.rstr with
          entries := s.rstr.entries.map (fun x => if x.handle = h then f x else x)
          generation := if changed then advanced else s.rstr.generation } }
        { w with position := h, rolled := true, passChanges := w.passChanges + if changed then 1 else 0 } v →
      exec (.rollDone cells) s = .next (State.kick (State.regrant v s))
    let m := min (e.misses + 1) 15
    let silenced := s.link.settings.missLimit ≤ m ∧ (e.state = .named ∨ e.state = .calibrated)
    (∀ k, s.Reads op cells k → passes
      (fun x => { x with
        misses := 0, oddAnswer := x.oddAnswer || x.kind != k
        state := if e.state = .silent then (if x.trim.isSome then .calibrated else .named) else x.state })
      (e.state == .silent)) ∧
    (∀ f, s.Misreads op cells f → u < r → exec (.rollDone cells) s = .next (State.kick { s with
      line := line.started (s.lineOp .roll h), rstr := s.rstr.erred h, jobq := s.jobq.granted (.sweep h r (u + 1)) })) ∧
    ∀ f, s.Misreads op cells f → r ≤ u → passes
      (fun x => { x with errors := min (x.errors + 1) 255, misses := m, state := if silenced then .silent else x.state })
      (decide silenced)) ∧
  (∀ (s : State) (op : LineOp) (h r u : Nat) (w : Sweep) (cells : List LowSample), s.Runs .roll op →
    s.Holds (.sweep h r u) → s.jobq.sweep = some w → s.rstr.find h = none →
    let line := s.line.endedWith s.link.settings (s.lastCell op cells)
    (∀ f, s.Misreads op cells f → u < r → exec (.rollDone cells) s = .next (State.kick { s with
      line := line.started (s.lineOp .roll h), jobq := s.jobq.granted (.sweep h r (u + 1)) })) ∧
    ((∃ k, s.Reads op cells k) ∨ r ≤ u ∧ (∃ f, s.Misreads op cells f) →
      ∀ v, State.SweepGoesOn { s with line := line, jobq := s.jobq.released } { w with position := h, rolled := true } v →
        exec (.rollDone cells) s = .next (State.kick (State.regrant v s)))) ∧
  (∀ (s : State) (op : LineOp) (h r u g : Nat) (sw : Switch) (w : Sweep) (cells : List LowSample) (b : Byte) (v : State),
    s.Runs (.legOpen g) op → s.jobq.grant = some ⟨.sweep h r u, some sw, none⟩ → sw.purpose = .sweep → s.jobq.sweep = some w →
    s.Reads op cells b → b.toNat ≠ 1 → b.toNat ≠ 2 →
    let faulted := s.rstr.legCascade op.audience g
    State.SweepGoesOn { s with
      line := s.line.endedWith s.link.settings (s.lastCell op cells), rstr := faulted.1, jobq := s.jobq.released
      link := { s.link with
        notices := putNotice (.roster .cascade faulted.1.generation faulted.2 op.audience g) s.link.notices } }
      { w with position := h, rolled := true, passChanges := w.passChanges + faulted.2 } v →
    exec (.legOpenDone cells) s = .next (State.kick (State.regrant v s))) ∧
  (∀ s : State, s.jobq.sweep = none → exec .sweepRestExpiry s = .next s) ∧
  ∀ (s : State) (w : Sweep), s.jobq.sweep = some w →
    (w.phase ≠ .resting ∨ w.rest = none → exec .sweepRestExpiry s = .next s) ∧
    ∀ v, w.phase = .resting → w.rest.isSome = true → s.SweepGoesOn { w with phase := .rolling, rest := none } v →
      exec .sweepRestExpiry s = .next v.arbitrate.kick

/-- A LEG_OPEN that reports CONNECTED or EMPTY extends the open route and starts the leg settle; a leg that reports otherwise is
faulted and ends the job, the sweep's roll or the discovery's step; an unanswered one departs the junction (R74, R77, R122, R124,
R145, Table 8-2). The sweep counts the cascade among its pass changes and moves on, unjudged (R152); that the roll sets rolled this
pass is read from R152 (log 30), that pass changes have no bound is the model's choice (log 46). DISC counts the cascade, without a
bound by the model's choice (log 24), and the faulted leg, and moves its cursor on (R128, R132, Table 8-4); at a restoration it pops
the levels beyond the route (R135). A cascade departs the junction and what stands behind it, a leg cascade what stands behind the
leg; every other entry stays, and the generation advances once for each (R70, R76, R77). That the counts made for a popped segment
stay is the model's choice (log 50); that a sweep's pass begun at once looks once more is read from R151 (log 20). -/
def Obligations.LegOpenMovesRoute : Prop :=
  (∀ (s : State) (op : LineOp) (g : Nat) (w : Work) (sw : Switch) (cells : List LowSample), s.Runs (.legOpen g) op →
    s.jobq.grant = some ⟨w, some sw, none⟩ →
    let line := s.line.endedWith s.link.settings (s.lastCell op cells)
    let faulted := s.rstr.legCascade op.audience g
    let short := s.line.route.takeWhile (fun st => st.junction != op.audience)
    let gone := (s.rstr.erred op.audience).cascade op.audience
    (∀ b, s.Reads op cells b → b.toNat = 1 ∨ b.toNat = 2 → exec (.legOpenDone cells) s = .next (State.kick { s with
      line := { line with route := s.line.route ++ [⟨op.audience, g⟩] }
      rstr := { s.rstr with entries := s.rstr.entries.map (fun e =>
        if e.handle = op.audience then { e with faultedLegs := e.faultedLegs.filter (fun x => x != g) } else e) }
      jobq := { s.jobq with
        grant := some ⟨w, some { sw with used := 0, settle := some sw.settleMs, status := some b.toNat }, none⟩ } })) ∧
    (∀ f, s.Misreads op cells f → sw.used < sw.retries → exec (.legOpenDone cells) s = .next (State.kick { s with
      line := line.started (s.lineOp (.legOpen g) op.audience)
      rstr := s.rstr.erred op.audience
      jobq := { s.jobq with grant := some ⟨w, some { sw with used := sw.used + 1 }, none⟩ } })) ∧
    (∀ (j : Job) (r u : Nat) (q : Request), w = .job j r u → sw.purpose = .job → s.Owes q → q.tag = j.tag →
      (∀ b : Byte, s.Reads op cells b → b.toNat ≠ 1 → b.toNat ≠ 2 →
        exec (.legOpenDone cells) s = .next (State.kick (State.regrant { s with
          line := line, rstr := faulted.1, rate := ⟨none⟩, jobq := s.jobq.released
          link := Link.answered { s.link with
            notices := putNotice (.roster .cascade faulted.1.generation faulted.2 op.audience g) s.link.notices }
            q .legFault [] } s))) ∧
      ∀ f : DecodeFail, s.Misreads op cells f → sw.retries ≤ sw.used →
        exec (.legOpenDone cells) s = .next (State.kick (State.regrant { s with
          line := { line with route := short }
          rstr := gone.1, rate := ⟨none⟩, jobq := s.jobq.released
          link := Link.answered { s.link with
            notices := putNotice (.roster .cascade gone.1.generation gone.2 op.audience 0) s.link.notices }
            q .routeFail [] } s))) ∧
    (∀ (h r u : Nat) (y : Sweep) (v : State), w = .sweep h r u → sw.purpose = .sweep → s.jobq.sweep = some y →
      (∀ b : Byte, s.Reads op cells b → b.toNat ≠ 1 → b.toNat ≠ 2 →
        State.SweepGoesOn { s with
          line := line, rstr := faulted.1, jobq := s.jobq.released
          link := { s.link with
            notices := putNotice (.roster .cascade faulted.1.generation faulted.2 op.audience g) s.link.notices } }
          { y with position := h, rolled := true, passChanges := y.passChanges + faulted.2 } v →
        exec (.legOpenDone cells) s = .next (State.kick (State.regrant v s))) ∧
      ∀ f : DecodeFail, s.Misreads op cells f → sw.retries ≤ sw.used →
        State.SweepGoesOn { s with
          line := { line with route := short }, rstr := gone.1, jobq := s.jobq.released
          link := { s.link with
            notices := putNotice (.roster .cascade gone.1.generation gone.2 op.audience 0) s.link.notices } }
          { y with position := h, rolled := true, passChanges := y.passChanges + gone.2 } v →
        exec (.legOpenDone cells) s = .next (State.kick (State.regrant v s))) ∧
    ∀ (d : DiscWork) (top : Level) (below : List Level) (j : Listed) (c : Entry), w = .disc d →
      sw.purpose = .opening ∨ sw.purpose = .restore → s.disc.cancelled = false → s.AtJunction top j c →
      let kept := fun route : Route => if sw.purpose = .restore then s.disc.restoreLost route.length else s.disc
      (∀ b : Byte, s.Reads op cells b → b.toNat ≠ 1 → b.toNat ≠ 2 → (kept s.line.route).levels = top :: below →
        exec (.legOpenDone cells) s = .next (State.onward { s with
          line := line, rstr := faulted.1
          disc := { kept s.line.route with
            levels := top.atNextLeg (kindLegs c.kind) :: below
            result := s.disc.result.map (fun r =>
              { r with departed := r.departed + faulted.2, legsFaulted := min (r.legsFaulted + 1) 255 }) } } s)) ∧
      ∀ f : DecodeFail, s.Misreads op cells f → sw.retries ≤ sw.used → (kept short).levels = top :: below →
        exec (.legOpenDone cells) s = .next (State.onward { s with
          line := { line with route := short }, rstr := gone.1
          disc := { kept short with
            levels := top.atNextJunction :: below, abandoned := true
            result := s.disc.result.map (fun r => { r with departed := r.departed + gone.2 }) } } s)) ∧
  ∀ (r : Rstr) (j g : Nat), r.generation ≤ 65535 → r.entries.length ≤ 126 →
    let departs := fun (r : Rstr) (cut : Rstr × Nat) (hit : Entry → Bool) =>
      cut.1.entries = r.entries.map (fun e => if e.state ≠ .departed ∧ hit e = true then { e with state := .departed } else e) ∧
      cut.2 = (r.entries.filter (fun e => e.state != .departed && hit e)).length ∧
      cut.1.generation = (if r.generation + cut.2 ≤ 65535 then r.generation + cut.2 else r.generation + cut.2 - 65535) ∧
      cut.1.reserved = r.reserved ∧ cut.1.clampedSummary = r.clampedSummary
    departs r (r.cascade j) (fun e => e.handle == j || e.path.any (fun st => st.junction == j)) ∧
    departs { r with entries := r.entries.map (fun e =>
        if e.handle = j then { e with faultedLegs := insertLeg g e.faultedLegs } else e) }
      (r.legCascade j g) (fun e => e.path.any (fun st => st.junction == j && st.leg == g)) ∧
    ∀ legs : List Nat, legs.Pairwise (· < ·) →
      (insertLeg g legs).Pairwise (· < ·) ∧ ∀ x, x ∈ insertLeg g legs ↔ x = g ∨ x ∈ legs

/-- A LEG_CLOSE that decodes takes the last step off the open route, whatever its status; one that fails is retried, and in the end
departs its junction, the cascade told by a notice, counted by a sweep or counted in the record (R74, R76, R78, R122, R123, R132,
R152). The switch then goes on for whoever holds the line: the next step beyond the target is closed, or the target's first step is
opened, or the holder goes on with its own operation, its roll or its restored step, or takes ROUTE_FAIL where the roster bars the
step (R121, R134, R136, R145, R152). An unanswered close ends the switch ROUTE_FAIL where its target passes through the junction
(R123), and a restoration then gives up the levels beyond the step it lost (R135). DISC moves its cursor after the close of a leg
(R128, R130). That a sweep's failed switch sets rolled this pass is read from R152 (log 30); that the counts have no bound is the
model's choice (log 24, log 46). That the counts made for a popped segment stay is the model's choice (log 50); that a sweep's pass
begun at once looks once more is read from R151 (log 20). -/
def Obligations.LegCloseMovesRoute : Prop :=
  ∀ (s : State) (op : LineOp) (g : Nat) (w : Work) (sw : Switch) (cells : List LowSample), s.Runs (.legClose g) op →
    s.jobq.grant = some ⟨w, some sw, none⟩ →
    let line := s.line.endedWith s.link.settings (s.lastCell op cells)
    let short := s.line.route.takeWhile (fun st => st.junction != op.audience)
    let gone := (s.rstr.erred op.audience).cascade op.audience
    let told := { s.link with notices := putNotice (.roster .cascade gone.1.generation gone.2 op.audience 0) s.link.notices }
    let barred := ∃ st ∈ sw.target.drop sw.common, st.junction = op.audience
    -- the step closed, and the junction departed with the cascade accounted for
    let shut : State := { s with line := { line with route := s.line.route.dropLast } }
    let cut : State := { s with line := { line with route := short }, rstr := gone.1 }
    let lost : State := match sw.purpose with
      | .job => { cut with link := told }
      | .sweep => { cut with
          link := told
          jobq := { s.jobq with
            sweep := s.jobq.sweep.map (fun y => { y with passChanges := y.passChanges + gone.2 }) } }
      | .restore | .opening | .closing => { cut with
          disc := { s.disc with result := s.disc.result.map (fun r => { r with departed := r.departed + gone.2 }) } }
    (∀ b v, s.Reads op cells b → s.SwitchGoesOn shut w sw v → exec (.legCloseDone cells) s = .next v.kick) ∧
    (∀ f, s.Misreads op cells f → sw.used < sw.retries → exec (.legCloseDone cells) s = .next (State.kick { s with
      line := line.started (s.lineOp (.legClose g) op.audience)
      rstr := s.rstr.erred op.audience
      jobq := { s.jobq with grant := some ⟨w, some { sw with used := sw.used + 1 }, none⟩ } })) ∧
    (∀ f v, s.Misreads op cells f → sw.retries ≤ sw.used → ¬barred →
      s.SwitchGoesOn lost w { sw with closeDeparted := true } v → exec (.legCloseDone cells) s = .next v.kick) ∧
    (∀ f, s.Misreads op cells f → sw.retries ≤ sw.used → barred →
      (∀ (j : Job) (r u : Nat) (q : Request), w = .job j r u → sw.purpose = .job → s.Owes q → q.tag = j.tag →
        exec (.legCloseDone cells) s = .next (State.kick (State.regrant { cut with
          rate := ⟨none⟩, jobq := s.jobq.released, link := told.answered q .routeFail [] } s))) ∧
      (∀ (h r u : Nat) (y : Sweep) (v : State), w = .sweep h r u → sw.purpose = .sweep → s.jobq.sweep = some y →
        State.SweepGoesOn { cut with jobq := s.jobq.released, link := told }
          { y with position := h, rolled := true, passChanges := y.passChanges + gone.2 } v →
        exec (.legCloseDone cells) s = .next (State.kick (State.regrant v s))) ∧
      ∀ (d : DiscWork) (top : Level) (below : List Level), w = .disc d → sw.purpose = .restore → s.disc.cancelled = false →
        (s.disc.restoreLost short.length).levels = top :: below →
        exec (.legCloseDone cells) s = .next (State.onward { cut with
          disc := { s.disc.restoreLost short.length with levels := top.atNextJunction :: below, result := lost.disc.result } } s)) ∧
    ∀ (d : DiscWork) (top : Level) (below : List Level) (j : Listed) (c : Entry), w = .disc d → sw.purpose = .closing →
      s.disc.cancelled = false → s.disc.levels = top :: below → s.AtJunction top j c →
      (∀ b, s.Reads op cells b → sw.target = shut.line.route → exec (.legCloseDone cells) s = .next (State.onward { shut with
        disc := { s.disc with
          levels := (if sw.closeDeparted then top.atNextJunction else top.atNextLeg (kindLegs c.kind)) :: below
          abandoned := s.disc.abandoned || sw.closeDeparted } } s)) ∧
      ∀ f, s.Misreads op cells f → sw.retries ≤ sw.used → ¬barred → sw.target = short →
        exec (.legCloseDone cells) s = .next (State.onward { cut with
          disc := { s.disc with levels := top.atNextJunction :: below, abandoned := true, result := lost.disc.result } } s)

/-- The leg settle's end lets the switch go on for whoever holds the line: the next LEG_OPEN short of the target, ROUTE_FAIL when
the roster no longer holds the step, and at the target a job's own operation, the sweep's ROLL (R145, R152) or the step that a
restoration precedes (R134); a restoration that the roster bars gives up the levels beyond the step (R136). During SUSPECT the
switch waits for the return (R121, R124, R125). DISC pushes a level for a CONNECTED leg, its junctions seeded from the roster
(R129), and closes an EMPTY one in the same grant (R128), with the STEP_RETRIES that the opening switch kept, which is the model's
choice (log 44). That a sweep's failed switch sets rolled this pass is read from R152 (log 30). The model's choices are also a count
of junctions not entered without a bound (log 24) and the counts made for a popped segment, which stay (log 50); that a sweep's pass
begun at once looks once more is read from R151 (log 20). -/
def Obligations.LegSettleEnds : Prop :=
  (∀ (s : State) (w : Work) (sw : Switch), s.jobq.grant = some ⟨w, some sw, none⟩ → sw.settle.isSome = true →
    (s.mmon.state ≠ .mated ∨ s.line.state ≠ .idle) → exec .legSettleExpiry s = .next { s with
      jobq := { s.jobq with grant := some ⟨w, some { sw with settle := none, resume := true }, none⟩ } }) ∧
  ∀ (s : State) (w : Work) (sw : Switch), s.jobq.grant = some ⟨w, some sw, none⟩ →
    sw.settle.isSome = true → s.mmon.state = .mated → s.line.state = .idle →
    (∀ v, s.SwitchGoesOn s w sw v → exec .legSettleExpiry s = .next v.kick) ∧
    ∀ d : DiscWork, w = .disc d → s.disc.cancelled = false →
      (sw.purpose = .opening → sw.target = s.line.route → sw.status = some 1 → s.disc.pendingDrop = none →
        let here := s.rstr.entries.filter (fun e => e.state != .departed && kindIsJunction e.kind && e.path == s.line.route)
        let beyond := (here.drop 8).map (fun e => e.handle)
        exec .legSettleExpiry s = .next (State.kick (State.regrant { s with
          rstr := { s.rstr with
            entries := s.rstr.entries.map (fun e => if beyond.contains e.handle then { e with notEntered := true } else e) }
          jobq := s.jobq.released
          disc := Disc.decided { s.disc with
            levels :=
              ⟨s.line.route.length, s.disc.cursorStep, (here.take 8).map (fun e => ⟨e.handle, e.namedAt⟩), 0, 1, false⟩ ::
                s.disc.levels
            pass := Pass.cleared, frames := [], leaf := none
            result := s.disc.result.map (fun r => { r with notEntered := r.notEntered + beyond.length }) } .hail } s))) ∧
      ∀ st, sw.purpose = .opening → sw.target = s.line.route → sw.status = some 2 → s.line.route = s.disc.levelRoute ++ [st] →
        exec .legSettleExpiry s = .next (State.kick { s with
          line := s.line.started (s.lineOp (.legClose st.leg) st.junction)
          jobq := { s.jobq with grant := some ⟨w, some ⟨.closing, s.disc.levelRoute, s.disc.levelRoute.length, sw.retries,
            s.link.settings.legSettleMs, 0, none, false, none, false⟩, none⟩ } })

/-- An EXCHANGE is answered with the reply bytes; a decode outcome counts an error, is retried, and ends the job with its result
(R40, R41, R74, R145, R146). -/
def Obligations.ExchangeAnswered : Prop :=
  ∀ (s : State) (op : LineOp) (p : List Byte) (j : Job) (r u : Nat) (q : Request) (cells : List LowSample), s.Runs (.data p) op →
    s.Holds (.job j r u) → s.Owes q → q.tag = j.tag →
    let d := decodeDataReply s.line.beat op.trim cells
    let line := s.line.endedWith s.link.settings d.capture
    let hurt : Rstr := { s.rstr with entries := s.rstr.entries.map (fun e =>
      if e.handle = j.handle then { e with errors := min (e.errors + 1) 255 } else e) }
    (∀ bs, d.reply = .ok bs → exec (.dataDone cells) s = .next (State.kick (State.regrant { s with
      line := line, rate := ⟨none⟩, jobq := s.jobq.released, link := s.link.answered q .ok bs } s))) ∧
    (∀ f, d.reply = .error f → u < r → exec (.dataDone cells) s = .next (State.kick { s with
      line := line.started (s.lineOp (.data p) j.handle), rstr := hurt, jobq := s.jobq.granted (.job j r (u + 1)) })) ∧
    ∀ f, d.reply = .error f → r ≤ u → exec (.dataDone cells) s = .next (State.kick (State.regrant { s with
      line := line, rstr := hurt, rate := ⟨none⟩, jobq := s.jobq.released, link := s.link.answered q f.result [] } s))

/-- A wake train ends its job with the values used, CLAMPED when they were brought into range; a keepalive train clears
keepalive-due; the keepalive timer's end sets it, and with nothing else waiting, a sweep between two passes among it, which makes no
claim (R141), a train of 2 cycles goes out at once (R37, R43, R149). A KEEPALIVE_EXPIRY without its timer changing nothing is the
model's choice (log 3). -/
def Obligations.TrainsAndKeepalive : Prop :=
  ((∀ (s : State) (op : LineOp) (t t' : Train) (c : Bool) (j : Job) (r u : Nat) (q : Request), s.Runs (.wake t) op →
    s.Holds (.job j r u) → j.kind = .wake t' c → s.Owes q → q.tag = j.tag →
    exec .wakeTrainDone s = .next (State.kick (State.regrant { s with
      line := s.line.ended s.link.settings, rate := ⟨none⟩, jobq := s.jobq.released
      link := s.link.answered q (if c then .clamped else .ok) [byteOf t.count, byteOf t.low, byteOf t.high] } s))) ∧
  ∀ (s : State) (op : LineOp) (t : Train), s.Runs (.keepalive t) op → s.Holds .keepalive →
    exec .keepaliveTrainDone s = .next (State.kick (State.regrant { s with
      line := { s.line.ended s.link.settings with keepaliveDue := false }, jobq := s.jobq.released } s))) ∧
  ∀ s : State,
    (s.line.keepalive = none → exec .keepaliveExpiry s = .next s) ∧
    (s.line.keepalive.isSome = true → ¬s.Free → exec .keepaliveExpiry s = .next
      (State.kick { s with line := { s.line with keepalive := none, keepaliveDue := true } })) ∧
    (s.line.keepalive.isSome = true → s.Free → s.jobq.urgent = [] → s.jobq.normal = [] →
      (∀ w, s.jobq.sweep = some w → w.phase ≠ .rolling) →
      (s.disc.state = .idle ∨ s.disc.state = .armed ∨ s.disc.waiting = false) →
      exec .keepaliveExpiry s = .next (State.kick { s with
        line := Line.started { s.line with keepalive := none, keepaliveDue := true }
          ⟨.keepalive ⟨2, s.link.settings.wakeLow, s.link.settings.wakeHigh⟩, 0, 0, [], 0⟩
        jobq := s.jobq.granted .keepalive }))

/-- A low timed for 160 beats faults LINE, idle or busy; no fault arises once a rising edge has stopped the watch. The notice names
what was in flight, or nothing, as in a leg settle; the open route and a start-up train owed are kept. Whatever it was doing under
its grant, a job in flight ends LINE_FAULT; a sweep keeps its position, or is answered CANCELLED when it was ENDING (R152, log 21);
a keepalive train leaves keepalive-due clear. A discovery past ARMED, in a step or waiting between steps, ends ABORTED with reason
LINE, its reservation released and its request answered or DISCOVERY_DONE raised; one in ARMED stays (R28, R30, R43, R44, R46, R47,
R71, R101, R115, R119, R156). The model's choices are that this comes before the reply of a job or of a sweep in ENDING (log 15) and
before the LINE notice (log 33), that it holds for a discovery whose CANCEL has been taken (log 37), that the pass record is left as
it stands (log 31), and that an expiry without its watch changes nothing (log 3, log 6). What the capture unit keeps of the
operation cut short is free (log 32). -/
def Obligations.StuckLineFaults : Prop :=
  (∀ s : State, ¬(s.mmon.state = .mated ∧ (s.line.state = .busy ∨ s.line.state = .idle) ∧ s.line.watch.isSome = true) →
    exec .stuckLineExpiry s = .next s) ∧
  ∀ s : State, s.mmon.state = .mated → (s.line.state = .busy ∨ s.line.state = .idle) → s.line.watch.isSome = true →
    let faulted : State := { s with
      line := { s.line.cut with
        state := .faulted, keepalive := none, keepaliveDue := s.line.keepaliveDue && s.line.names != .keepalive, watch := none
        sampler := some 10, highWatch := none, tlHigh := false }
      rate := ⟨none⟩ }
    -- the part with the end of a discovery past ARMED
    ∀ base : State,
      ((s.disc.state = .idle ∨ s.disc.state = .armed) ∧ base = faulted ∨
        ∃ rec k, s.disc.state ≠ .idle ∧ s.disc.state ≠ .armed ∧ s.disc.result = some rec ∧
          s.DiscTold (rec.stopped .line s.rstr.generation) k ∧
          base = faulted.discEnded (rec.stopped .line s.rstr.generation) k) →
      let fault := fun (q : Jobq) (k : Link) => exec .stuckLineExpiry s = .next (State.kick { base with
        jobq := q, link := { k with notices := putNotice (.line false s.line.names s.line.route) k.notices } })
      (s.jobq.grant = none → fault s.jobq base.link) ∧
      (∀ j r u sw t q, s.jobq.grant = some ⟨.job j r u, sw, t⟩ → base.Owes q → q.tag = j.tag →
        fault s.jobq.released (base.link.answered q .lineFault [])) ∧
      (∀ h r u sw t w, s.jobq.grant = some ⟨.sweep h r u, sw, t⟩ → s.jobq.sweep = some w →
        (w.phase ≠ .ending → fault s.jobq.released base.link) ∧
        ∀ q, w.phase = .ending → base.Owes q → q.tag = w.tag →
          fault { s.jobq with grant := none, sweep := none }
            (base.link.answered q .cancelled (word16 w.passes ++ word16 w.totalChanges ++ word16 w.interval))) ∧
      (∀ sw t, s.jobq.grant = some ⟨.keepalive, sw, t⟩ → fault s.jobq.released base.link) ∧
      ∀ d sw t, s.jobq.grant = some ⟨.disc d, sw, t⟩ → fault s.jobq.released base.link

/-- The level of TL, the stuck-line watch and the fault sampler (R44, R45). At the clearing a start-up train still owed goes out with the
values of that moment, or the line is open at once when WAKE_COUNT is 0 by then; without one an armed discovery that has seen the line
open takes up the root level, and the arbiter grants what it may (R30, R100, R101). Watching a low while BUSY, and a sample that finds
the line low leaving the sampler running, follow the model's choice (log 6), and so does a level that TL has already changing nothing
(log 3). Read from more than one rule are a train left waiting in SUSPECT with its count alone, and one dropped for WAKE_COUNT 0
(log 12). -/
def Obligations.FaultWatchAndClear : Prop :=
  (∀ s : State, exec (.tlLevelChange s.line.tlHigh) s = .next s) ∧
  (∀ s : State, s.line.tlHigh = false →
    exec (.tlLevelChange true) s = .next { s with line := { s.line with tlHigh := true, watch := none } }) ∧
  (∀ s : State, s.line.tlHigh = true →
    (s.line.state = .idle ∨ s.line.state = .busy → s.mmon.state = .mated → exec (.tlLevelChange false) s = .next
      { s with line := { s.line with tlHigh := false, watch := some (160 * s.line.beat) } }) ∧
    (s.line.state = .off ∨ (s.line.state = .idle ∨ s.line.state = .busy) ∧ s.mmon.state ≠ .mated → exec (.tlLevelChange false) s = .next
      { s with line := { s.line with tlHigh := false } }) ∧
    (s.line.state = .faulted → exec (.tlLevelChange false) s = .next
      { s with line := { s.line with tlHigh := false, highWatch := none } })) ∧
  (∀ s : State, s.line.state = .faulted → s.line.sampler.isSome = true →
    (s.line.tlHigh = true → exec .faultSample s = .next
      { s with line := { s.line with sampler := some 10, highWatch := some 1000 } }) ∧
    (s.line.tlHigh = false → exec .faultSample s = .next s)) ∧
  ∀ s : State, s.line.state = .faulted → s.line.highWatch.isSome = true →
    let clear := { s.line with
      state := .idle, sampler := none, highWatch := none
      keepalive := if s.link.settings.keepaliveMs = 0 then none else some s.link.settings.keepaliveMs }
    let told := { s.link with notices := putNotice (.line true .nothing s.line.route) s.link.notices }
    let n := s.link.settings.wakeCount
    let train : Train := ⟨n, s.link.settings.wakeLow, s.link.settings.wakeHigh⟩
    (s.line.startUp = none →
      let cleared : State := { s with line := clear, link := told }
      (s.disc.state ≠ .armed ∨ s.disc.lineOpenSeen = false → exec .faultClear s = .next (State.kick (State.arbitrate cleared))) ∧
      ∀ m, s.disc.state = .armed → s.disc.lineOpenSeen = true → s.disc.mode = some m → exec .faultClear s = .next
        (State.kick (State.arbitrate (cleared.rooted m)))) ∧
    (s.line.startUp.isSome = true → n = 0 →
      let opened : State := { s with
        line := { clear with
          startUp := none
          watch := if s.mmon.state = .mated ∧ s.line.tlHigh = false then some (160 * s.line.beat) else s.line.watch }
        disc := { s.disc with lineOpenSeen := true }, link := told }
      (s.disc.state ≠ .armed → exec .faultClear s = .next (State.kick (State.arbitrate opened))) ∧
      ∀ m, s.disc.state = .armed → s.disc.mode = some m → exec .faultClear s = .next
        (State.kick (State.arbitrate (opened.rooted m)))) ∧
    (s.line.startUp.isSome = true → 1 ≤ n → s.mmon.state = .mated → exec .faultClear s = .next
      (State.kick { s with
        line := Line.started { clear with startUp := some (.begun train) } ⟨.startUp train, 0, 0, [], 0⟩, link := told })) ∧
    (s.line.startUp.isSome = true → 1 ≤ n → s.mmon.state ≠ .mated → exec .faultClear s = .next
      (State.kick { s with line := { clear with startUp := some (.waiting n) }, link := told }))

/-! ### The link port (chapter 10) -/

/-- Every request frame of Table 11-2, built from a well-formed request command, reads back as that command (R161, R171, R172). -/
def Obligations.RequestFramesReadBack : Prop :=
  ∀ c : Instr, Laws.RequestRoundTrip.Statement c

/-- The bytes of a request's frame, received one after another by a receiver in HUNT, make the same step as the request command (R157,
R158, R159, R161, R171). That one request command stands for its whole frame is the model's choice (log 9). The transmitter has nothing
to begin, so the bytes before the last change LINK's receiver only. -/
def Obligations.BytesMakeTheirRequest : Prop :=
  ∀ (c : Instr) (k t : Byte) (p : List Byte) (s : State), c.wellFormed = true → requestFields c = some (k, t, p) → s.Settled →
    s.deaf = false → s.link.rx = .hunt → s.link.frame = [] → s.link.gap = none →
    s.receive (linkFrame (frameBody k t p)) = exec c s

/-- What the receiver abandons: a frame amid which the gap timer ends or a bad byte comes, and one whose LEN is above 80. How a
frame that is no request, or has a bad check, is answered; a request frame is discarded when no slot is free, refused TAG_IN_USE
while its tag is outstanding, and refused BAD_VALUE where a field lies outside its codes (R157, R158, R159, R161, R172). An expiry
without its timer changing nothing is the model's choice (log 3). That a LEN above 80 is judged after its second byte is read from
R158 (log 28). -/
def Obligations.ReceiverAndRefusedFrames : Prop :=
  ((∀ s : State, s.link.gap.isSome = true →
    exec .linkGapExpiry s = .next { s with link := { s.link with rx := .hunt, frame := [], gap := none } }) ∧
  (∀ s : State, s.link.gap = none → exec .linkGapExpiry s = .next s) ∧
  (∀ (s : State) (b : RxByte), s.deaf = true → exec (.receivedByte b) s = .next s) ∧
  (∀ (s : State) (b : RxByte), s.deaf = false → b = .bad ∨ b = .breakLow →
    (s.link.rx = .hunt → exec (.receivedByte b) s = .next s) ∧
    (s.link.rx ≠ .hunt → exec (.receivedByte b) s = .next
      { s with link := { s.link with rx := .hunt, frame := [], gap := none } })) ∧
  (∀ (s : State) (b : Byte), s.deaf = false → s.Settled → s.link.rx = .hunt →
    (b ≠ 0xD5#8 → exec (.receivedByte (.good b)) s = .next s) ∧
    exec (.receivedByte (.good 0xD5#8)) s = .next
      { s with link := { s.link with rx := .header, frame := [], gap := some 2000 } }) ∧
  (∀ (s : State) (hi lo : Byte), s.deaf = false → s.Settled → s.link.rx = .header → s.link.frame = [hi] →
    (80 < (hi ++ lo).toNat → exec (.receivedByte (.good lo)) s = .next
      { s with link := { s.link with rx := .hunt, frame := [], gap := none } }) ∧
    ((hi ++ lo).toNat ≤ 80 → exec (.receivedByte (.good lo)) s = .next
      { s with link := { s.link with frame := [hi, lo], gap := some 2000 } })) ∧
  (∀ (s : State) (body : List Byte) (check : BitVec 16), crc16 body ≠ check → s.deaf = false →
    exec (.frameCheck body check) s = .next (State.kick { s with
      link := if s.link.freeSlots = 0 then { s.link with rx := .hunt, frame := [], gap := none }
        else s.link.replied ⟨0x80#8, 0#8, .frameCheck, [0x00#8]⟩ })) ∧
  ∀ (s : State) (kind tag : Byte) (p : List Byte), (Instr.badRequest kind tag p).wellFormed = true → s.deaf = false →
    exec (.badRequest kind tag p) s = .next (State.kick { s with
      link := if s.link.freeSlots = 0 then { s.link with rx := .hunt, frame := [], gap := none }
        else s.link.replied ⟨0x80#8, tag, .badRequest, [kind]⟩ })) ∧
  (∀ (s : State) (tag k : Byte) (p : List Byte), s.Takes tag → s.Settled → s.link.rx = .hunt → s.link.frame = [] →
    s.link.gap = none →
    (k = 0x04#8 ∧ (∃ a b c d e f h present x, p = [a, b, c, d, e, f, h, present, x] ∧ 1 < present.toNat)) ∨
      (k = 0x0B#8 ∧ ∃ mode, p = [mode] ∧ 2 < mode.toNat) ∨
      (k = 0x0E#8 ∧ ∃ h form override ignore, p = [h, form, override, ignore] ∧
        (1 < form.toNat ∨ (3 < override.toNat ∧ override ≠ 0xFF#8) ∨ 1 < ignore.toNat)) ∨
      (k = 0x11#8 ∧ ∃ type target, p = [type, target] ∧ 2 < type.toNat) ∨
      (k = 0x14#8 ∧ ∃ mode, p = [mode] ∧ 1 < mode.toNat) →
    s.receive (linkFrame (frameBody k tag p)) = .next (State.kick { s with
      link := s.link.replied ⟨k + 0x80#8, tag, .badValue, []⟩ })) ∧
  ∀ (c : Instr) (k t : Byte) (p : List Byte) (s : State), c.wellFormed = true → requestFields c = some (k, t, p) →
    s.deaf = false →
    (s.link.freeSlots = 0 →
      exec c s = .next (State.kick { s with link := { s.link with rx := .hunt, frame := [], gap := none } })) ∧
    (s.link.freeSlots ≠ 0 → (∃ q ∈ s.link.outstanding, q.tag = t) →
      exec c s = .next (State.kick { s with link := s.link.replied ⟨k + 0x80#8, t, .tagInUse, []⟩ }))

/-- At the end of a frame, a reply's or a notice's, the transmitter takes the oldest holding reply, or else the head notice, which
leaves the list, or else TXD goes idle; no notice goes out while a RESTART FULL is carried out (R160, R162, R163, R169). A
TX_FRAME_DONE with nothing on TXD changing nothing is the model's choice (log 3). -/
def Obligations.TransmitterTakesNext : Prop :=
  ∀ s : State,
    (s.link.tx = none → exec .txFrameDone s = .next s) ∧
    (∀ r r' rest, s.link.tx = some (.reply r) → s.link.replies = r :: r' :: rest → exec .txFrameDone s = .next
      { s with link := { s.link with tx := some (.reply r'), replies := r' :: rest } }) ∧
    (∀ n r rest, s.link.tx = some (.notice n) → s.link.replies = r :: rest → exec .txFrameDone s = .next
      { s with link := { s.link with tx := some (.reply r) } }) ∧
    (∀ n m ns, s.link.tx = some (.notice n) → s.link.replies = [] → s.link.restarting = false → s.link.notices = m :: ns →
      exec .txFrameDone s = .next { s with link := { s.link with tx := some (.notice m), notices := ns } }) ∧
    (∀ n, s.link.tx = some (.notice n) → s.link.replies = [] → s.link.restarting = true ∨ s.link.notices = [] →
      exec .txFrameDone s = .next { s with link := { s.link with tx := none } }) ∧
    (∀ r n ns, s.link.tx = some (.reply r) → s.link.replies = [r] → s.link.restarting = false → s.link.notices = n :: ns →
      exec .txFrameDone s = .next { s with link := { s.link with tx := some (.notice n), replies := [], notices := ns } }) ∧
    (∀ r, s.link.tx = some (.reply r) → s.link.replies = [r] → s.link.restarting = true ∨ s.link.notices = [] →
      exec .txFrameDone s = .next { s with link := { s.link with tx := none, replies := [] } }) ∧
    (s.rdy = true ↔ s.resetHeld = false ∧ s.link.replies.length + s.link.outstanding.length + 2 ≤ 24)

/-- STATUS is answered with the picture of Table 11-8: 34 bytes, the slot its own reply holds counted as not free (R164, R171). That
a bit to which the table gives no meaning reads 0 is the model's choice (log 47). -/
def Obligations.StatusPicture : Prop :=
  ∀ (s : State) (tag : Byte), s.Takes tag →
    let p : List Byte :=
      [byteOf s.mmon.state.code,
        byteOf (bit s.mmon.inputs.presA + 2 * bit s.mmon.inputs.presB + 4 * bit s.mmon.inputs.lock + 8 * bit s.mmon.misaligned),
        byteOf s.ssw.state.code, byteOf s.ssw.duty, byteOf (bit s.ssw.parked + if s.ssw.cause = .run then 2 else 0),
        byteOf s.line.state.code, byteOf s.line.beat, byteOf s.line.route.length] ++
      (s.line.route.flatMap (fun st => [byteOf st.junction, byteOf st.leg]) ++
        List.replicate (8 - 2 * s.line.route.length) 0#8) ++
      [byteOf s.disc.state.code, byteOf (bit s.disc.waiting),
        match s.disc.result.bind (fun r => r.outcome) with
        | some .complete => 1#8
        | some .incomplete => 2#8
        | some .aborted => 3#8
        | none => 0#8,
        byteOf (s.rstr.generation / 256), byteOf s.rstr.generation, byteOf s.rstr.reserved] ++
      [EntryState.named, .calibrated, .silent, .departed].map
        (fun st => byteOf (s.rstr.entries.filter (fun e => e.state == st)).length) ++
      [byteOf (bit s.rstr.clampedSummary + 2 * bit s.link.deferred), byteOf s.jobq.urgent.length,
        byteOf s.jobq.normal.length, byteOf (bit s.jobq.sweep.isSome)] ++
      (match s.jobq.sweep with
        | some w => [byteOf (w.passes / 256), byteOf w.passes, byteOf w.position]
        | none => [0#8, 0#8, 0#8]) ++
      [byteOf (s.link.freeSlots - 1)]
    exec (.status tag) s = .next (State.kick { s with link := s.link.replied ⟨0x81#8, tag, .ok, p⟩ }) ∧
      (s.line.route.length ≤ 4 → p.length = 34)

/-- GET answers with the id and the value that the settings table holds, BEAT by its stored value; an id that names no setting is
refused BAD_VALUE; nothing else changes (R165, Table 10-4). -/
def Obligations.GetReadsSetting : Prop :=
  ∀ (s : State) (tag id : Byte), s.Takes tag →
    let t := s.link.settings
    let table : List (Byte × Nat) :=
      [(0x01#8, t.mateDebounceMs), (0x02#8, t.breakFilterMs), (0x03#8, t.rampMs), (0x04#8, t.holdMs), (0x05#8, t.settleMs),
        (0x06#8, t.beat), (0x07#8, t.wakeCount), (0x08#8, t.wakeLow), (0x09#8, t.wakeHigh), (0x0A#8, t.keepaliveMs),
        (0x0B#8, t.answerWait), (0x0C#8, t.nonceTries), (0x0D#8, t.walkPasses), (0x0E#8, t.nameRetries),
        (0x0F#8, t.stepRetries), (0x10#8, t.exchangeRetries), (0x11#8, t.maxDepth), (0x12#8, t.legSettleMs),
        (0x13#8, t.missLimit), (0x14#8, t.driftLimit), (0x15#8, t.roundMode.code), (0x16#8, t.dynBase),
        (0x17#8, if t.autoDiscover then 1 else 0), (0x18#8, if t.autoCalibrate then 1 else 0)]
    (∀ v, (id, v) ∈ table → exec (.get tag id) s = .next
      (State.kick { s with link := s.link.replied ⟨0x82#8, tag, .ok, [id, byteOf (v / 256), byteOf v]⟩ })) ∧
    ((∀ v, (id, v) ∉ table) → exec (.get tag id) s = .next
      (State.kick { s with link := s.link.replied ⟨0x82#8, tag, .badValue, []⟩ }))

/-- SET stores a numeric value brought into its range, OK or CLAMPED, and no other setting changes; an enumerated setting takes its
codes only; an unknown id is refused (R166, Table 10-4). That a refused code still carries id and value is read from R166
(log 13). -/
def Obligations.SetStoresInRange : Prop :=
  ∀ (s : State) (tag id : Byte) (v : BitVec 16), s.Takes tag →
    let ranges : List (Byte × Nat × Nat) :=
      [(0x01#8, 2, 250), (0x02#8, 0, 20), (0x03#8, 1, 100), (0x04#8, 1, 50), (0x05#8, 1, 200), (0x07#8, 0, 64), (0x08#8, 1, 15),
        (0x09#8, 1, 15), (0x0B#8, 3, 31), (0x0C#8, 1, 8), (0x0D#8, 1, 8), (0x0E#8, 0, 3), (0x0F#8, 0, 3), (0x10#8, 0, 3),
        (0x11#8, 0, 4), (0x12#8, 1, 100), (0x13#8, 1, 15), (0x14#8, 0, 127), (0x16#8, 1, 126)]
    let codes : List (Byte × Nat) := [(0x15#8, 4), (0x17#8, 2), (0x18#8, 2)]
    let stored := fun (x : Nat) (code : Result) => ∃ t : Settings,
      exec (.set tag id v) s = .next (State.kick { s with
        link := Link.replied { s.link with settings := t } ⟨0x83#8, tag, code, [id, byteOf (x / 256), byteOf x, 0#8]⟩ }) ∧
      t.value id.toNat = some x ∧ ∀ n, n ≠ id.toNat → t.value n = s.link.settings.value n
    (∀ lo hi, (id, lo, hi) ∈ ranges →
      stored (min hi (max lo v.toNat)) (if min hi (max lo v.toNat) = v.toNat then .ok else .clamped)) ∧
    (∀ n, (id, n) ∈ codes → v.toNat < n → stored v.toNat .ok) ∧
    (∀ n x, (id, n) ∈ codes → n ≤ v.toNat → s.link.settings.value id.toNat = some x → exec (.set tag id v) s = .next
      (State.kick { s with
        link := s.link.replied ⟨0x83#8, tag, .badValue, [id, byteOf (x / 256), byteOf x, 0#8]⟩ })) ∧
    (id.toNat = 0 ∨ 0x18 < id.toNat → exec (.set tag id v) s = .next
      (State.kick { s with link := s.link.replied ⟨0x83#8, tag, .badValue, []⟩ }))

/-- SET of BEAT brings its value to 40, 80 or 160 and defers it during a session when it differs from the BEAT in use; SET of
KEEPALIVE_MS also restarts or stops the keepalive timer (R43, R166, R167). The deferred byte 00h of a reply that defers nothing is
read from Table 11-3 (log 13). -/
def Obligations.SetBeatAndKeepalive : Prop :=
  (∀ (s : State) (tag : Byte) (v : BitVec 16), s.Takes tag →
    let b := if v.toNat ≤ 59 then 40 else if v.toNat ≤ 119 then 80 else 160
    let wait := decide ((s.mmon.state = .mated ∨ s.mmon.state = .suspect) ∧ b ≠ s.line.beat)
    exec (.setBeat tag v) s = .next (State.kick { s with
      link := Link.replied { s.link with settings := { s.link.settings with beat := b }, deferred := wait }
        ⟨0x83#8, tag, if b ≠ v.toNat then .clamped else if wait then .deferred else .ok,
          [0x06#8, 0#8, byteOf b, if wait then 1#8 else 0#8]⟩ })) ∧
  ∀ (s : State) (tag : Byte) (v : BitVec 16), s.Takes tag →
    let ms := min 5000 v.toNat
    exec (.setKeepaliveMs tag v) s = .next (State.kick { s with
      line :=
        if ms = 0 then { s.line with keepalive := none, keepaliveDue := false }
        else if s.line.state = .idle ∨ s.line.state = .busy then { s.line with keepalive := some ms } else s.line
      link := Link.replied { s.link with settings := { s.link.settings with keepaliveMs := ms } }
        ⟨0x83#8, tag, if ms = v.toNat then .ok else .clamped, [0x0A#8, byteOf (ms / 256), byteOf ms, 0#8]⟩ })

/-! ### The pin table and the roster (chapters 5 and 6) -/

/-- PIN by Table 6-2, tested in its order: a refusal leaves the table as it was, an accepted pin replaces the stamp's or is added (R86,
R87, R88). That Table 6-2 also decides for the own stamp of a naming at the DEPARTED entry it restores is the model's choice (log 41). -/
def Obligations.PinRequests : Prop :=
  ∀ (s : State) (tag : Byte) (st : Stamp) (h : Byte) (k : Option Byte), s.Takes tag →
    let refused := fun code : Result => exec (.pin tag st h k) s = .next
      (State.kick { s with link := s.link.replied ⟨0x84#8, tag, code, []⟩ })
    let range := 1 ≤ h.toNat ∧ h.toNat ≤ 126
    let clash := ∃ p, pinAt s.pins h.toNat = some p ∧ p.stamp ≠ st
    let taken := (∃ e, s.rstr.find h.toNat = some e ∧ e.stamp ≠ st) ∨ s.rstr.reserved = h.toNat
    let full := pinFor s.pins st = none ∧ 32 ≤ s.pins.length
    (¬range → refused .badValue) ∧
    (range → clash → refused .pinClash) ∧
    (range → ¬clash → taken → refused .handleTaken) ∧
    (range → ¬clash → ¬taken → full → refused .pinFull) ∧
    (range → ¬clash → ¬taken → ¬full → ∃ ps, exec (.pin tag st h k) s = .next
        (State.kick { s with pins := ps, link := s.link.replied ⟨0x84#8, tag, .ok, []⟩ }) ∧
      pinFor ps st = some ⟨st, h.toNat, k⟩ ∧ (∀ x, x ≠ st → pinFor ps x = pinFor s.pins x) ∧ (s.PinsSound → pinsValid ps))

/-- UNPIN removes the pin for a stamp, or is refused NOT_FOUND; its handle is then not pinned. PINS gives up to 8 pins at or above a
handle, ascending, the number of pins and whether more follow; it changes nothing (R89, Table 11-3). -/
def Obligations.UnpinAndPins : Prop :=
  ∀ (s : State) (tag : Byte), s.Takes tag →
    (∀ st p, pinFor s.pins st = some p →
      exec (.unpin tag st) s = .next (State.kick { s with
        pins := s.pins.filter (fun x => x.stamp != st), link := s.link.replied ⟨0x85#8, tag, .ok, []⟩ }) ∧
      (s.PinsSound → pinAt (s.pins.filter (fun x => x.stamp != st)) p.handle = none)) ∧
    (∀ st, pinFor s.pins st = none → exec (.unpin tag st) s = .next
      (State.kick { s with link := s.link.replied ⟨0x85#8, tag, .notFound, []⟩ })) ∧
    ∀ first : Byte,
      let above := s.pins.filter (fun p => decide (first.toNat ≤ p.handle))
      let shown := above.take 8
      exec (.pins tag first) s = .next (State.kick { s with
        link := s.link.replied ⟨0x86#8, tag, .ok,
          [byteOf s.pins.length, if 8 < above.length then 1#8 else 0#8, byteOf shown.length] ++
            shown.flatMap (fun p => stampBytes p.stamp ++
              [byteOf p.handle, if p.expected.isSome then 1#8 else 0#8, p.expected.getD 0#8])⟩ }) ∧
      (s.PinsSound → (shown.map (fun p => p.handle)).Pairwise (· < ·) ∧ (126 < first.toNat → shown = []) ∧
        (8 < above.length ↔ ∃ p ∈ s.pins, first.toNat ≤ p.handle ∧ ∀ x ∈ shown, x.handle < p.handle))

/-- ROSTER gives up to `count` entries, ENTRY one; CLEAR_MARKS clears one entry's marks, errors and misses and keeps the rest of it;
CLEAR_MARKS ALL those of every entry and the summary mark; the generation stays (R69, R71, R82, R83, R84). -/
def Obligations.RosterReadsAndMarks : Prop :=
  ∀ (s : State) (tag : Byte), s.Takes tag →
    let g := [byteOf (s.rstr.generation / 256), byteOf s.rstr.generation]
    let clear := fun e : Entry => { e with clamped := false, oddAnswer := false, errors := 0, misses := 0 }
    (∀ first count : Byte,
      let n := min 16 (max 1 count.toNat)
      let above := s.rstr.entries.filter (fun e => decide (first.toNat ≤ e.handle))
      exec (.roster tag first count) s = .next (State.kick { s with
        link := s.link.replied ⟨0x87#8, tag, if 1 ≤ count.toNat ∧ count.toNat ≤ 16 then .ok else .clamped,
          g ++ [if n < above.length then 1#8 else 0#8, byteOf (above.take n).length] ++ (above.take n).flatMap Entry.bytes⟩ })) ∧
    (∀ (h : Byte) (e : Entry), s.rstr.find h.toNat = some e → s.rstr.reserved ≠ h.toNat →
      exec (.entry tag h) s = .next (State.kick { s with link := s.link.replied ⟨0x88#8, tag, .ok, g ++ e.bytes⟩ }) ∧
      exec (.clearMarks tag h) s = .next (State.kick { s with
        rstr := { s.rstr with entries := s.rstr.entries.map (fun e => if e.handle = h.toNat then clear e else e) }
        link := s.link.replied ⟨0x89#8, tag, .ok, []⟩ })) ∧
    (∀ h : Byte, s.rstr.find h.toNat = none ∨ s.rstr.reserved = h.toNat →
      exec (.entry tag h) s = .next (State.kick { s with link := s.link.replied ⟨0x88#8, tag, .unknownHandle, []⟩ }) ∧
      exec (.clearMarks tag h) s = .next (State.kick { s with
        link := s.link.replied ⟨0x89#8, tag, .unknownHandle, []⟩ })) ∧
    exec (.clearMarksAll tag) s = .next (State.kick { s with
      rstr := { s.rstr with entries := s.rstr.entries.map clear, clampedSummary := false }
      link := s.link.replied ⟨0x89#8, tag, .ok, []⟩ })

/-- FORGET by the state of its target: a DEPARTED entry is removed at once with what stands behind it, a SILENT one becomes a DROP job,
a NAMED or CALIBRATED one is refused LIVE; a SILENT one also LIVE_BELOW, NOT_READY, SUPPLY_OFF or QUEUE_FULL, tested in that order
(R70, R79, R80, R139, Tables 5-4 and 9-3). -/
def Obligations.ForgetByState : Prop :=
  ∀ (s : State) (tag h : Byte), s.Takes tag →
    let refused := fun code : Result => exec (.forget tag h) s = .next
      (State.kick { s with link := s.link.replied ⟨0x8A#8, tag, code, []⟩ })
    let live := s.mmon.state = .mated ∨ s.mmon.state = .suspect
    let dark := s.ssw.state = .off ∧ s.ssw.parked = true ∨ s.ssw.state = .tripped
    let ready := live ∧ ¬dark
    (s.rstr.find h.toNat = none ∨ s.rstr.reserved = h.toNat → refused .unknownHandle) ∧
    ∀ e, s.rstr.find h.toNat = some e → s.rstr.reserved ≠ h.toNat →
      let behind := fun x : Entry => kindIsJunction e.kind && x.path.any (fun st => st.junction == h.toNat)
      let below := ∃ x ∈ s.rstr.entries, x.state ≠ .departed ∧ behind x = true
      (e.state = .named ∨ e.state = .calibrated → refused .live) ∧
      (e.state = .departed → exec (.forget tag h) s = .next (State.kick { s with
        rstr := { s.rstr with
          entries := s.rstr.entries.filter (fun x => !(x.handle == h.toNat || behind x))
          generation := advanceBy (s.rstr.entries.filter (fun x => x.handle == h.toNat || behind x)).length s.rstr.generation }
        link := s.link.replied ⟨0x8A#8, tag, .ok, []⟩ })) ∧
      (e.state = .silent → below → refused .liveBelow) ∧
      (e.state = .silent → ¬below → ¬live → refused .notReady) ∧
      (e.state = .silent → ¬below → live → dark → refused .supplyOff) ∧
      (e.state = .silent → ¬below → ready → 12 ≤ s.jobq.normal.length → refused .queueFull) ∧
      (e.state = .silent → ¬below → ready → s.jobq.normal.length < 12 → exec (.forget tag h) s = .next
        (State.kick (State.arbitrate { s with
          jobq := { s.jobq with normal := s.jobq.normal ++ [⟨tag, .drop, false, h.toNat, e.namedAt⟩] }
          link := s.link.held tag 0x0A#8 })))

/-! ### Requests for line work (chapters 7 and 9) -/

/-- EXCHANGE, ROLL and both forms of CALIBRATE by Table 9-3, tested in its order: refused at once, or queued at the end of their lane
with the entry's named_at, the request staying outstanding (R138, R139, R140, R147, R148). -/
def Obligations.LineJobsQueued : Prop :=
  ∀ (s : State) (tag h : Byte), s.Takes tag →
    let live := s.mmon.state = .mated ∨ s.mmon.state = .suspect
    let dark := s.ssw.state = .off ∧ s.ssw.parked = true ∨ s.ssw.state = .tripped
    -- the requests with the kind byte, the lane and the work of each
    let jobs : Instr → Byte → Bool → JobKind → Prop := fun c k urgent work =>
      (∃ p, c = .exchange tag h urgent p ∧ k = 0x0C#8 ∧ work = .exchange p) ∨
        (c = .roll tag h urgent ∧ k = 0x0D#8 ∧ work = .roll) ∨
        (∃ m g, c = .calibrateRecord tag h m g ∧ k = 0x0E#8 ∧ urgent = false ∧ work = .calibrate .record m g) ∨
        ∃ m g, c = .calibrateProbe tag h m g ∧ k = 0x0E#8 ∧ urgent = false ∧ work = .calibrate .probe m g
    ∀ c k urgent work, jobs c k urgent work →
      let refused := fun code : Result => exec c s = .next
        (State.kick { s with link := s.link.replied ⟨k + 0x80#8, tag, code, []⟩ })
      let full := if urgent then 4 ≤ s.jobq.urgent.length else 12 ≤ s.jobq.normal.length
      let j := fun e : Entry => (⟨tag, work, urgent, h.toNat, e.namedAt⟩ : Job)
      (h.toNat = 0 ∨ 126 < h.toNat → refused .badValue) ∧
      (1 ≤ h.toNat → h.toNat ≤ 126 →
        (¬live → refused .notReady) ∧
        (live → dark → refused .supplyOff) ∧
        (live → ¬dark →
          (s.rstr.lookup h.toNat = none → refused .unknownHandle) ∧
          ∀ e, s.rstr.lookup h.toNat = some e →
            (e.state = .departed → refused .notLive) ∧
            (e.state ≠ .departed → full → refused .queueFull) ∧
            (e.state ≠ .departed → ¬full → exec c s = .next (State.kick (State.arbitrate { s with
              jobq :=
                if urgent then { s.jobq with urgent := s.jobq.urgent ++ [j e] }
                else { s.jobq with normal := s.jobq.normal ++ [j e] }
              link := s.link.held tag k })))))

/-- WAKE and SWEEP by Table 9-3, tested in its order. WAKE takes each value given or the setting's, brought into range, and joins the
normal lane, or is refused NOT_READY, SUPPLY_OFF or QUEUE_FULL; SWEEP fills the sweep slot, or is refused NOT_READY, SUPPLY_OFF or BUSY.
A sweep without a live entry ends its first pass at once: it is answered when its count is 1, and rests for its interval, 100 ms at the
least, when it is not (R139, R140, R151, R153, R172). -/
def Obligations.WakeAndSweepAccepted : Prop :=
  ∀ (s : State) (tag : Byte), s.Takes tag →
    let live := s.mmon.state = .mated ∨ s.mmon.state = .suspect
    let dark := s.ssw.state = .off ∧ s.ssw.parked = true ∨ s.ssw.state = .tripped
    (∀ count low high : Byte,
      let refused := fun code : Result => exec (.wake tag count low high) s = .next
        (State.kick { s with link := s.link.replied ⟨0x8F#8, tag, code, []⟩ })
      let c := if count = 0#8 then s.link.settings.wakeCount else count.toNat
      let l := if low = 0#8 then s.link.settings.wakeLow else low.toNat
      let h := if high = 0#8 then s.link.settings.wakeHigh else high.toNat
      let t : Train := ⟨min 64 (max 1 c), min 15 (max 1 l), min 15 (max 1 h)⟩
      (¬live → refused .notReady) ∧
      (live → dark → refused .supplyOff) ∧
      (live → ¬dark → 12 ≤ s.jobq.normal.length → refused .queueFull) ∧
      (live → ¬dark → s.jobq.normal.length < 12 → exec (.wake tag count low high) s = .next
        (State.kick (State.arbitrate { s with
          jobq := { s.jobq with normal := s.jobq.normal ++ [⟨tag, .wake t (decide (t ≠ ⟨c, l, h⟩)), false, 0, 0⟩] }
          link := s.link.held tag 0x0F#8 })))) ∧
    ∀ (count : Byte) (stop : Bool) (interval : BitVec 16),
      let refused := fun code : Result => exec (.sweep tag count stop interval) s = .next
        (State.kick { s with link := s.link.replied ⟨0x90#8, tag, code, []⟩ })
      let iv := min interval.toNat 10000
      let clamped := decide (10000 < interval.toNat)
      let sweep : Sweep :=
        { tag := tag, count := count.toNat, stopOnChange := stop, interval := iv, clamped := clamped, passes := 0, position := 0
          passChanges := 0, totalChanges := 0, phase := .rolling, rest := none, rolled := false }
      let taken := fun (w : Option Sweep) (k : Link) => exec (.sweep tag count stop interval) s = .next
        (State.kick (State.arbitrate { s with jobq := { s.jobq with sweep := w }, link := k }))
      (¬live → refused .notReady) ∧
      (live → dark → refused .supplyOff) ∧
      (live → ¬dark → s.jobq.sweep.isSome = true → refused .busy) ∧
      (live → ¬dark → s.jobq.sweep = none →
        ((∃ e, s.rstr.nextLive 0 = some e) → taken (some sweep) (s.link.held tag 0x10#8)) ∧
        (s.rstr.nextLive 0 = none → count = 1#8 →
          taken none (s.link.replied ⟨0x90#8, tag, if clamped then .clamped else .ok, word16 1 ++ word16 0 ++ word16 iv⟩)) ∧
        (s.rstr.nextLive 0 = none → count ≠ 1#8 →
          taken (some { sweep with passes := 1, phase := .resting, rest := some (max 100 iv) }) (s.link.held tag 0x10#8)))

/-- DISCOVER by Table 7-3; an accepted one arms with a fresh record, and a RESCAN accepted while the line has been seen open takes
up the root level at once, unless LINE is FAULTED (R99, R100, R101). FULL departs every live entry and CLEAN removes every entry,
and both cycle the supply: a start-up train owed is dropped, a job in flight ends SUPPLY_OFF, a sweep keeps its position, or is
answered CANCELLED when it was ENDING (log 21), and a keepalive train ends (R22, R28, R75, R81, R152, R156). The model's choices are
that a sweep's roll which the cycle ends leaves rolled this pass as it was (log 45), that the sweep makes no look for its next entry
there (log 51), that the pass record is left as it stands (log 31), and that waiting is clear while the discovery stays ARMED (log
48). What the capture unit keeps of the operation cut short is free (log 32). -/
def Obligations.DiscoverStarts : Prop :=
  ∀ (s : State) (tag : Byte), s.Takes tag →
    let cs : List Instr := [.discoverRescan tag, .discoverFull tag, .discoverClean tag]
    let refused := fun code : Result => ∀ c ∈ cs, exec c s = .next
      (State.kick { s with link := s.link.replied ⟨0x8B#8, tag, code, []⟩ })
    let busy := s.disc.state ≠ .idle ∧ ¬(s.disc.state = .armed ∧ s.disc.origin = some .auto)
    let armed := fun m : DiscMode =>
      { s.disc with
        state := .armed, origin := some (.requested tag), mode := some m, waiting := false, levels := [], frames := []
        leaf := none, pendingDrop := none, next := none, cancelled := false, abandoned := false
        result := some ⟨m, false, none, none, 0, 0, 0, 0, 0, 0, 0, 0, 0, 0, 0, 0, none⟩ }
    let held := s.link.held tag 0x0B#8
    let rescan : State := { s with disc := armed .rescan, link := held }
    let cycling : State := { s with
      ssw := { s.ssw with state := .cycling, duty := 0, step := some 20000, hold := none, trip := none, pwm := none }
      line := s.line.unpowered, rate := ⟨none⟩ }
    let full : State := { cycling with
      rstr := s.rstr.allDeparted, disc := { armed .full with lineOpenSeen := false } }
    let clean : State := { cycling with
      rstr := { s.rstr with entries := [], generation := advanceBy s.rstr.entries.length s.rstr.generation }
      disc := { armed .clean with lineOpenSeen := false } }
    -- FULL and CLEAN, with what they leave in JOBQ and LINK
    let cycles := fun (q : Jobq) (k : Link) =>
      exec (.discoverFull tag) s = .next (State.kick { full with jobq := q, link := k }) ∧
      exec (.discoverClean tag) s = .next (State.kick { clean with jobq := q, link := k })
    (s.mmon.state ≠ .mated ∨ s.ssw.parked = true ∨ s.ssw.state = .tripped → refused .notReady) ∧
    (s.mmon.state = .mated → s.ssw.parked = false → s.ssw.state ≠ .tripped → busy → refused .busy) ∧
    (s.mmon.state = .mated → s.ssw.parked = false → s.ssw.state ≠ .tripped → ¬busy →
      (s.disc.lineOpenSeen = false ∨ s.line.state = .faulted →
        exec (.discoverRescan tag) s = .next (State.kick rescan)) ∧
      (s.disc.lineOpenSeen = true → s.line.state ≠ .faulted →
        exec (.discoverRescan tag) s = .next (State.kick (State.arbitrate (rescan.rooted .rescan)))) ∧
      (s.jobq.grant = none → cycles s.jobq held) ∧
      (∀ j r u sw t q, s.jobq.grant = some ⟨.job j r u, sw, t⟩ → s.Owes q → q.tag = j.tag →
        cycles s.jobq.released (held.answered q .supplyOff [])) ∧
      (∀ h r u sw t w, s.jobq.grant = some ⟨.sweep h r u, sw, t⟩ → s.jobq.sweep = some w →
        (w.phase ≠ .ending → cycles s.jobq.released held) ∧
        ∀ q, w.phase = .ending → s.Owes q → q.tag = w.tag →
          cycles { s.jobq with grant := none, sweep := none }
            (held.answered q .cancelled (word16 w.passes ++ word16 w.totalChanges ++ word16 w.interval))) ∧
      ∀ sw t, s.jobq.grant = some ⟨.keepalive, sw, t⟩ → cycles s.jobq.released held)

/-- CANCEL by Tables 7-6 and 9-6, its target a tag, the running sweep or the running discovery: a queued job leaves its lane, a job
in flight is too late, a sweep or a discovery ends at once when it does not hold the line and at the end of its roll or step when it
does, the roll or step running to its end; a target that names nothing of these is not found (R117, R154). A discovery so ended is
ABORTED with reason CANCELLED, its reservation released, and its DISCOVER request answered with the record or DISCOVERY_DONE raised
(R71, R119). That the last step of a cancelled discovery counts no pass end and no segment is read from R117 (log 16). That the pass
record is left as it stands is the model's choice (log 31). -/
def Obligations.CancelActs : Prop :=
  (∀ (s : State) (tag : Byte), s.Takes tag →
    let said := fun code : Result =>
      ({ s with link := s.link.replied ⟨0x91#8, tag, code, []⟩ } : State)
    let queued := fun target : Byte => ∃ j ∈ s.jobq.urgent ++ s.jobq.normal, j.tag = target
    let flies := fun target : Byte => ∃ j r u sw t, s.jobq.grant = some ⟨.job j r u, sw, t⟩ ∧ j.tag = target
    let sweeps := fun target : Byte => ∃ w, s.jobq.sweep = some w ∧ w.tag = target
    (∀ target q, s.Owes q → q.tag = target → queued target →
      exec (.cancel tag target) s = .next (State.kick { s with
        jobq := { s.jobq with
          urgent := s.jobq.urgent.filter (fun j => j.tag != target)
          normal := s.jobq.normal.filter (fun j => j.tag != target) }
        link := (s.link.answered q .cancelled []).replied ⟨0x91#8, tag, .ok, []⟩ })) ∧
    (∀ target, ¬queued target → flies target → exec (.cancel tag target) s = .next (said .tooLate).kick) ∧
    (∀ target, ¬queued target → ¬flies target → ¬sweeps target → s.disc.origin ≠ some (.requested target) →
      exec (.cancel tag target) s = .next (said .notFound).kick) ∧
    (s.jobq.sweep = none → exec (.cancelRunningSweep tag) s = .next (said .notFound).kick) ∧
    (∀ c w, s.jobq.sweep = some w → (c = .cancelRunningSweep tag ∨ c = .cancel tag w.tag ∧ ¬queued w.tag ∧ ¬flies w.tag) →
      (w.phase = .ending → exec c s = .next (said .ok).kick) ∧
      (w.phase ≠ .ending → (∃ h r u sw t, s.jobq.grant = some ⟨.sweep h r u, sw, t⟩) → exec c s = .next
        (State.kick { said .ok with jobq := { s.jobq with sweep := some { w with phase := .ending } } })) ∧
      ∀ q, w.phase ≠ .ending → (¬∃ h r u sw t, s.jobq.grant = some ⟨.sweep h r u, sw, t⟩) → s.Owes q → q.tag = w.tag →
        exec c s = .next (State.kick { s with
          jobq := { s.jobq with sweep := none }
          link := (s.link.answered q .cancelled (word16 w.passes ++ word16 w.totalChanges ++ word16 w.interval)).replied
            ⟨0x91#8, tag, .ok, []⟩ })) ∧
    ∀ c, (c = .cancelRunningDiscovery tag ∨ ∃ target, c = .cancel tag target ∧ s.disc.origin = some (.requested target) ∧
        ¬queued target ∧ ¬flies target ∧ ¬sweeps target) →
      let runs := s.disc.state ≠ .idle ∧ ¬(s.disc.state = .armed ∧ s.disc.origin = some .auto)
      (s.disc.state = .idle → exec c s = .next (said .notFound).kick) ∧
      (s.disc.state = .armed → s.disc.origin = some .auto → exec c s = .next
        (State.kick { said .ok with disc := s.disc.idled })) ∧
      (∀ w sw t, runs → s.jobq.grant = some ⟨.disc w, sw, t⟩ → exec c s = .next
        (State.kick { said .ok with disc := { s.disc with cancelled := true } })) ∧
      ∀ rec k, runs → (¬∃ w sw t, s.jobq.grant = some ⟨.disc w, sw, t⟩) → s.disc.result = some rec →
        let made := rec.stopped .cancelled s.rstr.generation
        s.DiscTold made k → exec c s = .next (State.kick (s.discEnded made (k.replied ⟨0x91#8, tag, .ok, []⟩)))) ∧
  ∀ (s : State) (rec : ResultRecord) (k : Link), s.disc.cancelled = true → s.disc.result = some rec →
    let made := rec.stopped .cancelled s.rstr.generation
    s.DiscTold made k →
    s.stepDone = State.discEnded { s with jobq := s.jobq.released } made k ∧
    ∀ (op : LineOp) (w : DiscWork) (lows : List Nat), s.Runs .hail op → s.Holds (.disc w) →
      exec (.hailDone lows) s = .next (State.kick (State.regrant
        (State.discEnded { s with line := s.line.ended s.link.settings, jobq := s.jobq.released } made k) s))

/-! ### RESTART (R14, R168, R169) -/

/-- RESTART SESSION ends a live session, its own reply last, and evaluates the inputs afresh. RESTART FULL answers every outstanding
request RESTARTED, its own reply last; once every reply has been sent, every block takes its power-on values, the baud kept (R11,
R13, R14, R168, R169, R170). MMON standing OPEN meanwhile is read from R11 and R169 (log 22). Read from more than one rule are, at a
RESTART SESSION, the ABORTED of a requested discovery (log 29), the CANCELLED of an ENDING sweep (log 21), and the notice that gives
MMON's state after the evaluation (log 11). The reason SESSION_END of a discovery whose CANCEL has been taken is the model's choice
(log 37), and so is a RESTART_FULL_RESET without its RESTART FULL, or before every reply has left, changing nothing (log 3). What
the capture unit keeps of an operation cut short is free (log 32). -/
def Obligations.Restarts : Prop :=
  (∀ (s : State) (tag : Byte), s.Takes tag →
    (s.mmon.state ≠ .mated → s.mmon.state ≠ .suspect → exec (.restartSession tag) s = .next (State.kick { s with
      mmon := s.mmon.approach s.link.settings.mateDebounceMs
      link := s.link.replied ⟨0x94#8, tag, .ok, []⟩ })) ∧
    (s.mmon.state = .mated ∨ s.mmon.state = .suspect → s.FlushReady → ∃ t, exec (.restartSession tag) s = .next t ∧
      s.EndedFrom t ∧ t.mmon = s.mmon.approach s.link.settings.mateDebounceMs ∧
      t.said = s.said ++ s.flushSays .sessionLost ++ [(tag, .ok)] ∧
      t.Tells (.mate (some .restart) t.mmon.state t.mmon.inputs))) ∧
  (∀ (s : State) (tag : Byte), s.Takes tag → s.FlushReady →
    ∃ t, exec (.restartFull tag) s = .next t ∧ t.link.restarting = true ∧ t.link.outstanding = [] ∧
      t.link.replies.getLast? = some ⟨0x94#8, tag, .ok, []⟩ ∧
      (∀ q ∈ s.link.outstanding, (q.tag, Result.restarted) ∈ t.said) ∧
      t.mmon = ⟨.opened, none, none, none, false, s.mmon.inputs⟩ ∧
      (s.mmon.state = .mated ∨ s.mmon.state = .suspect → s.EndedFrom t)) ∧
  (∀ s : State, s.link.restarting = true → s.link.replies = [] → s.link.tx = none → exec .restartFullReset s = .next
    { s.powerOn with mmon := s.mmon.approach 50 }) ∧
  ∀ s : State, ¬(s.link.restarting = true ∧ s.link.replies = [] ∧ s.link.tx = none) → exec .restartFullReset s = .next s

/-! ### Arithmetic and choices (chapters 4, 5 and 6) -/

/-- RATE rounds the quotient N / D, D positive, to the integer that the rounding mode names: the nearest with a halfway value to the
even one, the floor, the ceiling, the truncation; an integer stays itself in every mode. A halfway value needs 2r = D, which arises
at BEAT 80 and 160 only where R51 says. The clamp comes after the rounding (R51, Table 4-2). -/
def Obligations.RoundingByMode : Prop :=
  (∀ n d : Int, 0 < d →
    (let t := roundQuotient .nearestEven n d
     2 * (n - t * d) ≤ d ∧ -d ≤ 2 * (n - t * d) ∧ (2 * (n - t * d) = d ∨ 2 * (n - t * d) = -d → t % 2 = 0)) ∧
    (let t := roundQuotient .down n d
     t * d ≤ n ∧ n < (t + 1) * d) ∧
    (let t := roundQuotient .up n d
     (t - 1) * d < n ∧ n ≤ t * d) ∧
    (let t := roundQuotient .towardZero n d
     (0 ≤ n → t * d ≤ n ∧ n < (t + 1) * d) ∧ (n ≤ 0 → (t - 1) * d < n ∧ n ≤ t * d)) ∧
    ∀ (mode : RoundMode) (q : Int), n = q * d → roundQuotient mode n d = q) ∧
  roundQuotient .nearestEven (-3) 2 = -2 ∧ roundQuotient .nearestEven (-1) 2 = 0 ∧
  (∀ n d : Int, 0 < d → 2 * (n % d) = d → d % 2 = 0) ∧
  ∀ ticks : Nat,
    2 * (quotientNum 40 ticks % 40) ≠ 40 ∧
    (2 * (quotientNum 80 ticks % 80) = 80 ↔ ((ticks : Int) - 5120) % 10 = 5) ∧
    (2 * (quotientNum 160 ticks % 160) = 160 ↔ ((ticks : Int) - 10240) % 20 = 10) ∧
    ∀ (beat limit : Nat) (ch : CalibChoices) (c : Capture) (old : Option Int), calibValid beat c = true →
      (judge beat ch c old limit).trim =
        some (min 127 (max (-128) (roundQuotient ch.mode (8 * ((c.ticks : Int) - 64 * beat)) beat)))

/-- A calibration low is judged by its three conditions; a valid one gives the rounded and clamped quotient, the inexact and clamped
indications, the difference against a stored trim and the drift (R49, R50, R52, R53, R54, R55). -/
def Obligations.CalibrationJudged : Prop :=
  ∀ (beat limit : Nat) (ch : CalibChoices) (c : Capture) (old : Option Int), 0 < beat →
    let n : Int := 8 * ((c.ticks : Int) - 64 * beat)
    let t := roundQuotient ch.mode n beat
    let k := min 127 (max (-128) t)
    let r := judge beat ch c old limit
    let valid := c.edges = 1 ∧ c.saturated = false ∧ 32 * beat ≤ c.ticks ∧ c.ticks ≤ 128 * beat
    (¬valid → r.trim = none ∧ r.delta = none ∧ r.drift = none ∧ r.clamped = false ∧ r.inexact = false) ∧
    (valid → r.trim = some k ∧ (r.clamped = true ↔ k ≠ t) ∧ (r.inexact = true ↔ t * beat ≠ n ∧ ch.ignoreInexact = false) ∧
      (old = none → r.delta = none ∧ r.drift = none) ∧
      ∀ o, old = some o → r.delta = some (k - o) ∧
        (ch.form = .probe → r.drift = none) ∧
        (ch.form = .record → r.drift = some
          (if (limit : Int) < k - o then .slower else if k - o < -(limit : Int) then .faster else .steady)))

/-- The turnaround gap of an operation: its formula, its range, and the unscaled gap for audience 0 and for an entry without a
stored trim (R33, R62). The request part before it: the frame of each verb (Table 11-4), and its cells on the line, an attention of
12 and 4 beats, then for each byte, least significant bit first, eight cells of 6 beats, 2 low for a 0 and 4 for a 1, so 16 + 48n
beats in all (R32, R38). A hail is a low of 48 beats with its window of 8, a train its cycles, the trims those that R33 gives each
audience (R31, R33, R37). -/
def Obligations.TurnaroundGap : Prop :=
  (∀ (beat wait : Nat) (t : Int),
    ((gapTicks beat wait t : Nat) : Int) = (beat : Int) * ((wait : Int) + 1) * (512 + max t 0) / 512 ∧
    (t ≤ 0 → gapTicks beat wait t = beat * (wait + 1)) ∧ beat * (wait + 1) ≤ gapTicks beat wait t ∧
    (beatValid beat = true → 3 ≤ wait → wait ≤ 31 → -128 ≤ t → t ≤ 127 →
      160 ≤ gapTicks beat wait t ∧ gapTicks beat wait t ≤ 6390 ∧ gapTicks beat wait t ≤ 40 * beat)) ∧
  gapTicks 40 3 0 = 160 ∧ gapTicks 160 31 127 = 6390 ∧
  (∀ (s : State) (k : OpKind) (a code : Nat) (args : List Byte),
    (∃ ds : List Nibble, k = .call ds ∧ code = 1 ∧ args = byteOf ds.length :: stampBytes (stampOfDigits ds)) ∨
      (∃ st, k = .echo st ∧ code = 2 ∧ args = stampBytes st) ∨
      (∃ st n h, k = .name st n h ∧ code = 3 ∧ args = stampBytes st ++ [byteOf n, byteOf h]) ∨
      (k = .measure ∧ code = 4 ∧ args = []) ∨ (k = .roll ∧ code = 5 ∧ args = []) ∨
      (∃ g, k = .legOpen g ∧ code = 6 ∧ args = [byteOf g]) ∨ (∃ g, k = .legClose g ∧ code = 7 ∧ args = [byteOf g]) ∨
      (k = .drop ∧ code = 8 ∧ args = []) ∨ (∃ p, k = .data p ∧ code = 9 ∧ args = byteOf p.length :: p) →
    let body := byteOf a :: byteOf code :: args
    let frame := body ++ [crc8 body]
    let op := s.lineOp k a
    let cell := fun b : Bool => if b then (⟨4, 2⟩ : Symbol) else ⟨2, 4⟩
    op.frame = frame ∧ op.symbols = ⟨12, 4⟩ :: frame.flatMap (fun b => (List.range 8).map (fun i => cell (b.getLsbD i))) ∧
      (op.symbols.map (fun y => y.low + y.high)).sum = 16 + 48 * frame.length) ∧
  (∀ (s : State) (t : Train) (k : OpKind), (s.lineOp .hail 0).symbols = [⟨48, 8⟩] ∧
    (k = .startUp t ∨ k = .wake t ∨ k = .keepalive t → (s.lineOp k 0).symbols = List.replicate t.count ⟨t.low, t.high⟩)) ∧
  ∀ (s : State) (k : OpKind) (a : Nat), k.verb.isSome = true →
    (s.lineOp k a).gap = gapTicks s.line.beat s.link.settings.answerWait (s.lineOp k a).trim ∧
    (a = 0 ∨ (s.rstr.find a).bind (fun e => e.trim) = none ∨ s.RosterSound ∧ a = 127 →
      (s.lineOp k a).trim = 0 ∧ (s.lineOp k a).gap = s.line.beat * (s.link.settings.answerWait + 1)) ∧
    ∀ e t, a ≠ 0 → s.rstr.find a = some e → e.trim = some t → (s.lineOp k a).trim = t

/-- The class of a slot by exact integer tests on the part's beat; FAINT counts as occupied in a round; an unanswered cue is EMPTY at
each value that BEAT may take (R61). -/
def Obligations.SlotWindows : Prop :=
  ∀ (beat : Nat) (c : Capture), 0 < beat →
    (slotClass beat c = .occupied ↔ c.saturated = true ∨ 2 * beat ≤ c.ticks) ∧
    (slotClass beat c = .faint ↔ c.saturated = false ∧ c.ticks < 2 * beat ∧ 5 * beat ≤ 4 * c.ticks) ∧
    (slotClass beat c = .empty ↔ c.saturated = false ∧ 4 * c.ticks < 5 * beat) ∧
    (∀ x, slotClass beat { c with edges := x } = slotClass beat c) ∧
    (beatValid beat = true → slotClass beat (bareCue beat) = .empty) ∧
    (2 * c.ticks = 3 * beat → c.saturated = false → slotClass beat c = .faint) ∧
    ∀ (slots : List LowSample) (i : Nat), slots.length = 16 →
      (i ∈ answeredSlots beat slots ↔ ∃ l, slots[i]? = some l ∧ slotClass beat (LowSample.capture l) ≠ .empty)

/-- The class of a reply cell: SPLIT by its edges, STRETCH when saturated, else by the exact comparisons with the thresholds 6, 11, 13
and 20 (R59, R60, Table 4-8). A reply is read cell by cell, the bits of each byte least significant first: the first cell that is
neither ZERO nor ONE ends it, NO_REPLY for a RUNT at the reply's first cell and ERASURE otherwise; a byte reply has 16 cells, a DATA
reply a length byte, BAD_REPLY above 32, and its bytes; the check decides at the end, CHECK_ERROR when it differs; the capture unit
holds the last cell clocked (R38, R39, R40, R41). A cell that the command does not list is a bare cue (log 5). -/
def Obligations.CellWindows : Prop :=
  (∀ (beat : Nat) (t : Int) (c : Capture), 0 < beat → -128 ≤ t → t ≤ 127 →
    let at' := fun k : Int => k * beat * (512 + t) ≤ (c.ticks : Int) * 2048
    (cellClass beat t c = .split ↔ 2 ≤ c.edges) ∧
    (c.edges < 2 → c.saturated = true → cellClass beat t c = .stretch) ∧
    (c.edges < 2 → c.saturated = false →
      (cellClass beat t c = .stretch ↔ at' 20) ∧ (cellClass beat t c = .one ↔ at' 13 ∧ ¬at' 20) ∧
      (cellClass beat t c = .erased ↔ at' 11 ∧ ¬at' 13) ∧ (cellClass beat t c = .zero ↔ at' 6 ∧ ¬at' 11) ∧
      (cellClass beat t c = .runt ↔ ¬at' 6))) ∧
  ∀ (beat : Nat) (t : Int) (cells : List LowSample),
    let cell := fun i : Nat => ((cells[i]?).map LowSample.capture).getD ⟨min beat 65535, 1, decide (65535 ≤ beat)⟩
    let reads := fun i : Nat => cellClass beat t (cell i) = .zero ∨ cellClass beat t (cell i) = .one
    let holds := fun (i : Nat) (b : Byte) => ∀ x, x < 8 → b.getLsbD x = decide (cellClass beat t (cell (8 * i + x)) = .one)
    let ends := fun (d : Decoded) (n : Nat) => ∀ i, i < n → (∀ x, x < i → reads x) → ¬reads i →
      d.reply = .error (if i = 0 ∧ cellClass beat t (cell 0) = .runt then .noReply else .erasure) ∧ d.capture = cell i
    let one := decodeByteReply beat t cells
    let data := decodeDataReply beat t cells
    ends one 16 ∧
    (∀ b check : Byte, (∀ i, i < 16 → reads i) → holds 0 b → holds 1 check →
      one.reply = (if crc8 [b] = check then .ok [b] else .error .checkError) ∧ one.capture = cell 15) ∧
    ends data 8 ∧
    ∀ len : Byte, (∀ i, i < 8 → reads i) → holds 0 len →
      (32 < len.toNat → data.reply = .error .badReply ∧ data.capture = cell 7) ∧
      (len.toNat ≤ 32 → ends data (16 + 8 * len.toNat) ∧
        ∀ (bs : List Byte) (check : Byte), bs.length = len.toNat → (∀ i, i < 16 + 8 * len.toNat → reads i) →
          (∀ i b, bs[i]? = some b → holds (i + 1) b) → holds (len.toNat + 1) check →
          data.reply = (if crc8 (len :: bs) = check then .ok (len :: bs) else .error .checkError) ∧
            data.capture = cell (15 + 8 * len.toNat))

/-- The handle choice (R90 to R93, Table 6-3): a pin's handle when it is free or departed with the stamp, handle memory at the lowest
such entry, then the lowest open handle from DYN_BASE up, then the lowest open one below it. -/
def Obligations.ChoiceOfHandle : Prop :=
  ∀ (r : Rstr) (ps : List Pin) (base : Nat) (st : Stamp), 1 ≤ base → base ≤ 126 →
    let open' := fun h : Nat => r.find h = none ∧ r.reserved ≠ h ∧ pinAt ps h = none
    let opened := fun (conflict mismatch : Bool) (c : Option Choice) =>
      (∀ h, base ≤ h → h ≤ 126 → open' h → (∀ x, base ≤ x → x < h → ¬open' x) →
        c = some ⟨h, .dynamic, false, none, conflict, mismatch⟩) ∧
      (∀ h, (∀ x, base ≤ x → x ≤ 126 → ¬open' x) → 1 ≤ h → h < base → open' h → (∀ x, 1 ≤ x → x < h → ¬open' x) →
        c = some ⟨h, .fallback, false, none, conflict, mismatch⟩) ∧
      ((∀ x, 1 ≤ x → x ≤ 126 → ¬open' x) → c = none)
    opened false true (chooseHandle r ps base st true) ∧
    (∀ p, pinFor ps st = some p →
      (r.find p.handle = none → r.reserved ≠ p.handle →
        chooseHandle r ps base st false = some ⟨p.handle, .pin, false, p.expected, false, false⟩) ∧
      (∀ e, r.find p.handle = some e → e.state = .departed → e.stamp = st →
        chooseHandle r ps base st false = some ⟨p.handle, .pin, true, p.expected, false, false⟩) ∧
      (∀ e, r.find p.handle = some e → e.state ≠ .departed → opened true false (chooseHandle r ps base st false))) ∧
    (pinFor ps st = none →
      (∀ pre e post, r.entries = pre ++ e :: post → e.state = .departed → e.stamp = st →
        (∀ x ∈ pre, x.state ≠ .departed ∨ x.stamp ≠ st) →
        chooseHandle r ps base st false = some ⟨e.handle, .memory, true, none, false, false⟩) ∧
      ((∀ e ∈ r.entries, e.state ≠ .departed ∨ e.stamp ≠ st) → opened false false (chooseHandle r ps base st false)))

/-! ### Invariants that every command keeps -/

/-- The buffers and settings stay sound: at most 24 slots in use, at most one pending notice of a kind, every setting in its range,
nothing to send left waiting for a free transmitter, at most 4 urgent and 12 normal jobs (R138, R139, R160, R162, R163, R166,
R167). -/
def Obligations.BuffersStaySound : Prop :=
  (∀ (c : Instr) (s t : State), exec c s = .next t →
    (s.SlotsBounded → t.SlotsBounded) ∧ (s.NoticesDistinct → t.NoticesDistinct) ∧ (s.SettingsSound → t.SettingsSound) ∧
      (s.Settled → t.Settled)) ∧
  ∀ (c : Instr) (s t : State), s.LanesBounded → exec c s = .next t → t.LanesBounded

/-- The duty level agrees with the supply state, power needs a live session, LINE needs the supply, and an operation needs both (R15,
R28, R29). -/
def Obligations.SupplyAndLineStaySound : Prop :=
  ∀ (c : Instr) (s t : State), exec c s = .next t →
    (s.SupplySound → t.SupplySound) ∧ (s.SupplySound → s.LineSupplied → t.LineSupplied)

/-- The roster, the pin table and the tool's tree stay sound: one entry for a handle, ascending, the reserved handle held by none; the
roster is empty outside a session; the prefix stack holds at most 48 frames; and with the settings in their ranges and a sound
roster, every path and the open route keep at most 4 steps, each naming a JUNCTION entry whose own path is the steps before it with a
leg it has, live on the open route, no live entry stands behind a DEPARTED junction, and the level stack keeps at most 5 records, each
one deeper than the one below with its entry step (R63, R71, R76, R85, R86, R104, R120, R126). -/
def Obligations.RosterStaysSound : Prop :=
  ∀ (c : Instr) (s t : State), exec c s = .next t →
    (s.RosterSound → t.RosterSound) ∧ (s.RosterNeedsSession → t.RosterNeedsSession) ∧
      (s.disc.frames.length ≤ 48 → t.disc.frames.length ≤ 48) ∧
      (s.SettingsSound → s.RosterSound → s.TreeSound → t.TreeSound)
end

