-- ==== Sys2Proof/Laws/Roster.lean ====
section
/-! SUPPORT. The roster's operations keep a sound roster sound, and the handles a choice gives (R63, R69, R71, R90 to R93). -/

namespace Sys2Proof.Machine

/-! ### The generation -/

theorem advance_le (g : Nat) (h : g ≤ 65535) : advance g ≤ 65535 := by unfold advance; split <;> omega

theorem advanceBy_le : ∀ n g, g ≤ 65535 → advanceBy n g ≤ 65535
  | 0, _, h => h
  | n + 1, g, h => advanceBy_le n _ (advance_le g h)

/-! ### Changes that keep every handle -/

/-- Entries changed in place at their handles, and a generation in range. -/
theorem Rstr.valid_map {r : Rstr} (f : Entry → Entry) (g : Nat) (hf : ∀ e, (f e).handle = e.handle) (hg : g ≤ 65535)
    (h : r.valid) : Rstr.valid { r with entries := r.entries.map f, generation := g } := by
  obtain ⟨h1, h2, h3, h4, -⟩ := h
  refine ⟨?_, ?_, ?_, h4, hg⟩
  · have : (fun e => (f e).handle) = fun e : Entry => e.handle := funext hf
    simpa [List.map_map, Function.comp_def, this] using h1
  · intro e he; obtain ⟨x, hx, rfl⟩ := List.mem_map.1 he; rw [hf]; exact h2 x hx
  · intro e he; obtain ⟨x, hx, rfl⟩ := List.mem_map.1 he; rw [hf]; exact h3 x hx

/-- Entries removed, and a generation in range. -/
theorem Rstr.valid_filter {r : Rstr} (p : Entry → Bool) (g : Nat) (hg : g ≤ 65535) (h : r.valid) :
    Rstr.valid { r with entries := r.entries.filter p, generation := g } := by
  obtain ⟨h1, h2, h3, h4, -⟩ := h
  refine ⟨?_, fun e he => h2 e ((List.mem_filter.1 he).1), fun e he => h3 e ((List.mem_filter.1 he).1), h4, hg⟩
  exact h1.sublist (List.filter_sublist.map _)

theorem Rstr.update_valid {r : Rstr} (h : Nat) (f : Entry → Entry) (hf : ∀ e, (f e).handle = e.handle) (k : r.valid) :
    (r.update h f).valid :=
  Rstr.valid_map _ _ (by intro e; split <;> simp [hf]) k.2.2.2.2 k

theorem Rstr.departWhere_valid {r : Rstr} (p : Entry → Bool) (k : r.valid) : (r.departWhere p).1.valid :=
  Rstr.valid_map _ _ (by intro e; split <;> rfl) (advanceBy_le _ _ k.2.2.2.2) k

theorem Rstr.removeWhere_valid {r : Rstr} (p : Entry → Bool) (k : r.valid) : (r.removeWhere p).valid :=
  Rstr.valid_filter _ _ (advanceBy_le _ _ k.2.2.2.2) k

theorem Rstr.cascade_valid {r : Rstr} (j : Nat) (k : r.valid) : (r.cascade j).1.valid := Rstr.departWhere_valid _ k

theorem Rstr.legCascade_valid {r : Rstr} (j g : Nat) (k : r.valid) : (r.legCascade j g).1.valid :=
  Rstr.departWhere_valid _ (Rstr.update_valid _ _ (fun _ => rfl) k)

theorem Rstr.legGood_valid {r : Rstr} (j g : Nat) (k : r.valid) : (r.legGood j g).valid :=
  Rstr.update_valid _ _ (fun _ => rfl) k

theorem Rstr.removeTree_valid {r : Rstr} (h : Nat) (k : r.valid) : (r.removeTree h).valid := Rstr.removeWhere_valid _ k

theorem Rstr.dropMemory_valid {r : Rstr} (s : Stamp) (h : Nat) (k : r.valid) : (r.dropMemory s h).valid := by
  unfold Rstr.dropMemory; split
  · exact k
  · exact Rstr.removeTree_valid _ k

theorem Rstr.valid_advance {r : Rstr} (k : r.valid) : Rstr.valid { r with generation := advance r.generation } :=
  ⟨k.1, k.2.1, k.2.2.1, k.2.2.2.1, advance_le _ k.2.2.2.2⟩

theorem Rstr.rollAnswered_valid {r : Rstr} (h : Nat) (b : Byte) (k : r.valid) : (r.rollAnswered h b).1.valid := by
  unfold Rstr.rollAnswered
  split
  · exact k
  · dsimp only
    split
    · exact Rstr.valid_advance (Rstr.update_valid _ _ (fun _ => rfl) (Rstr.update_valid _ _ (fun _ => rfl) k))
    · exact Rstr.update_valid _ _ (fun _ => rfl) k

theorem Rstr.rollUnanswered_valid {r : Rstr} (h l : Nat) (k : r.valid) : (r.rollUnanswered h l).1.valid := by
  unfold Rstr.rollUnanswered
  split
  · exact k
  · dsimp only
    split
    · exact Rstr.valid_advance (Rstr.update_valid _ _ (fun _ => rfl) (Rstr.update_valid _ _ (fun _ => rfl) k))
    · exact Rstr.update_valid _ _ (fun _ => rfl) k

theorem Rstr.markTwins_valid {r : Rstr} (s : Stamp) (h : Nat) (k : r.valid) : (r.markTwins s h).valid :=
  Rstr.valid_map _ _ (by intro e; split <;> rfl) k.2.2.2.2 k

/-- The reservation released. -/
theorem Rstr.release_valid {r : Rstr} (k : r.valid) : Rstr.valid { r with reserved := 0 } :=
  ⟨k.1, k.2.1, fun e he => by have := (k.2.1 e he).1; show e.handle ≠ 0; omega, Nat.zero_le _, k.2.2.2.2⟩

theorem Rstr.summary_valid {r : Rstr} (b : Bool) (k : r.valid) : Rstr.valid { r with clampedSummary := b } := k

/-! ### A new entry -/

theorem mem_insertEntry (e x : Entry) : ∀ l, x ∈ insertEntry e l ↔ x = e ∨ x ∈ l
  | [] => by simp [insertEntry]
  | y :: ys => by
    unfold insertEntry
    split
    · simp
    · simp [mem_insertEntry e x ys, or_left_comm]

/-- Insertion keeps the ascending order when no entry has the handle. -/
theorem insertEntry_sorted (e : Entry) : ∀ l : List Entry, (l.map (fun x => x.handle)).Pairwise (· < ·) →
    (∀ x ∈ l, x.handle ≠ e.handle) → ((insertEntry e l).map (fun x => x.handle)).Pairwise (· < ·)
  | [], _, _ => by simp [insertEntry]
  | y :: ys, h, hn => by
    simp only [List.map_cons, List.pairwise_cons] at h
    have hy := hn y (by simp)
    unfold insertEntry
    split
    · next c =>
      simp only [List.map_cons, List.pairwise_cons]
      refine ⟨?_, h.1, h.2⟩
      intro a ha
      rcases List.mem_cons.1 ha with rfl | ha
      · exact c
      · exact Nat.lt_trans c (h.1 a ha)
    · next c =>
      simp only [List.map_cons, List.pairwise_cons]
      refine ⟨?_, insertEntry_sorted e ys h.2 (fun x hx => hn x (by simp [hx]))⟩
      intro a ha
      obtain ⟨x, hx, rfl⟩ := List.mem_map.1 ha
      rcases (mem_insertEntry e x ys).1 hx with rfl | hx
      · omega
      · exact h.1 _ (List.mem_map_of_mem hx)

theorem Rstr.create_valid {r : Rstr} (s : Stamp) (c : Choice) (kind : Byte) (path : Route) (nonce : Option Nat)
    (hc : handleValid c.handle) (k : r.valid) : (r.create s c kind path nonce).valid := by
  have k1 := Rstr.valid_filter (fun x => x.handle != c.handle) r.generation k.2.2.2.2 (Rstr.markTwins_valid s c.handle k)
  unfold Rstr.create
  dsimp only
  refine ⟨insertEntry_sorted _ _ k1.1 (fun x hx => ?_), fun e he => ?_, fun e he => ?_, ?_, advance_le _ k.2.2.2.2⟩
  · simpa using (List.mem_filter.1 hx).2
  · rcases (mem_insertEntry _ e _).1 he with rfl | he
    · exact hc
    · exact k1.2.1 e he
  · show e.handle ≠ if r.reserved = c.handle then 0 else r.reserved
    rcases (mem_insertEntry _ e _).1 he with rfl | he
    · have := hc.1
      split
      · show c.handle ≠ 0; omega
      · next n => exact Ne.symm n
    · have h0 := (k1.2.1 e he).1
      split
      · omega
      · exact k1.2.2.1 e he
  · show (if r.reserved = c.handle then 0 else r.reserved) ≤ _
    split
    · exact Nat.zero_le _
    · exact k.2.2.2.1

theorem Rstr.restore_valid {r : Rstr} (old : Entry) (c : Choice) (kind : Byte) (path : Route) (nonce : Option Nat)
    (k : r.valid) : (r.restore old c kind path nonce).valid := by
  unfold Rstr.restore
  dsimp only
  have k1 := Rstr.valid_advance (Rstr.update_valid old.handle (fun e =>
      { e with
        state := .named, misses := 0, path, kind, oddAnswer := e.oddAnswer || e.kind != kind, faultedLegs := [],
        duplicate := nonce.isSome || r.hasTwin old.stamp old.handle, pinConflict := c.conflict, kindMismatch := c.mismatch,
        notEntered := false, nonce }) (fun _ => rfl) (Rstr.markTwins_valid old.stamp old.handle k))
  split
  · exact Rstr.removeWhere_valid _ k1
  · exact k1

/-! ### Choices (R90 to R93) -/

theorem Rstr.find_mem {r : Rstr} {h : Nat} {e : Entry} (k : r.find h = some e) : e ∈ r.entries ∧ e.handle = h := by
  have := List.find?_some k
  exact ⟨List.mem_of_find?_eq_some k, by simpa using this⟩

/-- A free handle is held by no entry. -/
theorem Rstr.free_none {r : Rstr} {h : Nat} (k : r.free h = true) : ∀ e ∈ r.entries, e.handle ≠ h := by
  simp only [Rstr.free, Rstr.find, Bool.and_eq_true, Option.isNone_iff_eq_none, List.find?_eq_none] at k
  intro e he
  simpa using k.1 e he

theorem lowestOpen_spec {r : Rstr} {ps : List Pin} {hs : List Nat} {h : Nat} (k : lowestOpen r ps hs = some h) :
    h ∈ hs ∧ r.free h = true ∧ (pinAt ps h).isNone = true := by
  have := List.find?_some k
  simp only [Bool.and_eq_true] at this
  exact ⟨List.mem_of_find?_eq_some k, this⟩

/-- What a choice of steps 3 to 5 gives: a free handle of 1..126. -/
theorem chooseOpen_spec {r : Rstr} {ps : List Pin} {d : Nat} {a b : Bool} {c : Choice}
    (k : chooseOpen r ps d a b = some c) (hd : handleValid d) :
    handleValid c.handle ∧ c.restores = false ∧ r.free c.handle = true := by
  have hl := hd.1
  have hu := hd.2
  simp only [Config.topHandle] at hu
  unfold chooseOpen at k
  split at k
  · next h e =>
    cases k
    obtain ⟨h1, h2, -⟩ := lowestOpen_spec e
    simp only [List.mem_range'_1, Config.topHandle] at h1
    exact ⟨⟨by show 1 ≤ h; omega, by show h ≤ 126; omega⟩, rfl, h2⟩
  · obtain ⟨h, e, rfl⟩ := Option.map_eq_some_iff.1 k
    obtain ⟨h1, h2, -⟩ := lowestOpen_spec e
    simp only [List.mem_range'_1] at h1
    exact ⟨⟨by show 1 ≤ h; omega, by show h ≤ 126; omega⟩, rfl, h2⟩

/-- What a choice gives: a handle of 1..126 that is free, or that a DEPARTED entry is restored at (Table 6-3). -/
theorem chooseHandle_spec {r : Rstr} {ps : List Pin} {d : Nat} {s : Stamp} {m : Bool} {c : Choice}
    (k : chooseHandle r ps d s m = some c) (hr : r.valid) (hp : pinsValid ps) (hd : handleValid d) :
    handleValid c.handle ∧ (c.restores = false → r.free c.handle = true) := by
  have open' : ∀ a b, chooseOpen r ps d a b = some c → handleValid c.handle ∧ (c.restores = false → r.free c.handle = true) :=
    fun a b e => ⟨(chooseOpen_spec e hd).1, fun _ => (chooseOpen_spec e hd).2.2⟩
  unfold chooseHandle at k
  split at k
  · exact open' _ _ k
  · split at k
    · next p e =>
      have hv : handleValid p.handle := hp.2.2.2 p (List.mem_of_find?_eq_some e)
      split at k
      · next f => cases k; exact ⟨hv, fun _ => f⟩
      · split at k
        · cases k; exact ⟨hv, fun h => by cases h⟩
        · exact open' _ _ k
    · split at k
      · next e f => cases k; exact ⟨hr.2.1 _ (List.mem_of_find?_eq_some f), fun h => by cases h⟩
      · exact open' _ _ k

/-- Reserving a free handle (R71). -/
theorem Rstr.reserve_valid {r : Rstr} {h : Nat} (hv : handleValid h) (hf : r.free h = true) (k : r.valid) :
    Rstr.valid { r with reserved := h } :=
  ⟨k.1, k.2.1, Rstr.free_none (r := r) hf, hv.2, k.2.2.2.2⟩

end Sys2Proof.Machine
end

