-- ==== Sys2Proof/Laws/State.lean ====
section
/-! SUPPORT. One block replaced, and an operation cut short: each field afterwards. -/

namespace Sys2Proof.Machine

variable (s : State)

@[simp] theorem withMmon_resetHeld (v : Mmon) : (s.withMmon v).resetHeld = s.resetHeld := rfl
@[simp] theorem withMmon_mmon (v : Mmon) : (s.withMmon v).mmon = v := rfl
@[simp] theorem withMmon_ssw (v : Mmon) : (s.withMmon v).ssw = s.ssw := rfl
@[simp] theorem withMmon_line (v : Mmon) : (s.withMmon v).line = s.line := rfl
@[simp] theorem withMmon_rate (v : Mmon) : (s.withMmon v).rate = s.rate := rfl
@[simp] theorem withMmon_rstr (v : Mmon) : (s.withMmon v).rstr = s.rstr := rfl
@[simp] theorem withMmon_pins (v : Mmon) : (s.withMmon v).pins = s.pins := rfl
@[simp] theorem withMmon_disc (v : Mmon) : (s.withMmon v).disc = s.disc := rfl
@[simp] theorem withMmon_jobq (v : Mmon) : (s.withMmon v).jobq = s.jobq := rfl
@[simp] theorem withMmon_link (v : Mmon) : (s.withMmon v).link = s.link := rfl
@[simp] theorem withMmon_pending (v : Mmon) : (s.withMmon v).pending = s.pending := rfl
@[simp] theorem withMmon_withMmon (v v' : Mmon) : (s.withMmon v).withMmon v' = s.withMmon v' := rfl
@[simp] theorem withMmon_self : s.withMmon s.mmon = s := rfl

@[simp] theorem withSsw_resetHeld (v : Ssw) : (s.withSsw v).resetHeld = s.resetHeld := rfl
@[simp] theorem withSsw_mmon (v : Ssw) : (s.withSsw v).mmon = s.mmon := rfl
@[simp] theorem withSsw_ssw (v : Ssw) : (s.withSsw v).ssw = v := rfl
@[simp] theorem withSsw_line (v : Ssw) : (s.withSsw v).line = s.line := rfl
@[simp] theorem withSsw_rate (v : Ssw) : (s.withSsw v).rate = s.rate := rfl
@[simp] theorem withSsw_rstr (v : Ssw) : (s.withSsw v).rstr = s.rstr := rfl
@[simp] theorem withSsw_pins (v : Ssw) : (s.withSsw v).pins = s.pins := rfl
@[simp] theorem withSsw_disc (v : Ssw) : (s.withSsw v).disc = s.disc := rfl
@[simp] theorem withSsw_jobq (v : Ssw) : (s.withSsw v).jobq = s.jobq := rfl
@[simp] theorem withSsw_link (v : Ssw) : (s.withSsw v).link = s.link := rfl
@[simp] theorem withSsw_pending (v : Ssw) : (s.withSsw v).pending = s.pending := rfl
@[simp] theorem withSsw_withSsw (v v' : Ssw) : (s.withSsw v).withSsw v' = s.withSsw v' := rfl
@[simp] theorem withSsw_self : s.withSsw s.ssw = s := rfl

@[simp] theorem withLine_resetHeld (v : Line) : (s.withLine v).resetHeld = s.resetHeld := rfl
@[simp] theorem withLine_mmon (v : Line) : (s.withLine v).mmon = s.mmon := rfl
@[simp] theorem withLine_ssw (v : Line) : (s.withLine v).ssw = s.ssw := rfl
@[simp] theorem withLine_line (v : Line) : (s.withLine v).line = v := rfl
@[simp] theorem withLine_rate (v : Line) : (s.withLine v).rate = s.rate := rfl
@[simp] theorem withLine_rstr (v : Line) : (s.withLine v).rstr = s.rstr := rfl
@[simp] theorem withLine_pins (v : Line) : (s.withLine v).pins = s.pins := rfl
@[simp] theorem withLine_disc (v : Line) : (s.withLine v).disc = s.disc := rfl
@[simp] theorem withLine_jobq (v : Line) : (s.withLine v).jobq = s.jobq := rfl
@[simp] theorem withLine_link (v : Line) : (s.withLine v).link = s.link := rfl
@[simp] theorem withLine_pending (v : Line) : (s.withLine v).pending = s.pending := rfl
@[simp] theorem withLine_withLine (v v' : Line) : (s.withLine v).withLine v' = s.withLine v' := rfl
@[simp] theorem withLine_self : s.withLine s.line = s := rfl

@[simp] theorem withRate_resetHeld (v : Rate) : (s.withRate v).resetHeld = s.resetHeld := rfl
@[simp] theorem withRate_mmon (v : Rate) : (s.withRate v).mmon = s.mmon := rfl
@[simp] theorem withRate_ssw (v : Rate) : (s.withRate v).ssw = s.ssw := rfl
@[simp] theorem withRate_line (v : Rate) : (s.withRate v).line = s.line := rfl
@[simp] theorem withRate_rate (v : Rate) : (s.withRate v).rate = v := rfl
@[simp] theorem withRate_rstr (v : Rate) : (s.withRate v).rstr = s.rstr := rfl
@[simp] theorem withRate_pins (v : Rate) : (s.withRate v).pins = s.pins := rfl
@[simp] theorem withRate_disc (v : Rate) : (s.withRate v).disc = s.disc := rfl
@[simp] theorem withRate_jobq (v : Rate) : (s.withRate v).jobq = s.jobq := rfl
@[simp] theorem withRate_link (v : Rate) : (s.withRate v).link = s.link := rfl
@[simp] theorem withRate_pending (v : Rate) : (s.withRate v).pending = s.pending := rfl
@[simp] theorem withRate_withRate (v v' : Rate) : (s.withRate v).withRate v' = s.withRate v' := rfl
@[simp] theorem withRate_self : s.withRate s.rate = s := rfl

@[simp] theorem withRstr_resetHeld (v : Rstr) : (s.withRstr v).resetHeld = s.resetHeld := rfl
@[simp] theorem withRstr_mmon (v : Rstr) : (s.withRstr v).mmon = s.mmon := rfl
@[simp] theorem withRstr_ssw (v : Rstr) : (s.withRstr v).ssw = s.ssw := rfl
@[simp] theorem withRstr_line (v : Rstr) : (s.withRstr v).line = s.line := rfl
@[simp] theorem withRstr_rate (v : Rstr) : (s.withRstr v).rate = s.rate := rfl
@[simp] theorem withRstr_rstr (v : Rstr) : (s.withRstr v).rstr = v := rfl
@[simp] theorem withRstr_pins (v : Rstr) : (s.withRstr v).pins = s.pins := rfl
@[simp] theorem withRstr_disc (v : Rstr) : (s.withRstr v).disc = s.disc := rfl
@[simp] theorem withRstr_jobq (v : Rstr) : (s.withRstr v).jobq = s.jobq := rfl
@[simp] theorem withRstr_link (v : Rstr) : (s.withRstr v).link = s.link := rfl
@[simp] theorem withRstr_pending (v : Rstr) : (s.withRstr v).pending = s.pending := rfl
@[simp] theorem withRstr_withRstr (v v' : Rstr) : (s.withRstr v).withRstr v' = s.withRstr v' := rfl
@[simp] theorem withRstr_self : s.withRstr s.rstr = s := rfl

@[simp] theorem withPins_resetHeld (v : List Pin) : (s.withPins v).resetHeld = s.resetHeld := rfl
@[simp] theorem withPins_mmon (v : List Pin) : (s.withPins v).mmon = s.mmon := rfl
@[simp] theorem withPins_ssw (v : List Pin) : (s.withPins v).ssw = s.ssw := rfl
@[simp] theorem withPins_line (v : List Pin) : (s.withPins v).line = s.line := rfl
@[simp] theorem withPins_rate (v : List Pin) : (s.withPins v).rate = s.rate := rfl
@[simp] theorem withPins_rstr (v : List Pin) : (s.withPins v).rstr = s.rstr := rfl
@[simp] theorem withPins_pins (v : List Pin) : (s.withPins v).pins = v := rfl
@[simp] theorem withPins_disc (v : List Pin) : (s.withPins v).disc = s.disc := rfl
@[simp] theorem withPins_jobq (v : List Pin) : (s.withPins v).jobq = s.jobq := rfl
@[simp] theorem withPins_link (v : List Pin) : (s.withPins v).link = s.link := rfl
@[simp] theorem withPins_pending (v : List Pin) : (s.withPins v).pending = s.pending := rfl
@[simp] theorem withPins_withPins (v v' : List Pin) : (s.withPins v).withPins v' = s.withPins v' := rfl
@[simp] theorem withPins_self : s.withPins s.pins = s := rfl

@[simp] theorem withDisc_resetHeld (v : Disc) : (s.withDisc v).resetHeld = s.resetHeld := rfl
@[simp] theorem withDisc_mmon (v : Disc) : (s.withDisc v).mmon = s.mmon := rfl
@[simp] theorem withDisc_ssw (v : Disc) : (s.withDisc v).ssw = s.ssw := rfl
@[simp] theorem withDisc_line (v : Disc) : (s.withDisc v).line = s.line := rfl
@[simp] theorem withDisc_rate (v : Disc) : (s.withDisc v).rate = s.rate := rfl
@[simp] theorem withDisc_rstr (v : Disc) : (s.withDisc v).rstr = s.rstr := rfl
@[simp] theorem withDisc_pins (v : Disc) : (s.withDisc v).pins = s.pins := rfl
@[simp] theorem withDisc_disc (v : Disc) : (s.withDisc v).disc = v := rfl
@[simp] theorem withDisc_jobq (v : Disc) : (s.withDisc v).jobq = s.jobq := rfl
@[simp] theorem withDisc_link (v : Disc) : (s.withDisc v).link = s.link := rfl
@[simp] theorem withDisc_pending (v : Disc) : (s.withDisc v).pending = s.pending := rfl
@[simp] theorem withDisc_withDisc (v v' : Disc) : (s.withDisc v).withDisc v' = s.withDisc v' := rfl
@[simp] theorem withDisc_self : s.withDisc s.disc = s := rfl

@[simp] theorem withJobq_resetHeld (v : Jobq) : (s.withJobq v).resetHeld = s.resetHeld := rfl
@[simp] theorem withJobq_mmon (v : Jobq) : (s.withJobq v).mmon = s.mmon := rfl
@[simp] theorem withJobq_ssw (v : Jobq) : (s.withJobq v).ssw = s.ssw := rfl
@[simp] theorem withJobq_line (v : Jobq) : (s.withJobq v).line = s.line := rfl
@[simp] theorem withJobq_rate (v : Jobq) : (s.withJobq v).rate = s.rate := rfl
@[simp] theorem withJobq_rstr (v : Jobq) : (s.withJobq v).rstr = s.rstr := rfl
@[simp] theorem withJobq_pins (v : Jobq) : (s.withJobq v).pins = s.pins := rfl
@[simp] theorem withJobq_disc (v : Jobq) : (s.withJobq v).disc = s.disc := rfl
@[simp] theorem withJobq_jobq (v : Jobq) : (s.withJobq v).jobq = v := rfl
@[simp] theorem withJobq_link (v : Jobq) : (s.withJobq v).link = s.link := rfl
@[simp] theorem withJobq_pending (v : Jobq) : (s.withJobq v).pending = s.pending := rfl
@[simp] theorem withJobq_withJobq (v v' : Jobq) : (s.withJobq v).withJobq v' = s.withJobq v' := rfl
@[simp] theorem withJobq_self : s.withJobq s.jobq = s := rfl

@[simp] theorem withLink_resetHeld (v : Link) : (s.withLink v).resetHeld = s.resetHeld := rfl
@[simp] theorem withLink_mmon (v : Link) : (s.withLink v).mmon = s.mmon := rfl
@[simp] theorem withLink_ssw (v : Link) : (s.withLink v).ssw = s.ssw := rfl
@[simp] theorem withLink_line (v : Link) : (s.withLink v).line = s.line := rfl
@[simp] theorem withLink_rate (v : Link) : (s.withLink v).rate = s.rate := rfl
@[simp] theorem withLink_rstr (v : Link) : (s.withLink v).rstr = s.rstr := rfl
@[simp] theorem withLink_pins (v : Link) : (s.withLink v).pins = s.pins := rfl
@[simp] theorem withLink_disc (v : Link) : (s.withLink v).disc = s.disc := rfl
@[simp] theorem withLink_jobq (v : Link) : (s.withLink v).jobq = s.jobq := rfl
@[simp] theorem withLink_link (v : Link) : (s.withLink v).link = v := rfl
@[simp] theorem withLink_pending (v : Link) : (s.withLink v).pending = s.pending := rfl
@[simp] theorem withLink_withLink (v v' : Link) : (s.withLink v).withLink v' = s.withLink v' := rfl
@[simp] theorem withLink_self : s.withLink s.link = s := rfl

variable (l : Line)

@[simp] theorem cut_op : l.cut.op = none := by unfold Line.cut; split <;> rfl
@[simp] theorem cut_state : l.cut.state = l.state := by unfold Line.cut; split <;> rfl
@[simp] theorem cut_beat : l.cut.beat = l.beat := by unfold Line.cut; split <;> rfl
@[simp] theorem cut_tickPhase : l.cut.tickPhase = l.tickPhase := by unfold Line.cut; split <;> rfl
@[simp] theorem cut_startUp : l.cut.startUp = l.startUp := by unfold Line.cut; split <;> rfl
@[simp] theorem cut_route : l.cut.route = l.route := by unfold Line.cut; split <;> rfl
@[simp] theorem cut_keepalive : l.cut.keepalive = l.keepalive := by unfold Line.cut; split <;> rfl
@[simp] theorem cut_keepaliveDue : l.cut.keepaliveDue = l.keepaliveDue := by unfold Line.cut; split <;> rfl
@[simp] theorem cut_watch : l.cut.watch = l.watch := by unfold Line.cut; split <;> rfl
@[simp] theorem cut_sampler : l.cut.sampler = l.sampler := by unfold Line.cut; split <;> rfl
@[simp] theorem cut_highWatch : l.cut.highWatch = l.highWatch := by unfold Line.cut; split <;> rfl
@[simp] theorem cut_tlHigh : l.cut.tlHigh = l.tlHigh := by unfold Line.cut; split <;> rfl

end Sys2Proof.Machine
end

