-- ==== Sys2Proof/Laws/Kept.lean ====
section
/-! SUPPORT. What the work of a holder of the tool line can and cannot change: `Kept s t` says it once for every operation of
Route, Walk and Arbiter. It leaves the plug, the supply, the pins, the queue, the settings and the receiver alone, answers only
requests that hold a slot, and keeps a sound roster sound. -/

namespace Sys2Proof.Machine

/-- `t` comes from `s` by line work. -/
structure Kept (s t : State) : Prop where
  resetHeld : t.resetHeld = s.resetHeld
  mmon : t.mmon = s.mmon
  ssw : t.ssw = s.ssw
  pins : t.pins = s.pins
  pending : t.pending = s.pending
  beat : t.line.beat = s.line.beat
  link : t.link = { s.link with replies := t.link.replies, outstanding := t.link.outstanding, notices := t.link.notices }
  slots : t.link.replies.length + t.link.outstanding.length ≤ s.link.replies.length + s.link.outstanding.length
  notices : s.NoticesDistinct → t.NoticesDistinct
  urgent : t.jobq.urgent.length ≤ s.jobq.urgent.length
  normal : t.jobq.normal.length ≤ s.jobq.normal.length
  lit : s.line.state ≠ .off → t.line.state ≠ .off
  roster : s.RosterSound → t.RosterSound
  frames : t.disc.frames.length ≤ max s.disc.frames.length Config.frameRoom

@[simp] theorem Kept.refl (s : State) : Kept s s :=
  ⟨rfl, rfl, rfl, rfl, rfl, rfl, rfl, Nat.le_refl _, id, Nat.le_refl _, Nat.le_refl _, id, id, Nat.le_max_left _ _⟩

theorem Kept.trans {a b c : State} (h : Kept a b) (k : Kept b c) : Kept a c where
  resetHeld := k.resetHeld.trans h.resetHeld
  mmon := k.mmon.trans h.mmon
  ssw := k.ssw.trans h.ssw
  pins := k.pins.trans h.pins
  pending := k.pending.trans h.pending
  beat := k.beat.trans h.beat
  link := by have := k.link; rw [h.link] at this; exact this
  slots := Nat.le_trans k.slots h.slots
  notices := k.notices ∘ h.notices
  urgent := Nat.le_trans k.urgent h.urgent
  normal := Nat.le_trans k.normal h.normal
  lit := k.lit ∘ h.lit
  roster := k.roster ∘ h.roster
  frames := by have h1 := h.frames; have h2 := k.frames; omega

theorem Kept.settings {s t : State} (h : Kept s t) : t.link.settings = s.link.settings := by rw [h.link]

@[simp] theorem frames_le (n : Nat) : n ≤ max n Config.frameRoom := Nat.le_max_left _ _

variable {s x : State}

@[simp] theorem kept_withRate (r : Rate) (h : Kept s x) : Kept s (x.withRate r) :=
  h.trans ⟨rfl, rfl, rfl, rfl, rfl, rfl, rfl, Nat.le_refl _, id, Nat.le_refl _, Nat.le_refl _, id, id, Nat.le_max_left _ _⟩

@[simp] theorem kept_withJobq (q : Jobq) (h : Kept s x) (hu : q.urgent.length ≤ x.jobq.urgent.length)
    (hn : q.normal.length ≤ x.jobq.normal.length) : Kept s (x.withJobq q) :=
  h.trans ⟨rfl, rfl, rfl, rfl, rfl, rfl, rfl, Nat.le_refl _, id, hu, hn, id, id, Nat.le_max_left _ _⟩

@[simp] theorem kept_withLine (l : Line) (h : Kept s x) (hb : l.beat = x.line.beat)
    (hl : x.line.state ≠ .off → l.state ≠ .off) : Kept s (x.withLine l) :=
  h.trans ⟨rfl, rfl, rfl, rfl, rfl, hb, rfl, Nat.le_refl _, id, Nat.le_refl _, Nat.le_refl _, hl, id,
    Nat.le_max_left _ _⟩

theorem kept_withDisc' (d : Disc) (h : Kept s x) (hd : x.disc.choiceValid → d.choiceValid)
    (hf : d.frames.length ≤ max x.disc.frames.length Config.frameRoom) : Kept s (x.withDisc d) :=
  h.trans ⟨rfl, rfl, rfl, rfl, rfl, rfl, rfl, Nat.le_refl _, id, Nat.le_refl _, Nat.le_refl _, id,
    fun r => ⟨r.1, hd r.2.1, r.2.2⟩, hf⟩

@[simp] theorem kept_withDisc (d : Disc) (h : Kept s x) (hd : d.leaf = x.disc.leaf)
    (hf : d.frames.length ≤ max x.disc.frames.length Config.frameRoom) : Kept s (x.withDisc d) :=
  kept_withDisc' d h (fun hv => by unfold Disc.choiceValid at *; rw [hd]; exact hv) hf

@[simp] theorem kept_withDisc_none (d : Disc) (h : Kept s x) (hd : d.leaf = none)
    (hf : d.frames.length ≤ max x.disc.frames.length Config.frameRoom) : Kept s (x.withDisc d) :=
  kept_withDisc' d h (fun _ l hl => by rw [hd] at hl; cases hl) hf

theorem kept_withRstr (r : Rstr) (h : Kept s x) (hr : x.rstr.valid → r.valid) : Kept s (x.withRstr r) :=
  h.trans ⟨rfl, rfl, rfl, rfl, rfl, rfl, rfl, Nat.le_refl _, id, Nat.le_refl _, Nat.le_refl _, id,
    fun k => ⟨hr k.1, k.2⟩, Nat.le_max_left _ _⟩

/-! ### LINK -/

theorem putNotice_kinds (n : Notice) : ∀ l : List Notice, (l.map Notice.kind).Nodup → ((putNotice n l).map Notice.kind).Nodup
    ∧ ∀ k, k ∈ (putNotice n l).map Notice.kind ↔ k = n.kind ∨ k ∈ l.map Notice.kind
  | [], _ => by simp [putNotice]
  | x :: xs, h => by
    simp only [List.map_cons, List.nodup_cons] at h
    unfold putNotice
    split
    · next e => simp only [List.map_cons, List.nodup_cons, ← e]; exact ⟨h, by simp⟩
    · next e =>
      have ih := putNotice_kinds n xs h.2
      refine ⟨?_, ?_⟩
      · simp only [List.map_cons, List.nodup_cons, ih.1, and_true, ih.2]
        rintro (h1 | h1)
        · exact e h1
        · exact h.1 h1
      · intro k
        simp only [List.map_cons, List.mem_cons, ih.2]
        constructor
        · rintro (h1 | h1 | h1) <;> simp [h1]
        · rintro (h1 | h1 | h1) <;> simp [h1]

@[simp] theorem kept_raise (n : Notice) (h : Kept s x) : Kept s (x.raise n) :=
  h.trans ⟨rfl, rfl, rfl, rfl, rfl, rfl, rfl, Nat.le_refl _, fun k => (putNotice_kinds n _ k).1, Nat.le_refl _, Nat.le_refl _,
    id, id, Nat.le_max_left _ _⟩

theorem filter_tag_lt (tag : Byte) : ∀ l : List Request, ∀ q, l.find? (fun q => q.tag == tag) = some q →
    (l.filter (fun q => q.tag != tag)).length + 1 ≤ l.length
  | [], q, h => by cases h
  | a :: as, q, h => by
    by_cases e : (a.tag == tag) = true
    · have n : (a.tag != tag) = false := by simp [bne, e]
      simp only [List.filter_cons, n, List.length_cons]
      exact Nat.succ_le_succ (List.length_filter_le _ _)
    · have e' : (a.tag == tag) = false := by simpa using e
      have n : (a.tag != tag) = true := by simp [bne, e']
      rw [List.find?_cons, e'] at h
      have := filter_tag_lt tag as q h
      simp only [List.filter_cons, n, if_true, List.length_cons]; omega

/-- A reply made changes LINK alone. -/
theorem answer_link (tag : Byte) (r : Result) (p : List Byte) : x.answer tag r p = x.withLink (x.answer tag r p).link := by
  unfold State.answer; split <;> rfl

@[simp] theorem kept_answer (tag : Byte) (r : Result) (p : List Byte) (h : Kept s x) : Kept s (x.answer tag r p) := by
  refine h.trans ?_
  unfold State.answer
  split
  · simp
  · next q hq =>
    have := filter_tag_lt tag _ q hq
    refine ⟨rfl, rfl, rfl, rfl, rfl, rfl, rfl, ?_, id, Nat.le_refl _, Nat.le_refl _, id, id, Nat.le_max_left _ _⟩
    simp only [State.pushReply, withLink_link, List.length_append, List.length_cons, List.length_nil]
    omega

/-! ### LINE and RATE -/

@[simp] theorem kept_startOp (k : OpKind) (a : Nat) (h : Kept s x) : Kept s (x.startOp k a) := by simp [State.startOp, h]
@[simp] theorem kept_endOp (h : Kept s x) : Kept s x.endOp := by simp [State.endOp, h]
@[simp] theorem kept_setCapture (c : Capture) (h : Kept s x) : Kept s (x.setCapture c) := by simp [State.setCapture, h]
@[simp] theorem kept_dropChoices (h : Kept s x) : Kept s x.dropChoices := by simp [State.dropChoices, h]
@[simp] theorem kept_putRoute (r : Route) (h : Kept s x) : Kept s (x.putRoute r) := by simp [State.putRoute, h]
@[simp] theorem kept_armWatch (h : Kept s x) : Kept s x.armWatch := by
  unfold State.armWatch; split <;> simp_all

/-! ### RSTR -/

@[simp] theorem kept_update (k : Nat) (f : Entry → Entry) (h : Kept s x) (hf : ∀ e, (f e).handle = e.handle) :
    Kept s (x.withRstr (x.rstr.update k f)) := kept_withRstr _ h (Rstr.update_valid _ _ hf)
@[simp] theorem kept_addError (k : Nat) (h : Kept s x) : Kept s (x.addError k) := kept_update _ _ h (fun _ => rfl)
@[simp] theorem kept_release0 (h : Kept s x) : Kept s (x.withRstr { x.rstr with reserved := 0 }) :=
  kept_withRstr _ h Rstr.release_valid
@[simp] theorem kept_releaseAll (h : Kept s x) : Kept s x.releaseAll := kept_release0 h
@[simp] theorem kept_release (k : Nat) (h : Kept s x) : Kept s (x.release k) := by
  unfold State.release; split <;> simp [h]
@[simp] theorem kept_departWhere (p : Entry → Bool) (h : Kept s x) : Kept s (x.withRstr (x.rstr.departWhere p).1) :=
  kept_withRstr _ h (Rstr.departWhere_valid _)
@[simp] theorem kept_cascade (j : Nat) (h : Kept s x) : Kept s (x.withRstr (x.rstr.cascade j).1) :=
  kept_withRstr _ h (Rstr.cascade_valid _)
@[simp] theorem kept_legCascade (j g : Nat) (h : Kept s x) : Kept s (x.withRstr (x.rstr.legCascade j g).1) :=
  kept_withRstr _ h (Rstr.legCascade_valid _ _)
@[simp] theorem kept_legGood (j g : Nat) (h : Kept s x) : Kept s (x.withRstr (x.rstr.legGood j g)) :=
  kept_withRstr _ h (Rstr.legGood_valid _ _)
@[simp] theorem kept_removeTree (j : Nat) (h : Kept s x) : Kept s (x.withRstr (x.rstr.removeTree j)) :=
  kept_withRstr _ h (Rstr.removeTree_valid _)
@[simp] theorem kept_rollAnswered (j : Nat) (b : Byte) (h : Kept s x) : Kept s (x.withRstr (x.rstr.rollAnswered j b).1) :=
  kept_withRstr _ h (Rstr.rollAnswered_valid _ _)
@[simp] theorem kept_rollUnanswered (j l : Nat) (h : Kept s x) : Kept s (x.withRstr (x.rstr.rollUnanswered j l).1) :=
  kept_withRstr _ h (Rstr.rollUnanswered_valid _ _)

/-! ### DISC and JOBQ -/

@[simp] theorem kept_record (f : ResultRecord → ResultRecord) (h : Kept s x) : Kept s (x.record f) := by
  simp [State.record, h]
@[simp] theorem kept_endDiscovery (o : DiscOutcome) (w : Option AbortReason) (c : Result) (h : Kept s x) :
    Kept s (x.endDiscovery o w c) := by
  unfold State.endDiscovery
  have : Kept s ((x.withDisc { x.disc.toIdle with
      result := some ((x.disc.result.getD (ResultRecord.fresh (x.disc.mode.getD .rescan) (x.disc.origin == some .auto))).finish
        o w x.rstr.generation) }).releaseAll) := by simp [Disc.toIdle, h]
  dsimp only
  split <;> simp [this]
@[simp] theorem kept_putSwitch (w : Option Switch) (h : Kept s x) : Kept s (x.putSwitch w) := by simp [State.putSwitch, h]
@[simp] theorem kept_putSweep (w : Option Sweep) (h : Kept s x) : Kept s (x.putSweep w) := by simp [State.putSweep, h]
@[simp] theorem kept_putDiscWork (w : DiscWork) (h : Kept s x) : Kept s (x.putDiscWork w) := by
  simp [State.putDiscWork, h]
@[simp] theorem kept_endSweep (c : Result) (h : Kept s x) : Kept s (x.endSweep c) := by
  unfold State.endSweep; split <;> simp [h]

/-! ### Route switches -/

@[simp] theorem kept_countCascade (u : SwitchUse) (j g n : Nat) (h : Kept s x) : Kept s (x.countCascade u j g n) := by
  unfold State.countCascade; split <;> simp (maxDischargeDepth := 20) [h]
@[simp] theorem kept_departJunction (u : SwitchUse) (j : Nat) (h : Kept s x) : Kept s (x.departJunction u j) := by
  simp (maxDischargeDepth := 20) [State.departJunction, h]
@[simp] theorem kept_faultLeg (u : SwitchUse) (j g : Nat) (h : Kept s x) : Kept s (x.faultLeg u j g) := by
  unfold State.faultLeg
  cases u <;> simp (maxDischargeDepth := 20) [h]
@[simp] theorem kept_switchNext (w : Switch) (h : Kept s x) : Kept s (x.switchNext w).1 := by
  unfold State.switchNext; dsimp only
  split
  · split <;> simp (maxDischargeDepth := 20) [h]
  · split
    · simp (maxDischargeDepth := 20) [h]
    · split <;> simp (maxDischargeDepth := 20) [h]
@[simp] theorem kept_startSwitch (u : SwitchUse) (t : Route) (r : Nat) (h : Kept s x) : Kept s (x.startSwitch u t r).1 := by
  simp (maxDischargeDepth := 20) [State.startSwitch, h]
@[simp] theorem kept_legOpened (w : Switch) (j g n : Nat) (h : Kept s x) : Kept s (x.legOpened w j g n).1 := by
  unfold State.legOpened; split <;> simp (maxDischargeDepth := 20) [h]
@[simp] theorem kept_legOpenUnanswered (w : Switch) (j : Nat) (h : Kept s x) : Kept s (x.legOpenUnanswered w j).1 := by
  simp (maxDischargeDepth := 20) [State.legOpenUnanswered, h]
@[simp] theorem kept_legClosed (w : Switch) (h : Kept s x) : Kept s (x.legClosed w).1 := by simp (maxDischargeDepth := 20) [State.legClosed, h]
@[simp] theorem kept_legCloseUnanswered (w : Switch) (j : Nat) (h : Kept s x) : Kept s (x.legCloseUnanswered w j).1 := by
  unfold State.legCloseUnanswered; dsimp only; split <;> simp (maxDischargeDepth := 20) [h]
@[simp] theorem kept_legEnded (w : Switch) (k : OpKind) (j : Nat) (d : Except DecodeFail (List Byte)) (h : Kept s x) :
    Kept s (x.legEnded w k j d).1 := by
  unfold State.legEnded; split
  · simp (maxDischargeDepth := 20) [h]
  · simp (maxDischargeDepth := 20) [h]
  · dsimp only; split
    · simp (maxDischargeDepth := 20) [h]
    · split <;> simp (maxDischargeDepth := 20) [h]
@[simp] theorem kept_legTainted (w : Switch) (k : OpKind) (j : Nat) (h : Kept s x) : Kept s (x.legTainted w k j).1 := by
  unfold State.legTainted; split <;> simp (maxDischargeDepth := 20) [h]

end Sys2Proof.Machine
end

