-- ==== Sys2Proof/Laws/KeptWork.lean ====
section
/-! SUPPORT. `Kept` for the discovery engine, the jobs, the sweep, the arbiter and the dealing with a taint: everything a grant,
an operation's end or a further attempt can do. -/

namespace Sys2Proof.Machine

variable {s x : State}

/-! ### DISC's bookkeeping -/

theorem Disc.mapTop_leaf (d : Disc) (f : Level → Level) : (d.mapTop f).leaf = d.leaf := by unfold Disc.mapTop; split <;> rfl
theorem Disc.mapTop_frames (d : Disc) (f : Level → Level) : (d.mapTop f).frames = d.frames := by
  unfold Disc.mapTop; split <;> rfl

@[simp] theorem kept_mapTop (f : Level → Level) (h : Kept s x) : Kept s (x.withDisc (x.disc.mapTop f)) :=
  kept_withDisc _ h (Disc.mapTop_leaf _ _) (by rw [Disc.mapTop_frames]; exact Nat.le_max_left _ _)
@[simp] theorem kept_nextJunction (h : Kept s x) : Kept s x.nextJunction := kept_mapTop _ h
@[simp] theorem kept_nextLeg (h : Kept s x) : Kept s x.nextLeg := kept_mapTop _ h
@[simp] theorem kept_abandon (h : Kept s x) : Kept s x.abandon := by simp [State.abandon, h]
@[simp] theorem kept_notEntered (hs : List Nat) (h : Kept s x) : Kept s (x.notEntered hs) := by
  refine kept_record _ (kept_withRstr _ h (fun k => Rstr.valid_map _ _ (fun e => ?_) k.2.2.2.2 k))
  split <;> rfl
@[simp] theorem kept_pushLevel (r : Route) (e : Option RouteStep) (h : Kept s x) : Kept s (x.pushLevel r e) := by
  simp [State.pushLevel, h]
@[simp] theorem kept_listJunction (j n : Nat) (h : Kept s x) : Kept s (x.listJunction j n) := by
  unfold State.listJunction; split
  · exact h
  · split
    · exact h
    · split <;> simp [h]
@[simp] theorem kept_ask (st : DiscStep) (h : Kept s x) : Kept s (x.ask st) := by simp [State.ask, h]
@[simp] theorem kept_finishDiscovery (h : Kept s x) : Kept s x.finishDiscovery := by
  unfold State.finishDiscovery; dsimp only; split <;> simp [h]
theorem kept_descend : ∀ n {x : State}, Kept s x → Kept s (x.descend n)
  | 0, _, h => h
  | n + 1, x, h => by
    unfold State.descend
    split
    · exact h
    · split
      · split <;> simp (maxDischargeDepth := 20) [h]
      · dsimp only
        split
        · split
          · exact kept_descend n (by simp (maxDischargeDepth := 20) [h])
          · exact kept_descend n (by simp (maxDischargeDepth := 20) [h])
        · split
          · simp [h]
          · exact kept_descend n (by simp (maxDischargeDepth := 20) [h])
@[simp] theorem kept_descent (h : Kept s x) : Kept s x.descent := kept_descend _ h
@[simp] theorem kept_passEnd (h : Kept s x) : Kept s x.passEnd := by
  unfold State.passEnd; dsimp only; split
  · simp [h]
  · exact kept_descent (kept_mapTop _ (kept_record _ h))
@[simp] theorem kept_walkNext (h : Kept s x) : Kept s x.walkNext := by
  unfold State.walkNext; split
  · simp [h]
  · split <;> simp [h]

/-- The leaf replaced by one whose choice is sound when the old leaf's is. -/
theorem kept_putLeaf (l : Option Leaf) (h : Kept s x)
    (hl : x.disc.choiceValid → ∀ l', l = some l' → ∀ c, l'.choice = some c → handleValid c.handle) : Kept s (x.putLeaf l) :=
  kept_withDisc' _ h hl (Nat.le_max_left _ _)
@[simp] theorem kept_putLeaf_none (h : Kept s x) : Kept s (x.putLeaf none) :=
  kept_putLeaf _ h (fun _ _ e => by cases e)
@[simp] theorem kept_putLeaf_open (l : Leaf) (h : Kept s x) (hl : l.choice = none) : Kept s (x.putLeaf (some l)) :=
  kept_putLeaf _ h (fun _ l' e c hc => by cases e; rw [hl] at hc; cases hc)
theorem kept_putLeaf_same (l l₀ : Leaf) (h : Kept s x) (h0 : x.disc.leaf = some l₀) (hl : l.choice = l₀.choice) :
    Kept s (x.putLeaf (some l)) :=
  kept_putLeaf _ h (fun k l' e c hc => by cases e; exact k l₀ h0 c (hl ▸ hc))

theorem Leaf.nextDigit_choice {l l' : Leaf} (h : l.nextDigit = some l') : l'.choice = none := by
  unfold Leaf.nextDigit at h; split at h <;> cases h; rfl
@[simp] theorem kept_leafNext (l : Leaf) (h : Kept s x) : Kept s (x.leafNext l) := by
  unfold State.leafNext; split
  · simp [h]
  · simp [h]
  · simp [h]
  · split
    · next e => exact kept_ask _ (kept_putLeaf_open _ h (Leaf.nextDigit_choice e))
    · simp (maxDischargeDepth := 20) [h]
@[simp] theorem kept_discNext (h : Kept s x) : Kept s x.discNext := by
  unfold State.discNext; split
  · simp [h]
  · split
    · exact h
    · split
      · simp [h]
      · split <;> simp [h]
@[simp] theorem kept_stepDone (h : Kept s x) : Kept s x.stepDone := by
  unfold State.stepDone; dsimp only; split <;> simp (maxDischargeDepth := 20) [h]
@[simp] theorem kept_leaveArmed (h : Kept s x) : Kept s x.leaveArmed := by
  unfold State.leaveArmed; split
  · split <;> simp (maxDischargeDepth := 20) [h]
  · exact h
@[simp] theorem kept_lineOpen (h : Kept s x) : Kept s x.lineOpen := by simp [State.lineOpen, h]

/-! ### Counts, and failed steps -/

@[simp] theorem kept_putPass (f : Pass → Pass) (h : Kept s x) : Kept s (x.putPass f) := by simp [State.putPass, h]
@[simp] theorem kept_failPass (h : Kept s x) : Kept s x.failPass := kept_putPass _ h
@[simp] theorem kept_leaveUnnamed (n : Nat) (h : Kept s x) : Kept s (x.leaveUnnamed n) := kept_putPass _ h
@[simp] theorem kept_dropNonce (h : Kept s x) : Kept s x.dropNonce := by
  refine kept_putLeaf _ h (fun _ l' e c hc => ?_)
  obtain ⟨a, -, rfl⟩ := Option.map_eq_some_iff.1 e
  cases hc
@[simp] theorem kept_countFailedNaming (h : Kept s x) : Kept s x.countFailedNaming :=
  kept_dropNonce (kept_leaveUnnamed _ (kept_failPass h))
@[simp] theorem kept_countCalibFailure (h : Kept s x) : Kept s x.countCalibFailure := kept_record _ h
@[simp] theorem kept_nextDigit (h : Kept s x) (o : Option Leaf) : Kept s (x.putLeaf (o.bind Leaf.nextDigit)) := by
  refine kept_putLeaf _ h (fun _ l' e c hc => ?_)
  obtain ⟨a, -, e⟩ := Option.bind_eq_some_iff.1 e
  rw [Leaf.nextDigit_choice e] at hc; cases hc
@[simp] theorem kept_failStep (st : DiscStep) (h : Kept s x) : Kept s (x.failStep st) := by
  unfold State.failStep; cases st <;> simp (maxDischargeDepth := 20) [h]

/-! ### Naming -/

@[simp] theorem kept_outOfHandles (n : Nat) (h : Kept s x) : Kept s (x.outOfHandles n) := by
  simp (maxDischargeDepth := 20) [State.outOfHandles, h]
/-- A choice taken into the leaf, with the reservation it makes. -/
theorem kept_chosen (r : Rstr) (l : Leaf) (h : Kept s x)
    (hr : x.RosterSound → r.valid ∧ ∀ c, l.choice = some c → handleValid c.handle) :
    Kept s ((x.withRstr r).putLeaf (some l)) :=
  h.trans ⟨rfl, rfl, rfl, rfl, rfl, rfl, rfl, Nat.le_refl _, id, Nat.le_refl _, Nat.le_refl _, id,
    fun k => ⟨(hr k).1, fun l' e => by cases e; exact (hr k).2, k.2.2⟩, Nat.le_max_left _ _⟩
@[simp] theorem kept_beginNaming (l : Leaf) (n left : Nat) (h : Kept s x) : Kept s (x.beginNaming l n left) := by
  unfold State.beginNaming
  split
  · simp [h]
  · next c e =>
    cases hc : c.restores with
    | true =>
      refine kept_startOp _ _ (kept_chosen x.rstr _ h (fun k => ⟨k.1, fun c' e' => ?_⟩))
      cases e'
      exact (chooseHandle_spec e k.1 k.2.2.1 k.2.2.2).1
    | false =>
      refine kept_startOp _ _ (kept_chosen _ _ h (fun k => ?_))
      have := chooseHandle_spec e k.1 k.2.2.1 k.2.2.2
      exact ⟨Rstr.reserve_valid this.1 (this.2 hc) k.1, fun c' e' => by cases e'; exact this.1⟩
@[simp] theorem kept_sendDrop (w : DiscWork) (y : DropCause) (j : Nat) (h : Kept s x) : Kept s (x.sendDrop w y j) := by
  simp [State.sendDrop, h]
@[simp] theorem kept_namingFailed (w : DiscWork) (j : Nat) (h : Kept s x) : Kept s (x.namingFailed w j) := by
  simp [State.namingFailed, h]
@[simp] theorem kept_withdraw (w : DiscWork) (l : Leaf) (j : Nat) (m : Bool) (h : Kept s x) : Kept s (x.withdraw w l j m) := by
  simp [State.withdraw, h]
theorem kept_nameEntry (l : Leaf) (c : Choice) (n : Nat) (kind : Byte) (h : Kept s x)
    (hc : x.RosterSound → handleValid c.handle) : Kept s (x.nameEntry l c n kind).1 := by
  refine h.trans ⟨rfl, rfl, rfl, rfl, rfl, rfl, rfl, Nat.le_refl _, id, Nat.le_refl _, Nat.le_refl _, id,
    fun k => ⟨?_, k.2⟩, Nat.le_max_left _ _⟩
  unfold State.nameEntry
  dsimp only [withRstr_rstr]
  have h1 : ∀ o : Option Entry, Rstr.valid (match o with
    | some e => x.rstr.restore e c kind x.line.route (if l.twins then some n else none)
    | none => x.rstr.create l.stamp c kind x.line.route (if l.twins then some n else none)) := by
    intro o; cases o
    · exact Rstr.create_valid _ _ _ _ _ (hc k) k.1
    · exact Rstr.restore_valid _ _ _ _ _ k.1
  split
  · exact Rstr.dropMemory_valid _ _ (h1 _)
  · exact h1 _
theorem kept_nameDone (w : DiscWork) (l : Leaf) (c : Choice) (n : Nat) (kind : Byte) (h : Kept s x)
    (hc : x.RosterSound → handleValid c.handle) : Kept s (x.nameDone w l c n kind) := by
  unfold State.nameDone
  have h1 := kept_nameEntry l c n kind h hc
  generalize x.nameEntry l c n kind = y at h1 ⊢
  obtain ⟨y, b⟩ := y
  dsimp only at h1 ⊢
  refine kept_stepDone ?_
  split <;> refine kept_putLeaf_open _ ?_ rfl <;> split <;> simp [h1]
theorem kept_confirm (w : DiscWork) (l : Leaf) (c : Choice) (n : Nat) (kind : Byte) (h : Kept s x)
    (hc : x.RosterSound → handleValid c.handle) : Kept s (x.confirm w l c n kind) := by
  unfold State.confirm
  split
  · simp [h]
  · split
    · simp [h]
    · exact kept_nameDone w l c n kind h hc
@[simp] theorem kept_nameEnded (w : DiscWork) (k : OpKind) (n j : Nat) (d : Except DecodeFail (List Byte)) (h : Kept s x) :
    Kept s (x.nameEnded w k n j d) := by
  unfold State.nameEnded
  split
  · split <;> simp [h]
  · split
    · simp [h]
    · next l e =>
      split
      · simp [h]
      · next c e' => exact kept_confirm w l c n _ h (fun k => k.2.1 l e c e')
@[simp] theorem kept_clearPendingDrop (h : Kept s x) : Kept s (x.withDisc { x.disc with pendingDrop := none }) :=
  kept_withDisc _ h rfl (Nat.le_max_left _ _)
@[simp] theorem kept_discDropped (w : DiscWork) (j : Nat) (h : Kept s x) : Kept s (x.discDropped w j) := by
  unfold State.discDropped; split
  · simp (maxDischargeDepth := 20) [h]
  · simp (maxDischargeDepth := 20) [h]
  · exact kept_stepDone (kept_release _ (kept_clearPendingDrop h))
@[simp] theorem kept_dropPending (y : DropCause) (j : Nat) (h : Kept s x) : Kept s (x.dropPending y j) := by
  unfold State.dropPending
  have : Kept s (x.failPass.withDisc { x.failPass.disc with pendingDrop := some j }) := 
    kept_withDisc _ (kept_failPass h) rfl (Nat.le_max_left _ _)
  cases y <;> simp [this]

/-! ### The walk's operations end -/

@[simp] theorem kept_hailed (b : Bool) (h : Kept s x) : Kept s (x.hailed b) :=
  kept_stepDone (kept_withDisc _ h rfl (by cases b <;> simp [Config.frameRoom] <;> omega))
theorem pushFrames_leaf (f : List Nibble) : ∀ (ns : List Nat) (d : Disc),
    (ns.foldl (fun d n => pushFrame d (f ++ [digitOf n])) d).leaf = d.leaf
  | [], _ => rfl
  | n :: ns, d => by
    rw [List.foldl_cons, pushFrames_leaf f ns]
    unfold pushFrame; split <;> rfl
theorem pushFrames_frames (f : List Nibble) : ∀ (ns : List Nat) (d : Disc),
    (ns.foldl (fun d n => pushFrame d (f ++ [digitOf n])) d).frames.length ≤ max d.frames.length Config.frameRoom
  | [], d => Nat.le_max_left _ _
  | n :: ns, d => by
    rw [List.foldl_cons]
    refine Nat.le_trans (pushFrames_frames f ns _) ?_
    unfold pushFrame; split
    · exact Nat.le_refl _
    · simp only [List.length_cons]; omega
@[simp] theorem kept_called (f : List Nibble) (ns : List Nat) (h : Kept s x) : Kept s (x.called f ns) := by
  unfold State.called; split
  · exact kept_stepDone (kept_withDisc _ h (pushFrames_leaf _ _ _) (pushFrames_frames _ _ _))
  · split
    · simp [h]
    · exact kept_stepDone (kept_putLeaf_open _ h rfl)
@[simp] theorem kept_echoed (ns : List Nat) (h : Kept s x) : Kept s (x.echoed ns) := by
  unfold State.echoed; split
  · simp [h]
  · next l e =>
    dsimp only
    split
    · refine kept_stepDone (kept_putLeaf_same _ l ?_ ?_ rfl)
      · split <;> simp [h]
      · split
        · exact e
        · exact e
    · exact kept_stepDone (kept_putLeaf_same _ l h e rfl)
theorem Entry.calibrated_handle (e : Entry) (c : CalibResult) : (e.calibrated c).handle = e.handle := by
  unfold Entry.calibrated; split
  · rfl
  · dsimp only; split <;> rfl
@[simp] theorem kept_storeCalib (j : Nat) (c : CalibResult) (h : Kept s x) : Kept s (x.storeCalib j c) :=
  kept_withRstr _ h (fun k => Rstr.summary_valid _ (Rstr.update_valid _ _ (fun e => e.calibrated_handle c) k))
@[simp] theorem kept_judgeLow (j : Nat) (c : Capture) (h : Kept s x) : Kept s (x.judgeLow j c).1 := by
  simp [State.judgeLow, h]
@[simp] theorem kept_discMeasured (j : Nat) (c : Capture) (h : Kept s x) : Kept s (x.discMeasured j c) := by
  unfold State.discMeasured
  have h1 := kept_judgeLow j c h
  generalize x.judgeLow j c = y at h1 ⊢
  obtain ⟨y, b⟩ := y
  dsimp only at h1 ⊢
  split <;> simp (maxDischargeDepth := 20) [h1]

/-! ### Descent under a grant -/

@[simp] theorem kept_closingEnded (e : SwitchEnd) (h : Kept s x) : Kept s (x.closingEnded e) := by
  unfold State.closingEnded; split
  · split <;> simp (maxDischargeDepth := 20) [h]
  all_goals simp (maxDischargeDepth := 20) [h]

/-- A start of a switch and what follows it, when both keep. -/
theorem kept_switched {f : State → SwitchEnd → State} {y : State × Option SwitchEnd} :
    Kept s y.1 → (∀ z e, Kept s z → Kept s (f z e)) → Kept s (match y with | (z, none) => z | (z, some e) => f z e) := by
  obtain ⟨z, o⟩ := y
  intro h hf
  cases o
  · exact h
  · exact hf _ _ h

@[simp] theorem kept_closeLeg (r : Nat) (h : Kept s x) : Kept s (x.closeLeg r) :=
  kept_switched (f := State.closingEnded) (kept_startSwitch _ _ _ h) (fun _ _ k => kept_closingEnded _ k)
@[simp] theorem kept_openingEnded (e : SwitchEnd) (h : Kept s x) : Kept s (x.openingEnded e) := by
  unfold State.openingEnded; split
  · split <;> simp (maxDischargeDepth := 20) [h]
  all_goals simp (maxDischargeDepth := 20) [h]
@[simp] theorem kept_checkAnswered (w : DiscWork) (j : Nat) (b : Byte) (h : Kept s x) : Kept s (x.checkAnswered w j b) := by
  unfold State.checkAnswered; dsimp only; split <;> simp (maxDischargeDepth := 20) [h]
@[simp] theorem kept_checkUnanswered (j : Nat) (h : Kept s x) : Kept s (x.checkUnanswered j) := by
  simp (maxDischargeDepth := 20) [State.checkUnanswered, h]
@[simp] theorem kept_checkRolled (w : DiscWork) (j : Nat) (d : Except DecodeFail (List Byte)) (h : Kept s x) :
    Kept s (x.checkRolled w j d) := by
  unfold State.checkRolled; split
  · simp [h]
  · dsimp only; split <;> simp (maxDischargeDepth := 20) [h]

/-! ### The step under its grant -/

@[simp] theorem kept_stepBody (w : DiscWork) (h : Kept s x) : Kept s (x.stepBody w) := by
  have h1 : Kept s (x.withDisc { x.disc with state := w.step.state }) := kept_withDisc _ h rfl (Nat.le_max_left _ _)
  unfold State.stepBody
  dsimp only
  split
  · simp [h1]
  · simp [h1]
  · split
    · simp [h1]
    · next l e =>
      refine kept_startOp _ _ (kept_putLeaf_same _ l h1 e ?_)
      split <;> rfl
  · split
    · simp [h1]
    · split <;> simp [h1]
  · split <;> simp [h1]
  · split
    · simp [h1]
    · split <;> simp (maxDischargeDepth := 20) [h1]
  · split
    · simp [h1]
    · exact kept_switched (f := State.openingEnded) (kept_startSwitch _ _ _ h1) (fun _ _ k => kept_openingEnded _ k)
  · split
    · simp [h1]
    · split <;> simp (maxDischargeDepth := 20) [h1]
@[simp] theorem kept_restoreFailed (o : SwitchOutcome) (h : Kept s x) : Kept s (x.restoreFailed o) := by
  unfold State.restoreFailed
  refine kept_stepDone ?_
  split
  · exact kept_nextLeg (kept_withDisc_none _ h rfl (Nat.zero_le _))
  · exact kept_nextJunction (kept_withDisc_none _ h rfl (Nat.zero_le _))
@[simp] theorem kept_restoreEnded (w : DiscWork) (e : SwitchEnd) (h : Kept s x) : Kept s (x.restoreEnded w e) := by
  unfold State.restoreEnded; split <;> simp [h]
@[simp] theorem kept_stepOpen (st : DiscStep) (h : Kept s x) : Kept s (x.stepOpen st).1 := by
  cases st
  case call => exact kept_withDisc _ h rfl (by simp only [List.length_tail]; omega)
  all_goals simp [State.stepOpen, h]
@[simp] theorem kept_beginStep (st : DiscStep) (h : Kept s x) : Kept s (x.beginStep st) := by
  unfold State.beginStep
  have h1 : Kept s ((x.withDisc { x.disc with waiting := false, next := none }).stepOpen st).1 :=
    kept_stepOpen st (kept_withDisc _ h rfl (Nat.le_max_left _ _))
  generalize (x.withDisc { x.disc with waiting := false, next := none }).stepOpen st = y at h1 ⊢
  obtain ⟨y, f⟩ := y
  dsimp only at h1 ⊢
  split
  · simp [h1]
  · exact kept_switched (f := fun z e => State.restoreEnded z _ e)
      (kept_startSwitch _ _ _
        (kept_withDisc _ (kept_withJobq _ h1 (Nat.le_refl _) (Nat.le_refl _)) rfl (Nat.le_max_left _ _)))
      (fun _ _ k => kept_restoreEnded _ _ k)
@[simp] theorem kept_discTainted (w : DiscWork) (op : LineOp) (h : Kept s x) : Kept s (x.discTainted w op) := by
  unfold State.discTainted; split
  · simp [h]
  · split <;> simp [h]

/-! ### Jobs -/

@[simp] theorem kept_endJob (j : Job) (c : Result) (p : List Byte) (h : Kept s x) : Kept s (x.endJob j c p) := by
  simp (maxDischargeDepth := 20) [State.endJob, h]
@[simp] theorem kept_jobOp (j : Job) (h : Kept s x) : Kept s (x.jobOp j) := by
  unfold State.jobOp; split <;> simp [State.chooseCalib, h]
@[simp] theorem kept_jobSwitched (j : Job) (e : SwitchEnd) (h : Kept s x) : Kept s (x.jobSwitched j e) := by
  unfold State.jobSwitched; split <;> simp [h]
@[simp] theorem kept_beginJob (j : Job) (h : Kept s x) : Kept s (x.beginJob j) := by
  unfold State.beginJob
  split
  · simp [h]
  · dsimp only
    split
    · simp [h]
    · exact kept_switched (f := fun z e => State.jobSwitched z _ e) (kept_startSwitch _ _ _ (by simp [h]))
        (fun _ _ k => kept_jobSwitched _ _ k)
@[simp] theorem kept_rerun (k : OpKind) (a : Nat) (h : Kept s x) : Kept s (x.rerun k a) := by simp [State.rerun, h]
@[simp] theorem kept_jobRolled (j : Job) (r u : Nat) (d : Except DecodeFail (List Byte)) (h : Kept s x) :
    Kept s (x.jobRolled j r u d) := by
  unfold State.jobRolled; split
  · simp [h]
  · dsimp only; split <;> simp (maxDischargeDepth := 20) [h]
@[simp] theorem kept_jobExchanged (j : Job) (r u : Nat) (k : OpKind) (d : Except DecodeFail (List Byte)) (h : Kept s x) :
    Kept s (x.jobExchanged j r u k d) := by
  unfold State.jobExchanged; split
  · simp [h]
  · dsimp only; split <;> simp (maxDischargeDepth := 20) [h]
@[simp] theorem kept_jobMeasured (j : Job) (c : Capture) (h : Kept s x) : Kept s (x.jobMeasured j c) := by
  unfold State.jobMeasured
  exact kept_endJob _ _ _ (kept_judgeLow j.handle c h)
@[simp] theorem kept_jobWoken (j : Job) (t : Train) (h : Kept s x) : Kept s (x.jobWoken j t) := by simp [State.jobWoken, h]
@[simp] theorem kept_jobDropped (j : Job) (h : Kept s x) : Kept s (x.jobDropped j) := by simp [State.jobDropped, h]

/-! ### The sweep -/

@[simp] theorem kept_sweepPassEnd (w : Sweep) (h : Kept s x) : Kept s (x.sweepPassEnd w) := by
  unfold State.sweepPassEnd
  dsimp only
  split <;> split <;> simp (maxDischargeDepth := 20) [h]
@[simp] theorem kept_sweepSeek (h : Kept s x) : Kept s x.sweepSeek := by
  unfold State.sweepSeek; split
  · exact h
  · split <;> simp [h]
@[simp] theorem kept_sweepLook (h : Kept s x) : Kept s x.sweepLook := by simp [State.sweepLook, h]
@[simp] theorem kept_endRoll (j n : Nat) (h : Kept s x) : Kept s (x.endRoll j n) := by
  unfold State.endRoll; dsimp only; split
  · simp [h]
  · split <;> simp (maxDischargeDepth := 20) [h]
@[simp] theorem kept_sweepSwitched (j : Nat) (e : SwitchEnd) (h : Kept s x) : Kept s (x.sweepSwitched j e) := by
  unfold State.sweepSwitched; split <;> simp [h]
@[simp] theorem kept_beginRoll (e : Entry) (h : Kept s x) : Kept s (x.beginRoll e) :=
  kept_switched (f := fun z y => State.sweepSwitched z e.handle y) (kept_startSwitch _ _ _ (by simp [h]))
    (fun _ _ k => kept_sweepSwitched _ _ k)
@[simp] theorem kept_sweepRolled (j r u : Nat) (d : Except DecodeFail (List Byte)) (h : Kept s x) :
    Kept s (x.sweepRolled j r u d) := by
  unfold State.sweepRolled; split
  · simp [h]
  · dsimp only; split
    · simp [h]
    · exact kept_endRoll _ _ (kept_rollUnanswered _ _ (kept_addError _ h))

/-! ### Grants -/

@[simp] theorem kept_beginKeepalive (h : Kept s x) : Kept s x.beginKeepalive := by simp [State.beginKeepalive, h]

theorem claim_urgent {b : Bool} {j : Job} {js : List Job} (h : x.claim b = some (.urgent j js)) : x.jobq.urgent = j :: js := by
  have hd : ∀ c, x.discClaim = some c → ∃ st, c = .disc st := by
    intro c e; unfold State.discClaim at e; split at e
    · obtain ⟨a, -, rfl⟩ := Option.map_eq_some_iff.1 e; exact ⟨a, rfl⟩
    · cases e
  have hl : x.lowClaim ≠ some (.urgent j js) := by
    unfold State.lowClaim; intro e; split at e
    · cases e
    · split at e
      · cases e
      · split at e <;> cases e
  have hu : x.urgentClaim = some (.urgent j js) → x.jobq.urgent = j :: js := by
    unfold State.urgentClaim; intro e; split at e <;> simp_all
  unfold State.claim at h
  cases e1 : x.discClaim <;> cases e2 : x.urgentClaim <;> cases b <;> simp_all [Option.or]
theorem claim_normal {b : Bool} {j : Job} {js : List Job} (h : x.claim b = some (.normal j js)) : x.jobq.normal = j :: js := by
  have hd : ∀ c, x.discClaim = some c → ∃ st, c = .disc st := by
    intro c e; unfold State.discClaim at e; split at e
    · obtain ⟨a, -, rfl⟩ := Option.map_eq_some_iff.1 e; exact ⟨a, rfl⟩
    · cases e
  have hl : x.lowClaim = some (.normal j js) → x.jobq.normal = j :: js := by
    unfold State.lowClaim; intro e; split at e
    · simp_all
    · split at e
      · cases e
      · split at e <;> cases e
  have hu : x.urgentClaim ≠ some (.normal j js) := by
    unfold State.urgentClaim; intro e; split at e <;> cases e
  unfold State.claim at h
  cases e1 : x.discClaim <;> cases e2 : x.urgentClaim <;> cases b <;> simp_all [Option.or]

theorem kept_grantClaim {b : Bool} {c : Claim} (hc : x.claim b = some c) (h : Kept s x) : Kept s (x.grantClaim c).1 := by
  unfold State.grantClaim
  split
  · have := claim_urgent hc
    exact kept_beginJob _ (kept_withJobq _ h (by rw [this]; exact Nat.le_succ _) (Nat.le_refl _))
  · simp [h]
  · have := claim_normal hc
    exact kept_beginJob _ (kept_withJobq _ h (Nat.le_refl _) (by rw [this]; exact Nat.le_succ _))
  · split <;> simp [h]
  · simp [h]
theorem kept_arbitrateFrom : ∀ n b {x : State}, Kept s x → Kept s (State.arbitrateFrom n b x)
  | 0, _, _, h => h
  | n + 1, b, x, h => by
    unfold State.arbitrateFrom
    split
    · split
      · exact h
      · next c e => exact kept_arbitrateFrom n _ (kept_grantClaim e h)
    · exact h
@[simp] theorem kept_arbitrate (h : Kept s x) : Kept s x.arbitrate := kept_arbitrateFrom _ _ h
@[simp] theorem kept_regrant (b : State) (h : Kept s x) : Kept s (x.regrant b) := kept_arbitrateFrom _ _ h

/-! ### Switch ends, and taints at the return -/

@[simp] theorem kept_switchEnded (w : Work) (e : SwitchEnd) (h : Kept s x) : Kept s (x.switchEnded w e) := by
  unfold State.switchEnded; split
  · simp [h]
  · simp [h]
  · split <;> simp [h]
  · exact h
@[simp] theorem kept_switchWent (y : State × Option SwitchEnd) (w : Work) (h : Kept s y.1) : Kept s (State.switchWent y w) := by
  unfold State.switchWent; split <;> simp [h]
@[simp] theorem kept_dealTaint (g : Grant) (op : LineOp) (h : Kept s x) : Kept s (x.dealTaint g op) := by
  have h1 : Kept s (x.withJobq { x.jobq with grant := some { g with tainted := none } }) := by simp [h]
  unfold State.dealTaint
  dsimp only
  split
  · exact kept_switchWent _ _ (kept_legTainted _ _ _ h1)
  · split
    · unfold State.jobTainted; split <;> simp [h1]
    · unfold State.sweepTainted; split <;> simp [h1]
    · simp [h1]
    · exact kept_withJobq _ (kept_withLine _ h1 rfl id) (Nat.le_refl _) (Nat.le_refl _)

end Sys2Proof.Machine
end

