-- ==== Sys2Proof/Laws/Link.lean ====
section
/-! SUPPORT. LINK's shared operations: taking a request in, answering it, raising a notice, and the transmitter's start. -/

namespace Sys2Proof.Machine

variable {s : State}

/-! ### The transmitter (R162) -/

/-- The transmitter's start changes the frame on TXD and the notice list alone. -/
theorem kick_link : s.kick = s.withLink { s.link with tx := s.kick.link.tx, notices := s.kick.link.notices } := by
  unfold State.kick; split
  · rfl
  · split
    · rfl
    · split
      · rfl
      · split <;> rfl

@[simp] theorem kick_resetHeld : s.kick.resetHeld = s.resetHeld := by rw [kick_link]; rfl
@[simp] theorem kick_mmon : s.kick.mmon = s.mmon := by rw [kick_link]; rfl
@[simp] theorem kick_ssw : s.kick.ssw = s.ssw := by rw [kick_link]; rfl
@[simp] theorem kick_line : s.kick.line = s.line := by rw [kick_link]; rfl
@[simp] theorem kick_rate : s.kick.rate = s.rate := by rw [kick_link]; rfl
@[simp] theorem kick_rstr : s.kick.rstr = s.rstr := by rw [kick_link]; rfl
@[simp] theorem kick_pins : s.kick.pins = s.pins := by rw [kick_link]; rfl
@[simp] theorem kick_disc : s.kick.disc = s.disc := by rw [kick_link]; rfl
@[simp] theorem kick_jobq : s.kick.jobq = s.jobq := by rw [kick_link]; rfl
@[simp] theorem kick_pending : s.kick.pending = s.pending := by rw [kick_link]; rfl
@[simp] theorem kick_replies : s.kick.link.replies = s.link.replies := by rw [kick_link]; rfl
@[simp] theorem kick_outstanding : s.kick.link.outstanding = s.link.outstanding := by rw [kick_link]; rfl
@[simp] theorem kick_settings : s.kick.link.settings = s.link.settings := by rw [kick_link]; rfl
@[simp] theorem kick_restarting : s.kick.link.restarting = s.link.restarting := by rw [kick_link]; rfl

/-- What a start leaves of the notice list: the whole of it, or its tail. -/
theorem kick_notices : s.kick.link.notices = s.link.notices ∨ ∃ n, s.link.notices = n :: s.kick.link.notices := by
  unfold State.kick; split
  · exact .inl rfl
  · split
    · exact .inl rfl
    · split
      · exact .inl rfl
      · split
        · exact .inl rfl
        · next n ns e => exact .inr ⟨n, e⟩

/-- A settled state stays as it is. -/
theorem kick_of_settled (h : s.Settled) : s.kick = s := by
  unfold State.kick; split
  · rfl
  · next e =>
    obtain ⟨hr, hn⟩ := h e
    rw [hr]
    dsimp only
    rcases hn with hn | hn
    · simp [hn]
    · simp [hn]

/-- The transmitter's start leaves nothing waiting for a free transmitter. -/
theorem kick_settled : s.kick.Settled := by
  cases e : s.link.tx with
  | some f =>
    have : s.kick = s := by simp [State.kick, e]
    rw [this]; intro h; rw [e] at h; cases h
  | none =>
    cases hr : s.link.replies with
    | cons r rs => intro h; simp [State.kick, e, hr] at h
    | nil =>
      cases hq : s.link.restarting with
      | true =>
        have : s.kick = s := by simp [State.kick, e, hr, hq]
        rw [this]; exact fun _ => ⟨hr, .inl hq⟩
      | false =>
        cases hn : s.link.notices with
        | nil =>
          have : s.kick = s := by simp [State.kick, e, hr, hq, hn]
          rw [this]; exact fun _ => ⟨hr, .inr hn⟩
        | cons n ns => intro h; simp [State.kick, e, hr, hq, hn] at h

/-! ### Replies (R160, R161) -/

/-- The reply of the request just reserved takes its slot: the other requests stay outstanding. -/
theorem answer_reserved (tag kind : Byte) (r : Result) (p : List Byte)
    (h : s.link.outstanding.all (fun q => q.tag != tag) = true) :
    (s.reserveSlot tag kind).answer tag r p = s.pushReply ⟨kind + 0x80#8, tag, r, p⟩ := by
  have hf : s.link.outstanding.find? (fun q => q.tag == tag) = none := by
    rw [List.find?_eq_none]
    intro q hq
    have := List.all_eq_true.1 h q hq
    simpa using this
  have hl : s.link.outstanding.filter (fun q => q.tag != tag) = s.link.outstanding := List.filter_eq_self.2 (List.all_eq_true.1 h)
  simp only [State.answer, State.reserveSlot, withLink_link, List.find?_append, hf, List.find?_cons, beq_self_eq_true,
    Option.none_or, List.filter_append, hl, List.filter_cons, bne_self_eq_false, List.filter_nil, Bool.false_eq_true, if_false,
    List.append_nil]
  rfl

/-- A request frame that LINK takes in goes to its owner with its slot reserved (R159, R161). -/
theorem takeIn_takes {tag : Byte} (kind : Byte) (owner : State → State) (h : s.Takes tag) :
    s.takeIn tag kind owner = owner (s.frameOver.reserveSlot tag kind) := by
  obtain ⟨h1, h2, h3, h4⟩ := h
  have h5 : s.link.outstanding.any (fun q => q.tag == tag) = false := by
    rw [List.any_eq_false]
    intro q hq
    have := List.all_eq_true.1 h4 q hq
    simpa using this
  have h6 : s.frameOver.link.freeSlots ≠ 0 := h2
  have h7 : s.frameOver.link.outstanding = s.link.outstanding := rfl
  simp [State.takeIn, h1, h6, h3, h7, h5]

/-- The slots stay as they were, or one more is taken out of a free one, before an owner acts (R159, R160, R161). -/
theorem reserveSlot_slots (tag kind : Byte) (h : s.link.freeSlots ≠ 0) : (s.reserveSlot tag kind).SlotsBounded := by
  simp only [Link.freeSlots] at h
  simp only [State.SlotsBounded, State.reserveSlot, withLink_link, List.length_append, List.length_cons, List.length_nil]
  omega

end Sys2Proof.Machine
end

