-- ==== Sys2Proof/Laws/TreeSkeleton.lean ====
section
/-! SUPPORT. The tool's tree stays sound: the roster as a map from handles to path, kind and liveness, and each operation of RSTR on it (R65, R76, R120). -/

namespace Sys2Proof.Machine

/-! ### Skeletons -/
/-- The skeleton of a roster: at a handle, the path, the kind and whether the entry is live. -/
abbrev Sk := Nat → Option (Route × Byte × Bool)
/-- What the skeleton keeps of an entry. -/
def skel (e : Entry) : Route × Byte × Bool := (e.path, e.kind, e.live)
/-- The skeleton of a roster. -/
def Rstr.sk (r : Rstr) : Sk := fun h => (r.find h).map skel
/-- `Rstr.PathsSound`, of a skeleton. -/
def PathsF (F : Sk) : Prop := ∀ h p k l, F h = some (p, k, l) → p.length ≤ 4 ∧ ∀ i st, p[i]? = some st →
  ∃ k' l', F st.junction = some (p.take i, k', l') ∧ kindIsJunction k' = true ∧ 1 ≤ st.leg ∧ st.leg ≤ kindLegs k' ∧
      (l' = false → l = false)
/-- `Rstr.stepGood`, of a skeleton: the step may stand next on a route. -/
def StepF (F : Sk) (r : Route) (st : RouteStep) : Prop :=
    ∃ k, F st.junction = some (r, k, true) ∧ kindIsJunction k = true ∧ 1 ≤ st.leg ∧ st.leg ≤ kindLegs k
/-- `Rstr.RouteSound`, of a skeleton. -/
def RouteF (F : Sk) (r : Route) : Prop := r.length ≤ 4 ∧ ∀ i st, r[i]? = some st → StepF F (r.take i) st

theorem live_iff (e : Entry) : e.live = true ↔ e.state ≠ .departed := by unfold Entry.live; cases e.state <;> simp
theorem live_false (e : Entry) : e.live = false ↔ e.state = .departed := by unfold Entry.live; cases e.state <;> simp

theorem pathsF (r : Rstr) : r.PathsSound ↔ PathsF r.sk := by
  unfold Rstr.PathsSound PathsF Rstr.sk
  constructor
  · intro H h p k l e
    obtain ⟨x, hx, e⟩ := Option.map_eq_some_iff.1 e
    cases e
    refine ⟨(H h x hx).1, fun i st hi => ?_⟩
    obtain ⟨j, h1, h2, h3, h4, h5, h6⟩ := (H h x hx).2 i st hi
    exact ⟨j.kind, j.live, by rw [h1, ← h3]; rfl, h2, h4, h5, fun hl => (live_false _).2 (h6 ((live_false _).1 hl))⟩
  · intro H h e he
    have := H h e.path e.kind e.live (by rw [he]; rfl)
    refine ⟨this.1, fun i st hi => ?_⟩
    obtain ⟨k, l, h1, h2, h3, h4, h5⟩ := this.2 i st hi
    obtain ⟨j, hj, e1⟩ := Option.map_eq_some_iff.1 h1
    simp only [skel, Prod.mk.injEq] at e1
    obtain ⟨e1, rfl, rfl⟩ := e1
    exact ⟨j, hj, h2, e1, h3, h4, fun hd => (live_false _).1 (h5 ((live_false _).2 hd))⟩
theorem stepF (r : Rstr) (route st) : r.stepGood route st = true ↔ StepF r.sk route st := by
  unfold Rstr.stepGood StepF Rstr.sk
  cases h : r.find st.junction with
  | none => simp
  | some e =>
    simp only [Option.any_some, Bool.and_eq_true, decide_eq_true_eq, beq_iff_eq, Option.map_some, Option.some.injEq, skel,
        Prod.mk.injEq, Entry.isJunction]
    constructor
    · rintro ⟨⟨⟨a, b⟩, c⟩, d⟩; exact ⟨_, ⟨c, rfl, a⟩, b, d⟩
    · rintro ⟨k, ⟨c, rfl, a⟩, b, d⟩; exact ⟨⟨⟨a, b⟩, c⟩, d⟩
theorem routeF (r : Rstr) (route) : r.RouteSound route ↔ RouteF r.sk route := by
  unfold Rstr.RouteSound RouteF; simp only [stepF]

/-- the first steps of a good route is good -/
theorem RouteF.take {F : Sk} {r : Route} (h : RouteF F r) (n : Nat) : RouteF F (r.take n) := by
  refine ⟨Nat.le_trans (List.length_take_le' ..) h.1, fun i st hi => ?_⟩
  rw [List.getElem?_take] at hi
  split at hi
  · next l => rw [List.take_take, Nat.min_eq_left (Nat.le_of_lt l)]; exact h.2 i st hi
  · cases hi
theorem RouteF.snoc {F : Sk} {r : Route} {st} (h : RouteF F r) (l : r.length < 4) (k : StepF F r st) : RouteF F (r ++ [st]) := by
  refine ⟨by simp; omega, fun i s hi => ?_⟩
  rw [List.getElem?_append] at hi
  split at hi
  · next c => rw [List.take_append_of_le_length (by omega)]; exact h.2 i s hi
  · next c =>
    have : i = r.length := by
      have := (List.getElem?_eq_some_iff.1 hi).1; simp at this; omega
    subst this
    simp at hi; subst hi
    simpa using k
/-- a step of a good route is not at the end of a path that the route is the path of -/
theorem RouteF.avoids {F : Sk} {r : Route} (h : RouteF F r) {j : Nat} {k l} (hj : F j = some (r, k, l)) :
    ∀ st ∈ r, st.junction ≠ j := by
  rintro st hs rfl
  obtain ⟨i, hi⟩ := List.mem_iff_getElem?.1 hs
  obtain ⟨k', h1, -⟩ := h.2 i st hi
  have h3 := congrArg List.length (Prod.mk.inj (Option.some.inj (h1.symm.trans hj))).1
  have := (List.getElem?_eq_some_iff.1 hi).1
  simp at h3; omega
theorem PathsF.avoids {F : Sk} (H : PathsF F) {j : Nat} {r k l} (hj : F j = some (r, k, l)) : ∀ st ∈ r, st.junction ≠ j := by
  rintro st hs rfl
  obtain ⟨i, hi⟩ := List.mem_iff_getElem?.1 hs
  obtain ⟨k', l', h1, -⟩ := (H _ _ _ _ hj).2 i st hi
  have h3 := congrArg List.length (Prod.mk.inj (Option.some.inj (h1.symm.trans hj))).1
  have := (List.getElem?_eq_some_iff.1 hi).1
  simp at h3; omega

/-- a closed set of handles -/
def Closed (F : Sk) (D : Nat → Prop) : Prop := ∀ h p k l, F h = some (p, k, l) → ∀ st ∈ p, D st.junction → D h
open Classical in
/-- The skeleton with a set of handles made DEPARTED. -/
noncomputable def depF (F : Sk) (D : Nat → Prop) : Sk := fun h => if D h then (F h).map (fun x => (x.1, x.2.1, false)) else F h
open Classical in
/-- The skeleton with a set of handles removed. -/
noncomputable def remF (F : Sk) (D : Nat → Prop) : Sk := fun h => if D h then none else F h
open Classical in
/-- The skeleton with one handle put. -/
noncomputable def putF (F : Sk) (h0 : Nat) (v : Route × Byte × Bool) : Sk := fun h => if h = h0 then some v else F h

theorem depF_paths {F : Sk} {D} (H : PathsF F) (hD : Closed F D) : PathsF (depF F D) := by
  intro h p k l e
  unfold depF at e
  have : ∃ l0, F h = some (p, k, l0) ∧ (l0 = false → l = false) ∧ (D h → l = false) := by
    split at e
    · next d => 
      obtain ⟨⟨a, b, c⟩, h1, h2⟩ := Option.map_eq_some_iff.1 e
      simp only [Prod.mk.injEq] at h2
      obtain ⟨rfl, rfl, rfl⟩ := h2
      exact ⟨c, h1, fun _ => rfl, fun _ => rfl⟩
    · next d => exact ⟨l, e, id, fun c => absurd c d⟩
  obtain ⟨l0, h0, hl, hd⟩ := this
  refine ⟨(H h p k l0 h0).1, fun i st hi => ?_⟩
  obtain ⟨k', l', h1, h2, h3, h4, h5⟩ := (H h p k l0 h0).2 i st hi
  by_cases d : D st.junction
  · have := hD h p k l0 h0 st (List.mem_of_getElem? hi) d
    exact ⟨k', false, by simp [depF, d, h1], h2, h3, h4, fun _ => hd this⟩
  · refine ⟨k', l', by simp [depF, d, h1], h2, h3, h4, fun c => hl (h5 c)⟩
theorem StepF.dep {F : Sk} {D r st} (h : StepF F r st) (d : ¬ D st.junction) : StepF (depF F D) r st := by
  obtain ⟨k, h1, h2⟩ := h; exact ⟨k, by simp [depF, d, h1], h2⟩
theorem StepF.rem {F : Sk} {D r st} (h : StepF F r st) (d : ¬ D st.junction) : StepF (remF F D) r st := by
  obtain ⟨k, h1, h2⟩ := h; exact ⟨k, by simp [remF, d, h1], h2⟩
theorem StepF.put {F : Sk} {r st h0 v} (h : StepF F r st) (d : st.junction ≠ h0) : StepF (putF F h0 v) r st := by
  obtain ⟨k, h1, h2⟩ := h; exact ⟨k, by simp [putF, d, h1], h2⟩
theorem RouteF.map {F G : Sk} {r} (h : RouteF F r) (hs :
    ∀ i st, r[i]? = some st → StepF F (r.take i) st → StepF G (r.take i) st) : RouteF G r :=
  ⟨h.1, fun i st hi => hs i st hi (h.2 i st hi)⟩
theorem remF_paths {F : Sk} {D} (H : PathsF F) (hD : Closed F D) : PathsF (remF F D) := by
  intro h p k l e
  unfold remF at e
  split at e
  · cases e
  · next d =>
    refine ⟨(H h p k l e).1, fun i st hi => ?_⟩
    obtain ⟨k', l', h1, h2⟩ := (H h p k l e).2 i st hi
    have : ¬ D st.junction := fun c => d (hD h p k l e st (List.mem_of_getElem? hi) c)
    exact ⟨k', l', by simp [remF, this, h1], h2⟩
/-- a named member put at a handle with the open route as its path -/
theorem putF_paths {F : Sk} {h0 r k0} (H : PathsF F) (hr : RouteF F r) (ha : ∀ st ∈ r, st.junction ≠ h0)
    (hb : ∀ h p k l, h ≠ h0 → F h = some (p, k, l) → ∀ st ∈ p, st.junction = h0 → ∃ l0, F h0 = some (r, k0, l0)) :
    PathsF (putF F h0 (r, k0, true)) := by
  intro h p k l e
  unfold putF at e
  split at e
  · cases e
    refine ⟨hr.1, fun i st hi => ?_⟩
    obtain ⟨k', h1, h2, h3, h4⟩ := hr.2 i st hi
    exact ⟨k', true, by simp [putF, ha st (List.mem_of_getElem? hi), h1], h2, h3, h4, fun c => by cases c⟩
  · next hn =>
    refine ⟨(H h p k l e).1, fun i st hi => ?_⟩
    obtain ⟨k', l', h1, h2, h3, h4, h5⟩ := (H h p k l e).2 i st hi
    by_cases d : st.junction = h0
    · obtain ⟨l0, h6⟩ := hb h p k l hn e st (List.mem_of_getElem? hi) d
      rw [d, h6] at h1
      simp only [Option.some.injEq, Prod.mk.injEq] at h1
      exact ⟨k', true, by simp [putF, d, h1], h2, h3, h4, fun c => by cases c⟩
    · exact ⟨k', l', by simp [putF, d, h1], h2, h3, h4, h5⟩
/-- a departed handle takes with it what is behind it -/
theorem PathsF.behind_dead {F : Sk} (H : PathsF F) {h p k l} (e : F h = some (p, k, l)) {st} (hs : st ∈ p) {p' k'} (d :
    F st.junction = some (p', k', false)) : l = false := by
  obtain ⟨i, hi⟩ := List.mem_iff_getElem?.1 hs
  obtain ⟨k2, l2, h1, -, -, -, h5⟩ := (H _ _ _ _ e).2 i st hi
  rw [h1] at d
  simp only [Option.some.injEq, Prod.mk.injEq] at d
  exact h5 d.2.2
/-- the set of a handle and what is behind it is closed -/
def Below (F : Sk) (j : Nat) (h : Nat) : Prop := ∃ p k l, F h = some (p, k, l) ∧ ∃ st ∈ p, st.junction = j
theorem below_closed {F : Sk} (H : PathsF F) (j) :
    ∀ h p k l, F h = some (p, k, l) → ∀ st ∈ p, Below F j st.junction → Below F j h := by
  rintro h p k l e st hs ⟨p', k', l', e', s', hs', d⟩
  obtain ⟨i, hi⟩ := List.mem_iff_getElem?.1 hs
  obtain ⟨k2, l2, h1, -⟩ := (H _ _ _ _ e).2 i st hi
  rw [h1] at e'
  simp only [Option.some.injEq, Prod.mk.injEq] at e'
  exact ⟨p, k, l, e, s', List.mem_of_mem_take (e'.1 ▸ hs'), d⟩
theorem tree_closed {F : Sk} (H : PathsF F) (j) : Closed F (fun h => h = j ∨ Below F j h) := by
  rintro h p k l e st hs (d | d)
  · exact .inr ⟨p, k, l, e, st, hs, d⟩
  · exact .inr (below_closed H j h p k l e st hs d)
/-- The handle stands behind the leg of the junction. -/
def BelowLeg (F : Sk) (j g : Nat) (h : Nat) : Prop := ∃ p k l, F h = some (p, k, l) ∧ ∃ st ∈ p, st.junction = j ∧ st.leg = g
theorem leg_closed {F : Sk} (H : PathsF F) (j g) : Closed F (BelowLeg F j g) := by
  rintro h p k l e st hs ⟨p', k', l', e', s', hs', d⟩
  obtain ⟨i, hi⟩ := List.mem_iff_getElem?.1 hs
  obtain ⟨k2, l2, h1, -⟩ := (H _ _ _ _ e).2 i st hi
  rw [h1] at e'
  simp only [Option.some.injEq, Prod.mk.injEq] at e'
  exact ⟨p, k, l, e, s', List.mem_of_mem_take (e'.1 ▸ hs'), d⟩
/-- no step of a good route that avoids j is below j -/
theorem RouteF.notBelow {F : Sk} {r : Route} {j : Nat} (h : RouteF F r) (ha : ∀ st ∈ r, st.junction ≠ j) :
    ∀ (i : Nat) (st : RouteStep), r[i]? = some st → ¬ (st.junction = j ∨ Below F j st.junction) := by
  rintro i st hi (d | ⟨p, k, l, e, s', hs', d⟩)
  · exact ha st (List.mem_of_getElem? hi) d
  · obtain ⟨k', h1, -⟩ := h.2 i st hi
    rw [h1] at e
    simp only [Option.some.injEq, Prod.mk.injEq] at e
    exact ha s' (List.mem_of_mem_take (e.1 ▸ hs')) d
theorem RouteF.notBelowLeg {F : Sk} {r : Route} {j g : Nat} (h : RouteF F r) (ha : ∀ st ∈ r, st.junction ≠ j) :
    ∀ (i : Nat) (st : RouteStep), r[i]? = some st → ¬ BelowLeg F j g st.junction := by
  rintro i st hi ⟨p, k, l, e, s', hs', d, -⟩
  exact h.notBelow ha i st hi (.inr ⟨p, k, l, e, s', hs', d⟩)
/-- a step of a good route is live -/
theorem RouteF.live {F : Sk} {r : Route} (h : RouteF F r) {st} (hs : st ∈ r) : ∃ p k, F st.junction = some (p, k, true) := by
  obtain ⟨i, hi⟩ := List.mem_iff_getElem?.1 hs
  obtain ⟨k', h1, -⟩ := h.2 i st hi
  exact ⟨_, _, h1⟩

variable {r : Rstr}

theorem find_map_entries (l : List Entry) (f : Entry → Entry) (hf : ∀ e, (f e).handle = e.handle) (h : Nat) :
    (l.map f).find? (fun e => e.handle == h) = (l.find? (fun e => e.handle == h)).map f := by
  induction l with
  | nil => rfl
  | cons a as ih =>
    simp only [List.map_cons, List.find?_cons, hf]
    split <;> simp_all
theorem sk_map (f : Entry → Entry) (hf : ∀ e, (f e).handle = e.handle) (g : Nat) (v : Nat) (b : Bool) (h : Nat) :
    Rstr.sk ⟨r.entries.map f, g, v, b⟩ h = (r.find h).map (fun e => skel (f e)) := by
  unfold Rstr.sk Rstr.find
  rw [find_map_entries _ _ hf]; simp [Function.comp_def]
theorem sk_same (f : Entry → Entry) (hf : ∀ e, (f e).handle = e.handle) (hs : ∀ e, skel (f e) = skel e) (g v b) :
    Rstr.sk ⟨r.entries.map f, g, v, b⟩ = r.sk := by
  funext h; rw [sk_map f hf]; unfold Rstr.sk; simp only [hs]
theorem sk_update (h : Nat) (f : Entry → Entry) (hf : ∀ e, (f e).handle = e.handle) (hs : ∀ e, skel (f e) = skel e) :
    (r.update h f).sk = r.sk :=
  sk_same _ (by intro e; split <;> simp [hf]) (by intro e; split <;> simp [hs]) ..
theorem sk_gen (g v b) : Rstr.sk ⟨r.entries, g, v, b⟩ = r.sk := rfl
theorem sk_markTwins (s h) : (r.markTwins s h).sk = r.sk :=
  sk_same _ (by intro e; split <;> rfl) (by intro e; split <;> rfl) ..
theorem sk_legGood (j g) : (r.legGood j g).sk = r.sk := sk_update _ _ (by intro _; rfl) (by intro _; rfl)
theorem skel_state (e : Entry) (st : EntryState) (h : e.state ≠ .departed) (k : st ≠ .departed) :
    skel { e with state := st } = skel e := by
  simp only [skel, Prod.mk.injEq, true_and]
  rw [(live_iff e).2 h, (live_iff _).2 k]
theorem sk_update_at (h : Nat) (f : Entry → Entry) (hf : ∀ e, (f e).handle = e.handle) (hs :
    ∀ e, r.find h = some e → skel (f e) = skel e) : (r.update h f).sk = r.sk := by
  funext x
  unfold Rstr.update
  rw [sk_map _ (by intro e; split <;> simp [hf])]
  unfold Rstr.sk
  cases e : r.find x with
  | none => rfl
  | some y =>
    simp only [Option.map_some, Option.some.injEq]
    split
    · next c => have := (Rstr.find_mem e).2; rw [c] at this; rw [hs]; rw [← e]; simp [this]
    · rfl
theorem find_update (h : Nat) (f : Entry → Entry) (hf : ∀ e, (f e).handle = e.handle) :
    (r.update h f).find h = (r.find h).map f := by
  unfold Rstr.update Rstr.find
  rw [find_map_entries _ _ (by intro e; split <;> simp [hf])]
  cases e : r.entries.find? (fun e => e.handle == h) with
  | none => rfl
  | some y => have : y.handle = h := by simpa using List.find?_some e
              simp [this]
theorem sk_rollAnswered (h b) : (r.rollAnswered h b).1.sk = r.sk := by
  unfold Rstr.rollAnswered
  split
  · rfl
  · next e he =>
    dsimp only
    have h1 : (r.update h (fun e => { e with misses := 0, oddAnswer := e.oddAnswer || e.kind != b })).sk = r.sk :=
      sk_update _ _ (by intro _; rfl) (by intro _; rfl)
    split
    · next hs =>
      refine (sk_update_at (r := r.update h _) h _ (by intro _; rfl) ?_).trans h1
      · intro x hx
        rw [find_update, he] at hx
        rotate_left
        · intro _; rfl
        cases hx
        refine skel_state _ _ (by simp [hs]) ?_
        split <;> simp
    · exact h1
theorem sk_rollUnanswered (h l) : (r.rollUnanswered h l).1.sk = r.sk := by
  unfold Rstr.rollUnanswered
  split
  · rfl
  · next e he =>
    dsimp only
    have h1 : ∀ m, (r.update h (fun e => { e with misses := m })).sk = r.sk := fun m =>
      sk_update _ _ (by intro _; rfl) (by intro _; rfl)
    split
    · next hs =>
      refine (sk_update_at (r := r.update h _) h _ (by intro _; rfl) ?_).trans (h1 _)
      · intro x hx
        rw [find_update, he] at hx
        rotate_left
        · intro _; rfl
        cases hx
        refine skel_state _ _ ?_ (by simp)
        rcases hs.2 with c | c <;> simp [c]
    · exact h1 _
/-! ### Departures -/
theorem sk_departWhere (p : Entry → Bool) : (r.departWhere p).1.sk = depF r.sk (fun h => ∃ e, r.find h = some e ∧ p e = true) :=
    by
  funext h
  unfold Rstr.departWhere
  dsimp only
  rw [sk_map _ (by intro e; split <;> rfl)]
  unfold depF Rstr.sk
  cases e : r.find h with
  | none => simp
  | some y =>
    have hd : (∃ e, r.find h = some e ∧ p e = true) ↔ p y = true := by simp [e]
    simp only [hd, Option.map_some]
    by_cases c : p y = true
    · by_cases l : y.live = true
      · rw [if_pos (by simp [c, l]), if_pos c]; rfl
      · rw [if_neg (by simp [l]), if_pos c]; simp [skel, l]
    · rw [if_neg (by simp [c]), if_neg c]
theorem behind_below (j h : Nat) : (∃ e, r.find h = some e ∧ e.behind j = true) ↔ Below r.sk j h := by
  unfold Below Rstr.sk Entry.behind
  constructor
  · rintro ⟨e, h1, h2⟩
    simp only [List.any_eq_true, beq_iff_eq] at h2
    exact ⟨e.path, e.kind, e.live, by rw [h1]; rfl, h2⟩
  · rintro ⟨p, k, l, h1, st, h2, h3⟩
    obtain ⟨e, h4, h5⟩ := Option.map_eq_some_iff.1 h1
    simp only [skel, Prod.mk.injEq] at h5
    refine ⟨e, h4, ?_⟩
    simp only [List.any_eq_true, beq_iff_eq]
    exact ⟨st, h5.1 ▸ h2, h3⟩
theorem behindLeg_below (j g h : Nat) : (∃ e, r.find h = some e ∧ e.behindLeg j g = true) ↔ BelowLeg r.sk j g h := by
  unfold BelowLeg Rstr.sk Entry.behindLeg
  constructor
  · rintro ⟨e, h1, h2⟩
    simp only [List.any_eq_true, beq_iff_eq, Bool.and_eq_true] at h2
    exact ⟨e.path, e.kind, e.live, by rw [h1]; rfl, h2⟩
  · rintro ⟨p, k, l, h1, st, h2, h3⟩
    obtain ⟨e, h4, h5⟩ := Option.map_eq_some_iff.1 h1
    simp only [skel, Prod.mk.injEq] at h5
    refine ⟨e, h4, ?_⟩
    simp only [List.any_eq_true, beq_iff_eq, Bool.and_eq_true]
    exact ⟨st, h5.1 ▸ h2, h3⟩
open Classical in
theorem depF_congr {F : Sk} {D E : Nat → Prop} (h : ∀ x, F x ≠ none → (D x ↔ E x)) : depF F D = depF F E := by
  funext x; unfold depF
  cases e : F x with
  | none => simp
  | some y => have := h x (by simp [e]); by_cases d : D x <;> simp_all
open Classical in
theorem remF_congr {F : Sk} {D E : Nat → Prop} (h : ∀ x, F x ≠ none → (D x ↔ E x)) : remF F D = remF F E := by
  funext x; unfold remF
  cases e : F x with
  | none => simp
  | some y => have := h x (by simp [e]); by_cases d : D x <;> simp_all
theorem find_of_sk {x} (h : r.sk x ≠ none) : ∃ e, r.find x = some e := by
  unfold Rstr.sk at h
  cases e : r.find x with
  | none => simp [e] at h
  | some y => exact ⟨y, rfl⟩
theorem sk_cascade (j) : (r.cascade j).1.sk = depF r.sk (fun h => h = j ∨ Below r.sk j h) := by
  unfold Rstr.cascade
  rw [sk_departWhere]
  refine depF_congr (fun x hx => ?_)
  obtain ⟨e, he⟩ := find_of_sk hx
  rw [← behind_below]
  have := (Rstr.find_mem he).2
  simp only [he, Option.some.injEq, exists_eq_left', Bool.or_eq_true, beq_iff_eq, this]
theorem find_update_ne (h x : Nat) (f : Entry → Entry) (hf : ∀ e, (f e).handle = e.handle) (hp : ∀ e, (f e).path = e.path) (q :
    Route → Prop) :
    (∃ e, (r.update h f).find x = some e ∧ q e.path) ↔ ∃ e, r.find x = some e ∧ q e.path := by
  have : (r.update h f).find x = (r.find x).map (fun e => if e.handle = h then f e else e) := by
    unfold Rstr.update Rstr.find
    rw [find_map_entries _ _ (by intro e; split <;> simp [hf])]
  rw [this]
  cases r.find x with
  | none => simp
  | some y => simp; split <;> simp [hp]
theorem sk_legCascade (j g) : (r.legCascade j g).1.sk = depF r.sk (BelowLeg r.sk j g) := by
  unfold Rstr.legCascade
  rw [sk_departWhere, sk_update]
  rotate_left
  · intro _; rfl
  · intro _; rfl
  refine depF_congr (fun x hx => ?_)
  rw [← behindLeg_below]
  exact find_update_ne j x _ (by intro _; rfl) (by intro _; rfl)
      (fun p => p.any (fun st => st.junction == j && st.leg == g) = true)
theorem sk_departAll : (r.departWhere (fun _ => true)).1.sk = depF r.sk (fun _ => True) := by
  rw [sk_departWhere]
  refine depF_congr (fun x hx => ?_)
  obtain ⟨e, he⟩ := find_of_sk hx
  simp [he]

/-! ### Removals -/
theorem find_filter (l : List Entry) (hv : (l.map (fun e => e.handle)).Pairwise (· < ·)) (p : Entry → Bool) (h : Nat) :
    (l.filter p).find? (fun e => e.handle == h) = (l.find? (fun e => e.handle == h)).filter p := by
  induction l with
  | nil => rfl
  | cons a as ih =>
    simp only [List.map_cons, List.pairwise_cons] at hv
    have ih := ih hv.2
    rw [List.filter_cons, List.find?_cons]
    by_cases e : a.handle = h
    · have e' : (a.handle == h) = true := by simpa using e
      simp only [e']
      split
      · next c => rw [List.find?_cons]; simp [e', Option.filter, c]
      · next c =>
        rw [ih]
        have : as.find? (fun e => e.handle == h) = none := by
          rw [List.find?_eq_none]; intro x hx
          have := hv.1 x.handle (List.mem_map_of_mem hx)
          simp; omega
        simp [this, Option.filter, c]
    · have e' : (a.handle == h) = false := by simpa using e
      simp only [e']
      split
      · rw [List.find?_cons]; simp only [e']; exact ih
      · exact ih
theorem sk_removeWhere (hv : r.valid) (p : Entry → Bool) :
    (r.removeWhere p).sk = remF r.sk (fun h => ∃ e, r.find h = some e ∧ p e = true) := by
  funext h
  show ((r.entries.filter (fun e => !p e)).find? (fun e => e.handle == h)).map skel = _
  rw [find_filter _ hv.1]
  unfold remF Rstr.sk
  change ((r.find h).filter _).map skel = _
  cases e : r.find h with
  | none => simp
  | some y =>
    by_cases c : p y = true
    · rw [if_pos ⟨y, e, c⟩]; simp [Option.filter, c]
    · rw [if_neg (by rintro ⟨e', a, b⟩; rw [e] at a; cases a; exact c b)]; simp [Option.filter, c]
theorem sk_removeBehind (hv : r.valid) (j) : (r.removeWhere (fun e => e.behind j)).sk = remF r.sk (Below r.sk j) := by
  rw [sk_removeWhere hv]; exact remF_congr (fun x _ => behind_below j x)
theorem sk_removeTree (hv : r.valid) (H : PathsF r.sk) (j) : (r.removeTree j).sk = remF r.sk (fun h => h = j ∨ Below r.sk j h) :=
    by
  unfold Rstr.removeTree
  dsimp only
  rw [sk_removeWhere hv]
  refine remF_congr (fun x hx => ?_)
  obtain ⟨e, he⟩ := find_of_sk hx
  rw [← behind_below]
  have hh := (Rstr.find_mem he).2
  simp only [he, Option.some.injEq, exists_eq_left', Bool.or_eq_true, beq_iff_eq, Bool.and_eq_true, hh]
  constructor
  · rintro (a | a)
    · exact .inl a
    · exact .inr a.2
  · rintro (a | a)
    · exact .inl a
    · refine .inr ⟨?_, a⟩
      obtain ⟨p, k, l, h1, st, h2, h3⟩ := (behind_below j x).1 ⟨e, he, a⟩
      obtain ⟨i, hi⟩ := List.mem_iff_getElem?.1 h2
      obtain ⟨k', l', h4, h5, -⟩ := (H _ _ _ _ h1).2 i st hi
      rw [h3] at h4
      obtain ⟨z, hz, e1⟩ := Option.map_eq_some_iff.1 h4
      simp only [skel, Prod.mk.injEq] at e1
      rw [hz]; simp [Entry.isJunction, e1.2.1, h5]

/-! ### A naming -/
theorem find_insert (e : Entry) (h : Nat) : ∀ l : List Entry, (∀ x ∈ l, x.handle ≠ e.handle) →
    (insertEntry e l).find? (fun x => x.handle == h) = if h = e.handle then some e else l.find? (fun x => x.handle == h)
  | [], _ => by
    unfold insertEntry; rw [List.find?_cons]
    by_cases c : h = e.handle
    · simp [c]
    · have : (e.handle == h) = false := by simpa using fun a => c a.symm
      simp [this, c]
  | y :: ys, hn => by
    have ih := find_insert e h ys (fun x hx => hn x (by simp [hx]))
    have hy := hn y (by simp)
    unfold insertEntry
    split
    · rw [List.find?_cons]
      by_cases c : h = e.handle
      · simp [c]
      · have : (e.handle == h) = false := by simpa using fun a => c a.symm
        simp [this, c]
    · rw [List.find?_cons, ih]
      by_cases c : h = e.handle
      · have : (y.handle == e.handle) = false := by simpa using hy
        subst c; simp [this]
      · simp only [c, if_false]; rw [List.find?_cons]
theorem sk_create (hv : r.valid) (s : Stamp) (c : Choice) (kind path nonce) :
    (r.create s c kind path nonce).sk = putF r.sk c.handle (path, kind, true) := by
  funext h
  unfold Rstr.create
  dsimp only
  show (List.find? _ (insertEntry _ _)).map skel = _
  rw [find_insert _ _ _ (by intro x hx; simpa using (List.mem_filter.1 hx).2)]
  unfold putF
  by_cases e : h = c.handle
  · simp [e, skel, Entry.live]
  · simp only [e, if_false]
    rw [find_filter _ (Rstr.markTwins_valid s c.handle hv).1, ← sk_markTwins s c.handle]
    unfold Rstr.sk
    change ((Rstr.find _ h).filter _).map skel = _
    cases e2 : (r.markTwins s c.handle).find h with
    | none => rfl
    | some y =>
      have := (Rstr.find_mem e2).2
      have : (y.handle != c.handle) = true := by simpa [this] using e
      simp [Option.filter, this]
theorem sk_putAt (h0 : Nat) (f : Entry → Entry) (hf : ∀ e, (f e).handle = e.handle) {v} (hs : ∀ e, skel (f e) = v) (he :
    r.find h0 ≠ none) :
    (r.update h0 f).sk = putF r.sk h0 v := by
  funext h
  unfold Rstr.update
  rw [sk_map _ (by intro e; split <;> simp [hf])]
  unfold putF Rstr.sk
  by_cases c : h = h0
  · subst c
    obtain ⟨y, hy⟩ := Option.ne_none_iff_exists'.1 he
    have := (Rstr.find_mem hy).2
    simp [hy, this, hs]
  · cases e : r.find h with
    | none => simp [c]
    | some y => have := (Rstr.find_mem e).2
                have : y.handle ≠ h0 := by rw [this]; exact c
                simp [c, this]
open Classical in
theorem sk_restore (hv : r.valid) (old : Entry) (c : Choice) (kind path nonce) (ho : r.find old.handle = some old)
    (ha : ∀ st ∈ path, st.junction ≠ old.handle) :
    (r.restore old c kind path nonce).sk =
      putF (if old.path ≠ path ∨ old.kind ≠ kind then remF r.sk (Below r.sk old.handle) else r.sk) old.handle (path, kind,
          true) := by
  unfold Rstr.restore
  dsimp only
  have h2 : (r.markTwins old.stamp old.handle).find old.handle ≠ none := by
    intro c
    have : (r.markTwins old.stamp old.handle).sk old.handle = none := by unfold Rstr.sk; rw [c]; rfl
    rw [sk_markTwins] at this; unfold Rstr.sk at this; rw [ho] at this; cases this
  generalize hr : (r.markTwins old.stamp old.handle).update old.handle _ = r1
  have hs : r1.sk = putF r.sk old.handle (path, kind, true) := by
    subst hr
    rw [sk_putAt (v := (path, kind, true)) (he := h2), sk_markTwins]
    · intro _; rfl
    · intro _; rfl
  have hv1 : r1.valid := by
    subst hr; exact Rstr.update_valid _ _ (fun _ => rfl) (Rstr.markTwins_valid _ _ hv)
  split
  · next hd =>
    refine (sk_removeBehind (r :=
        { r1 with generation :=
            advance r.generation }) ⟨hv1.1, hv1.2.1, hv1.2.2.1, hv1.2.2.2.1, advance_le _ hv.2.2.2.2⟩ old.handle).trans ?_
    change remF r1.sk (Below r1.sk old.handle) = _
    rw [hs]
    funext h
    unfold remF
    by_cases e : h = old.handle
    · have : ¬ Below (putF r.sk old.handle (path, kind, true)) old.handle h := by
        rintro ⟨p, k, l, h1, st, h3, h4⟩
        simp [putF, e] at h1
        exact ha st (h1.1 ▸ h3) h4
      rw [if_neg this]; simp [putF, e]
    · have : Below (putF r.sk old.handle (path, kind, true)) old.handle h ↔ Below r.sk old.handle h := by
        unfold Below; simp [putF, e]
      simp only [this, putF, e, if_false]
  · exact hs

end Sys2Proof.Machine
end

