-- ==== Sys2Proof/Laws/TreeState.lean ====
section
/-! SUPPORT. The tool's tree stays sound: the parts of TreeSound, the operations that leave it alone, and the decisions of DISC that move its stacks (R104, R126, R127). -/

namespace Sys2Proof.Machine

variable {x y z : State}

/-- No live entry stands at the handle. -/
def Dead (F : Sk) (h : Nat) : Prop := ∀ p k l, F h = some (p, k, l) → l = false
/-- The part of `TreeSound` that a grant and the next step of DISC have no share in. -/
structure Base0 (x : State) : Prop where
  sound : x.RosterSound
  depth : x.link.settings.maxDepth ≤ 4
  paths : PathsF x.rstr.sk
  route : RouteF x.rstr.sk x.line.route
  stackFit : x.disc.StacksSound
  choice : ∀ l c, x.disc.leaf = some l → l.choice = some c → Dead x.rstr.sk c.handle ∧
      (c.restores = true ∨ x.rstr.sk c.handle = none)
  busy : x.line.op ≠ none → x.line.state = .busy
  starting : x.line.startUp ≠ none → x.disc.lineOpenSeen = false
  opened : x.disc.lineOpenSeen = true → x.line.state ≠ .off
/-- The next step of DISC, if it descends, has room below it. -/
def NextRoom (d : Disc) : Prop := ∀ st, d.next = some st → st.descends → d.LegRoom
/-- `TreeSound` but for the grant. -/
def Base (x : State) : Prop := Base0 x ∧ NextRoom x.disc
/-- `TreeSound` with the soundness of roster and settings that keeps it. -/
def Tree (x : State) : Prop := Base x ∧ ∀ g, x.jobq.grant = some g → x.GrantSound g

/-- The fields of LINE that `TreeSound` reads are the same. -/
structure SameLine (x y : State) : Prop where
  route : y.line.route = x.line.route
  op : y.line.op = x.line.op
  state : y.line.state = x.line.state
  startUp : y.line.startUp = x.line.startUp
/-- the same for the tree, DISC's state and next step apart -/
structure Same (x y : State) : Prop where
  kept : Kept x y
  sk : y.rstr.sk = x.rstr.sk
  line : SameLine x y
  levels : y.disc.levels = x.disc.levels
  seen : y.disc.lineOpenSeen = x.disc.lineOpenSeen
  choice : ∀ l c, y.disc.leaf = some l → l.choice = some c → ∃ l', x.disc.leaf = some l' ∧ l'.choice = some c
theorem SameLine.of (h : y.line = x.line) : SameLine x y := by constructor <;> rw [h]
theorem Same.rfl' : Same x x := ⟨.refl x, rfl, .of rfl, rfl, rfl, fun l c h k => ⟨l, h, k⟩⟩
theorem Same.trans (h : Same x y) (k : Same y z) : Same x z :=
  ⟨h.kept.trans k.kept, k.sk.trans h.sk,
      ⟨k.line.route.trans h.line.route, k.line.op.trans h.line.op, k.line.state.trans h.line.state,
          k.line.startUp.trans h.line.startUp⟩,
   k.levels.trans h.levels, k.seen.trans h.seen,
       fun l c a b => by obtain ⟨l', a', b'⟩ := k.choice l c a b; exact h.choice l' c a' b'⟩
theorem stacks_of {d e : Disc} (hf : e.frames.length ≤ max d.frames.length Config.frameRoom) (hl : e.levels = d.levels) (h :
    d.StacksSound) : e.StacksSound := by
  unfold Disc.StacksSound at *; rw [hl]; exact ⟨by have := h.1; omega, h.2⟩
theorem Base0.same (h : Base0 x) (k : Same x y) : Base0 y where
  sound := k.kept.roster h.sound
  depth := by rw [k.kept.settings]; exact h.depth
  paths := by rw [k.sk]; exact h.paths
  route := by rw [k.sk, k.line.route]; exact h.route
  stackFit := stacks_of k.kept.frames k.levels h.stackFit
  choice := fun l c a b => by obtain ⟨l', a', b'⟩ := k.choice l c a b; rw [k.sk]; exact h.choice l' c a' b'
  busy := by rw [k.line.op, k.line.state]; exact h.busy
  starting := by rw [k.line.startUp, k.seen]; exact h.starting
  opened := by rw [k.seen, k.line.state]; exact h.opened
theorem LegRoom_same {d e : Disc} (h : e.levels = d.levels) : e.LegRoom ↔ d.LegRoom := by unfold Disc.LegRoom; rw [h]
theorem Base.same (h : Base x) (k : Same x y) (hn : y.disc.next = x.disc.next) : Base y :=
  ⟨h.1.same k, fun st a b => (LegRoom_same k.levels).2 (h.2 st (hn ▸ a) b)⟩
theorem cursor_same {d e : Disc} (h : e.levels = d.levels) : e.cursorStep = d.cursorStep := by unfold Disc.cursorStep; rw [h]
theorem levelRoute_same {d e : Disc} (h : e.levels = d.levels) : e.levelRoute = d.levelRoute := by unfold Disc.levelRoute; rw [h]
theorem SwitchSound_same {w sw} (hl : y.disc.levels = x.disc.levels) (h : x.SwitchSound w sw) : y.SwitchSound w sw := by
  unfold State.SwitchSound at *; rw [LegRoom_same hl, cursor_same hl, levelRoute_same hl]; exact h
theorem OpSound_same {g op} (k : Same x y) (h : x.OpSound g op) : y.OpSound g op := by
  unfold State.OpSound at *; simp only [stepF] at *; rw [k.sk, k.line.route, LegRoom_same k.levels,
      levelRoute_same k.levels]; exact h
theorem live_kept (k : Kept x y) : y.live = x.live := by unfold State.live; rw [k.mmon]
theorem State.GrantSound.same {g} (h : x.GrantSound g) (k : Same x y)
    (hd : ∀ d, g.work = .disc d → y.disc.next = x.disc.next ∧
        (y.disc.state = x.disc.state ∨ y.disc.state ≠ .idle ∧ y.disc.state ≠ .armed)) : y.GrantSound g where
  supplied := by rw [k.kept.ssw, live_kept k.kept]; exact h.supplied
  lit := by rw [k.line.state]; exact h.lit
  owed := by rw [k.line.startUp]; exact h.owed
  tainted := by rw [k.line.op]; exact h.tainted
  disc := fun d e => by
    have h1 := h.disc d e
    have h2 := hd d e
    rw [LegRoom_same k.levels, h2.1]
    rcases h2.2 with c | c
    · rw [c]; exact h1
    · exact ⟨c.1, c.2, h1.2.2⟩
  switch := fun sw e => by rw [k.line.op]; exact ⟨SwitchSound_same k.levels (h.switch sw e).1, (h.switch sw e).2⟩
  op := fun op e => by rw [k.line.op] at e; exact OpSound_same k (h.op op e)
theorem Tree.same (h : Tree x) (k : Same x y) (hn : y.disc.next = x.disc.next) (hg : y.jobq.grant = x.jobq.grant)
    (hs : y.disc.state = x.disc.state ∨ y.disc.state ≠ .idle ∧ y.disc.state ≠ .armed) : Tree y :=
  ⟨h.1.same k hn, fun g e => (h.2 g (hg ▸ e)).same k (fun _ _ => ⟨hn, hs⟩)⟩
theorem Tree.none (h : Base x) (hg : x.jobq.grant = none) : Tree x := ⟨h, fun g e => by rw [hg] at e; cases e⟩

/-- the same, all of it -/
structure Same' (x y : State) : Prop extends Same x y where
  next : y.disc.next = x.disc.next
  dstate : y.disc.state = x.disc.state
  grant : y.jobq.grant = x.jobq.grant
theorem Same'.rfl' : Same' x x := ⟨.rfl', rfl, rfl, rfl⟩
theorem Same'.trans (h : Same' x y) (k : Same' y z) : Same' x z :=
    ⟨h.toSame.trans k.toSame, k.next.trans h.next, k.dstate.trans h.dstate, k.grant.trans h.grant⟩
theorem Tree.same' (h : Tree x) (k : Same' x y) : Tree y := h.same k.toSame k.next k.grant (.inl k.dstate)
theorem Base.same' (h : Base x) (k : Same' x y) : Base y := h.same k.toSame k.next

/-! ### Quiet operations -/
theorem same_answer (t r p) : Same' x (x.answer t r p) := by
  have h : Kept x (x.answer t r p) := kept_answer _ _ _ (.refl _)
  rw [answer_link] at h ⊢
  exact ⟨⟨h, rfl, .of rfl, rfl, rfl, fun l c a b => ⟨l, a, b⟩⟩, rfl, rfl, rfl⟩
theorem same_raise (n) : Same' x (x.raise n) := ⟨⟨by simp, rfl, .of rfl, rfl, rfl, fun l c a b => ⟨l, a, b⟩⟩, rfl, rfl, rfl⟩
theorem same_record (f) : Same' x (x.record f) := ⟨⟨by simp, rfl, .of rfl, rfl, rfl, fun l c a b => ⟨l, a, b⟩⟩, rfl, rfl, rfl⟩
theorem same_rate (r) : Same' x (x.withRate r) := ⟨⟨by simp, rfl, .of rfl, rfl, rfl, fun l c a b => ⟨l, a, b⟩⟩, rfl, rfl, rfl⟩
theorem same_capture (c) : Same' x (x.setCapture c) :=
    ⟨⟨by simp, rfl, ⟨rfl, rfl, rfl, rfl⟩, rfl, rfl, fun l c a b => ⟨l, a, b⟩⟩, rfl, rfl, rfl⟩
theorem same_rstr (r : Rstr) (h : r.sk = x.rstr.sk) (hv : x.rstr.valid → r.valid) : Same' x (x.withRstr r) :=
  ⟨⟨kept_withRstr _ (.refl _) hv, h, .of rfl, rfl, rfl, fun l c a b => ⟨l, a, b⟩⟩, rfl, rfl, rfl⟩
theorem same_addError (h) : Same' x (x.addError h) :=
  same_rstr _ (sk_update _ _ (by intro _; rfl) (by intro _; rfl)) (Rstr.update_valid _ _ (by intro _; rfl))
theorem same_release (h) : Same' x (x.release h) := by
  unfold State.release; split
  · exact same_rstr _ rfl Rstr.release_valid
  · exact .rfl'
theorem same_releaseAll : Same' x x.releaseAll := same_rstr _ rfl Rstr.release_valid
theorem same_notEntered (hs) : Same' x (x.notEntered hs) := by
  refine (same_rstr _ ?_ ?_).trans (same_record _)
  · exact sk_same _ (by intro e; split <;> rfl) (by intro e; split <;> rfl) ..
  · exact fun k => Rstr.valid_map _ _ (fun e => by split <;> rfl) k.2.2.2.2 k
theorem same_abandon : Same' x x.abandon := ⟨⟨by simp, rfl, .of rfl, rfl, rfl, fun l c a b => ⟨l, a, b⟩⟩, rfl, rfl, rfl⟩
theorem same_putPass (f) : Same' x (x.putPass f) := ⟨⟨by simp, rfl, .of rfl, rfl, rfl, fun l c a b => ⟨l, a, b⟩⟩, rfl, rfl, rfl⟩
theorem same_frames (fs) (h : fs.length ≤ max x.disc.frames.length Config.frameRoom) :
    Same' x (x.withDisc { x.disc with frames := fs }) :=
  ⟨⟨kept_withDisc _ (.refl _) rfl h, rfl, .of rfl, rfl, rfl, fun l c a b => ⟨l, a, b⟩⟩, rfl, rfl, rfl⟩
theorem same_drop (o) : Same' x (x.withDisc { x.disc with pendingDrop := o }) :=
  ⟨⟨kept_withDisc _ (.refl _) rfl (Nat.le_max_left _ _), rfl, .of rfl, rfl, rfl, fun l c a b => ⟨l, a, b⟩⟩, rfl, rfl, rfl⟩
theorem same_putLeaf (l : Option Leaf) (k : Kept x (x.putLeaf l))
    (h : ∀ a c, l = some a → a.choice = some c → ∃ l', x.disc.leaf = some l' ∧ l'.choice = some c) : Same' x (x.putLeaf l) :=
  ⟨⟨k, rfl, .of rfl, rfl, rfl, h⟩, rfl, rfl, rfl⟩
theorem same_putLeaf_open (l : Option Leaf) (h : ∀ a, l = some a → a.choice = none) : Same' x (x.putLeaf l) := by
  refine same_putLeaf l ?_ (fun a c e f => ?_)
  · cases l with
    | none => simp
    | some a => exact kept_putLeaf_open _ (.refl _) (h a rfl)
  · rw [h a e] at f; cases f
theorem same_dropNonce : Same' x x.dropNonce := by
  refine same_putLeaf_open _ (fun a e => ?_)
  obtain ⟨b, -, rfl⟩ := Option.map_eq_some_iff.1 e
  rfl
theorem same_countFailed : Same' x x.countFailedNaming := (same_putPass _).trans ((same_putPass _).trans same_dropNonce)
theorem same_nextDigit (o : Option Leaf) : Same' x (x.putLeaf (o.bind Leaf.nextDigit)) := by
  refine same_putLeaf_open _ (fun a e => ?_)
  obtain ⟨b, -, e⟩ := Option.bind_eq_some_iff.1 e
  exact Leaf.nextDigit_choice e
theorem same_storeCalib (h c) : Same' x (x.storeCalib h c) := by
  refine same_rstr _ ?_ (fun k => Rstr.summary_valid _ (Rstr.update_valid _ _ (fun e => e.calibrated_handle c) k))
  refine sk_update_at (r := x.rstr) h _ (fun e => e.calibrated_handle c) (fun e _ => ?_)
  unfold Entry.calibrated
  split
  · rfl
  · dsimp only; split
    · unfold skel Entry.live; cases hs : e.state <;> simp [hs] <;> rfl
    · rfl
theorem same_judgeLow (h c) : Same' x (x.judgeLow h c).1 := (same_storeCalib _ _).trans (same_rate _)
/-- only the line besides -/
theorem same_jobq (q : Jobq) (hg : q.grant = x.jobq.grant) (hu : q.urgent.length ≤ x.jobq.urgent.length) (hn :
    q.normal.length ≤ x.jobq.normal.length) :
    Same' x (x.withJobq q) := ⟨⟨kept_withJobq _ (.refl _) hu hn, rfl, .of rfl, rfl, rfl, fun l c a b => ⟨l, a, b⟩⟩, rfl, rfl, hg⟩
theorem same_grant (g) : Same x (x.withJobq { x.jobq with grant := g }) :=
  ⟨kept_withJobq _ (.refl _) (Nat.le_refl _) (Nat.le_refl _), rfl, .of rfl, rfl, rfl, fun l c a b => ⟨l, a, b⟩⟩
theorem base_grant (g) (h : Base x) : Base (x.withJobq { x.jobq with grant := g }) := h.same (same_grant g) rfl

theorem same_countCascade (u j g n) : Same' x (x.countCascade u j g n) := by
  unfold State.countCascade
  cases u
  · exact same_raise _
  · refine (same_jobq _ ?_ ?_ ?_).trans (same_raise _) <;> first | rfl | exact Nat.le_refl _
  all_goals exact same_record _

theorem levelRoute_len {ls : List Level} (h : levelsSound ls) (hn : ls ≠ []) :
    (ls.filterMap (fun l => l.entry)).length + 1 = ls.length := by
  induction ls with
  | nil => exact absurd rfl hn
  | cons l ls ih =>
    obtain ⟨-, h2, -, h4⟩ := h
    cases e : l.entry with
    | none => have := h2.1 e; subst this; simp [e]
    | some st =>
      have : ls ≠ [] := fun c => by rw [h2.2 c] at e; cases e
      have := ih h4 this
      simp [e]; omega
theorem Disc.levelRoute_len {d : Disc} (h : d.StacksSound) (hn : d.levels ≠ []) : d.levelRoute.length + 1 = d.levels.length := by
  unfold Disc.levelRoute; rw [List.length_reverse]; exact Machine.levelRoute_len h.2.2 hn
theorem Disc.levelRoute_le {d : Disc} (h : d.StacksSound) : d.levelRoute.length ≤ 4 := by
  by_cases e : d.levels = []
  · unfold Disc.levelRoute; simp [e]
  · have := Disc.levelRoute_len h e; have := h.2.1; simp only [Config.routeRoom] at this; omega

theorem same_ask (st) : Same x (x.ask st) := ⟨by simp, rfl, .of rfl, rfl, rfl, fun l _ a b => ⟨l, a, b⟩⟩
theorem base_ask (st) (h : Base0 x) (k : st.descends → x.disc.LegRoom) : Base (x.ask st) :=
  ⟨h.same (same_ask st), fun st' e d => by cases e; exact k d⟩
theorem base_ask' (st) (h : Base x) (k : ¬ st.descends) : Base (x.ask st) := base_ask st h.1 (fun d => absurd d k)
theorem base_levels (h : Base x) (d : Disc) (k : Kept x (x.withDisc d)) (hleaf : d.leaf = x.disc.leaf ∨ d.leaf = none) (hn :
    d.next = x.disc.next ∨ d.next = none)
    (hs : d.lineOpenSeen = x.disc.lineOpenSeen) (hl : levelsSound d.levels) (hlen : d.levels.length ≤ x.disc.levels.length) :
        Base (x.withDisc d) := by
  refine ⟨⟨k.roster h.1.sound, h.1.depth, h.1.paths, h.1.route, ?_, ?_, h.1.busy, ?_, ?_⟩, ?_⟩
  · refine ⟨?_, Nat.le_trans hlen h.1.stackFit.2.1, hl⟩
    have := k.frames; have := h.1.stackFit.1; simp only [withDisc_disc] at *; omega
  · intro l c a b
    rcases hleaf with e | e
    · exact h.1.choice l c (e ▸ a) b
    · change d.leaf = _ at a; rw [e] at a; cases a
  · intro a; show d.lineOpenSeen = false; rw [hs]; exact h.1.starting a
  · intro a; exact h.1.opened (hs ▸ a)
  · intro st a b
    rcases hn with e | e
    · exact Nat.le_trans hlen (h.2 st (e ▸ a) b)
    · change d.next = _ at a; rw [e] at a; cases a
theorem mapTop_cases (d : Disc) (f : Level → Level) :
    (d.levels = [] ∧ d.mapTop f = d) ∨ ∃ l ls, d.levels = l :: ls ∧ d.mapTop f = { d with levels := f l :: ls } := by
  unfold Disc.mapTop; split
  · next e => exact .inl ⟨e, rfl⟩
  · next l ls e => exact .inr ⟨l, ls, e, rfl⟩
theorem base_mapTop (h : Base x) (f : Level → Level) (hf : ∀ l, (f l).depth = l.depth ∧ (f l).entry = l.entry) (hg :
    (∀ l, (f l).leg = 1 ∨ (f l).leg = l.leg) ∨ x.disc.LegRoom) :
    Base (x.withDisc (x.disc.mapTop f)) := by
  rcases mapTop_cases x.disc f with ⟨-, e⟩ | ⟨l, ls, e, e'⟩
  · rw [e]; exact h
  · have k : Kept x (x.withDisc (x.disc.mapTop f)) := kept_mapTop f (.refl x)
    rw [e'] at k ⊢
    have hs := h.1.stackFit.2.2
    rw [e] at hs
    obtain ⟨h1, h2, h3, h4⟩ := hs
    refine base_levels h _ k (.inl rfl) (.inl rfl) rfl ⟨?_, ?_, ?_, h4⟩ ?_
    · rw [(hf l).1]; exact h1
    · rw [(hf l).2]; exact h2
    · rcases hg with c | c
      · rcases c l with c | c
        · exact .inl c
        · rw [c]; exact h3
      · unfold Disc.LegRoom at c; rw [e] at c; exact .inr c
    · rw [e]; simp
theorem base_nextJunction (h : Base x) : Base x.nextJunction := base_mapTop h _ (fun _ => ⟨rfl, rfl⟩) (.inl fun _ => .inl rfl)
theorem base_nextLeg (h : Base x) (k : x.disc.LegRoom) : Base x.nextLeg := by
  refine base_mapTop h _ (fun l => ?_) (.inr k)
  dsimp only; split <;> exact ⟨rfl, rfl⟩
theorem base_listJunction (a b) (h : Base x) : Base (x.listJunction a b) := by
  unfold State.listJunction; split
  · exact h
  · split
    · exact h
    · split
      · exact h.same' (same_notEntered _)
      · exact base_mapTop h _ (fun _ => ⟨rfl, rfl⟩) (.inl fun _ => .inr rfl)
theorem base_toIdle (h : Base x) (r : Option ResultRecord) : Base (x.withDisc { x.disc.toIdle with result := r }) :=
  base_levels h _ (by simp [Disc.toIdle]) (.inr rfl) (.inr rfl) rfl trivial (Nat.zero_le _)
theorem base_endDiscovery (o w c) (h : Base x) : Base (x.endDiscovery o w c) := by
  unfold State.endDiscovery; dsimp only
  split
  · exact ((base_toIdle h _).same' same_releaseAll).same' (same_answer ..)
  · exact ((base_toIdle h _).same' same_releaseAll).same' (same_raise _)
theorem endDiscovery_grant (o w c) : (x.endDiscovery o w c).jobq = x.jobq := by
  unfold State.endDiscovery; dsimp only
  split
  · rw [answer_link]; rfl
  · rfl
theorem base_finish (h : Base x) : Base x.finishDiscovery := by
  unfold State.finishDiscovery; dsimp only; split <;> exact base_endDiscovery _ _ _ h
theorem good_room (h : Base x) {top : Level} {below : List Level} (hl : x.disc.levels = top :: below) {j : Listed}
    (hg : x.rstr.listedGood j x.disc.levelRoute = true)
    (hm : ¬ (top.leg = 1 ∧ x.link.settings.maxDepth ≤ (x.rstr.listedPath j x.disc.levelRoute).length)) : x.disc.LegRoom := by
  have hs := h.1.stackFit
  have hlen := Disc.levelRoute_len hs (by rw [hl]; simp)
  have hp : x.rstr.listedPath j x.disc.levelRoute = x.disc.levelRoute := by
    unfold Rstr.listedGood at hg; unfold Rstr.listedPath
    cases e : x.rstr.find j.handle with
    | none => rfl
    | some a => simp [e] at hg; simp [hg]
  rw [hp] at hm
  have hd := h.1.depth
  unfold Disc.LegRoom
  have hs2 := hs.2.2
  rw [hl] at hs2 hlen ⊢
  rcases hs2.2.2.1 with c | c
  · have : ¬ x.link.settings.maxDepth ≤ x.disc.levelRoute.length := fun a => hm ⟨c, a⟩
    simp only [Config.routeRoom]; omega
  · simp only [List.length_cons]; omega
theorem base_descend : ∀ n {x : State}, Base x → Base (x.descend n)
  | 0, _, h => h
  | n + 1, x, h => by
    unfold State.descend
    split
    · exact h
    · next top below hl =>
      have hs := h.1.stackFit
      split
      · split
        · refine base_ask _ (base_levels h { x.disc with levels :=
            below } (kept_withDisc _ (.refl x) rfl (Nat.le_max_left _ _)) (.inl rfl) (.inl rfl) rfl ?_ ?_).1 (fun _ => ?_)
          · have := hs.2.2; rw [hl] at this; exact this.2.2.2
          · rw [hl]; simp
          · have := hs.2.1; rw [hl] at this; simp only [List.length_cons] at this
            unfold Disc.LegRoom; simp only [withDisc_disc]; omega
        · exact base_finish h
      · next j _ =>
        dsimp only
        split
        · split
          · exact base_descend n (base_nextJunction (h.same' (same_notEntered _)))
          · exact base_descend n (base_nextJunction (h.same' (same_record _)))
        · next hm =>
          split
          · next hg => exact base_ask _ h.1 (fun _ => good_room h hl hg hm)
          · exact base_descend n (base_nextJunction (h.same' same_abandon))
theorem base_descent (h : Base x) : Base x.descent := base_descend _ h
theorem base_passEnd (h : Base x) : Base x.passEnd := by
  unfold State.passEnd; dsimp only; split
  · exact base_ask' _ h (by unfold DiscStep.descends; simp)
  · exact base_descent (base_mapTop (h.same' (same_record _)) _ (fun _ => ⟨rfl, rfl⟩) (.inl fun _ => .inr rfl))
theorem base_walkNext (h : Base x) : Base x.walkNext := by
  unfold State.walkNext; split
  · exact base_ask' _ h (by unfold DiscStep.descends; simp)
  · split
    · exact base_passEnd h
    · exact base_ask' _ h (by unfold DiscStep.descends; simp)
theorem base_leafNext (l) (h : Base x) : Base (x.leafNext l) := by
  unfold State.leafNext; split
  · exact base_ask' _ h (by unfold DiscStep.descends; simp)
  · exact base_ask' _ h (by unfold DiscStep.descends; simp)
  · exact base_ask' _ h (by unfold DiscStep.descends; simp)
  · split
    · next l' e => exact base_ask' _ (h.same'
        (same_putLeaf_open _ (fun a e' => by cases e'; exact Leaf.nextDigit_choice e))) (by unfold DiscStep.descends; simp)
    · exact base_walkNext (h.same' (same_putLeaf_open _ (fun a e => by cases e)))
theorem base_discNext (h : Base x) : Base x.discNext := by
  unfold State.discNext; split
  · exact base_ask' _ h (by unfold DiscStep.descends; simp)
  · split
    · exact h
    · split
      · exact base_descent h
      · split
        · exact base_leafNext _ h
        · exact base_walkNext h

/-! ### The grant through these -/
theorem ask_jobq (st) : (x.ask st).jobq = x.jobq := rfl
theorem notEntered_jobq (h) : (x.notEntered h).jobq = x.jobq := rfl
theorem finish_jobq : x.finishDiscovery.jobq = x.jobq := by
  unfold State.finishDiscovery; dsimp only; split <;> exact endDiscovery_grant ..
theorem descend_jobq : ∀ n {x : State}, (x.descend n).jobq = x.jobq
  | 0, _ => rfl
  | n + 1, x => by
    unfold State.descend
    split
    · rfl
    · split
      · split
        · rfl
        · exact finish_jobq
      · dsimp only
        split
        · split
          · exact descend_jobq n
          · exact descend_jobq n
        · split
          · rfl
          · exact descend_jobq n
theorem passEnd_jobq : x.passEnd.jobq = x.jobq := by
  unfold State.passEnd; dsimp only; split
  · rfl
  · exact descend_jobq _
theorem walkNext_jobq : x.walkNext.jobq = x.jobq := by
  unfold State.walkNext; split
  · rfl
  · split
    · exact passEnd_jobq
    · rfl
theorem discNext_jobq : x.discNext.jobq = x.jobq := by
  unfold State.discNext; split
  · rfl
  · split
    · rfl
    · split
      · exact descend_jobq _
      · split
        · unfold State.leafNext; split
          · rfl
          · rfl
          · rfl
          · split
            · rfl
            · exact walkNext_jobq
        · exact walkNext_jobq
theorem tree_stepDone (h : Base x) : Tree x.stepDone := by
  unfold State.stepDone; dsimp only
  split
  · exact Tree.none (base_endDiscovery _ _ _ (base_grant none h)) (by rw [endDiscovery_grant]; rfl)
  · exact Tree.none (base_discNext (base_grant none h)) (by rw [discNext_jobq]; rfl)

/-! ### Levels pushed -/
theorem levelsSound_push (d : Disc) (l : Level) (h : d.StacksSound) (hd : l.depth = d.levels.length) (he :
    l.entry = none ↔ d.levels = []) (hg : l.leg = 1) : levelsSound (l :: d.levels) :=
  ⟨hd, he, .inl hg, h.2.2⟩
theorem base0_push (h : Base0 x) (r : Route) (e : Option RouteStep) (hr : r.length = x.disc.levels.length) (hm :
    x.disc.levels.length ≤ 4)
    (he : e = none ↔ x.disc.levels = []) : Base0 (x.pushLevel r e) := by
  unfold State.pushLevel
  dsimp only
  generalize hy : x.notEntered _ = y
  have hs : Same' x y := by subst hy; exact same_notEntered _
  have hb := h.same hs.toSame
  have hl := hs.levels
  refine ⟨?_, hb.depth, hb.paths, hb.route, ?_, ?_, hb.busy, hb.starting, hb.opened⟩
  · exact (kept_withDisc_none _ (.refl y) rfl (Nat.zero_le _)).roster hb.sound
  · refine ⟨Nat.zero_le _, ?_, ?_⟩
    · simp only [withDisc_disc, List.length_cons, hl, Config.routeRoom]; omega
    · exact levelsSound_push _ _ hb.stackFit (by rw [hl]; exact hr) (by rw [hl]; exact he) rfl
  · intro l c a; cases a
theorem base_leaveArmed (h : Base x) : Base x.leaveArmed := by
  unfold State.leaveArmed; split
  · dsimp only
    have h1 : Base0 ((if x.disc.origin = some .auto then
        x.withDisc { x.disc with result := some (ResultRecord.fresh (x.disc.mode.getD .rescan) true), abandoned :=
            false } else x)) := by
      split
      · exact h.1.same ⟨by simp, rfl, .of rfl, rfl, rfl, fun l _ a b => ⟨l, a, b⟩⟩
      · exact h.1
    generalize (if x.disc.origin = some .auto then
        x.withDisc { x.disc with result := some (ResultRecord.fresh (x.disc.mode.getD .rescan) true), abandoned :=
            false } else x) = y at h1 ⊢
    refine base_ask _ (base0_push ?_ [] none rfl (Nat.zero_le _) (by simp)) (fun d => by unfold DiscStep.descends at d; simp at d)
    exact ⟨⟨h1.sound.1, h1.sound.2.1, h1.sound.2.2⟩, h1.depth, h1.paths, h1.route, ⟨h1.stackFit.1, Nat.zero_le _, trivial⟩,
        h1.choice, h1.busy, h1.starting, h1.opened⟩
  · exact h
theorem leaveArmed_cases : x.leaveArmed = x ∨ ∃ y : State, y.jobq = x.jobq ∧ y.line = x.line ∧
    x.leaveArmed = ((y.withDisc { y.disc with levels := [] }).pushLevel [] none).ask .hail := by
  unfold State.leaveArmed; split
  · exact .inr ⟨_, by split <;> rfl, by split <;> rfl, rfl⟩
  · exact .inl rfl
theorem leaveArmed_jobq : x.leaveArmed.jobq = x.jobq := by
  obtain e | ⟨y, hj, -, e⟩ := leaveArmed_cases (x := x)
  · rw [e]
  · rw [e]; exact hj
theorem leaveArmed_line' : x.leaveArmed.line = x.line := by
  obtain e | ⟨y, -, hl, e⟩ := leaveArmed_cases (x := x)
  · rw [e]
  · rw [e]; exact hl
theorem tree_leaveArmed (h : Tree x) : Tree x.leaveArmed := by
  refine ⟨base_leaveArmed h.1, fun g e => ?_⟩
  rw [leaveArmed_jobq] at e
  have hg := h.2 g e
  have hd : ∀ d, g.work = .disc d → x.leaveArmed = x := fun d c => by
    unfold State.leaveArmed; rw [if_neg]; intro a; exact (hg.disc d c).2.1 a.1
  have k : Kept x x.leaveArmed := by simp
  have hsk : x.leaveArmed.rstr.sk = x.rstr.sk := by
    unfold State.leaveArmed; split
    · dsimp only
      have : ∀ y : State, ((y.withDisc { y.disc with levels := [] }).pushLevel [] none).rstr.sk = y.rstr.sk :=
          fun y => (same_notEntered _).sk
      refine (this _).trans ?_
      split <;> rfl
    · rfl
  by_cases c : ∃ d, g.work = .disc d
  · obtain ⟨d, c⟩ := c; rw [hd d c]; exact hg
  · have c : ∀ d, g.work ≠ .disc d := fun d e => c ⟨d, e⟩
    refine ⟨by rw [k.ssw, live_kept k]; exact hg.supplied, by rw [leaveArmed_line']; exact hg.lit,
        by rw [leaveArmed_line']; exact hg.owed,
      by rw [leaveArmed_line']; exact hg.tainted, fun d e => absurd e (c d), fun sw e => ?_, fun op e => ?_⟩
    · rw [leaveArmed_line']
      have := hg.switch sw e
      exact ⟨⟨this.1.1, this.1.2.1, fun d e => absurd e (c d)⟩, this.2⟩
    · rw [leaveArmed_line'] at e
      have := hg.op op e
      refine ⟨?_, ?_, fun d _ e => absurd e (c d)⟩
      · have h1 := this.1; simp only [stepF, hsk, leaveArmed_line'] at h1 ⊢; exact h1
      · rw [leaveArmed_line']; exact this.2.1

end Sys2Proof.Machine
end

