-- ==== Sys2Proof/Laws/TreeSwitch.lean ====
section
/-! SUPPORT. The tool's tree stays sound: route switches and leg exchanges keep TreeSound (R120 to R125, R76, R77). -/

namespace Sys2Proof.Machine

variable {x y z : State} {w : Work} {sw : Option Switch}

/-- The line is granted, nothing runs and nothing is tainted: what a holder finds at the end of an operation. -/
structure Hold (x : State) (w : Work) (sw : Option Switch) : Prop where
  base : Base x
  op : x.line.op = none
  grant : x.jobq.grant = some ⟨w, sw, none⟩
  snd : x.GrantSound ⟨w, sw, none⟩
/-- The switch, if any, waits for no leg settle. -/
def Quiet (sw : Option Switch) : Prop := ∀ s, sw = some s → s.settle = none ∧ s.resume = false
theorem Quiet.none : Quiet none := fun _ e => by cases e
theorem Hold.tree (h : Hold x w sw) : Tree x := ⟨h.base, fun g e => by rw [h.grant] at e; cases e; exact h.snd⟩
theorem Hold.same' (h : Hold x w sw) (k : Same' x y) : Hold y w sw :=
  ⟨h.base.same' k, k.line.op.trans h.op, k.grant.trans h.grant, h.snd.same k.toSame (fun _ _ => ⟨k.next, .inl k.dstate⟩)⟩
theorem Hold.mk' (h : Base x) (ho : x.line.op = none) (hg : x.jobq.grant = some ⟨w, sw, none⟩) (hp :
    x.ssw.state = .on ∧ x.live = true)
    (hl : x.line.state = .idle ∨ x.line.state = .busy) (hu : x.line.startUp = none)
    (hd : ∀ d, w = .disc d → x.disc.state ≠ .idle ∧ x.disc.state ≠ .armed ∧ x.disc.next = none ∧
        (d.step.descends → x.disc.LegRoom))
    (hs : ∀ s, sw = some s → x.SwitchSound w s) : Hold x w sw :=
  ⟨h, ho, hg, hp, hl, hu, fun _ => ho, hd, fun s e => ⟨hs s e, fun _ => ⟨ho, rfl⟩⟩, fun op e => by
    rcases e with e | e
    · rw [ho] at e; cases e
    · cases e⟩
theorem Hold.putSwitch (h : Hold x w sw) (n : Option Switch) (hs : ∀ s, n = some s → x.SwitchSound w s) :
    Hold (x.putSwitch n) w n := by
  have e : x.putSwitch n = x.withJobq { x.jobq with grant := some ⟨w, n, none⟩ } := by
    unfold State.putSwitch; rw [h.grant]; rfl
  rw [e]
  exact .mk' (base_grant _ h.base) h.op rfl h.snd.supplied h.snd.lit h.snd.owed h.snd.disc hs
theorem Hold.putNone (h : Hold x w sw) : Hold (x.putSwitch none) w none := h.putSwitch none (fun _ e => by cases e)
theorem Hold.startOp (h : Hold x w sw) (k : OpKind) (a : Nat) (hq : Quiet sw) (ho : x.OpSound ⟨w, sw, none⟩ (x.lineOp k a)) :
    Tree (x.startOp k a) := by
  have kp : Kept x (x.startOp k a) := kept_startOp _ _ (.refl x)
  refine ⟨⟨⟨kp.roster h.base.1.sound, h.base.1.depth, h.base.1.paths, h.base.1.route, h.base.1.stackFit, h.base.1.choice,
      fun _ => rfl, h.base.1.starting, fun _ c => by cases c⟩, h.base.2⟩, fun g e => ?_⟩
  have : (x.startOp k a).jobq.grant = some ⟨w, sw, none⟩ := h.grant
  rw [this] at e; cases e
  refine ⟨h.snd.supplied, .inr rfl, h.snd.owed, fun c => absurd rfl c, h.snd.disc,
      fun s e => ⟨(h.snd.switch s e).1, fun c => ?_⟩, fun op e => ?_⟩
  · have := hq s e; rcases c with c | c
    · exact absurd this.1 c
    · rw [this.2] at c; cases c
  · rcases e with e | e
    · cases e; exact ho
    · cases e
/-- an operation that puts nothing at risk -/
def Plain (w : Work) : OpKind → Prop
  | .legOpen _ => False
  | .drop => ∀ j r u, w ≠ .job j r u
  | .roll => ∀ d, w ≠ .disc d
  | _ => True
theorem OpSound.plain {g : Grant} {op : LineOp} (h : Plain g.work op.kind) : x.OpSound g op := by
  refine ⟨fun l s e _ => ?_, fun j r u e k => ?_, fun d e k => ?_⟩
  · rw [e] at h; exact h.elim
  · rw [e] at h; exact absurd k (h j r u)
  · rw [e] at h; exact absurd k (h d)
theorem Hold.plain (h : Hold x w sw) (k : OpKind) (a : Nat) (hq : Quiet sw) (hp : Plain w k) : Tree (x.startOp k a) :=
  h.startOp k a hq (OpSound.plain hp)

/-! ### Switches -/
theorem commonLen_le : ∀ a b : Route, commonLen a b ≤ a.length
  | [], _ => by simp [commonLen]
  | a :: as, [] => by simp [commonLen]
  | a :: as, b :: bs => by
    unfold commonLen; split
    · have := commonLen_le as bs; simp; omega
    · simp
theorem commonLen_full : ∀ a b : Route, ¬ commonLen a b < a.length → b = a ++ b.drop a.length
  | [], b, _ => by simp
  | a :: as, [], h => by simp [commonLen] at h
  | a :: as, b :: bs, h => by
    unfold commonLen at h
    split at h
    · next e => subst e; simp only [List.length_cons, List.cons_append, List.drop_succ_cons, List.cons.injEq, true_and]
                exact commonLen_full as bs (by simp only [List.length_cons] at h; omega)
    · simp at h
/-- What a switch that has ended leaves to its holder. -/
structure End (y : State) (w : Work) (e : SwitchEnd) : Prop where
  hold : Hold y w none
  snd : y.SwitchSound w e.switch
  done : e.outcome = .done → y.line.route = e.switch.target
  fault : e.outcome = .legFault → y.line.route.length < e.switch.target.length
/-- A switch goes on soundly, or has ended soundly. -/
def Went (w : Work) (r : State × Option SwitchEnd) : Prop :=
  match r.2 with
  | none => Tree r.1
  | some e => End r.1 w e
theorem went_switchNext (h : Hold x w sw) (s : Switch) (hs : x.SwitchSound w s) : Went w (x.switchNext s) := by
  have hs' : x.SwitchSound w { s with used := 0, settle := none, resume := false } := hs
  have hold := h.putSwitch (some { s with used := 0, settle := none, resume := false }) (fun _ e => by cases e; exact hs')
  have hn := h.putNone
  have hq : Quiet (some { s with used := 0, settle := none, resume := false }) := fun _ e => by cases e; exact ⟨rfl, rfl⟩
  unfold State.switchNext
  dsimp only
  split
  · next c =>
    split
    · next st e => exact hold.plain _ _ hq trivial
    · next e =>
      have := List.getLast?_eq_none_iff.1 e
      rw [this] at c; simp at c
  · next c =>
    have hf := commonLen_full _ _ c
    split
    · next e =>
      rw [e, List.append_nil] at hf
      exact ⟨hn, hs', fun _ => hf.symm, fun e => by cases e⟩
    · next st r e =>
      split
      · next g =>
        refine hold.startOp _ _ hq ⟨fun leg s' e1 e2 => ?_, fun _ _ _ e => (by cases e), fun _ e => (by cases e)⟩
        cases e1; cases e2
        refine ⟨?_, g⟩
        show x.line.route.length < s.target.length
        have := congrArg List.length e
        simp at this; omega
      · exact ⟨hn, hs', fun e => (by cases e), fun e => by cases e⟩
theorem went_startSwitch (h : Hold x w sw) (u t r) (hl : t.length ≤ 4) (hj : ∀ j r u, w = .job j r u → Route.Avoids t j.handle)
    (hd : ∀ d, w = .disc d → (u = .opening ∨ u = .closing → x.disc.LegRoom) ∧
      (u = .opening → ∃ st, x.disc.cursorStep = some st ∧ t = x.disc.levelRoute ++ [st]) ∧
          (u ≠ .opening → t = x.disc.levelRoute)) :
    Went w (x.startSwitch u t r) := went_switchNext h _ ⟨hl, hj, hd⟩

theorem Dead_dep {F : Sk} {D : Nat → Prop} (h : Nat) : (Dead F h → Dead (depF F D) h) ∧ (F h = none → depF F D h = none) := by
  unfold Dead depF
  constructor
  · intro a p k l e
    split at e
    · obtain ⟨v, -, e⟩ := Option.map_eq_some_iff.1 e
      cases e; rfl
    · exact a p k l e
  · intro a; rw [a]; split <;> rfl
theorem Dead_rem {F : Sk} {D : Nat → Prop} (h : Nat) : (Dead F h → Dead (remF F D) h) ∧ (F h = none → remF F D h = none) := by
  unfold Dead remF
  constructor
  · intro a p k l e
    split at e
    · cases e
    · exact a p k l e
  · intro a; rw [a]; split <;> rfl
theorem base_rr (h : Base x) (r : Rstr) (R : Route) (hv : x.rstr.valid → r.valid) (hp : PathsF r.sk) (hr : RouteF r.sk R)
    (hd : ∀ h, (Dead x.rstr.sk h → Dead r.sk h) ∧ (x.rstr.sk h = none → r.sk h = none)) : Base ((x.withRstr r).putRoute R) :=
  ⟨⟨⟨hv h.1.sound.1, h.1.sound.2⟩, h.1.depth, hp, hr, h.1.stackFit,
      fun l c a b => ⟨(hd _).1 (h.1.choice l c a b).1, (h.1.choice l c a b).2.imp id (hd _).2⟩,
    h.1.busy, h.1.starting, h.1.opened⟩, h.2⟩
theorem Hold.rr (h : Hold x w sw) (r : Rstr) (R : Route) (hv : x.rstr.valid → r.valid) (hp : PathsF r.sk) (hr : RouteF r.sk R)
    (hd : ∀ h, (Dead x.rstr.sk h → Dead r.sk h) ∧ (x.rstr.sk h = none → r.sk h = none)) : Hold ((x.withRstr r).putRoute R) w sw :=
  .mk' (base_rr h.base r R hv hp hr hd) h.op h.grant h.snd.supplied h.snd.lit h.snd.owed h.snd.disc
      (fun s e => (h.snd.switch s e).1)
theorem putRoute_self : x.putRoute x.line.route = x := rfl
theorem RouteF.pre {F : Sk} {r r' : Route} (h : RouteF F r) (p : r' <+: r) : RouteF F r' := by
  rw [List.prefix_iff_eq_take.1 p]; exact h.take _
theorem trunc_pre (j) (r : Route) : truncateBefore j r <+: r := List.takeWhile_prefix _
theorem trunc_avoids (j) (r : Route) : Route.Avoids (truncateBefore j r) j := by
  intro st h
  have := List.all_takeWhile (l := r) (p := fun st => st.junction != j)
  rw [List.all_eq_true] at this
  simpa using this st h
theorem count_route (u j g n R) : (x.countCascade u j g n).putRoute R = (x.putRoute R).countCascade u j g n := by
  cases u <;> rfl
theorem cascade_ok (h : Base x) (j) (R : Route) (hp : R <+: x.line.route) (ha : Route.Avoids R j) :
    (x.rstr.valid → (x.rstr.cascade j).1.valid) ∧ PathsF (x.rstr.cascade j).1.sk ∧ RouteF (x.rstr.cascade j).1.sk R ∧
     ∀ h, (Dead x.rstr.sk h → Dead (x.rstr.cascade j).1.sk h) ∧ (x.rstr.sk h = none → (x.rstr.cascade j).1.sk h = none) := by
  refine ⟨Rstr.cascade_valid j, ?_⟩
  rw [sk_cascade]
  have hr := h.1.route.pre hp
  exact ⟨depF_paths h.1.paths (tree_closed h.1.paths j), hr.map (fun i st hi k => k.dep (hr.notBelow ha i st hi)),
      fun _ => Dead_dep _⟩
theorem base_departed (h : Base x) (u j) (R : Route) (hp : R <+: x.line.route) (ha : Route.Avoids R j) :
    Base ((x.departJunction u j).putRoute R) := by
  unfold State.departJunction; dsimp only
  rw [count_route]
  obtain ⟨h1, h2, h3, h4⟩ := cascade_ok h j R hp ha
  exact (base_rr h _ R h1 h2 h3 h4).same' (same_countCascade ..)
theorem Hold.departed (h : Hold x w sw) (u j) (R : Route) (hp : R <+: x.line.route) (ha : Route.Avoids R j) :
    Hold ((x.departJunction u j).putRoute R) w sw := by
  unfold State.departJunction; dsimp only
  rw [count_route]
  obtain ⟨h1, h2, h3, h4⟩ := cascade_ok h.base j R hp ha
  exact (h.rr _ R h1 h2 h3 h4).same' (same_countCascade ..)
theorem Hold.faulted (h : Hold x w sw) (u j g) (ha : Route.Avoids x.line.route j) : Hold (x.faultLeg u j g) w sw := by
  have h1 : Hold (x.withRstr (x.rstr.legCascade j g).1) w sw := by
    refine h.rr _ x.line.route (Rstr.legCascade_valid j g) ?_ ?_ ?_
    · rw [sk_legCascade]; exact depF_paths h.base.1.paths (leg_closed h.base.1.paths j g)
    · rw [sk_legCascade]; exact h.base.1.route.map (fun i st hi k => k.dep (h.base.1.route.notBelowLeg ha i st hi))
    · intro _; rw [sk_legCascade]; exact Dead_dep _
  have h2 := h1.same' (same_countCascade u j g (x.rstr.legCascade j g).2)
  unfold State.faultLeg
  cases u
  · exact h2
  · exact h2
  all_goals exact h2.same' (same_record _)
theorem faultLeg_line (u j g) : (x.faultLeg u j g).line = x.line := by cases u <;> rfl
theorem faultLeg_disc (u j g) : (x.faultLeg u j g).disc.levels = x.disc.levels := by cases u <;> rfl
theorem depart_disc (u j) : (x.departJunction u j).disc.levels = x.disc.levels := by cases u <;> rfl
theorem addError_line (j) : (x.addError j).line = x.line := rfl
theorem step_avoids (h : Base x) {st : RouteStep} (hs : x.rstr.stepGood x.line.route st = true) :
    Route.Avoids x.line.route st.junction := by
  obtain ⟨k, e, -⟩ := (stepF _ _ _).1 hs
  exact h.1.route.avoids e
theorem Hold.good (h : Hold x w sw) (j g) : Hold (x.withRstr (x.rstr.legGood j g)) w sw :=
  h.same' (same_rstr _ (sk_legGood _ _) (Rstr.legGood_valid j g))
theorem stepGood_same (k : Same x y) {r st} : y.rstr.stepGood r st = true ↔ x.rstr.stepGood r st = true :=
    by rw [stepF, stepF, k.sk]

theorem went_legOpened (h : Hold x w (some sw₀)) (s : Switch) (j g n) (hs : x.SwitchSound w s)
    (hr : x.line.route.length < s.target.length ∧ x.rstr.stepGood x.line.route ⟨j, g⟩ = true) : Went w (x.legOpened s j g n) := by
  unfold State.legOpened
  split
  · show Tree _
    have h1 := h.good j g
    have hb : Base ((x.withRstr (x.rstr.legGood j g)).putRoute (x.line.route ++ [⟨j, g⟩])) := by
      refine base_rr h.base _ _ (Rstr.legGood_valid j g) ?_ ?_ ?_
      · rw [sk_legGood]; exact h.base.1.paths
      · rw [sk_legGood]
        exact h.base.1.route.snoc (by have := hs.1; simp only [Config.routeRoom] at this; omega) ((stepF _ _ _).1 hr.2)
      · intro _; rw [sk_legGood]; exact ⟨id, id⟩
    have h2 : Hold ((x.withRstr (x.rstr.legGood j g)).putRoute (x.line.route ++ [⟨j, g⟩])) w (some sw₀) :=
      .mk' hb h.op h.grant h.snd.supplied h.snd.lit h.snd.owed h.snd.disc (fun s e => (h.snd.switch s e).1)
    exact (h2.putSwitch _ (fun _ e => by cases e; exact hs)).tree
  · have h1 := h.faulted s.purpose j g (step_avoids h.base hr.2)
    refine ⟨h1.putNone, ?_, fun e => (by cases e), fun _ => ?_⟩
    · exact SwitchSound_same (faultLeg_disc ..) hs
    · show (x.faultLeg _ _ _).line.route.length < _
      rw [faultLeg_line]; exact hr.1
theorem went_openUnanswered (h : Hold x w (some sw₀)) (s : Switch) (j) (hs : x.SwitchSound w s) :
    Went w (x.legOpenUnanswered s j) := by
  unfold State.legOpenUnanswered
  have h1 := h.departed s.purpose j _ (trunc_pre j x.line.route) (trunc_avoids j _)
  exact ⟨h1.putNone, SwitchSound_same (x := x) (depart_disc ..) hs, fun e => (by cases e), fun e => by cases e⟩
theorem Hold.route (h : Hold x w sw) (R : Route) (hp : R <+: x.line.route) : Hold (x.putRoute R) w sw :=
  h.rr x.rstr R id h.base.1.paths (h.base.1.route.pre hp) (fun _ => ⟨id, id⟩)
theorem went_legClosed (h : Hold x w (some sw₀)) (s : Switch) (hs : x.SwitchSound w s) : Went w (x.legClosed s) := by
  unfold State.legClosed
  exact went_switchNext (h.route _ (by rw [List.dropLast_eq_take]; exact List.take_prefix _ _)) s hs
theorem went_closeUnanswered (h : Hold x w (some sw₀)) (s : Switch) (j) (hs : x.SwitchSound w s) :
    Went w (x.legCloseUnanswered s j) := by
  unfold State.legCloseUnanswered
  have h1 := h.departed s.purpose j _ (trunc_pre j x.line.route) (trunc_avoids j _)
  have hs1 : ((x.departJunction s.purpose j).putRoute (truncateBefore j x.line.route)).SwitchSound w { s with closeDeparted :=
      true } :=
    SwitchSound_same (x := x) (depart_disc ..) hs
  dsimp only
  split
  · exact ⟨h1.putNone, hs1, fun e => (by cases e), fun e => by cases e⟩
  · exact went_switchNext h1 _ hs1
theorem went_again (h : Hold x w (some sw₀)) (s : Switch) (k j) (hq : s.settle = none ∧ s.resume = false) (hs : x.SwitchSound w s)
    (ho : x.OpSound ⟨w, some s, none⟩ (x.lineOp k j)) : Tree ((x.putSwitch (some s)).startOp k j) := by
  have h1 := h.putSwitch (some s) (fun _ e => by cases e; exact hs)
  exact h1.startOp k j (fun _ e => by cases e; exact hq) ho
theorem OpSound_sw {g g' : Grant} {op op' : LineOp} (h : x.OpSound g op) (hk : op'.kind = op.kind) (ha :
    op'.audience = op.audience) (hw : g'.work = g.work)
   (hs : ∀ s', g'.switch = some s' → ∃ s, g.switch = some s ∧ s.target = s'.target) : x.OpSound g' op' := by
  refine ⟨fun l s' e k => ?_, fun j r u e k => h.2.1 j r u (hk ▸ e) (hw ▸ k), fun d e k => ?_⟩
  · obtain ⟨s, a, b⟩ := hs s' k
    have := h.1 l s (hk ▸ e) a
    rw [ha, ← b]; exact this
  · rw [ha]; exact h.2.2 d (hk ▸ e) (hw ▸ k)
theorem went_legEnded (h : Hold x w (some s)) (k j d) (hq : Quiet (some s)) (o : LineOp) (hk : o.kind = k) (hj : o.audience = j)
    (ho : x.OpSound ⟨w, some s, none⟩ o) : Went w (x.legEnded s k j d) := by
  have hs := (h.snd.switch s rfl).1
  subst hk hj
  unfold State.legEnded
  split
  · next g e => exact went_legOpened h s _ _ _ hs (ho.1 _ s e rfl)
  · exact went_legClosed h s hs
  · dsimp only
    have h1 := h.same' (same_addError o.audience)
    split
    · refine went_again h1 _ _ _ (hq s rfl) hs ?_
      exact OpSound_sw (OpSound_same (same_addError _).toSame ho) rfl rfl rfl (fun s' e => by cases e; exact ⟨s, rfl, rfl⟩)
    · split
      · exact went_openUnanswered h1 s _ hs
      · exact went_closeUnanswered h1 s _ hs
theorem went_legTainted (h : Hold x w (some s)) (k j) (hq : Quiet (some s)) (o : LineOp) (hk : o.kind = k) (hj : o.audience = j)
    (ho : x.OpSound ⟨w, some s, none⟩ o) : Went w (x.legTainted s k j) := by
  have hs := (h.snd.switch s rfl).1
  subst hk hj
  unfold State.legTainted
  split
  · refine went_again h _ _ _ (hq s rfl) hs ?_
    exact OpSound_sw ho rfl rfl rfl (fun s' e => by cases e; exact ⟨s, rfl, rfl⟩)
  · exact ⟨h.putNone, hs, fun e => (by cases e), fun e => by cases e⟩

end Sys2Proof.Machine
end

