-- ==== Sys2Proof/Laws/TreeWalk.lean ====
section
/-! SUPPORT. The tool's tree stays sound: naming, the steps of DISC, descent and return keep TreeSound (R65 to R68, R107 to R112, R128 to R137). -/

namespace Sys2Proof.Machine

variable {x y z : State} {w : Work} {sw : Option Switch} {d : DiscWork}

/-! ### Choices -/
theorem find_of_mem {r : Rstr} (hv : r.valid) {e : Entry} (h : e ∈ r.entries) : r.find e.handle = some e := by
  have hp := hv.1
  unfold Rstr.find
  generalize r.entries = l at hp h
  clear hv
  induction l with
  | nil => cases h
  | cons a as ih =>
    simp only [List.map_cons, List.pairwise_cons] at hp
    rw [List.find?_cons]
    rcases List.mem_cons.1 h with rfl | h
    · simp
    · have := hp.1 e.handle (List.mem_map_of_mem h)
      have : (a.handle == e.handle) = false := by simp; omega
      simp only [this]; exact ih hp.2 h
theorem dead_of {r : Rstr} {h e} (a : r.find h = some e) (b : e.live = false) : Dead r.sk h := by
  intro p k l c; unfold Rstr.sk at c; rw [a] at c; cases c; exact b
theorem none_of {r : Rstr} {h} (a : r.free h = true) : r.sk h = none := by
  unfold Rstr.free at a; simp at a; unfold Rstr.sk; rw [a.1]; rfl
theorem dead_none {F : Sk} {h} (a : F h = none) : Dead F h := by intro p k l c; rw [a] at c; cases c
theorem choose_dead {r : Rstr} {ps b s m c} (k : chooseHandle r ps b s m = some c) (hv : r.valid) :
    Dead r.sk c.handle ∧ (c.restores = true ∨ r.sk c.handle = none) := by
  have op : ∀ a b', chooseOpen r ps b a b' = some c → Dead r.sk c.handle ∧ (c.restores = true ∨ r.sk c.handle = none) := by
    intro a b' e
    have : r.free c.handle = true := by
      unfold chooseOpen at e
      split at e
      · next h e' => cases e; exact (lowestOpen_spec e').2.1
      · obtain ⟨h, e', rfl⟩ := Option.map_eq_some_iff.1 e; exact (lowestOpen_spec e').2.1
    exact ⟨dead_none (none_of this), .inr (none_of this)⟩
  unfold chooseHandle at k
  split at k
  · exact op _ _ k
  · split at k
    · next p e =>
      split at k
      · next f => cases k; exact ⟨dead_none (none_of f), .inr (none_of f)⟩
      · split at k
        · next f =>
          cases k
          obtain ⟨a, b, c⟩ := (Option.any_eq_true _ _).1 f
          simp at c
          exact ⟨dead_of b (by simpa using c.1), .inl rfl⟩
        · exact op _ _ k
    · split at k
      · next e f =>
        cases k
        have := List.find?_some f
        simp at this
        exact ⟨dead_of (find_of_mem hv (List.mem_of_find?_eq_some f)) (by simpa using this.1), .inl rfl⟩
      · exact op _ _ k

/-! ### The roster at a naming -/
theorem avoids_dead {F : Sk} {R : Route} (h : RouteF F R) {j} (d : Dead F j) : ∀ st ∈ R, st.junction ≠ j := by
  rintro st hs rfl
  obtain ⟨p, k, e⟩ := h.live hs
  cases d p k true e
theorem removeTree_ok {r : Rstr} (hv : r.valid) {R : Route} (hp : PathsF r.sk) (hr : RouteF r.sk R) {j} (ha :
    ∀ st ∈ R, st.junction ≠ j) :
    PathsF (r.removeTree j).sk ∧ RouteF (r.removeTree j).sk R ∧ ∀ h, (Dead r.sk h → Dead (r.removeTree j).sk h) ∧
        (r.sk h = none → (r.removeTree j).sk h = none) := by
  rw [sk_removeTree hv hp]
  exact ⟨remF_paths hp (tree_closed hp j), hr.map (fun i st hi k => k.rem (hr.notBelow ha i st hi)), fun _ => Dead_rem _⟩
theorem dropMemory_ok {r : Rstr} (hv : r.valid) {R : Route} (hp : PathsF r.sk) (hr : RouteF r.sk R) (s h) :
    PathsF (r.dropMemory s h).sk ∧ RouteF (r.dropMemory s h).sk R := by
  unfold Rstr.dropMemory
  split
  · exact ⟨hp, hr⟩
  · next e f =>
    have := List.find?_some f
    simp at this
    have hd : Dead r.sk e.handle := dead_of (find_of_mem hv (List.mem_of_find?_eq_some f)) (by simpa using this.1.1)
    obtain ⟨a, b, -⟩ := removeTree_ok hv hp hr (avoids_dead hr hd)
    exact ⟨a, b⟩
theorem create_ok {r : Rstr} (hv : r.valid) {R : Route} (hp : PathsF r.sk) (hr : RouteF r.sk R) (s) (c : Choice) (kind n) (hn :
    r.sk c.handle = none) :
    PathsF (r.create s c kind R n).sk ∧ RouteF (r.create s c kind R n).sk R := by
  rw [sk_create hv]
  have ha := avoids_dead hr (dead_none hn)
  refine ⟨putF_paths hp hr ha (fun h p k l _ e st hs hj => ?_), hr.map (fun i st hi k => k.put (ha st (List.mem_of_getElem? hi)))⟩
  obtain ⟨i, hi⟩ := List.mem_iff_getElem?.1 hs
  obtain ⟨k', l', h1, -⟩ := (hp _ _ _ _ e).2 i st hi
  rw [hj, hn] at h1; cases h1
theorem restore_ok {r : Rstr} (hv : r.valid) {R : Route} (hp : PathsF r.sk) (hr : RouteF r.sk R) (old : Entry) (c :
    Choice) (kind n) (ho : r.find old.handle = some old) (hd : Dead r.sk old.handle) :
    PathsF (r.restore old c kind R n).sk ∧ RouteF (r.restore old c kind R n).sk R := by
  have ha := avoids_dead hr hd
  rw [sk_restore hv old c kind R n ho ha]
  have h0 : r.sk old.handle = some (old.path, old.kind, old.live) := by unfold Rstr.sk; rw [ho]; rfl
  split
  · have hp1 : PathsF (remF r.sk (Below r.sk old.handle)) := remF_paths hp (below_closed hp old.handle)
    have hr1 : RouteF (remF r.sk (Below r.sk old.handle)) R :=
        hr.map (fun i st hi k => k.rem (fun b => hr.notBelow ha i st hi (.inr b)))
    refine ⟨putF_paths hp1 hr1 ha (fun h p k l hne e st hs hj => ?_),
        hr1.map (fun i st hi k => k.put (ha st (List.mem_of_getElem? hi)))⟩
    unfold remF at e
    split at e
    · cases e
    · next nb => exact absurd ⟨p, k, l, e, st, hs, hj⟩ nb
  · next hk =>
    have hk : old.path = R ∧ old.kind = kind := by
      constructor
      · exact Classical.not_not.1 (fun c => hk (.inl c))
      · exact Classical.not_not.1 (fun c => hk (.inr c))
    refine ⟨putF_paths hp hr ha (fun h p k l hne e st hs hj => ?_),
        hr.map (fun i st hi k => k.put (ha st (List.mem_of_getElem? hi)))⟩
    exact ⟨old.live, by rw [h0, hk.1, hk.2]⟩

theorem nameEntry_ok (h : Base x) (l : Leaf) (c : Choice) (n kind) (hc : handleValid c.handle) (hd :
    Dead x.rstr.sk c.handle) (hn : c.restores = true ∨ x.rstr.sk c.handle = none) :
    ∃ r, (x.nameEntry l c n kind).1 = x.withRstr r ∧ r.valid ∧ PathsF r.sk ∧ RouteF r.sk x.line.route := by
  unfold State.nameEntry
  dsimp only
  refine ⟨_, rfl, ?_⟩
  have hv := h.1.sound.1
  generalize ho : (if c.restores = true then x.rstr.find c.handle else none) = old
  have key : ∀ r1 : Rstr, r1.valid → PathsF r1.sk → RouteF r1.sk x.line.route →
      Rstr.valid (if c.source = .pin then r1.dropMemory l.stamp c.handle else r1) ∧
          PathsF (Rstr.sk (if c.source = .pin then r1.dropMemory l.stamp c.handle else r1)) ∧
        RouteF (Rstr.sk (if c.source = .pin then r1.dropMemory l.stamp c.handle else r1)) x.line.route := by
    intro r1 a b e
    split
    · exact ⟨Rstr.dropMemory_valid _ _ a, dropMemory_ok a b e _ _⟩
    · exact ⟨a, b, e⟩
  cases old with
  | none =>
    have hnone : x.rstr.sk c.handle = none := by
      rcases hn with a | a
      · rw [if_pos a] at ho; unfold Rstr.sk; rw [ho]; rfl
      · exact a
    obtain ⟨a, b⟩ := create_ok hv h.1.paths h.1.route l.stamp c kind (if l.twins = true then some n else none) hnone
    exact key _ (Rstr.create_valid _ _ _ _ _ hc hv) a b
  | some e =>
    have he : x.rstr.find c.handle = some e := by
      split at ho
      · exact ho
      · cases ho
    have hh := (Rstr.find_mem he).2
    obtain ⟨a, b⟩ := restore_ok hv h.1.paths h.1.route e c kind (if l.twins = true then some n else none) (by rw [hh]; exact he)
        (by rw [hh]; exact hd)
    exact key _ (Rstr.restore_valid _ _ _ _ _ hv) a b
theorem base_namedAt (h : Base x) (r : Rstr) (hv : r.valid) (hp : PathsF r.sk) (hr : RouteF r.sk x.line.route) (l :
    Option Leaf) (hl : ∀ a, l = some a → a.choice = none) :
    Base ((x.withRstr r).putLeaf l) :=
  ⟨⟨⟨hv, fun a e c k => (by rw [hl a e] at k; cases k), h.1.sound.2.2⟩, h.1.depth, hp, hr, h.1.stackFit,
      fun a c e k => (by rw [hl a e] at k; cases k), h.1.busy, h.1.starting, h.1.opened⟩, h.2⟩
theorem listJunction_leaf (a b l) : (x.listJunction a b).putLeaf l = (x.putLeaf l).listJunction a b := by
  unfold State.listJunction
  show State.putLeaf _ _ = (match x.disc.levels with | [] => _ | top :: _ => _)
  cases e : x.disc.levels with
  | nil => rfl
  | cons t ts =>
    dsimp only
    split
    · rfl
    · split
      · rfl
      · unfold Disc.mapTop
        simp only [e]
        unfold State.putLeaf
        simp [e]
theorem tree_nameDone (h : Base x) (l : Leaf) (c : Choice) (n kind) (hc : handleValid c.handle) (hd :
    Dead x.rstr.sk c.handle) (hn : c.restores = true ∨ x.rstr.sk c.handle = none) :
    Tree (x.nameDone d l c n kind) := by
  obtain ⟨r, h1, h2, h3, h4⟩ := nameEntry_ok h l c n kind hc hd hn
  unfold State.nameDone
  generalize he : x.nameEntry l c n kind = p at h1 ⊢
  obtain ⟨p, b⟩ := p
  dsimp only at h1 ⊢
  subst h1
  refine tree_stepDone ?_
  have key : ∀ (L : Option Leaf) f a, (∀ a, L = some a → a.choice = none) →
      Base (State.putLeaf (if kindIsJunction kind = true then ((x.withRstr r).record f).listJunction c.handle a else
          (x.withRstr r).record f) L) := by
    intro L f a hL
    have hb : Base (((x.withRstr r).record f).putLeaf L) := (base_namedAt h r h2 h3 h4 L hL).same' (same_record f)
    split
    · rw [listJunction_leaf]; exact base_listJunction _ _ hb
    · exact hb
  split
  · exact key _ _ _ (fun a e => by cases e; rfl)
  · exact key _ _ _ (fun a e => by cases e; rfl)

theorem LegRoom.same (k : Same' x y) (h : x.disc.LegRoom) : y.disc.LegRoom := (LegRoom_same k.levels).2 h
theorem base_failStep (st : DiscStep) (h : Base x) (hr : st.descends → x.disc.LegRoom) : Tree (x.failStep st) := by
  unfold State.failStep
  dsimp only
  refine tree_stepDone ?_
  cases st
  · exact (h.same' (same_putPass _)).same' (same_frames (x := x.failPass) [] (Nat.zero_le _))
  · exact h.same' (same_putPass _)
  · exact ((h.same' (same_putPass _)).same' (same_putPass _)).same' (same_nextDigit _)
  · exact h.same' same_countFailed
  · exact h.same' (same_putPass _)
  · exact ((h.same' (same_putPass _)).same' (same_record _)).same' same_dropNonce
  · exact base_nextLeg (h.same' same_abandon) (hr (.inl rfl))
  · exact base_nextLeg h (hr (.inr rfl))
theorem Hold.putDisc (h : Hold x (.disc d) sw) (d' : DiscWork) (e : d'.step = d.step) : Hold (x.putDiscWork d') (.disc d') sw :=
    by
  have e1 : x.putDiscWork d' = x.withJobq { x.jobq with grant := some ⟨.disc d', sw, none⟩ } := by
    unfold State.putDiscWork; rw [h.grant]; rfl
  rw [e1]
  refine .mk' (base_grant _ h.base) h.op rfl h.snd.supplied h.snd.lit h.snd.owed (fun d2 c => ?_) (fun s c => ?_)
  · cases c; have := h.snd.disc d rfl; rw [e]; exact this
  · have := (h.snd.switch s c).1
    exact ⟨this.1, fun _ _ _ c => (by cases c), fun _ _ => this.2.2 d rfl⟩
theorem tree_closingEnded (e : SwitchEnd) (h : Base x) (hr : x.disc.LegRoom) : Tree (x.closingEnded e) := by
  unfold State.closingEnded
  split
  · refine tree_stepDone ?_
    split
    · exact base_nextJunction (h.same' same_abandon)
    · exact base_nextLeg h hr
  · exact tree_stepDone (base_nextLeg h hr)
  · exact tree_stepDone (base_nextJunction (h.same' same_abandon))
  · exact tree_stepDone (base_nextJunction (h.same' same_abandon))
theorem went_cases {w} {f : State → SwitchEnd → State} {r : State × Option SwitchEnd} :
    Went w r → (∀ e, r.2 = some e → End r.1 w e → Tree (f r.1 e)) →
    Tree (match r with | (s, none) => s | (s, some e) => f s e) := by
  obtain ⟨s, o⟩ := r
  intro h hf
  cases o with
  | none => exact h
  | some e => exact hf e rfl h
theorem switchNext_end {s : Switch} :
    ∀ e, (x.switchNext s).2 = some e → (x.switchNext s).1 = x.putSwitch none ∧ e.switch.purpose = s.purpose ∧
        e.outcome ≠ .legFault := by
  unfold State.switchNext
  dsimp only
  split
  · split
    · intro e h; cases h
    · intro e h; cases h; exact ⟨rfl, rfl, by simp⟩
  · split
    · intro e h; cases h; exact ⟨rfl, rfl, by simp⟩
    · split
      · intro e h; cases h
      · intro e h; cases h; exact ⟨rfl, rfl, by simp⟩
theorem tree_closeLeg (r) (h : Hold x (.disc d) sw) (hr : x.disc.LegRoom) : Tree (x.closeLeg r) := by
  unfold State.closeLeg
  have hw := went_startSwitch h .closing x.disc.levelRoute r (Disc.levelRoute_le h.base.1.stackFit) (fun _ _ _ e => (by cases e))
    (fun _ _ => ⟨fun _ => hr, fun e => (by cases e), fun _ => rfl⟩)
  refine went_cases (f := State.closingEnded) hw (fun e he hE => tree_closingEnded e hE.hold.base ?_)
  have := (switchNext_end e he).1
  unfold State.startSwitch; rw [this]; exact hr
theorem cursor_levels {d : Disc} {st} (h : d.cursorStep = some st) : d.levels ≠ [] := by
  intro c; unfold Disc.cursorStep at h; rw [c] at h; cases h
theorem tree_openingEnded (e : SwitchEnd) (h : End x (.disc d) e) (hp : e.switch.purpose = .opening) : Tree (x.openingEnded e) :=
    by
  obtain ⟨hr, hc, -⟩ := h.snd.2.2 d rfl
  have hr := hr (.inl hp)
  obtain ⟨st, hc, ht⟩ := hc hp
  have hb := h.hold.base
  unfold State.openingEnded
  split
  · next eo =>
    split
    · refine tree_stepDone ⟨base0_push hb.1 _ _ ?_ hr ?_, ?_⟩
      · rw [h.done eo, ht]
        have := Disc.levelRoute_len hb.1.stackFit (cursor_levels hc)
        simp; omega
      · rw [hc]; simp [cursor_levels hc]
      · intro s a
        have hn := (h.hold.snd.disc d rfl).2.2.1
        have : (x.pushLevel x.line.route x.disc.cursorStep).disc.next = x.disc.next := rfl
        rw [this, hn] at a; cases a
    · exact tree_closeLeg _ h.hold hr
  · exact tree_stepDone (base_nextLeg hb hr)
  · exact tree_stepDone (base_nextJunction (hb.same' same_abandon))
  · exact base_failStep _ hb (fun _ => hr)
theorem same_roll (h b) : Same' x (x.withRstr (x.rstr.rollAnswered h b).1) :=
    same_rstr _ (sk_rollAnswered _ _) (Rstr.rollAnswered_valid _ _)
theorem same_unroll (h b) : Same' x (x.withRstr (x.rstr.rollUnanswered h b).1) :=
    same_rstr _ (sk_rollUnanswered _ _) (Rstr.rollUnanswered_valid _ _)
theorem tree_checkAnswered (j k) (h : Hold x (.disc d) sw) (hr : x.disc.LegRoom) : Tree (x.checkAnswered d j k) := by
  unfold State.checkAnswered
  have h1 := h.same' (same_roll j k)
  dsimp only
  split
  · exact tree_closeLeg _ h1 hr
  · exact tree_stepDone (base_nextLeg h1.base hr)
theorem tree_checkUnanswered (j) (h : Base x) (ha : Route.Avoids (x.line.route.take x.disc.levelRoute.length) j) :
    Tree (x.checkUnanswered j) := by
  unfold State.checkUnanswered
  dsimp only
  refine tree_stepDone (base_nextJunction (Base.same' ?_ same_abandon))
  have e1 : (x.departJunction .closing j).line.route = x.line.route := rfl
  have e2 : (x.departJunction .closing j).disc.levelRoute = x.disc.levelRoute := rfl
  rw [e1, e2]
  exact base_departed h _ j _ (List.take_prefix _ _) ha
theorem tree_checkRolled (j reply) (o : LineOp) (h : Hold x (.disc d) sw) (hq : Quiet sw) (hk : o.kind = .roll) (ha :
    o.audience = j)
    (ho : x.OpSound ⟨.disc d, sw, none⟩ o) : Tree (x.checkRolled d j reply) := by
  have hr := ho.2.2 d hk rfl
  subst ha
  unfold State.checkRolled
  split
  · exact tree_checkAnswered _ _ h hr.1
  · dsimp only
    have h1 := h.same' (same_addError o.audience)
    split
    · refine (h1.putDisc { d with used :=
        d.used + 1 } rfl).startOp _ _ hq ⟨fun _ _ e => (by cases e), fun _ _ _ e => (by cases e), fun _ _ _ => hr⟩
    · exact tree_checkUnanswered _ h1.base hr.2

/-! ### The step's work -/
theorem quietOp (h : Hold x (.disc d) none) (k a) (hp : Plain (.disc d) k) : Tree (x.startOp k a) := h.plain k a Quiet.none hp
theorem tree_beginNaming (l : Leaf) (n left) (h : Hold x (.disc d) none) : Tree (x.beginNaming l n left) := by
  unfold State.beginNaming
  split
  · unfold State.outOfHandles
    dsimp only
    refine tree_stepDone ?_
    have hb := (h.base.same' (same_putPass (fun p => { p with outOfHandles :=
        true }))).same' (same_putPass (fun p => { p with leftUnnamed := satAdd p.leftUnnamed left }))
    exact base_levels hb _ (kept_withDisc_none _ (.refl _) rfl (Nat.zero_le _)) (.inr rfl) (.inl rfl) rfl hb.1.stackFit.2.2
        (Nat.le_refl _)
  · next c e =>
    dsimp only
    have hs := h.base.1.sound
    have hd := choose_dead e hs.1
    have hc := chooseHandle_spec e hs.1 hs.2.2.1 hs.2.2.2
    have fin : ∀ r : Rstr, r.valid → r.sk = x.rstr.sk →
        Hold ((x.withRstr r).putLeaf (some { l with choice := some c })) (.disc d) none := fun r hv hsk => by
      refine .mk' ⟨⟨⟨hv, fun a ea ch ec => (by cases ea; cases ec; exact hc.1), hs.2.2⟩, h.base.1.depth, ?_, ?_, h.base.1.stackFit,
          ?_, h.base.1.busy, h.base.1.starting, h.base.1.opened⟩,
              h.base.2⟩ h.op h.grant h.snd.supplied h.snd.lit h.snd.owed h.snd.disc (fun _ e => by cases e)
      · show PathsF r.sk; rw [hsk]; exact h.base.1.paths
      · show RouteF r.sk _; rw [hsk]; exact h.base.1.route
      · intro a ch ea ec; cases ea; cases ec; show Dead r.sk _ ∧ (_ ∨ r.sk _ = none); rw [hsk]; exact hd
    cases hcr : c.restores with
    | true => exact quietOp (fin x.rstr hs.1 rfl) _ _ trivial
    | false => exact quietOp (fin { x.rstr with reserved := c.handle } (Rstr.reserve_valid hc.1 (hc.2 hcr) hs.1) rfl) _ _ trivial
theorem tree_sendDrop (y h) (hh : Hold x (.disc d) sw) (hq : Quiet sw) : Tree (x.sendDrop d y h) :=
  (hh.putDisc { d with dropping := some y, used := 0 } rfl).plain _ _ hq (fun _ _ _ e => by cases e)
theorem tree_confirm (l : Leaf) (c : Choice) (n k) (hl : x.disc.leaf = some l) (hc : l.choice = some c) (h :
    Hold x (.disc d) sw) (hq : Quiet sw) : Tree (x.confirm d l c n k) := by
  unfold State.confirm
  have hw : ∀ m, Hold (x.putLeaf (some { l with choice := none, mismatch := m })) (.disc d) sw := fun m =>
    h.same' (same_putLeaf_open _ (fun a e => by cases e; rfl))
  split
  · exact tree_sendDrop _ _ (hw true) hq
  · split
    · exact tree_sendDrop _ _ (hw false) hq
    · have := h.base.1.choice l c hl hc
      exact tree_nameDone h.base l c n k (h.base.1.sound.2.1 l hl c hc) this.1 this.2
theorem tree_nameEnded (k n j r) (h : Hold x (.disc d) sw) (hq : Quiet sw) (hk : ∀ d', Plain (.disc d') k) :
    Tree (x.nameEnded d k n j r) := by
  unfold State.nameEnded
  split
  · split
    · exact (h.putDisc { d with nameUsed := d.nameUsed + 1 } rfl).plain _ _ hq (hk _)
    · exact tree_sendDrop _ _ h hq
  · split
    · exact tree_stepDone h.base
    · next l e =>
      split
      · exact tree_stepDone h.base
      · next c e' => exact tree_confirm l c n _ e e' h hq
theorem tree_discDropped (j) (h : Base x) : Tree (x.discDropped d j) := by
  unfold State.discDropped
  split
  · exact tree_stepDone ((h.same' (same_release j)).same' same_countFailed)
  · exact tree_stepDone (h.same' (same_release j))
  · exact tree_stepDone ((h.same' (same_drop none)).same' (same_release j))
theorem tree_dropPending (y j) (h : Base x) : Tree (x.dropPending y j) := by
  unfold State.dropPending
  dsimp only
  have h1 := (h.same' (same_putPass (fun p => { p with failed := true }))).same' (same_drop (some j))
  cases y
  · exact tree_stepDone (h1.same' same_countFailed)
  · exact tree_stepDone h1
theorem tree_hailed (b) (h : Base x) : Tree (x.hailed b) :=
  tree_stepDone (h.same' (same_frames _ (by cases b <;> simp [Config.frameRoom] <;> omega)))
theorem pushFrames_levels (f : List Nibble) : ∀ (ns : List Nat) (d : Disc), ∃ fs p,
    (ns.foldl (fun d n => pushFrame d (f ++ [digitOf n])) d) = { d with frames := fs, pass := p }
  | [], d => ⟨_, _, rfl⟩
  | n :: ns, d => by
    obtain ⟨fs, p, e⟩ := pushFrames_levels f ns (pushFrame d (f ++ [digitOf n]))
    rw [List.foldl_cons, e]
    unfold pushFrame; split <;> exact ⟨_, _, rfl⟩
theorem tree_called (f ns) (h : Base x) : Tree (x.called f ns) := by
  unfold State.called
  split
  · refine tree_stepDone ?_
    have k : Kept x (x.withDisc (ns.reverse.foldl (fun d n => pushFrame d (f ++ [digitOf n])) x.disc)) :=
      kept_withDisc _ (.refl _) (pushFrames_leaf _ _ _) (pushFrames_frames _ _ _)
    obtain ⟨fs, p, e⟩ := pushFrames_levels f ns.reverse x.disc
    rw [e] at k ⊢
    exact h.same' ⟨⟨k, rfl, .of rfl, rfl, rfl, fun l _ a b => ⟨l, a, b⟩⟩, rfl, rfl, rfl⟩
  · split
    · exact tree_stepDone h
    · exact tree_stepDone (h.same' (same_putLeaf_open _ (fun a e => by cases e; rfl)))
theorem same_leaf (l l₀ : Leaf) (h0 : x.disc.leaf = some l₀) (hl : l.choice = l₀.choice) : Same' x (x.putLeaf (some l)) :=
  same_putLeaf _ (kept_putLeaf_same l l₀ (.refl _) h0 hl) (fun a c e k => by cases e; exact ⟨l₀, h0, hl ▸ k⟩)
theorem tree_echoed (ns) (h : Base x) : Tree (x.echoed ns) := by
  unfold State.echoed
  split
  · exact tree_stepDone h
  · next l e =>
    dsimp only
    split
    · split
      · exact tree_stepDone ((h.same' (same_record _)).same' (same_leaf _ l e rfl))
      · exact tree_stepDone (h.same' (same_leaf _ l e rfl))
    · exact tree_stepDone (h.same' (same_leaf _ l e rfl))
theorem tree_discMeasured (j c) (h : Base x) : Tree (x.discMeasured j c) := by
  unfold State.discMeasured
  have h1 := h.same' (same_judgeLow j c)
  generalize x.judgeLow j c = p at h1 ⊢
  obtain ⟨p, b⟩ := p
  dsimp only at h1 ⊢
  split
  · exact tree_stepDone ((h1.same' (same_record _)).same' same_dropNonce)
  · exact tree_stepDone (h1.same' same_dropNonce)

theorem Hold.dstate (h : Hold x (.disc d) none) (st : DiscState) (h1 : st ≠ .idle) (h2 : st ≠ .armed) :
    Hold (x.withDisc { x.disc with state := st }) (.disc d) none := by
  have k : Same x (x.withDisc { x.disc with state := st }) :=
    ⟨kept_withDisc _ (.refl _) rfl (Nat.le_max_left _ _), rfl, .of rfl, rfl, rfl, fun l _ a b => ⟨l, a, b⟩⟩
  exact ⟨h.base.same k rfl, h.op, h.grant, h.snd.same k (fun _ _ => ⟨rfl, .inr ⟨h1, h2⟩⟩)⟩
theorem tree_stepBody (h : Hold x (.disc d) none) (hr :
    d.step = .returnCheck → x.line.route.take x.disc.levelRoute.length = x.disc.levelRoute) : Tree (x.stepBody d) := by
  have h1 := h.dstate d.step.state (by cases d.step <;> simp [DiscStep.state]) (by cases d.step <;> simp [DiscStep.state])
  unfold State.stepBody
  dsimp only
  generalize hy : x.withDisc { x.disc with state := d.step.state } = y at h1 ⊢
  have hr : d.step = .returnCheck → y.line.route.take y.disc.levelRoute.length = y.disc.levelRoute := by subst hy; exact hr
  split
  · exact quietOp h1 _ _ trivial
  · exact quietOp h1 _ _ trivial
  · split
    · exact tree_stepDone h1.base
    · next l e => exact quietOp (h1.same' (same_leaf _ l e (by split <;> rfl))) _ _ trivial
  · split
    · exact tree_stepDone h1.base
    · split
      · exact tree_beginNaming _ _ _ h1
      · exact tree_stepDone h1.base
  · split
    · exact tree_stepDone h1.base
    · exact quietOp h1 _ _ (fun _ _ _ e => by cases e)
  · split
    · exact tree_stepDone h1.base
    · split
      · exact quietOp (h1.same' (same_rate _)) _ _ trivial
      · exact tree_stepDone (h1.base.same' same_dropNonce)
  · next es =>
    split
    · exact tree_stepDone h1.base
    · next st e =>
      have room := (h1.snd.disc d rfl).2.2.2 (.inl es)
      have hlen := Disc.levelRoute_len h1.base.1.stackFit (cursor_levels e)
      have hw := went_startSwitch h1 .opening (y.disc.levelRoute ++ [st]) y.link.settings.stepRetries
        (by unfold Disc.LegRoom at room; simp only [Config.routeRoom] at room; simp; omega) (fun _ _ _ e => (by cases e))
        (fun _ _ => ⟨fun _ => room, fun _ => ⟨st, e, rfl⟩, fun c => absurd rfl c⟩)
      exact went_cases (f := State.openingEnded) hw (fun e he hE => tree_openingEnded e hE (switchNext_end e he).2.1)
  · next es =>
    split
    · exact tree_stepDone h1.base
    · next j e =>
      split
      · next g =>
        have room := (h1.snd.disc d rfl).2.2.2 (.inr es)
        refine h1.startOp _ _ Quiet.none ⟨fun _ _ e => (by cases e), fun _ _ _ e => (by cases e), fun _ _ _ => ⟨room, ?_⟩⟩
        rw [hr es]
        unfold Rstr.listedGood at g
        obtain ⟨a, b, c⟩ := (Option.any_eq_true _ _).1 g
        simp at c
        have : y.rstr.sk j.handle = some (y.disc.levelRoute, a.kind, a.live) := by unfold Rstr.sk; rw [b, ← c.2]; rfl
        exact h1.base.1.paths.avoids this
      · exact tree_stepDone (base_nextJunction (h1.base.same' same_abandon))

end Sys2Proof.Machine
end

