-- ==== Sys2Proof/Laws/TreeArbiter.lean ====
section
/-! SUPPORT. The tool's tree stays sound: jobs, the sweep, the grants and the dealing with a taint keep TreeSound (R10, R141 to R154). -/

namespace Sys2Proof.Machine

variable {x y z : State} {w : Work} {sw : Option Switch} {d : DiscWork}

theorem depth_lt {ls : List Level} (h : levelsSound ls) : ∀ l ∈ ls, l.depth < ls.length := by
  induction ls with
  | nil => intro l hl; cases hl
  | cons a as ih =>
    intro l hl
    rcases List.mem_cons.1 hl with rfl | hl
    · rw [h.1]; simp
    · have := ih h.2.2.2 l hl; simp; omega
theorem filter_levels {ls : List Level} (n : Nat) (h : levelsSound ls) :
    levelsSound (ls.filter (fun l => decide (l.depth ≤ n))) ∧ (ls.filter (fun l => decide (l.depth ≤ n))).length ≤ n + 1 := by
  induction ls with
  | nil => exact ⟨trivial, Nat.zero_le _⟩
  | cons a as ih =>
    rw [List.filter_cons]
    split
    · next c =>
      have c : a.depth ≤ n := by simpa using c
      have : as.filter (fun l => decide (l.depth ≤ n)) = as := by
        rw [List.filter_eq_self]; intro l hl
        have := depth_lt h.2.2.2 l hl
        have := h.1
        simp; omega
      rw [this]
      have := h.1
      exact ⟨h, by simp; omega⟩
    · exact ih h.2.2.2
theorem tree_restoreFailed (o) (h : Base x) (hl : o = .legFault → x.line.route.length < 4) : Tree (x.restoreFailed o) := by
  unfold State.restoreFailed
  dsimp only
  obtain ⟨h1, h2⟩ := filter_levels x.line.route.length h.1.stackFit.2.2
  have hb : Base (x.withDisc
      { x.disc with levels := x.disc.levels.filter (fun l => decide (l.depth ≤ x.line.route.length)), frames := [], pass :=
          Pass.cleared, leaf := none, abandoned := true }) :=
    base_levels h _ (kept_withDisc_none _ (.refl _) rfl (Nat.zero_le _)) (.inr rfl) (.inl rfl) rfl h1 (List.length_filter_le _ _)
  split
  · next e =>
    refine tree_stepDone (base_nextLeg hb ?_)
    have := hl e
    unfold Disc.LegRoom; simp only [withDisc_disc, Config.routeRoom]; omega
  · exact tree_stepDone (base_nextJunction hb)
theorem tree_restoreEnded (e : SwitchEnd) (h : End x (.disc d) e) (hp : e.switch.purpose ≠ .opening) :
    Tree (x.restoreEnded d e) := by
  have hs := h.snd.2.2 d rfl
  have ht := hs.2.2 hp
  have hb := h.hold.base
  have hl := h.snd.1
  simp only [Config.routeRoom] at hl
  unfold State.restoreEnded
  split
  · next eo => exact tree_stepBody h.hold (fun _ => by rw [h.done eo, ht]; simp)
  · next eo => exact tree_restoreFailed _ hb (fun c => by rw [eo] at c; cases c)
  · next eo => exact tree_restoreFailed _ hb (fun c => by have := h.fault eo; omega)
  · exact base_failStep _ hb (fun c => (h.hold.snd.disc d rfl).2.2.2 c)

/-! ### Jobs -/
theorem tree_endJob (j c p) (h : Base x) : Tree (x.endJob j c p) := by
  unfold State.endJob
  have hb := ((base_grant none h).same' (same_rate ⟨none⟩)).same' (same_answer j.tag c p)
  refine Tree.none hb ?_
  exact (same_answer (x := State.dropChoices _) j.tag c p).grant
theorem tree_jobOp (j : Job) {r u} (h : Hold x (.job j r u) none) (hr : j.kind = .drop → Route.Avoids x.line.route j.handle) :
    Tree (x.jobOp j) := by
  unfold State.jobOp
  split
  · exact h.plain _ _ Quiet.none trivial
  · exact h.plain _ _ Quiet.none (fun _ e => by cases e)
  · exact (h.same' (same_rate _)).plain _ _ Quiet.none trivial
  · exact h.plain _ _ Quiet.none trivial
  · next e =>
    refine h.startOp _ _ Quiet.none ⟨fun _ _ e => (by cases e), fun j' r u _ e => ?_, fun _ e => (by cases e)⟩
    cases e; exact hr e
theorem tree_jobSwitched (j : Job) (e) {r u} (h : End x (.job j r u) e) : Tree (x.jobSwitched j e) := by
  unfold State.jobSwitched
  split
  · next eo => exact tree_jobOp j h.hold (fun _ => by rw [h.done eo]; exact h.snd.2.1 j r u rfl)
  · exact tree_endJob _ _ _ h.hold.base
/-- The arbiter may grant (R141). -/
structure Ready (x : State) : Prop where
  base : Base x
  grant : x.jobq.grant = none
  pow : x.ssw.state = .on ∧ x.live = true
  idle : x.line.state = .idle
  op : x.line.op = none
  owed : x.line.startUp = none
theorem Ready.same' (h : Ready x) (k : Same' x y) : Ready y :=
  ⟨h.base.same' k, k.grant.trans h.grant, by rw [k.kept.ssw, live_kept k.kept]; exact h.pow, k.line.state.trans h.idle,
      k.line.op.trans h.op, k.line.startUp.trans h.owed⟩
theorem Ready.hold (h : Ready x) (w : Work) (hw : ∀ d, w ≠ .disc d) :
    Hold (x.withJobq { x.jobq with grant := some ⟨w, none, none⟩ }) w none :=
  .mk' (base_grant _ h.base) h.op rfl h.pow (.inl h.idle) h.owed (fun d e => absurd e (hw d)) (fun _ e => by cases e)
theorem Ready.tree (h : Ready x) : Tree x := Tree.none h.base h.grant
theorem canGrant_ready (h : Base x) (c : x.canGrant = true) : Ready x := by
  unfold State.canGrant at c
  simp only [Bool.and_eq_true, Option.isNone_iff_eq_none, beq_iff_eq] at c
  obtain ⟨⟨⟨⟨a, b⟩, c⟩, d⟩, e⟩ := c
  refine ⟨h, a, ⟨d, by unfold State.live; simp [e]⟩, b, ?_, ?_⟩
  · cases e : x.line.op with
    | none => rfl
    | some o => have := h.1.busy (by simp [e]); rw [b] at this; cases this
  · cases e : x.line.startUp with
    | none => rfl
    | some o => have := h.1.starting (by simp [e]); rw [c] at this; cases this
theorem paths_len (h : Base x) {a e} (f : x.rstr.find a = some e) : e.path.length ≤ 4 ∧ Route.Avoids e.path a := by
  have hk : x.rstr.sk a = some (e.path, e.kind, e.live) := by unfold Rstr.sk; rw [f]; rfl
  exact ⟨(h.1.paths _ _ _ _ hk).1, h.1.paths.avoids hk⟩
theorem tree_beginJob (j : Job) (h : Ready x) : Tree (x.beginJob j) := by
  unfold State.beginJob
  split
  · exact h.tree.same' (same_answer ..)
  · dsimp only
    have hh := h.hold (.job j x.link.settings.exchangeRetries 0) (fun _ e => by cases e)
    split
    · next e => exact tree_jobOp j hh (fun c => by rw [e] at c; cases c)
    · have hp : (((x.rstr.find j.handle).map (fun e => e.path)).getD []).length ≤ 4 ∧
        Route.Avoids (((x.rstr.find j.handle).map (fun e => e.path)).getD []) j.handle := by
        cases f : x.rstr.find j.handle with
        | none => exact ⟨Nat.zero_le _, fun _ e => by cases e⟩
        | some e => exact paths_len h.base f
      exact went_cases (f :=
          fun s e => State.jobSwitched s j e)
              (went_startSwitch hh .job _ _ hp.1 (fun _ _ _ e => (by cases e; exact hp.2)) (fun _ e => (by cases e)))
        (fun e _ hE => tree_jobSwitched j e hE)
theorem Hold.retry {g : Work} (h : Hold x g sw) :
    Hold (x.withJobq { x.jobq with grant := x.jobq.grant.map Grant.retry }) (Grant.retry ⟨g, sw, none⟩).work sw := by
  rw [h.grant]
  refine .mk' (base_grant _ h.base) h.op ?_ h.snd.supplied h.snd.lit h.snd.owed (fun d e => ?_) (fun s e => ?_)
  · show some (Grant.retry _) = _
    unfold Grant.retry; cases g <;> rfl
  · unfold Grant.retry at e
    cases g <;> simp at e
    subst e; have := h.snd.disc _ rfl; exact this
  · have hs := (h.snd.switch s e).1
    refine ⟨hs.1, fun j r u e => ?_, fun d e => ?_⟩
    · unfold Grant.retry at e; cases g <;> simp at e
      obtain ⟨rfl, -⟩ := e; exact hs.2.1 _ _ _ rfl
    · unfold Grant.retry at e; cases g <;> simp at e
      exact hs.2.2 _ rfl
theorem tree_rerun {g : Work} (h : Hold x g sw) (hq : Quiet sw) (k a) (o : LineOp) (hk : o.kind = k) (ha : o.audience = a) (ho :
    x.OpSound ⟨g, sw, none⟩ o) : Tree (x.rerun k a) := by
  subst hk ha
  refine h.retry.startOp _ _ hq ?_
  refine ⟨fun l s e f => ho.1 l s e f, fun j r u e f => ?_, fun d e f => ?_⟩
  · unfold Grant.retry at f; cases g <;> simp at f
    obtain ⟨rfl, -⟩ := f; exact ho.2.1 _ _ _ e rfl
  · unfold Grant.retry at f; cases g <;> simp at f
    exact ho.2.2 _ e rfl
theorem tree_jobRolled (j : Job) (r u reply) (h : Hold x (.job j r u) sw) (hq : Quiet sw) : Tree (x.jobRolled j r u reply) := by
  unfold State.jobRolled
  split
  · exact tree_endJob _ _ _ (h.base.same' (same_roll ..))
  · dsimp only
    have h1 := h.same' (same_addError j.handle)
    split
    · exact tree_rerun h1 hq _ _ ⟨.roll, j.handle, 0, [], 0⟩ rfl rfl (OpSound.plain (fun _ e => by cases e))
    · exact tree_endJob _ _ _ (h1.base.same' (same_unroll ..))
theorem tree_jobExchanged (j : Job) (r u p reply) (h : Hold x (.job j r u) sw) (hq : Quiet sw) :
    Tree (x.jobExchanged j r u (.data p) reply) := by
  unfold State.jobExchanged
  split
  · exact tree_endJob _ _ _ h.base
  · dsimp only
    have h1 := h.same' (same_addError j.handle)
    split
    · exact tree_rerun h1 hq _ _ ⟨.data p, j.handle, 0, [], 0⟩ rfl rfl (OpSound.plain trivial)
    · exact tree_endJob _ _ _ h1.base
theorem tree_jobMeasured (j : Job) (c) (h : Base x) : Tree (x.jobMeasured j c) := by
  unfold State.jobMeasured
  exact tree_endJob _ _ _ (h.same' (same_judgeLow ..))
theorem tree_jobDropped (j : Job) (h : Base x) (ha : Route.Avoids x.line.route j.handle) : Tree (x.jobDropped j) := by
  unfold State.jobDropped
  obtain ⟨a, b, c⟩ := removeTree_ok h.1.sound.1 h.1.paths h.1.route ha
  exact tree_endJob _ _ _ (base_rr h _ x.line.route (Rstr.removeTree_valid _) a b c)

/-! ### The sweep -/
theorem same_putSweep (s) : Same' x (x.putSweep s) := same_jobq _ rfl (Nat.le_refl _) (Nat.le_refl _)
theorem same_endSweep (c) : Same' x (x.endSweep c) := by
  unfold State.endSweep; split
  · exact .rfl'
  · exact (same_putSweep none).trans (same_answer ..)
theorem same_sweepPassEnd (w) : Same' x (x.sweepPassEnd w) := by
  unfold State.sweepPassEnd; dsimp only
  split <;> split
  · exact ((same_raise _).trans (same_putSweep _)).trans (same_endSweep _)
  · exact (same_putSweep _).trans (same_endSweep _)
  · exact (same_raise _).trans (same_putSweep _)
  · exact same_putSweep _
theorem same_sweepSeek : Same' x x.sweepSeek := by
  unfold State.sweepSeek; split
  · exact .rfl'
  · split
    · exact same_sweepPassEnd _
    · exact .rfl'
theorem same_sweepLook : Same' x x.sweepLook := same_sweepSeek.trans same_sweepSeek
theorem tree_endRoll (a n) (h : Base x) : Tree (x.endRoll a n) := by
  unfold State.endRoll
  have hb : Tree (x.withJobq { x.jobq with grant := none }) := Tree.none (base_grant none h) rfl
  dsimp only
  split
  · exact hb
  · split
    · exact (hb.same' (same_putSweep _)).same' (same_endSweep _)
    · exact (hb.same' (same_putSweep _)).same' same_sweepLook
theorem tree_sweepSwitched (a e) {r u} (h : End x (.sweep a r u) e) : Tree (x.sweepSwitched a e) := by
  unfold State.sweepSwitched; split
  · exact h.hold.plain _ _ Quiet.none (fun _ e => by cases e)
  · exact tree_endRoll _ _ h.hold.base
theorem tree_beginRoll (e : Entry) (h : Ready x) (he : x.rstr.find e.handle = some e) : Tree (x.beginRoll e) := by
  unfold State.beginRoll
  have hh := h.hold (.sweep e.handle x.link.settings.exchangeRetries 0) (fun _ e => by cases e)
  exact went_cases (f :=
      fun s y => State.sweepSwitched s e.handle y)
          (went_startSwitch hh .sweep e.path _ (paths_len h.base he).1 (fun _ _ _ e => (by cases e)) (fun _ e => (by cases e)))
    (fun y _ hE => tree_sweepSwitched _ y hE)
theorem tree_sweepRolled (a r u reply) (h : Hold x (.sweep a r u) sw) (hq : Quiet sw) : Tree (x.sweepRolled a r u reply) := by
  unfold State.sweepRolled
  split
  · exact tree_endRoll _ _ (h.base.same' (same_roll ..))
  · dsimp only
    have h1 := h.same' (same_addError a)
    split
    · exact tree_rerun h1 hq _ _ ⟨.roll, a, 0, [], 0⟩ rfl rfl (OpSound.plain (fun _ e => by cases e))
    · exact tree_endRoll _ _ (h1.base.same' (same_unroll ..))

/-! ### The arbiter -/
theorem claim_disc {b : Bool} {st : DiscStep} (h : x.claim b = some (.disc st)) :
    x.disc.state ≠ .idle ∧ x.disc.state ≠ .armed ∧ x.disc.next = some st := by
  have hu : x.urgentClaim ≠ some (.disc st) := by unfold State.urgentClaim; split <;> simp
  have hl : x.lowClaim ≠ some (.disc st) := by
    unfold State.lowClaim; split
    · simp
    · split
      · simp
      · split <;> simp
  have hd : x.discClaim = some (.disc st) → x.disc.state ≠ .idle ∧ x.disc.state ≠ .armed ∧ x.disc.next = some st := by
    unfold State.discClaim; intro e; split at e
    · next c =>
      obtain ⟨a, e1, e2⟩ := Option.map_eq_some_iff.1 e
      cases e2
      refine ⟨?_, c.2.1, e1⟩
      have := c.1; unfold Disc.running at this; simp at this; exact this.1
    · cases e
  unfold State.claim at h
  cases e1 : x.discClaim <;> cases e2 : x.urgentClaim <;> cases b <;> simp_all [Option.or]
theorem stepOpen_same (st) : ∃ p fs, (x.stepOpen st).1 = x.withDisc { x.disc with pass := p, frames :=
    fs } ∧ fs.length ≤ x.disc.frames.length := by
  unfold State.stepOpen
  cases st
  · exact ⟨_, _, rfl, Nat.le_refl _⟩
  · exact ⟨_, _, rfl, by simp⟩
  all_goals exact ⟨_, _, rfl, Nat.le_refl _⟩
theorem tree_beginStep (st : DiscStep) (h : Ready x) (h1 : x.disc.state ≠ .idle) (h2 : x.disc.state ≠ .armed) (h3 :
    x.disc.next = some st) : Tree (x.beginStep st) := by
  unfold State.beginStep
  have hroom : st.descends → x.disc.LegRoom := h.base.2 st h3
  obtain ⟨p, fs, he, hf⟩ := stepOpen_same (x := x.withDisc { x.disc with waiting := false, next := none }) st
  have hfst : x.disc.frames = (x.withDisc { x.disc with waiting := false, next := none }).disc.frames := rfl
  rw [← hfst] at hf
  generalize hg : (x.withDisc { x.disc with waiting := false, next := none }).stepOpen st = q at he ⊢
  obtain ⟨y, f⟩ := q
  dsimp only at he ⊢
  have ky : Same x y := by
    subst he
    exact ⟨kept_withDisc _ (kept_withDisc _ (.refl _) rfl (Nat.le_max_left _ _)) rfl (Nat.le_trans hf (Nat.le_max_left _ _)),
        rfl, .of rfl, rfl, rfl, fun l _ a b => ⟨l, a, b⟩⟩
  have hn : y.disc.next = none := by subst he; rfl
  have hst : y.disc.state = x.disc.state := by subst he; rfl
  have hb : Base y := ⟨h.base.1.same ky, fun s e => by rw [hn] at e; cases e⟩
  have hgr : y.jobq = x.jobq := by subst he; rfl
  generalize hd : (⟨st, y.link.settings.stepRetries, 0, f, y.link.settings.nameRetries, 0, y.link.settings.autoCalibrate, none⟩ :
      DiscWork) = d
  have hds : d.step = st := by subst hd; rfl
  have hh : Hold (y.withJobq { y.jobq with grant := some ⟨.disc d, none, none⟩ }) (.disc d) none :=
    .mk' (base_grant _ hb) (ky.line.op.trans h.op) rfl
        (by have := h.pow; rw [← live_kept ky.kept, ← ky.kept.ssw] at this; exact this)
      (.inl (ky.line.state.trans h.idle)) (ky.line.startUp.trans h.owed)
      (fun d' e => by
        cases e
        refine ⟨by show y.disc.state ≠ _; rw [hst]; exact h1, by show y.disc.state ≠ _; rw [hst]; exact h2, hn, fun c => ?_⟩
        rw [hds] at c; exact (LegRoom_same ky.levels).2 (hroom c))
      (fun _ e => by cases e)
  generalize y.withJobq { y.jobq with grant := some ⟨.disc d, none, none⟩ } = z at hh ⊢
  split
  · next e =>
    refine tree_stepBody hh (fun c => ?_)
    rw [e]
    unfold State.neededRoute
    dsimp only
    split
    · next c2 =>
      obtain ⟨-, c2⟩ := c2
      obtain ⟨st', a, b⟩ := (Option.any_eq_true _ _).1 c2
      rw [beq_iff_eq] at b
      rw [b]; simp
    · simp
  · next e =>
    have hh2 := hh.dstate .restoring (by simp) (by simp)
    have hnr : z.neededRoute st = z.disc.levelRoute := by
      unfold State.neededRoute at e ⊢
      dsimp only at e ⊢
      split
      · next c2 => rw [if_pos c2] at e; exact absurd rfl e
      · rfl
    rw [hnr]
    refine went_cases (f :=
        fun s e => State.restoreEnded s d e)
            (went_startSwitch hh2 .restore z.disc.levelRoute _ (Disc.levelRoute_le hh.base.1.stackFit) (fun _ _ _ e => (by cases e))
      (fun _ _ => ⟨fun c => (by rcases c with c | c <;> cases c), fun c => (by cases c), fun _ => rfl⟩))
          (fun e he hE => tree_restoreEnded e hE ?_)
    rw [(switchNext_end e he).2.1]; intro c; cases c
theorem tree_beginKeepalive (h : Ready x) : Tree x.beginKeepalive := by
  unfold State.beginKeepalive
  exact (h.hold .keepalive (fun _ e => by cases e)).plain _ _ Quiet.none trivial
theorem tree_grantClaim {b : Bool} (c : Claim) (h : Ready x) (hc : x.claim b = some c) : Tree (x.grantClaim c).1 := by
  unfold State.grantClaim
  split
  · next j js =>
    have hu := claim_urgent hc
    exact tree_beginJob j (h.same' (same_jobq _ rfl (by rw [hu]; simp) (Nat.le_refl _)))
  · next st => 
    obtain ⟨a, b, c⟩ := claim_disc hc
    exact tree_beginStep st h a b c
  · next j js =>
    have hu := claim_normal hc
    exact tree_beginJob j (h.same' (same_jobq _ rfl (Nat.le_refl _) (by rw [hu]; simp)))
  · split
    · next e he =>
      refine tree_beginRoll e h ?_
      obtain ⟨w, -, hn⟩ := Option.bind_eq_some_iff.1 he
      exact find_of_mem h.base.1.sound.1 (List.mem_of_find?_eq_some hn)
    · exact h.tree.same' same_sweepLook
  · exact tree_beginKeepalive h
theorem tree_arbitrateFrom : ∀ (n : Nat) (b : Bool) {x : State}, Tree x → Tree (x.arbitrateFrom n b)
  | 0, _, _, h => h
  | n + 1, b, x, h => by
    unfold State.arbitrateFrom
    split
    · next c =>
      split
      · exact h
      · next cl hc =>
        have := tree_grantClaim cl (canGrant_ready h.1 c) hc
        generalize x.grantClaim cl = p at this
        obtain ⟨y, f⟩ := p
        exact tree_arbitrateFrom n f this
    · exact h
theorem tree_arbitrate (h : Tree x) : Tree x.arbitrate := tree_arbitrateFrom _ _ h
theorem tree_regrant (b) (h : Tree x) : Tree (x.regrant b) := tree_arbitrateFrom _ _ h

/-! ### Ends and taints -/
theorem tree_switchEnded (w : Work) (e) (h : End x w e) : Tree (x.switchEnded w e) := by
  unfold State.switchEnded
  split
  · exact tree_jobSwitched _ _ h
  · exact tree_sweepSwitched _ _ h
  · next d =>
    split
    · next c => exact tree_openingEnded e h c
    · next c => exact tree_closingEnded e h.hold.base ((h.snd.2.2 d rfl).1 (.inr c))
    · next c => exact tree_restoreEnded e h (by rw [c]; simp)
    · next c => exact tree_restoreEnded e h (by rw [c]; simp)
    · next c => exact tree_restoreEnded e h (by rw [c]; simp)
  · exact h.hold.tree
theorem tree_went (r : State × Option SwitchEnd) (w) (h : Went w r) : Tree (State.switchWent r w) := by
  unfold State.switchWent
  unfold Went at h
  split
  · next e => rw [e] at h; exact h
  · next e => rw [e] at h; exact tree_switchEnded _ _ h
theorem tree_jobTainted (j : Job) (r u) (o : LineOp) (h : Hold x (.job j r u) sw) (hq : Quiet sw) (ho :
    x.OpSound ⟨.job j r u, sw, none⟩ o) : Tree (x.jobTainted j r u o) := by
  unfold State.jobTainted; split
  · exact tree_rerun h hq _ _ o rfl rfl ho
  · exact tree_endJob _ _ _ h.base
theorem tree_sweepTainted (a r u) (h : Hold x (.sweep a r u) sw) (hq : Quiet sw) : Tree (x.sweepTainted a r u) := by
  unfold State.sweepTainted; split
  · exact tree_rerun h hq _ _ ⟨.roll, a, 0, [], 0⟩ rfl rfl (OpSound.plain (fun _ e => by cases e))
  · exact tree_endRoll _ _ h.base
theorem tree_discTainted (o : LineOp) (h : Hold x (.disc d) sw) (hq : Quiet sw) (ho : x.OpSound ⟨.disc d, sw, none⟩ o) :
    Tree (x.discTainted d o) := by
  unfold State.discTainted; split
  · refine (h.putDisc { d with used := d.used + 1 } rfl).startOp _ _ hq ?_
    exact ⟨fun l s e f => ho.1 l s e f, fun _ _ _ _ e => (by cases e), fun _ e _ => ho.2.2 d e rfl⟩
  · split
    · exact tree_sendDrop _ _ h hq
    · exact tree_dropPending _ _ h.base
    · exact base_failStep _ (h.base.same' (same_rate _)) (fun c => (h.snd.disc d rfl).2.2.2 c)
theorem tree_keepTainted (h : Base x) : Tree x.keepaliveTainted := by
  refine Tree.none (base_grant none (x := x.withLine { x.line with keepaliveDue := true }) ?_) rfl
  exact h.same' ⟨⟨by simp, rfl, ⟨rfl, rfl, rfl, rfl⟩, rfl, rfl, fun l _ a b => ⟨l, a, b⟩⟩, rfl, rfl, rfl⟩
theorem tree_dealTaint (g : Grant) (o : LineOp) (h : Tree x) (hg : x.jobq.grant = some g) (ht : g.tainted = some o) :
    Tree (x.dealTaint g o) := by
  have hs := h.2 g hg
  have hop := hs.tainted (by rw [ht]; simp)
  obtain ⟨w, sw, ta⟩ := g
  simp only at ht; subst ht
  have hq : Quiet sw := by
    intro s e
    have := (hs.switch s e).2
    constructor
    · cases c : s.settle with
      | none => rfl
      | some v => have := (this (.inl (by rw [c]; simp))).2; cases this
    · cases c : s.resume with
      | false => rfl
      | true => have := (this (.inr c)).2; cases this
  have hh : Hold (x.withJobq { x.jobq with grant := some ⟨w, sw, none⟩ }) w sw :=
    .mk' (base_grant _ h.1) hop rfl hs.supplied hs.lit hs.owed hs.disc (fun s e => (hs.switch s e).1)
  have ho : (x.withJobq { x.jobq with grant := some ⟨w, sw, none⟩ }).OpSound ⟨w, sw, none⟩ o := hs.op o (.inr rfl)
  unfold State.dealTaint
  dsimp only
  generalize x.withJobq { x.jobq with grant := some ⟨w, sw, none⟩ } = y at hh ho
  cases sw with
  | some s => exact tree_went _ _ (went_legTainted hh _ _ hq o rfl rfl ho)
  | none =>
    cases w with
    | job j r u => exact tree_jobTainted j r u o hh hq ho
    | sweep a r u => exact tree_sweepTainted a r u hh hq
    | disc d => exact tree_discTainted o hh hq ho
    | keepalive => exact tree_keepTainted hh.base

end Sys2Proof.Machine
end

