-- ==== Sys2Proof/Laws/TreeEvents.lean ====
section
/-! SUPPORT. The tool's tree stays sound: the events of the coupling, the supply and the line keep TreeSound (R6 to R14, R20 to R25, R44, R45). -/

namespace Sys2Proof.Machine

variable {x y z : State} {w : Work} {sw : Option Switch} {d : DiscWork}

theorem choice_iff {r : Rstr} {h : Nat} {b : Bool} :
    (∀ e, r.find h = some e → e.state = .departed ∧ b = true) ↔ Dead r.sk h ∧ (b = true ∨ r.sk h = none) := by
  unfold Dead Rstr.sk
  cases f : r.find h with
  | none => simp
  | some e =>
    simp only [Option.map_some, Option.some.injEq, forall_eq', skel, Prod.mk.injEq, reduceCtorEq, or_false]
    constructor
    · rintro ⟨a, b⟩; exact ⟨fun p k l c => by rw [← c.2.2]; exact (live_false e).2 a, b⟩
    · rintro ⟨a, b⟩; exact ⟨(live_false e).1 (a _ _ _ ⟨rfl, rfl, rfl⟩), b⟩
theorem ts_of (h : Tree x) : x.TreeSound where
  paths := (pathsF _).2 h.1.1.paths
  route := (routeF _ _).2 h.1.1.route
  stackFit := h.1.1.stackFit
  next := h.1.2
  choice := fun l c e a b f => choice_iff.2 (h.1.1.choice l c a b) e f
  busy := h.1.1.busy
  starting := h.1.1.starting
  opened := h.1.1.opened
  grant := h.2
theorem tree_of (hr : x.RosterSound) (hd : x.link.settings.maxDepth ≤ 4) (h : x.TreeSound) : Tree x :=
  ⟨⟨⟨hr, hd, (pathsF _).1 h.paths, (routeF _ _).1 h.route, h.stackFit,
      fun l c a b => choice_iff.1 (fun e f => h.choice l c e a b f), h.busy, h.starting, h.opened⟩, h.next⟩, h.grant⟩

theorem SwitchSound_re {w s} (hd : y.disc = x.disc) (h : x.SwitchSound w s) : y.SwitchSound w s :=
    by unfold State.SwitchSound at *; rw [hd]; exact h
theorem OpSound_re {g o} (hr : y.rstr = x.rstr) (hd : y.disc = x.disc) (hl : y.line.route = x.line.route) (h : x.OpSound g o) :
    y.OpSound g o := by
  unfold State.OpSound at *; rw [hr, hd, hl]; exact h
theorem grant_re {g} (hr : y.rstr = x.rstr) (hd : y.disc = x.disc) (hl : SameLine x y) (hp :
    x.ssw.state = .on ∧ x.live = true → y.ssw.state = .on ∧ y.live = true)
    (h : x.GrantSound g) : y.GrantSound g :=
  ⟨hp h.supplied, by rw [hl.state]; exact h.lit, hl.startUp.trans h.owed, by rw [hl.op]; exact h.tainted,
      by rw [hd]; exact h.disc,
    fun s e => ⟨SwitchSound_re hd (h.switch s e).1, by rw [hl.op]; exact (h.switch s e).2⟩,
        fun o e => OpSound_re hr hd hl.route (h.op o (by rw [← hl.op]; exact e))⟩
theorem ts_re (h : x.TreeSound) (hr : y.rstr = x.rstr) (hd : y.disc = x.disc) (hl : SameLine x y) (hg :
    y.jobq.grant = x.jobq.grant)
    (hp : x.ssw.state = .on ∧ x.live = true → y.ssw.state = .on ∧ y.live = true) : y.TreeSound :=
  ⟨by rw [hr]; exact h.paths, by rw [hr, hl.route]; exact h.route, by rw [hd]; exact h.stackFit, by rw [hd]; exact h.next,
      by rw [hr, hd]; exact h.choice,
   by rw [hl.op, hl.state]; exact h.busy, by rw [hl.startUp, hd]; exact h.starting, by rw [hd, hl.state]; exact h.opened,
   fun g e => grant_re hr hd hl hp (h.grant g (hg ▸ e))⟩
theorem base_re (h : Base x) (hr : y.rstr = x.rstr) (hd : y.disc = x.disc) (hl : SameLine x y) (hp : y.pins = x.pins) (hs :
    y.link.settings = x.link.settings) : Base y :=
  ⟨⟨by unfold State.RosterSound; rw [hr, hd, hp, hs]; exact h.1.sound, by rw [hs]; exact h.1.depth, by rw [hr]; exact h.1.paths,
      by rw [hr, hl.route]; exact h.1.route,
    by rw [hd]; exact h.1.stackFit, by rw [hr, hd]; exact h.1.choice, by rw [hl.op, hl.state]; exact h.1.busy,
        by rw [hl.startUp, hd]; exact h.1.starting, by rw [hd, hl.state]; exact h.1.opened⟩,
   by rw [hd]; exact h.2⟩
theorem tree_re (h : Tree x) (hr : y.rstr = x.rstr) (hd : y.disc = x.disc) (hl : SameLine x y) (hg : y.jobq.grant = x.jobq.grant)
    (hp : x.ssw.state = .on ∧ x.live = true → y.ssw.state = .on ∧ y.live = true) (hq : y.pins = x.pins) (hs :
        y.link.settings = x.link.settings) : Tree y :=
  ⟨base_re h.1 hr hd hl hq hs, fun g e => grant_re hr hd hl hp (h.2 g (hg ▸ e))⟩
/-- LINK, MMON or SSW besides -/
theorem tree_link (l : Link) (h : Tree x) (hs : l.settings = x.link.settings) : Tree (x.withLink l) :=
    tree_re h rfl rfl (.of rfl) rfl id rfl hs
theorem base_mmon (m) (h : Base x) : Base (x.withMmon m) := base_re h rfl rfl (.of rfl) rfl rfl
theorem base_ssw (m) (h : Base x) : Base (x.withSsw m) := base_re h rfl rfl (.of rfl) rfl rfl
theorem tree_ssw (m : Ssw) (h : Tree x) (hm : x.ssw.state = .on → m.state = .on) : Tree (x.withSsw m) :=
    tree_re h rfl rfl (.of rfl) rfl (fun c => ⟨hm c.1, c.2⟩) rfl rfl
theorem tree_line (l : Line) (h : Tree x) (hl :
    l.route = x.line.route ∧ l.op = x.line.op ∧ l.state = x.line.state ∧ l.startUp = x.line.startUp) : Tree (x.withLine l) :=
  tree_re h rfl rfl ⟨hl.1, hl.2.1, hl.2.2.1, hl.2.2.2⟩ rfl id rfl rfl
theorem base_line (l : Line) (h : Base x) (hl :
    l.route = x.line.route ∧ l.op = x.line.op ∧ l.state = x.line.state ∧ l.startUp = x.line.startUp) : Base (x.withLine l) :=
  base_re h rfl rfl ⟨hl.1, hl.2.1, hl.2.2.1, hl.2.2.2⟩ rfl rfl
theorem tree_jobq (q : Jobq) (h : Tree x) (hg : q.grant = x.jobq.grant) : Tree (x.withJobq q) :=
    tree_re h rfl rfl (.of rfl) hg id rfl rfl
theorem tree_none' (h : Base x) (hg : x.jobq.grant = none) : Tree x := Tree.none h hg
theorem ts_kick (h : x.TreeSound) : x.kick.TreeSound := by
  refine ts_re h (by simp) (by simp) (.of (by simp)) (by simp) ?_
  intro c; unfold State.live; simp; unfold State.live at c; simpa using c
theorem tree_kick (h : Tree x) : x.kick.TreeSound := ts_kick (ts_of h)

/-! ### Ends of operations -/
theorem base_endOp (h : Base x) : Base x.endOp :=
  ⟨⟨h.1.sound, h.1.depth, h.1.paths, h.1.route, h.1.stackFit, h.1.choice, fun c => absurd rfl c, h.1.starting,
      fun _ c => by cases c⟩, h.2⟩
theorem tree_endOp (h : Tree x) (ho : x.line.op ≠ none) : Tree x.endOp := by
  refine ⟨base_endOp h.1, fun g e => ?_⟩
  have hs := h.2 g e
  have ht : g.tainted = none := by
    cases c : g.tainted with
    | none => rfl
    | some v => exact absurd (hs.tainted (by rw [c]; simp)) ho
  refine ⟨hs.supplied, .inl rfl, hs.owed, fun _ => rfl, hs.disc, fun s e => ⟨(hs.switch s e).1, fun _ => ⟨rfl, ht⟩⟩,
      fun o e => ?_⟩
  rcases e with e | e
  · cases e
  · rw [ht] at e; cases e
theorem hold_end (h : Tree x) {o : LineOp} (ho : x.line.op = some o) {g : Grant} (hg : x.jobq.grant = some g) (c : Capture) :
    g.tainted = none ∧ Hold x.endOp g.work g.switch ∧ Hold (x.endOp.setCapture c) g.work g.switch ∧ Quiet g.switch ∧
      (x.endOp.setCapture c).OpSound ⟨g.work, g.switch, none⟩ o ∧ x.endOp.OpSound ⟨g.work, g.switch, none⟩ o := by
  have hs := h.2 g hg
  have hne : x.line.op ≠ none := by rw [ho]; simp
  have ht : g.tainted = none := by
    cases c : g.tainted with
    | none => rfl
    | some v => exact absurd (hs.tainted (by rw [c]; simp)) hne
  have hq : Quiet g.switch := by
    intro s e
    have := (hs.switch s e).2
    constructor
    · cases c : s.settle with
      | none => rfl
      | some v => exact absurd (this (.inl (by rw [c]; simp))).1 hne
    · cases c : s.resume with
      | false => rfl
      | true => exact absurd (this (.inr c)).1 hne
  have hh : Hold x.endOp g.work g.switch :=
    .mk' (base_endOp h.1) rfl (by show x.jobq.grant = _; rw [hg, ← ht]) hs.supplied (.inl rfl) hs.owed hs.disc
        (fun s e => (hs.switch s e).1)
  have ho' : x.OpSound g o := hs.op o (.inl ho)
  exact ⟨ht, hh, hh.same' (same_capture c), hq, ho', ho'⟩

/-! ### LINE OFF -/
/-- The base but for LINE, which goes OFF next. -/
structure BaseR (x : State) : Prop where
  sound : x.RosterSound
  depth : x.link.settings.maxDepth ≤ 4
  paths : PathsF x.rstr.sk
  stackFit : x.disc.StacksSound
  choice : ∀ l c, x.disc.leaf = some l → l.choice = some c → Dead x.rstr.sk c.handle ∧
      (c.restores = true ∨ x.rstr.sk c.handle = none)
  next : NextRoom x.disc
theorem Base.r (h : Base x) : BaseR x := ⟨h.1.sound, h.1.depth, h.1.paths, h.1.stackFit, h.1.choice, h.2⟩
theorem BaseR.same (h : BaseR x) (k : Same x y) (hn : y.disc.next = x.disc.next) : BaseR y :=
  ⟨k.kept.roster h.sound, by rw [k.kept.settings]; exact h.depth, by rw [k.sk]; exact h.paths,
      stacks_of k.kept.frames k.levels h.stackFit,
   fun l c a b => (by obtain ⟨l', a', b'⟩ := k.choice l c a b; rw [k.sk]; exact h.choice l' c a' b'),
       fun st a b => (LegRoom_same k.levels).2 (h.next st (hn ▸ a) b)⟩
theorem routeF_nil (F : Sk) : RouteF F [] := ⟨Nat.zero_le _, fun i st e => by simp at e⟩
theorem base_lineOff (h : BaseR x) : Base x.lineOff := by
  refine ⟨⟨h.sound, h.depth, h.paths, routeF_nil _, h.stackFit, h.choice, fun c => ?_, fun c => ?_, fun c => ?_⟩, h.next⟩
  · simp [State.lineOff, State.dropChoices] at c
  · exact absurd rfl c
  · cases c
theorem same_answerJobs (c) : ∀ js {x : State}, Same' x (x.answerJobs c js)
  | [], _ => .rfl'
  | _ :: js, _ => (same_answer ..).trans (same_answerJobs c js)
theorem baseR_flush (c) (h : BaseR x) : BaseR (x.flushJobs c) := by
  unfold State.flushJobs
  have h1 : BaseR (x.withJobq { x.jobq with urgent := [], normal := [], grant := none }) :=
    h.same ⟨kept_withJobq _ (.refl _) (Nat.zero_le _) (Nat.zero_le _), rfl, .of rfl, rfl, rfl, fun l _ a b => ⟨l, a, b⟩⟩ rfl
  have h2 := h1.same (same_answerJobs c (x.jobq.inFlight.toList ++ x.jobq.urgent ++ x.jobq.normal)).toSame
      (same_answerJobs ..).next
  exact h2.same (same_endSweep _).toSame (same_endSweep _).next
theorem dropHolder_same (c) : ∃ y, y = x.withJobq { x.jobq with grant := none } ∧ Same' y (x.dropHolder c) := by
  refine ⟨_, rfl, ?_⟩
  unfold State.dropHolder
  dsimp only
  split <;> split
  · exact (same_answer ..).trans (same_endSweep _)
  · exact same_endSweep _
  · exact same_answer ..
  · exact .rfl'
theorem same_dropHolder (c) : Same x (x.dropHolder c) := by
  obtain ⟨y, rfl, h⟩ := dropHolder_same (x := x) c
  exact (same_grant none).trans h.toSame
theorem dropHolder_next (c) : (x.dropHolder c).disc.next = x.disc.next := by
  obtain ⟨y, rfl, h⟩ := dropHolder_same (x := x) c
  exact h.next
theorem dropHolder_grant (c) : (x.dropHolder c).jobq.grant = none := by
  obtain ⟨y, rfl, h⟩ := dropHolder_same (x := x) c
  exact h.grant
theorem base_abort (w c) (h : Base x) : Base (x.abortDiscovery w c) := by
  unfold State.abortDiscovery; split
  · exact base_endDiscovery _ _ _ h
  · split
    · exact base_levels h _ (by simp [Disc.toIdle]) (.inr rfl) (.inr rfl) rfl trivial (Nat.zero_le _)
    · exact h
theorem base_cleared (h : Base x) (r : Rstr) (hn : x.line.route = []) (hv : x.rstr.valid → r.valid) (hp : PathsF r.sk)
    (hd : ∀ h, (Dead x.rstr.sk h → Dead r.sk h) ∧ (x.rstr.sk h = none → r.sk h = none)) : Base (x.withRstr r) := by
  have := base_rr h r x.line.route hv hp (by rw [hn]; exact routeF_nil _) hd
  exact this
theorem all_closed (F : Sk) : Closed F (fun _ => True) := fun _ _ _ _ _ _ _ _ => trivial
theorem base_departAll (h : Base x) (hn : x.line.route = []) : Base x.departAll.1 := by
  unfold State.departAll; dsimp only
  refine base_cleared h _ hn (Rstr.departWhere_valid _) ?_ ?_
  · rw [sk_departAll]; exact depF_paths h.1.paths (all_closed _)
  · rw [sk_departAll]; intro _; exact Dead_dep _
theorem off_base (w c code) (h : Base x) : Base ((x.abortDiscovery w c).flushJobs code).lineOff :=
    base_lineOff (baseR_flush _ (base_abort _ _ h).r)
theorem tree_trip (c) (h : Base x) : Tree (x.trip c) := by
  unfold State.trip
  have h1 := base_departAll
      (base_ssw { ((x.abortDiscovery .supply .aborted).flushJobs .supplyOff).lineOff.ssw.unpowered .tripped with cause :=
          c } (off_base .supply .aborted .supplyOff h)) rfl
  exact Tree.none (h1.same' (same_raise _)) rfl
theorem tree_park (t) (h : Base x) : Tree (x.parkSupply t) := by
  unfold State.parkSupply
  have h1 := base_departAll
      (base_ssw { ((x.abortDiscovery .parked .aborted).flushJobs .parked).lineOff.ssw.unpowered .off with parked :=
          true } (off_base .parked .aborted .parked h)) rfl
  refine Tree.none ((h1.same' (same_answer t .ok [])).same' (same_raise _)) ?_
  exact (same_answer t .ok []).grant
theorem empty_valid : Rstr.valid { entries := [], generation := 0, reserved := 0, clampedSummary := b } :=
  ⟨List.Pairwise.nil, fun e he => (by cases he), fun e he => (by cases he), Nat.zero_le _, Nat.zero_le _⟩
theorem paths_none : PathsF (Rstr.sk { entries := [], generation := g, reserved := v, clampedSummary := b }) :=
    fun _ _ _ _ e => by cases e
theorem base_emptied (h : Base x) (hn : x.line.route = []) (m : Ssw) :
    Base (((x.withSsw m).withDisc { (x.withSsw m).disc with pass :=
        Pass.cleared }).withRstr { x.rstr with entries := [], generation := 0, reserved := 0 }) := by
  have h2 : Same' (x.withSsw m) ((x.withSsw m).withDisc { (x.withSsw m).disc with pass := Pass.cleared }) :=
    ⟨⟨kept_withDisc _ (.refl _) rfl (Nat.le_max_left _ _), rfl, .of rfl, rfl, rfl, fun l _ a b => ⟨l, a, b⟩⟩, rfl, rfl, rfl⟩
  exact base_cleared ((base_ssw m h).same' h2) _ hn (fun _ => empty_valid) paths_none (fun _ => ⟨fun _ => dead_none rfl,
      fun _ => rfl⟩)
theorem base_sessionEnd (c e) (h : Base x) : Base (x.sessionEnd c e) ∧ (x.sessionEnd c e).jobq.grant = none :=
  ⟨base_emptied (off_base .sessionEnd e c h) rfl _, rfl⟩
theorem tree_evaluate (h : Base x) (hg : x.jobq.grant = none) : Tree x.evaluate := Tree.none (base_mmon _ h) hg
theorem tree_endSession (c) (h : Base x) : Tree (x.endSession c) := by
  unfold State.endSession
  obtain ⟨a, b⟩ := base_sessionEnd .sessionLost .aborted h
  exact (tree_evaluate a b).same' (same_raise _)
theorem base_arm (h : Base x) : Base x.arm ∧ x.arm.jobq = x.jobq := by
  unfold State.arm; split
  · exact ⟨h.same ⟨kept_withDisc _ (.refl _) rfl (Nat.le_max_left _ _), rfl, .of rfl, rfl, rfl, fun l _ a b => ⟨l, a, b⟩⟩ rfl,
      rfl⟩
  · exact ⟨h, rfl⟩
theorem base_ramp (h : Base x) : Base x.rampStart := by unfold State.rampStart; exact base_ssw _ h
theorem grant_none (h : Tree x) (hx : ¬ (x.ssw.state = .on ∧ x.live = true)) : x.jobq.grant = none := by
  cases e : x.jobq.grant with
  | none => rfl
  | some g => exact absurd (h.2 g e).supplied hx
theorem tree_sessionStart (h : Tree x) (hq : x.mmon.state = .qualifying) : Tree x.sessionStart := by
  have hg := grant_none h (by rintro ⟨-, c⟩; unfold State.live at c; rw [hq] at c; simp at c)
  unfold State.sessionStart
  dsimp only
  have h1 : Base (((x.withMmon { x.mmon with state := .mated, debounce :=
      none }).rampStart).withLine { x.line with beat := x.link.settings.beat, tickPhase := 0 }) :=
    base_line _ (base_ramp (base_mmon _ h.1)) ⟨rfl, rfl, rfl, rfl⟩
  obtain ⟨h2, h3⟩ := base_arm h1
  generalize hy : State.arm _ = y at *
  have hy2 : y.jobq.grant = none := by rw [h3]; exact hg
  have := (tree_link { y.link with deferred := false } (Tree.none h2 hy2) rfl)
  have := this.same' (same_raise (.mate none .mated (y.withLink { y.link with deferred := false }).mmon.inputs))
  subst hy
  exact this

theorem tree_suspect (f) (h : Tree x) : Tree (x.suspect f) := by
  unfold State.suspect
  dsimp only
  have hl : ∀ l : Line, l.route = x.line.route → l.op = none → l.startUp = x.line.startUp →
      (l.state = .off → x.line.state = .off) →
      Base ((x.withMmon { x.mmon with state := .suspect, breakFilter := some f }).withLine l) := fun l h1 h2 h3 h4 =>
    ⟨⟨h.1.1.sound, h.1.1.depth, h.1.1.paths, by show RouteF _ l.route; rw [h1]; exact h.1.1.route, h.1.1.stackFit, h.1.1.choice,
        fun c => absurd h2 c,
      by show l.startUp ≠ none → _; rw [h3]; exact h.1.1.starting, fun a b => h.1.1.opened a (h4 b)⟩, h.1.2⟩
  have hv : ((x.withMmon { x.mmon with state := .suspect, breakFilter := some f })).live = true := rfl
  split
  · next e =>
    have e : x.line.op = none := e
    exact tree_re h rfl rfl ⟨rfl, rfl, rfl, rfl⟩ rfl (fun c => ⟨c.1, rfl⟩) rfl rfl
  · next op e =>
    have e : x.line.op = some op := e
    have hb := hl { x.line.cut with state := .idle, watch := none, keepalive := keepaliveFrom x.link.settings } (by simp)
        (by simp) (by simp) (fun c => by cases c)
    have hne : x.line.op ≠ none := by rw [e]; simp
    have hG : ∀ g, x.jobq.grant = some g → ∀ ta, (ta = none ∨ ta = some op) →
       State.GrantSound ((x.withMmon { x.mmon with state := .suspect, breakFilter := some f }).withLine
           { x.line.cut with state := .idle, watch := none, keepalive := keepaliveFrom x.link.settings }) { g with tainted :=
               ta } := by
      intro g hg ta hta
      have hs := h.2 g hg
      have hq : ∀ s, g.switch = some s → ¬ (s.settle ≠ none ∨ s.resume = true) := fun s e c => hne ((hs.switch s e).2 c).1
      refine ⟨⟨hs.supplied.1, rfl⟩, .inl rfl, ?_, fun _ => ?_, hs.disc,
          fun s e => ⟨(hs.switch s e).1, fun c => absurd c (hq s e)⟩, fun o c => ?_⟩
      · show x.line.cut.startUp = none; simp; exact hs.owed
      · show x.line.cut.op = none; simp
      · rcases c with c | c
        · change x.line.cut.op = _ at c; simp at c
        · have ho : o = op := by rcases hta with c2 | c2 <;> (simp only at c; rw [c2] at c; cases c) ; rfl
          subst ho
          have h1 := hs.op o (.inl e)
          have hr : x.line.cut.route = x.line.route := by simp
          refine ⟨fun l s a b => ?_, fun j r u a b => ?_, fun d a b => ?_⟩
          · show x.line.cut.route.length < _ ∧ x.rstr.stepGood x.line.cut.route _ = true; rw [hr]; exact h1.1 l s a b
          · show Route.Avoids x.line.cut.route _; rw [hr]; exact h1.2.1 j r u a b
          · show _ ∧ Route.Avoids (x.line.cut.route.take _) _; rw [hr]; exact h1.2.2 d a b
    split
    · refine ⟨hb, fun g hg => ?_⟩
      have ht : g.tainted = none := by
        cases c : g.tainted with
        | none => rfl
        | some v => exact absurd ((h.2 g hg).tainted (by rw [c]; simp)) hne
      have := hG g hg none (.inl rfl)
      rw [← ht] at this
      exact this
    · refine ⟨hb.same ⟨kept_withJobq _ (.refl _) (Nat.le_refl _) (Nat.le_refl _), rfl, .of rfl, rfl, rfl,
        fun l _ a b => ⟨l, a, b⟩⟩ rfl, fun g hg => ?_⟩
      obtain ⟨g0, hg0, rfl⟩ := Option.map_eq_some_iff.1 hg
      exact grant_re (x := (x.withMmon { x.mmon with state := .suspect, breakFilter := some f }).withLine
          { x.line.cut with state := .idle, watch := none, keepalive :=
                keepaliveFrom x.link.settings }) rfl rfl (.of rfl) id (hG g0 hg0 (some op) (.inr rfl))
theorem armWatch_same : Same' x x.armWatch := by
  unfold State.armWatch; split
  · exact ⟨⟨by simp, rfl, ⟨rfl, rfl, rfl, rfl⟩, rfl, rfl, fun l _ a b => ⟨l, a, b⟩⟩, rfl, rfl, rfl⟩
  · exact .rfl'
theorem tree_startTrain (o : OwedTrain) (h : Base x) (hg : x.jobq.grant = none) (hs : x.disc.lineOpenSeen = false) :
    Tree (x.startTrain o) := by
  unfold State.startTrain
  dsimp only
  refine Tree.none ?_ hg
  exact ⟨⟨h.1.sound, h.1.depth, h.1.paths, h.1.route, h.1.stackFit, h.1.choice, fun _ => rfl, fun _ => hs, fun _ c => by cases c⟩,
      h.2⟩
theorem tree_holderResumes (h : Tree x) : Tree x.holderResumes := by
  unfold State.holderResumes
  split
  · exact h
  · next g hg =>
    split
    · next o ht => exact tree_dealTaint g o h hg ht
    · next s ht hs =>
      split
      · next hr =>
        have hG := h.2 g hg
        have hop := ((hG.switch s hs).2 (.inr hr)).1
        have hh : Hold x g.work (some s) :=
            .mk' h.1 hop (by rw [hg, ← ht, ← hs]) hG.supplied hG.lit hG.owed hG.disc
                (fun s' e => by cases e; exact (hG.switch s hs).1)
        exact tree_went _ _ (went_switchNext hh s (hG.switch s hs).1)
      · exact h
    · exact h
theorem tree_comeBack (h : Tree x) : Tree x.comeBack := by
  unfold State.comeBack
  have h1 : Tree ((x.withMmon { x.mmon with state := .mated, breakFilter := none }).armWatch) :=
    (tree_re h (y := x.withMmon { x.mmon with state := .mated, breakFilter :=
        none }) rfl rfl (.of rfl) rfl (fun c => ⟨c.1, rfl⟩) rfl rfl).same' armWatch_same
  generalize (x.withMmon { x.mmon with state := .mated, breakFilter := none }).armWatch = y at h1
  dsimp only
  split
  · split
    · next o e =>
      refine tree_startTrain o h1.1 ?_ (h1.1.1.starting (by rw [e]; simp))
      cases c : y.jobq.grant with
      | none => rfl
      | some g => have := (h1.2 g c).owed; rw [e] at this; cases this
    · exact tree_regrant _ (tree_holderResumes h1)
  · exact h1
theorem tree_takeInput (h : Tree x) : Tree x.takeInput := by
  have hn : x.live = false → Tree x.evaluate := fun c => tree_evaluate h.1 (grant_none h (by rw [c]; simp))
  unfold State.takeInput
  split
  · next e _ => exact hn (by unfold State.live; rw [‹x.mmon.state = _›]; rfl)
  · exact h
  · next e _ _ => exact hn (by unfold State.live; rw [‹x.mmon.state = _›]; rfl)
  · next e _ => exact hn (by unfold State.live; rw [‹x.mmon.state = _›]; rfl)
  · exact h
  · unfold State.takeBreak; dsimp only; split
    · exact tree_endSession _ h.1
    · exact tree_suspect _ h
  · exact tree_comeBack h
  · exact h
theorem Base.unNone (h : Base x) (l : Line) (hr : l.route = x.line.route) (ho : l.op = none) (hs :
    l.startUp ≠ none → x.disc.lineOpenSeen = false) (hn : x.disc.lineOpenSeen = true → l.state ≠ .off) : Base (x.withLine l) :=
  ⟨⟨h.1.sound, h.1.depth, h.1.paths, by show RouteF _ l.route; rw [hr]; exact h.1.route, h.1.stackFit, h.1.choice,
      fun c => absurd ho c, hs, hn⟩, h.2⟩
theorem tree_lineOpen (h : Tree x) (hu : x.line.startUp = none) (hn : x.line.state ≠ .off) : Tree x.lineOpen := by
  unfold State.lineOpen
  refine tree_leaveArmed ⟨⟨⟨h.1.1.sound, h.1.1.depth, h.1.1.paths, h.1.1.route, h.1.1.stackFit, h.1.1.choice, h.1.1.busy,
      fun c => absurd hu c, fun _ => hn⟩, h.1.2⟩, fun g e => ?_⟩
  have hs := h.2 g e
  exact ⟨hs.supplied, hs.lit, hs.owed, hs.tainted, hs.disc, hs.switch, hs.op⟩
theorem tree_startUp (h : Base x) (hg : x.jobq.grant = none) (hi : x.line.state = .idle) (ho : x.line.op = none) (hs :
    x.disc.lineOpenSeen = false) : Tree x.startUp := by
  unfold State.startUp
  dsimp only
  split
  · have h1 : Tree (x.withLine { x.line with startUp := none, keepalive := keepaliveFrom x.link.settings }) :=
      Tree.none (h.unNone _ rfl ho (fun c => absurd rfl c) (fun c => by rw [hs] at c; cases c)) hg
    have h2 := h1.same' armWatch_same
    refine tree_arbitrate (tree_lineOpen h2 ?_ ?_)
    · exact armWatch_same.line.startUp
    · rw [armWatch_same.line.state]; show x.line.state ≠ _; rw [hi]; simp
  · split
    · exact tree_startTrain _ h hg hs
    · exact Tree.none (h.unNone _ rfl ho (fun _ => hs) (fun c => by rw [hs] at c; cases c)) hg
theorem tree_supplyReady (h : Tree x) : Tree x.supplyReady := by
  unfold State.supplyReady
  split
  · next e =>
    have hs : x.disc.lineOpenSeen = false := by
      cases c : x.disc.lineOpenSeen with
      | false => rfl
      | true => exact absurd e (h.1.1.opened c)
    have ho : x.line.op = none := by
      cases c : x.line.op with
      | none => rfl
      | some o => have := h.1.1.busy (by rw [c]; simp); rw [e] at this; cases this
    refine tree_startUp (h.1.unNone _ rfl ho (fun _ => hs) (fun c => by rw [hs] at c; cases c)) ?_ rfl ho hs
    cases c : x.jobq.grant with
    | none => exact c
    | some g => have := (h.2 g c).lit; rw [e] at this; simp at this
  · exact h
theorem tree_stuck (h : Tree x) : Tree x.stuck := by
  unfold State.stuck
  dsimp only
  have h1 : Base (x.withLine { x.line.cut with
    state := .faulted, keepalive := none, keepaliveDue := x.line.keepaliveDue && !x.line.keepaliveRuns,
    watch := none, sampler := some Config.samplerMs, highWatch := none, tlHigh := false }) :=
    h.1.unNone _ (by simp) (by simp) (by simpa using h.1.1.starting) (fun _ c => by cases c)
  have h2 := h1.same' (same_rate ⟨none⟩)
  have h3 : ∀ y, Base y →
      Tree ((y.dropHolder .lineFault).raise (.line false x.line.inFlight (y.dropHolder .lineFault).line.route)) := fun y hy =>
    (Tree.none (hy.same (same_dropHolder _) (dropHolder_next _)) (dropHolder_grant _)).same' (same_raise _)
  split
  · exact h3 _ (base_endDiscovery _ _ _ h2)
  · exact h3 _ h2
theorem tree_clearFault (h : Tree x) (hf : x.line.state = .faulted) : Tree x.clearFault := by
  have ho : x.line.op = none := by
    cases c : x.line.op with
    | none => rfl
    | some o => have := h.1.1.busy (by rw [c]; simp); rw [hf] at this; cases this
  have hg : x.jobq.grant = none := by
    cases c : x.jobq.grant with
    | none => rfl
    | some g => have := (h.2 g c).lit; rw [hf] at this; simp at this
  unfold State.clearFault
  dsimp only
  have h1 : Base ((x.withLine { x.line with
      state := .idle, sampler := none, highWatch := none, keepalive := keepaliveFrom x.link.settings }).raise
      (.line true .nothing x.line.route)) :=
    (h.1.unNone { x.line with
      state := .idle, sampler := none, highWatch := none, keepalive :=
          keepaliveFrom x.link.settings } rfl ho h.1.1.starting (fun _ c => by cases c)).same' (same_raise _)
  split
  · next c => exact tree_startUp h1 hg rfl ho (h.1.1.starting
      (by intro e; have c : x.line.startUp.isSome = true := c; rw [e] at c; cases c))
  · exact tree_arbitrate (tree_leaveArmed (Tree.none h1 hg))
theorem tree_cycle (h : BaseR x) : Tree x.cycle := by
  unfold State.cycle
  exact Tree.none (base_ssw _ (base_lineOff (h.same (same_dropHolder _) (dropHolder_next _)))) rfl

end Sys2Proof.Machine
end

