-- ==== Sys2Proof/Tests/Slice0.lean ====
section
/-! SUPPORT. Tests: ill-formed commands are refused; worked values of the spec; for every statement with hypotheses, a concrete
state and operands that meet them, clause by clause (the `meets_` theorems). -/

namespace Sys2Proof.Tests

open Sys2Proof.Machine

/-! ### Small states -/

/-- An entry with round values. -/
def ent (h : Nat) (st : EntryState) (kind : Byte) (path : Route) : Entry :=
  { handle := h, stamp := BitVec.ofNat 48 (1000 + h), kind, path, state := st, namedAt := h, trim := none, drift := none
    misses := 0, errors := 0, clamped := false, oddAnswer := false, duplicate := false, pinConflict := false
    kindMismatch := false, notEntered := false, faultedLegs := [], nonce := none }

/-- A device at the root, a junction of two legs, a device behind its leg 1, a SILENT and a DEPARTED device. -/
def members : Rstr :=
  { entries := [{ ent 33 .calibrated 0 [] with trim := some 10 }, ent 40 .named 6 [], ent 41 .named 0 [⟨40, 1⟩],
      ent 50 .silent 0 [], ent 60 .departed 0 []]
    generation := 7, reserved := 0, clampedSummary := false }

/-- A session with the supply ON and the line open. -/
def sess : State := { State.reset with
  mmon := ⟨.mated, none, none, none, false, ⟨true, true, true⟩⟩
  ssw := { State.reset.ssw with state := .on, duty := 16 }
  line := { State.reset.line with state := .idle, tlHigh := true }
  disc := { State.reset.disc with lineOpenSeen := true }
  rstr := members }

/-- The same with request 9 outstanding. -/
def asked : State := { sess with link := { sess.link with outstanding := [⟨9#8, 0x0D#8⟩] } }
def req : Request := ⟨9#8, 0x0D#8⟩
def job (k : JobKind) (h : Nat) : Job := ⟨9#8, k, false, h, h⟩

/-- An operation in flight for a holder. -/
def busy (s : State) (k : OpKind) (a : Nat) (w : Work) : State :=
  { s with line := { s.line with state := .busy, op := some (s.lineOp k a) }, jobq := s.jobq.granted w }

/-- A switch of a job to a target. -/
def switch (target : Route) (used : Nat) : Switch := ⟨.job, target, 0, 2, 5, used, some 5, false, none, false⟩

/-- The line granted to a job with a route switch under way. -/
def switching (s : State) (j : Job) (sw : Switch) : State :=
  { s with jobq := { s.jobq with grant := some ⟨.job j 1 0, some sw, none⟩ } }

/-- A discovery that walks the root segment. -/
def walk : State := { sess with disc := { sess.disc with
  state := .walking, origin := some .auto, mode := some .rescan, levels := [⟨0, none, [], 0, 1, false⟩], frames := [[1#4]]
  pass := ⟨1, 3, false, false, false, 0⟩, result := some (ResultRecord.fresh .rescan true) } }

def work (st : DiscStep) : DiscWork := ⟨st, 2, 0, [], 2, 0, true, none⟩

/-- A leaf round with one more final digit, and with nonces. -/
def leaf : Leaf := ⟨List.replicate 11 0#4, [5#4], 0x3#48, 0, some 3, none, false, none, false, none⟩
def named : Leaf := { leaf with nonces := some [4, 11] }

/-- The cells of a byte reply at BEAT 80: a 0 of 2 beats, a 1 of 4 beats (R34, R40). -/
def cells (b : Byte) : List LowSample :=
  (b :: [crc8 [b]]).flatMap (fun b => (List.range 8).map (fun i => ⟨if b.getLsbD i then 320 else 160, 1⟩))
/-- No answer: the bare cue. -/
def silence : List LowSample := [⟨80, 1⟩]
/-- A round in which slots 3 and 7 answer. -/
def round : List LowSample := (List.range 16).map (fun i => ⟨if i = 3 ∨ i = 7 then 160 else 80, 1⟩)
def emptyRound : List LowSample := List.replicate 16 ⟨80, 1⟩

/-- A walk with a leaf in hand. -/
def atLeaf (l : Leaf) : State := { walk with disc := { walk.disc with leaf := some l } }

/-- A sweep. -/
def aSweep (phase : SweepPhase) (count position interval : Nat) (rest : Timer) : Sweep :=
  { tag := 9#8, count, stopOnChange := false, interval, clamped := false, passes := 0, position, passChanges := 0
    totalChanges := 0, phase, rest, rolled := false }

/-- A state with other entries; with an open route; a DISCOVER request as the origin; its discovery cancelled. -/
def withE (s : State) (es : List Entry) : State := { s with rstr := { s.rstr with entries := es } }
def routed (s : State) (r : Route) : State := { s with line := { s.line with route := r } }
def reqd (s : State) : State := { s with
  disc := { s.disc with origin := some (.requested 9#8) }, link := { s.link with outstanding := [req] } }
def cancelling (s : State) : State := { s with disc := { s.disc with cancelled := true } }

/-- A root whose walk is done, its cursor at junction 40; a level behind a leg of it; a discovery that descends. -/
def rootAt (leg : Nat) : Level := ⟨0, none, [⟨40, 40⟩], 0, leg, true⟩
def inLeg (leg : Nat) : Level := ⟨1, some ⟨40, leg⟩, [], 0, 1, true⟩
def descending (levels : List Level) (route : Route) : State := { walk with
  line := { walk.line with route }
  disc := { walk.disc with state := .opening, levels, frames := [], pass := ⟨1, 3, false, false, false, 0⟩ } }
def shallow (s : State) : State := { s with link := { s.link with settings := { s.link.settings with maxDepth := 0 } } }

/-- A switch of DISC; the line granted to DISC with a switch, idle and with a leg exchange in flight. -/
def sw (use : SwitchUse) (target : Route) (common used : Nat) (settle : Timer) (status : Option Nat) : Switch :=
  ⟨use, target, common, 2, 5, used, settle, false, status, false⟩
def settling (s : State) (st : DiscStep) (x : Switch) : State :=
  { s with jobq := { s.jobq with grant := some ⟨.disc (work st), some x, none⟩ } }
def legging (s : State) (k : OpKind) (a : Nat) (st : DiscStep) (x : Switch) : State :=
  { settling s st x with line := { s.line with state := .busy, op := some (s.lineOp k a) } }

/-! ### Meeting the hypotheses: chapters 1 and 2 -/

/-- MMON in a state, with plug inputs. -/
def mate (st : MateState) (a b l : Bool) : State := { sess with mmon := ⟨st, some 50, some 2, some 500, false, ⟨a, b, l⟩⟩ }

theorem meets_StepRunsFrontCommand : sess.pending = [] := rfl

theorem meets_ResetTakesPowerOnValues : ({ sess with resetHeld := true } : State).resetHeld = true ∧ sess.resetHeld = false :=
  ⟨rfl, rfl⟩

theorem meets_ApproachTransitions :
    (mate .opened false false false).mmon.inputs.get .lock = false ∧
    (sess.mmon.inputs.get .presA ≠ false ∧ ({ sess with resetHeld := true } : State).deaf = true) ∧
    ((mate .partialMate true true false).mmon.inputs.get .lock ≠ true ∧ (mate .partialMate true true false).deaf = false ∧
      (mate .partialMate true true false).mmon.state = .partialMate) ∧
    (mate .partialMate true false false).mmon.alignment.isSome = true ∧
    ¬(sess.mmon.state = .partialMate ∧ sess.mmon.alignment.isSome = true) := by decide

theorem meets_SessionStarts :
    ((mate .qualifying true true true).mmon.state = .qualifying ∧ (mate .qualifying true true true).mmon.debounce.isSome = true) ∧
    ¬(sess.mmon.state = .qualifying ∧ sess.mmon.debounce.isSome = true) := by decide

/-- A hail of a discovery in flight; the same with a start-up train, and with nothing. -/
def hailing : State := busy walk .hail 0 (.disc (work .hail))
def starting : State :=
  { sess with line := { sess.line with state := .busy, op := some (sess.lineOp (.startUp ⟨16, 4, 4⟩) 0) } }

theorem meets_BreakEntersSuspect :
    (hailing.mmon.inputs.get .lock ≠ false ∧ hailing.deaf = false ∧ hailing.mmon.state = .mated ∧
      (hailing.mmon.inputs.put .lock false).cls ≠ .all ∧ 1 ≤ hailing.link.settings.breakFilterMs) ∧
    sess.line.op = none ∧ starting.line.op = some (sess.lineOp (.startUp ⟨16, 4, 4⟩) 0) ∧
    hailing.line.op = some (walk.lineOp .hail 0) := by decide

/-- SUSPECT with one contact open, a job's EXCHANGE tainted. -/
def tainted (used : Nat) : State := { asked with
  mmon := ⟨.suspect, none, some 2, none, false, ⟨true, true, false⟩⟩
  jobq := { asked.jobq with
    grant := some ⟨.job (job (.exchange []) 33) 1 used, none, some (asked.lineOp (.data []) 33)⟩ } }

/-- The coupling suspect with one contact open, the line granted; with an operation of the holder tainted. -/
def sus (s : State) (g : Grant) : State := { s with
  mmon := ⟨.suspect, none, some 2, none, false, ⟨true, true, false⟩⟩, jobq := { s.jobq with grant := some g } }
def tworks (s : State) (w : Work) (sw : Option Switch) (k : OpKind) (a : Nat) : State := sus s ⟨w, sw, some (s.lineOp k a)⟩

/-- What every clause asks of the coupling and the line. -/
theorem meets_SuspectWaitsAndReturns :
    ((tainted 0).mmon.inputs.get .presA ≠ false ∧ (tainted 0).deaf = false ∧ (tainted 0).mmon.state = .suspect ∧
      ((tainted 0).mmon.inputs.put .presA false).cls ≠ .all) ∧
    (∀ s g, let x := sus s g
      x.mmon.inputs.get .lock ≠ true ∧ x.mmon.state = .suspect ∧ (x.mmon.inputs.put .lock true).cls = .all ∧
        x.deaf = s.deaf ∧ x.line = s.line ∧ x.jobq.grant = some g ∧ x.disc = s.disc) ∧
    (∀ s ∈ [asked, walk, atLeaf leaf, atLeaf named, descending [rootAt 1] [], descending [rootAt 2] [⟨40, 2⟩],
        descending [inLeg 1, rootAt 1] []],
      s.deaf = false ∧ s.line.state = .idle ∧ s.line.startUp = none ∧ s.disc.cancelled = false) ∧
    (∀ t ∈ [OwedTrain.begun ⟨7, 8, 9⟩, .waiting 7], ({ asked.line with startUp := some t } : Line).startUp = some t) ∧
    (asked.Owes req ∧ req.tag = (job (.exchange []) 33).tag ∧ 0 < 1 ∧ 1 ≤ 1) ∧
    ((aSweep .rolling 0 0 50 none).phase = .rolling ∧ (asked.rstr.nextLive 33).isSome = true) :=
  ⟨by decide, fun _ _ => ⟨(fun h => nomatch h), rfl, rfl, rfl, rfl, rfl, rfl⟩, by decide, by decide, ⟨rfl, rfl, by decide, by decide⟩,
    by decide⟩

/-- A return during a ramp, whose LINE is OFF, and one while LINE is FAULTED. -/
theorem meets_SuspectWaitsAndReturns_offLine :
    ∀ l ∈ [LineState.off, .faulted],
      let s : State := { tainted 0 with
        line := { asked.line with state := l }, jobq := asked.jobq, ssw := { asked.ssw with state := .ramping, duty := 3 } }
      s.mmon.inputs.get .lock ≠ true ∧ s.deaf = false ∧ s.mmon.state = .suspect ∧
        (s.mmon.inputs.put .lock true).cls = .all ∧ s.line.state = l := by decide

/-- A step of discovery beyond its limit, by step and by operation, and beyond the limit of a switch. -/
theorem meets_SuspectWaitsAndReturns_steps :
    ({ work .hail with used := 2 } : DiscWork).retries ≤ 2 ∧ (work .hail).used < (work .hail).retries ∧
    (∃ x, walk.disc.failsWith .hail x) ∧ (∃ x, walk.disc.failsWith .call x) ∧ (∃ x, walk.disc.failsWith .pendingDrop x) ∧
    (∃ x, (atLeaf leaf).disc.failsWith .echo x) ∧ (∃ x, (atLeaf named).disc.failsWith .calibration x) ∧
    (let o := (atLeaf named).lineOp (.name 3#48 4 42) 0
     o.kind = .name 3#48 4 42 ∧ (∀ st n h, walk.line.op ≠ some ⟨.name st n h, 0, 0, [], 0⟩)) ∧
    (({ work .naming with dropping := some .failed } : DiscWork).dropping = some .failed) ∧
    (∃ j c, (descending [rootAt 1] []).AtJunction (rootAt 1) j c) ∧ (work .returnCheck).dropping = none ∧
    (switch [⟨40, 1⟩] 1).used < (switch [⟨40, 1⟩] 1).retries ∧ (switch [⟨40, 1⟩] 2).retries ≤ (switch [⟨40, 1⟩] 2).used ∧
    (∀ u : SwitchUse, ({ switch [⟨40, 1⟩] 2 with purpose := u } : Switch).purpose = u) ∧
    ({ switch [] 0 with resume := true } : Switch).resume = true ∧
    (∃ v, asked.SwitchGoesOn asked (.job (job .roll 33) 1 0) { switch [] 0 with resume := true } v) ∧
    ∃ v, asked.SweepGoesOn { aSweep .rolling 0 33 50 none with rolled := true } v :=
  ⟨by decide, by decide, ⟨_, .inl ⟨rfl, rfl⟩⟩, ⟨_, .inr (.inl ⟨.inl rfl, rfl⟩)⟩, ⟨_, .inr (.inl ⟨.inr rfl, rfl⟩)⟩,
    ⟨_, .inr (.inr (.inl ⟨rfl, rfl⟩))⟩, ⟨_, .inr (.inr (.inr (.inr ⟨rfl, rfl⟩)))⟩, ⟨rfl, fun _ _ _ h => nomatch h⟩, rfl,
    ⟨_, _, rfl, rfl⟩, rfl, by decide, by decide, fun _ => rfl, rfl, ⟨_, .inr (.inl ⟨_, _, _, rfl, .inl ⟨rfl, rfl⟩⟩)⟩,
    _, .inl ⟨rfl, ⟨_, rfl⟩, rfl⟩⟩

theorem meets_SessionEnds :
    ((tainted 0).mmon.state = .suspect ∧ (tainted 0).mmon.breakFilter.isSome = true) ∧
    (let s := { sess with link := { sess.link with settings := { sess.link.settings with breakFilterMs := 0 } } }
     s.mmon.inputs.get .lock ≠ false ∧ s.deaf = false ∧ s.mmon.state = .mated ∧ (s.mmon.inputs.put .lock false).cls ≠ .all ∧
      s.link.settings.breakFilterMs = 0) ∧
    ¬(sess.mmon.state = .suspect ∧ sess.mmon.breakFilter.isSome = true) := by decide

/-- The supply in a state at a duty level, its timers running, OVL at a level. -/
def supply (st : SupplyState) (duty : Nat) (ovl : Bool) : State :=
  { asked with
    ssw := ⟨st, duty, some 1250, some 5, some 200, 1250, false, .hold, some duty, ovl⟩
    line := { asked.line with state := .off } }

theorem meets_RampAndOverload :
    ((supply .ramping 3 false).ssw.ovl = false ∧ (supply .ramping 3 false).deaf = false) ∧
    ((supply .holding 3 true).ssw.ovl = true ∧ (supply .holding 3 true).deaf = false) ∧
    ((supply .ramping 15 false).ssw.state = .ramping ∧ (supply .ramping 15 false).ssw.step.isSome = true ∧
      (supply .ramping 15 false).ssw.duty < 16) ∧
    16 ≤ (supply .ramping 16 false).ssw.duty ∧
    ((supply .cycling 0 false).ssw.state = .cycling ∧ (supply .cycling 0 false).ssw.step.isSome = true) ∧
    (supply .holding 3 true).ssw.state = .holding := by decide

/-- No cycles in the start-up train; an automatic discovery armed. -/
def trainless (s : State) : State :=
  { s with link := { s.link with settings := { s.link.settings with wakeCount := 0 } } }
def armedAuto (s : State) : State :=
  { s with disc := { s.disc with state := .armed, origin := some .auto, mode := some .rescan } }

theorem meets_SupplyReadyStartsTrain :
    ((supply .on 16 false).ssw.state = .on ∧ (supply .on 16 false).ssw.step.isSome = true ∧
      (supply .on 16 false).line.state = .off ∧ 1 ≤ (supply .on 16 false).link.settings.wakeCount ∧
      (supply .on 16 false).mmon.state = .mated) ∧
    (tainted 0).mmon.state ≠ .mated ∧
    (let s := trainless (supply .on 16 false)
     s.ssw.step.isSome = true ∧ s.link.settings.wakeCount = 0 ∧ s.disc.state ≠ .armed) ∧
    (let s := armedAuto (trainless (supply .on 16 false))
     s.ssw.step.isSome = true ∧ s.line.state = .off ∧ s.link.settings.wakeCount = 0 ∧ s.disc.state = .armed ∧
      s.disc.mode = some .rescan) := by decide

theorem meets_TripTurnsSupplyOff :
    ((supply .holding 3 true).ssw.state = .holding ∧ (supply .holding 3 true).ssw.hold.isSome = true) ∧
    ((supply .on 16 true).ssw.state = .on ∧ (supply .on 16 true).ssw.trip.isSome = true) ∧
    ¬(sess.ssw.state = .holding ∧ sess.ssw.hold.isSome = true) ∧ ¬(sess.ssw.state = .on ∧ sess.ssw.trip.isSome = true) := by
  decide

/-- A frame with tag 5 is taken in. -/
theorem takes_sess : sess.Takes 5#8 := ⟨rfl, by decide, by decide, rfl⟩
theorem takes_asked : asked.Takes 5#8 := ⟨rfl, by decide, by decide, rfl⟩

/-- A session with every kind of work: an arming's successor running for request 1, a job in flight, one in each lane, a sweep. -/
def laden : State := { walk with
  disc := { walk.disc with origin := some (.requested 1#8) }
  jobq :=
    { urgent := [⟨3#8, .roll, true, 33, 33⟩], normal := [⟨4#8, .roll, false, 33, 33⟩]
      sweep := some ⟨6#8, 0, false, 0, false, 0, 0, 0, 0, .rolling, none, false⟩
      grant := some ⟨.job ⟨2#8, .roll, true, 33, 33⟩ 1 0, none, none⟩ }
  link := { walk.link with outstanding := [⟨1#8, 0x0B#8⟩, ⟨2#8, 0x0D#8⟩, ⟨3#8, 0x0D#8⟩, ⟨4#8, 0x0D#8⟩, ⟨6#8, 0x10#8⟩] } }

theorem takes_laden : laden.Takes 5#8 := ⟨rfl, by decide, by decide, rfl⟩

theorem meets_ParkTurnsSupplyOff :
    (tainted 0).mmon.state ≠ .mated ∧ ({ sess.ssw with parked := true } : Ssw).parked = true ∧
    (laden.mmon.state = .mated ∧ laden.ssw.parked = false ∧ 5#8 ∉ laden.flushTags) := by decide

theorem takes_tainted : (tainted 0).Takes 5#8 := ⟨rfl, by decide, by decide, rfl⟩

theorem meets_PowerStartsRamp :
    (sess.mmon.state = .mated ∧ sess.ssw.state ≠ .off ∧ sess.ssw.state ≠ .tripped) ∧
    (supply .tripped 0 false).mmon.state = .mated ∧ (supply .tripped 0 false).ssw.state = .tripped := by decide

theorem takes_supply : (supply .tripped 0 false).Takes 5#8 := ⟨rfl, by decide, by decide, rfl⟩

theorem meets_FlushAnswersInOrder : laden.FlushReady ∧ laden.flushTags = [1#8, 2#8, 3#8, 4#8, 6#8] := by
  unfold State.FlushReady; decide

/-! ### Meeting the hypotheses: the walk -/

/-- An operation in flight is what it was started as. -/
theorem runs (s : State) (k : OpKind) (a : Nat) (w : Work) : (busy s k a w).Runs k (s.lineOp k a) := ⟨rfl, rfl⟩
theorem holds (s : State) (k : OpKind) (a : Nat) (w : Work) : (busy s k a w).Holds w := rfl
theorem walks_walk (k : OpKind) (a : Nat) (w : Work) : (busy walk k a w).Walks := ⟨rfl, rfl, _, _, rfl, rfl⟩

theorem meets_StartUpTrainOpensLine :
    starting.Runs (.startUp ⟨16, 4, 4⟩) (sess.lineOp (.startUp ⟨16, 4, 4⟩) 0) ∧ starting.disc.state ≠ .armed ∧
    (let s : State := { starting with
      disc := { starting.disc with state := .armed, origin := some .auto, mode := some .rescan } }
     s.disc.state = .armed ∧ s.disc.origin = some .auto ∧ s.disc.mode = some .rescan ∧ s.jobq.urgent = [] ∧
      s.jobq.grant = none ∧ s.line.route = [] ∧ s.ssw.state = .on ∧ s.mmon.state = .mated) ∧
    (let s : State := { starting with
      disc := { starting.disc with state := .armed, origin := some (.requested 9#8), mode := some .full } }
     s.disc.state = .armed ∧ s.disc.mode = some .full ∧ s.disc.origin ≠ some .auto) ∧
    ¬∃ t op, sess.Runs (.startUp t) op :=
  ⟨⟨rfl, rfl⟩, by decide, by decide, by decide, fun ⟨_, _, h, _⟩ => by cases h⟩

/-- The same walk in a pass that failed, out of frames. -/
def failing (number : Nat) : State :=
  { walk with disc := { walk.disc with frames := [], pass := ⟨number, 3, false, true, false, 1⟩ } }

theorem meets_HailDecidesPass :
    (hailing.Runs .hail (walk.lineOp .hail 0) ∧ hailing.Holds (.disc (work .hail)) ∧ hailing.Walks) ∧
    (hailing.disc.leaf = none ∧ hailing.disc.pass.number ≠ 0 ∧ ∃ l ∈ [640], hailing.line.beat ≤ 2 * l) ∧
    (let s := busy (failing 1) .hail 0 (.disc (work .hail))
     (∀ l ∈ [39], 2 * l < s.line.beat) ∧ s.disc.pass.again) ∧
    (let s := busy (failing 3) .hail 0 (.disc (work .hail))
     s.Walks ∧ ¬s.disc.pass.again ∧ s.disc.levels = ⟨0, none, [], 0, 1, false⟩ :: []) :=
  ⟨⟨⟨rfl, rfl⟩, rfl, walks_walk ..⟩, by decide, by unfold Pass.again; decide, ⟨rfl, rfl, _, _, rfl, rfl⟩,
    by unfold Pass.again; decide, rfl⟩

/-- The decisions between the steps: every clause of them has its state. -/
theorem meets_HailDecidesPass_walk :
    ({ walk.disc with pendingDrop := some 44 } : Disc).levels = ⟨0, none, [], 0, 1, false⟩ :: [] ∧
    (walk.disc.pendingDrop = none ∧ (⟨0, none, [], 0, 1, false⟩ : Level).walkDone = false) ∧
    ({ named with calib := some ⟨33, 33⟩ } : Leaf).calib = some ⟨33, 33⟩ ∧ (leaf.calib = none ∧ leaf.nonces = none) ∧
    named.nonces = some (4 :: 11 :: []) ∧ ({ named with nonces := some [] } : Leaf).remaining = 5#4 :: [] ∧
    ({ named with nonces := some [], remaining := [] } : Leaf).remaining = [] ∧
    (Pass.cleared.number = 0 ∧ walk.disc.leaf = none ∧ walk.disc.pass.number ≠ 0 ∧ walk.disc.frames ≠ [] ∧
      (failing 1).disc.frames = []) ∧ (failing 1).disc.pass.again ∧ ¬(failing 3).disc.pass.again := by
  unfold Pass.again; decide

theorem meets_HailDecidesPass_descent :
    (let s := descending [rootAt 1] []
     s.disc.levels = rootAt 1 :: [] ∧ s.disc.pendingDrop = none ∧ (rootAt 1).walkDone = true ∧
      (rootAt 1).junctions[(rootAt 1).index]? = some ⟨40, 40⟩ ∧ s.rstr.find 40 = some (ent 40 .named 6 []) ∧
      (ent 40 .named 6 []).namedAt = 40 ∧ (ent 40 .named 6 []).path = s.disc.levelRoute ∧
      ¬s.link.settings.maxDepth ≤ (ent 40 .named 6 []).path.length) ∧
    (let s := shallow (descending [rootAt 1] [])
     (rootAt 1).leg = 1 ∧ s.link.settings.maxDepth ≤ (ent 40 .named 6 []).path.length ∧ s.disc.levelRoute = [] ∧
      (withE s []).rstr.find 40 = none) ∧
    ((rootAt 2).leg ≠ 1 ∧ (inLeg 1).junctions.length ≤ (inLeg 1).index ∧ (inLeg 1).entry = some ⟨40, 1⟩) ∧
    (let s := descending [⟨0, none, [], 0, 1, true⟩] []
     let made := (ResultRecord.fresh .rescan true).reached s.disc.abandoned s.rstr.generation
     s.disc.result = some (ResultRecord.fresh .rescan true) ∧
      s.DiscTold made { s.link with notices := putNotice (.discoveryDone made) s.link.notices } ∧
      ∃ k, (reqd s).DiscTold made k) :=
  ⟨by decide, by decide, by decide, rfl, ⟨_, rfl, .inl ⟨rfl, rfl⟩⟩, _, _, rfl, .inr ⟨req, rfl, rfl, rfl⟩⟩

/-- A CALL round of a frame in flight. -/
def calling (s : State) (f : List Nibble) : State := busy s (.call f) 0 (.disc { work .call with frame := f })

theorem meets_CallPushesFrames :
    (calling walk [2#4]).Walks ∧ (calling walk [2#4]).disc.leaf = none ∧ (calling walk [2#4]).disc.pass.number ≠ 0 ∧
    answeredSlots 80 round = [3, 7] ∧
    ({ work .call with frame := [2#4] } : DiscWork).frame.length + 1 < 12 ∧
    (answeredSlots 80 emptyRound = [] ∧ (calling (failing 1) [2#4]).disc.frames = [] ∧
      (calling (failing 1) [2#4]).disc.pass.again) ∧
    (¬(calling (failing 3) [2#4]).disc.pass.again ∧
      (calling (failing 3) [2#4]).disc.levels = ⟨0, none, [], 0, 1, false⟩ :: []) ∧
    (let f := List.replicate 11 0#4
     12 ≤ ({ work .call with frame := f } : DiscWork).frame.length + 1 ∧ (calling (failing 1) f).disc.frames = []) :=
  ⟨walks_walk .., by unfold Pass.again; decide⟩

theorem meets_EchoEndsTries :
    (∀ l, let s := busy (atLeaf l) (.echo 3#48) 0 (.disc (work .echo))
     s.Runs (.echo 3#48) ((atLeaf l).lineOp (.echo 3#48) 0) ∧ s.Holds (.disc (work .echo)) ∧ s.Walks ∧ s.disc.leaf = some l) ∧
    (leaf.calib = none ∧ leaf.nonces = none ∧ leaf.tryLimit = some 3 ∧ leaf.tries + 1 < 3 ∧ leaf.remaining = [5#4]) ∧
    (let last := { leaf with tries := 2, remaining := [] }
     last.calib = none ∧ last.nonces = none ∧ last.tryLimit = some 3 ∧ 3 ≤ last.tries + 1 ∧ last.remaining = []) ∧
    (2 ≤ (answeredSlots 80 round).length ∧ answeredSlots 80 emptyRound = [] ∧ 3 ≤ ({ leaf with tries := 2 } : Leaf).tries + 1) :=
  ⟨fun _ => ⟨⟨rfl, rfl⟩, rfl, ⟨rfl, rfl, _, _, rfl, rfl⟩, rfl⟩, by decide, by decide, by decide⟩

/-- Handle 42 chosen, and handle 60 restored by memory; a leaf that names with a choice. -/
def fresh42 : Choice := ⟨42, .dynamic, false, none, false, false⟩
def back60 : Choice := ⟨60, .memory, true, none, false, false⟩
def pin42 : Choice := ⟨42, .pin, false, some 1#8, false, false⟩
def naming (c : Choice) : State :=
  busy (atLeaf { named with choice := some c }) (.name 3#48 4 c.handle) 0 (.disc (work .naming))
def nameOp (c : Choice) : LineOp := walk.lineOp (.name 3#48 4 c.handle) 0

theorem reads_name : (naming fresh42).Reads (nameOp fresh42) (cells 0#8) 0#8 ∧
    (naming back60).Reads (nameOp back60) (cells 0#8) 0#8 ∧
    (naming pin42).Reads (nameOp pin42) (cells 0#8) 0#8 := ⟨rfl, rfl, rfl⟩

theorem misreads_name : (naming fresh42).Misreads (nameOp fresh42) silence .noReply := rfl

/-- A NAME in flight on the open route, with entries and with junctions listed; a table with a SILENT twin and two DEPARTED trees. -/
def namingAt (c : Choice) (w : DiscWork) (l : Leaf) (es : List Entry) (js : List Listed) : State :=
  busy (withE { walk with disc := { walk.disc with leaf := some { l with choice := some c }, levels := [⟨0, none, js, 0, 1, false⟩] } } es)
    (.name 3#48 4 c.handle) 0 (.disc w)
def trees : List Entry :=
  [ent 40 .departed 6 [], { ent 41 .departed 0 [⟨40, 1⟩] with errors := 3 }, { ent 50 .silent 0 [] with stamp := 1060#48 },
    { ent 60 .departed 6 [] with trim := some 4 }, ent 61 .departed 0 [⟨60, 2⟩]]
def eight : List Listed := (List.range 8).map (fun i => ⟨50 + i, 1⟩)

theorem trees_valid : ({ members with entries := trees } : Rstr).valid :=
  ⟨by decide, by unfold handleValid; decide, by decide, by decide, by decide⟩

theorem meets_NameMakesEntry :
    (∀ c w l es js, let s := namingAt c w l es js
      s.Runs (.name 3#48 4 c.handle) (walk.lineOp (.name 3#48 4 c.handle) 0) ∧ s.Holds (.disc w) ∧ s.disc.cancelled = false ∧
        s.disc.leaf = some { l with choice := some c } ∧ s.disc.levels = ⟨0, none, js, 0, 1, false⟩ :: [] ∧
        s.rstr = { members with entries := es } ∧ s.RouteLive) ∧
    (namingAt fresh42 (work .naming) named trees []).Reads (nameOp fresh42) (cells 6#8) 6#8 ∧
    (fresh42.source ≠ .pin ∧ ({ pin42 with expected := none } : Choice).expected = none ∧ kindIsJunction 6#8 = true ∧
      eight.length = 8 ∧ 40 < 42 ∧ (work .naming).autoCalib = true) ∧
    (({ members with entries := trees } : Rstr).find 42 = none ∧ fresh42.restores = false ∧
      back60.restores = true ∧ pinAt walk.pins 62 = none) ∧
    (({ members with entries := trees } : Rstr).find 40 = some (ent 40 .departed 6 []) ∧ (ent 40 .departed 6 []).stamp = 1040#48) :=
  ⟨fun _ _ _ _ _ => ⟨⟨rfl, rfl⟩, rfl, rfl, rfl, rfl, rfl, (fun _ h => nomatch h)⟩, rfl, by decide, by decide, by decide⟩

theorem meets_NameFailureDrops :
    ((naming fresh42).Runs (.name 3#48 4 42) (nameOp fresh42) ∧ (naming fresh42).Holds (.disc (work .naming))) ∧
    (work .naming).nameUsed < (work .naming).nameRetries ∧
    ({ work .naming with nameUsed := 2 } : DiscWork).nameRetries ≤ ({ work .naming with nameUsed := 2 } : DiscWork).nameUsed ∧
    (pin42.source = .pin ∧ pin42.expected = some 1#8 ∧ 1#8 ≠ 0#8) ∧
    (let c := { back60 with handle := 61 }
     let s := { naming c with pins := [⟨9#48, 61, none⟩] }
     c.source ≠ .pin ∧ c.restores = true ∧ s.rstr.find 61 = none ∧ pinAt s.pins 61 = some ⟨9#48, 61, none⟩ ∧ 9#48 ≠ named.stamp) :=
  ⟨⟨⟨rfl, rfl⟩, rfl⟩, by decide⟩

theorem meets_DropEndsNamingAndRemoves :
    (let s := busy (atLeaf named) .drop 42 (.disc { work .naming with dropping := some .failed })
     s.Runs .drop (walk.lineOp .drop 42) ∧ s.Holds (.disc { work .naming with dropping := some .failed }) ∧
      s.disc.cancelled = false ∧ s.disc.leaf = some named) ∧
    (let w := { work .naming with dropping := some .withdrawn }
     (busy (atLeaf named) .drop 42 (.disc w)).Holds (.disc w) ∧ w.dropping = some .withdrawn) ∧
    ((busy walk .drop 42 (.disc (work .pendingDrop))).Holds (.disc (work .pendingDrop)) ∧ (work .pendingDrop).dropping = none) ∧
    (let s := busy asked .drop 50 (.job (job .drop 50) 1 0)
     s.Runs .drop (asked.lineOp .drop 50) ∧ s.Holds (.job (job .drop 50) 1 0) ∧ s.Owes req ∧ req.tag = (job .drop 50).tag ∧
      s.rstr.find (job .drop 50).handle = some (ent 50 .silent 0 [])) :=
  ⟨⟨⟨rfl, rfl⟩, rfl, rfl, rfl⟩, ⟨rfl, rfl⟩, ⟨rfl, rfl⟩, ⟨rfl, rfl⟩, rfl, rfl, rfl, rfl⟩

/-- A MEASURE in flight with the choices of a recorded calibration. -/
def measuring (s : State) (w : Work) : State :=
  { busy s .measure 33 w with rate := ⟨some ⟨.nearestEven, .record, false⟩⟩ }

theorem meets_CalibrationsStored :
    (let s := measuring asked (.job (job (.calibrate .record none false) 33) 1 0)
     s.Runs .measure (asked.lineOp .measure 33) ∧ s.Holds (.job (job (.calibrate .record none false) 33) 1 0) ∧ s.Owes req ∧
      s.rate.choices = some ⟨.nearestEven, .record, false⟩ ∧ (s.rstr.find 33).isSome = true) ∧
    (measuring (withE asked []) (.job (job (.calibrate .record none false) 33) 1 0)).rstr.find 33 = none ∧
    (let s := measuring (atLeaf named) (.disc (work .calibration))
     s.Runs .measure (walk.lineOp .measure 33) ∧ s.Holds (.disc (work .calibration)) ∧ s.disc.cancelled = false ∧
      (s.rstr.find (walk.lineOp .measure 33).audience).isSome = true) ∧
    (measuring (withE (atLeaf named) []) (.disc (work .calibration))).rstr.find 33 = none :=
  ⟨⟨⟨rfl, rfl⟩, rfl, rfl, rfl, rfl⟩, rfl, ⟨⟨rfl, rfl⟩, rfl, rfl, rfl⟩, rfl⟩


/-! ### Meeting the hypotheses: jobs, the sweep and route switches -/

/-- The line free, one normal job waiting. -/
def waiting (j : Job) : State := { asked with jobq := { asked.jobq with normal := [j] } }

/-- A sweep without the line, its position given; one whose entries have no handle above its position goes on in one way or another. -/
def swept (w : Sweep) : State := { asked with jobq := { asked.jobq with sweep := some w } }
def passed (count interval : Nat) : Sweep := { aSweep .rolling count 60 interval none with rolled := true }

/-- A next entry; a pass that ends: a rest, with no count, with a count not yet reached, after a pass that rolled nothing; an end by the
count and by a change; the next pass at once, with and without a live entry; a cancelled sweep. -/
theorem meets_SweepGoesOn :
    (∃ v, asked.SweepGoesOn (aSweep .rolling 0 33 50 none) v) ∧
    (∀ w ∈ [passed 0 50, passed 3 50, aSweep .rolling 0 60 0 none], ∃ v, asked.SweepGoesOn w v) ∧
    (∀ w ∈ [passed 1 50, { passed 0 50 with stopOnChange := true, passChanges := 1, clamped := true }], ∃ v, asked.SweepGoesOn w v) ∧
    (∃ v, asked.SweepGoesOn (passed 3 0) v) ∧ (∃ v, (withE asked [ent 60 .departed 0 []]).SweepGoesOn (passed 3 0) v) ∧
    ∃ v, asked.SweepGoesOn (aSweep .ending 0 33 50 none) v := by
  refine ⟨⟨_, .inl ⟨rfl, ⟨_, rfl⟩, rfl⟩⟩, ?_, ?_, ⟨_, .inr (.inl ⟨rfl, rfl, .inl ⟨by decide, rfl⟩, fun _ => ⟨_, rfl⟩⟩)⟩,
    ⟨_, .inr (.inr (.inl ⟨rfl, rfl, rfl, _, _, .inl ⟨by decide, rfl⟩, rfl, rfl, .inl ⟨by decide, rfl⟩⟩))⟩,
    ⟨_, .inr (.inr (.inr ⟨req, rfl, rfl, rfl, rfl⟩))⟩⟩
  · simp only [List.forall_mem_cons]
    exact ⟨⟨_, .inr (.inl ⟨rfl, rfl, .inl ⟨by decide, rfl⟩, fun ⟨_, h, h2⟩ => by cases h; cases h2⟩)⟩,
      ⟨_, .inr (.inl ⟨rfl, rfl, .inl ⟨by decide, rfl⟩, fun ⟨_, h, h2⟩ => by cases h; cases h2⟩)⟩,
      ⟨_, .inr (.inl ⟨rfl, rfl, .inl ⟨by decide, rfl⟩, fun ⟨_, h, h2⟩ => by cases h; cases h2⟩)⟩, fun _ h => nomatch h⟩
  · simp only [List.forall_mem_cons]
    exact ⟨⟨_, .inr (.inl ⟨rfl, rfl, .inr ⟨req, by decide, rfl, rfl, rfl⟩, fun ⟨_, h, _⟩ => nomatch h⟩)⟩,
      ⟨_, .inr (.inl ⟨rfl, rfl, .inr ⟨req, by decide, rfl, rfl, rfl⟩, fun ⟨_, h, _⟩ => nomatch h⟩)⟩, fun _ h => nomatch h⟩

theorem meets_ArbiterOrder :
    ¬State.reset.Free ∧ laden.jobq.urgent = [⟨3#8, .roll, true, 33, 33⟩] ∧
    (let s := { walk with disc := walk.disc.decided .call }
     s.disc.state ≠ .idle ∧ s.disc.state ≠ .armed ∧ s.disc.waiting = true ∧ s.disc.next = some .call ∧ s.jobq.urgent = []) ∧
    ((waiting (job .roll 33)).jobq.urgent = [] ∧ (waiting (job .roll 33)).disc.state = .idle ∧
      (waiting (job .roll 33)).jobq.normal = [job .roll 33]) ∧
    (let q := { laden.jobq with normal := [] }
     q.sweep.any (fun w => w.phase == .rolling) = true ∧
      ({ sess.line with keepaliveDue := true } : Line).keepaliveDue = true ∧
      sess.jobq.sweep.any (fun w => w.phase == .rolling) = false) ∧
    (sess.jobq.urgent = [] ∧ sess.jobq.normal = [] ∧ sess.jobq.sweep = none ∧ sess.line.keepaliveDue = false ∧
      sess.disc.state = .idle) :=
  ⟨(fun h => nomatch h.2.1), by decide⟩

/-- A release of an urgent job, with DISC waiting and without; claims of each kind, the sweep's with a next entry and without. -/
theorem meets_ArbiterOrder_release :
    (∃ j r u sw t, laden.jobq.grant = some ⟨.job j r u, sw, t⟩ ∧ j.urgent = true) ∧
    (¬∃ j r u sw t, sess.jobq.grant = some ⟨.job j r u, sw, t⟩ ∧ j.urgent = true) ∧
    (let s := { walk with disc := walk.disc.decided .call }
     s.Free ∧ s.disc.next = some .call ∧ (s.beginStep .call).jobq.grant ≠ none ∧ s.claim true = some (.disc .call)) ∧
    (sess.Free ∧ sess.disc.state = .idle ∧ sess.claim false = none) ∧
    (let s := { asked with jobq := { asked.jobq with urgent := [job .roll 33] } }
     s.Free ∧ s.claim false = some (.urgent (job .roll 33) []) ∧ s.claim true = some (.urgent (job .roll 33) [])) ∧
    ((waiting (job .roll 33)).Free ∧ (waiting (job .roll 33)).claim false = some (.normal (job .roll 33) [])) ∧
    ((swept (passed 0 50)).Free ∧ (swept (passed 0 50)).claim true = some .sweep ∧ (swept (passed 0 50)).rstr.nextLive 60 = none ∧
      ((swept (passed 0 50)).rstr.nextLive 33).isSome = true) ∧
    (let s := { asked with line := { asked.line with keepaliveDue := true } }
     s.Free ∧ s.claim false = some .keepalive) := by
  refine ⟨⟨_, _, _, _, _, rfl, rfl⟩, (by rintro ⟨_, _, _, _, _, h, -⟩; cases h), ?_⟩
  unfold State.Free; decide

/-- An urgent job waiting; DISC with a decided step waiting. -/
def urg (j : Job) : State := { asked with jobq := { asked.jobq with urgent := [{ j with urgent := true }] } }
def claims (s : State) (st : DiscStep) : State := { s with disc := s.disc.decided st }

theorem meets_JobGranted :
    (∀ j, (waiting j).Free ∧ (waiting j).disc.state = .idle ∧ (waiting j).Owes req ∧ (waiting j).jobq.urgent = [] ∧
      (waiting j).jobq.normal = [j] ∧ (waiting j).jobq.sweep = none ∧ (waiting j).line.keepaliveDue = false) ∧
    (∀ j, (urg j).Free ∧ (urg j).disc.state = .idle ∧ (urg j).Owes req ∧ (urg j).jobq.urgent = [{ j with urgent := true }] ∧
      (urg j).jobq.normal = [] ∧ (urg j).jobq.sweep = none ∧ (urg j).line.keepaliveDue = false) ∧
    (∀ k ∈ [JobKind.wake ⟨2, 4, 4⟩ true, .drop, .roll, .exchange [1#8], .calibrate .probe none true], (job k 33).kind = k) ∧
    asked.rstr.lookup 99 = none ∧
    (asked.rstr.lookup 33 = some { ent 33 .calibrated 0 [] with trim := some 10 } ∧ (ent 33 .calibrated 0 []).namedAt ≠ 5 ∧
      (ent 33 .calibrated 0 []).path = asked.line.route) ∧
    (asked.rstr.lookup 60 = some (ent 60 .departed 0 []) ∧ (ent 60 .departed 0 []).namedAt = (job .roll 60).namedAt) ∧
    (let s := withE asked [ent 40 .silent 6 [], ent 41 .named 0 [⟨40, 1⟩]]
     s.rstr.lookup 40 = some (ent 40 .silent 6 []) ∧ kindIsJunction 6#8 = true ∧
      ∃ x ∈ s.rstr.entries, x.state ≠ .departed ∧ ∃ st ∈ x.path, st.junction = 40) ∧
    (asked.rstr.lookup 41 = some (ent 41 .named 0 [⟨40, 1⟩]) ∧ asked.rstr.find 40 = some (ent 40 .named 6 []) ∧
      kindIsJunction 6#8 = true ∧ 1 ≤ kindLegs 6#8) ∧
    ((routed asked [⟨40, 1⟩, ⟨42, 1⟩, ⟨43, 2⟩]).line.route = [⟨40, 1⟩] ++ [⟨42, 1⟩] ++ [⟨43, 2⟩] ∧
      (ent 41 .named 0 [⟨40, 1⟩]).path = [⟨40, 1⟩] ++ []) ∧
    (withE asked [ent 41 .named 0 [⟨40, 3⟩], ent 40 .named 6 []]).rstr.Bars [] ⟨40, 3⟩ :=
  ⟨fun _ => ⟨⟨rfl, rfl, rfl, rfl, rfl⟩, rfl, rfl, rfl, rfl, rfl, rfl⟩,
    fun _ => ⟨⟨rfl, rfl, rfl, rfl, rfl⟩, rfl, rfl, rfl, rfl, rfl, rfl⟩, by decide, by decide, by decide, by decide, by decide, by decide,
    by decide, by intro c hc; cases hc; exact .inr (.inr (.inr (.inr (by decide))))⟩

/-- The sweep's grant: no switch, a leg to close first, a leg to open, a leg that the roster bars. -/
theorem meets_JobGranted_sweep :
    (let s := swept (aSweep .rolling 0 33 50 none)
     s.Free ∧ s.claim false = some .sweep ∧ s.rstr.nextLive 33 = some (ent 40 .named 6 []) ∧
      (ent 40 .named 6 []).path = s.line.route) ∧
    (let s := routed (swept (aSweep .rolling 0 33 50 none)) [⟨40, 1⟩]
     s.Free ∧ s.line.route = [] ++ [] ++ [⟨40, 1⟩] ∧ (ent 40 .named 6 []).path = [] ++ []) ∧
    (let s := swept (aSweep .rolling 0 40 50 none)
     s.Free ∧ s.claim false = some .sweep ∧ s.rstr.nextLive 40 = some (ent 41 .named 0 [⟨40, 1⟩]) ∧
      (ent 41 .named 0 [⟨40, 1⟩]).path = s.line.route ++ ⟨40, 1⟩ :: [] ∧ s.rstr.find 40 = some (ent 40 .named 6 []) ∧
      1 ≤ kindLegs 6#8) ∧
    (let s := withE (swept (aSweep .rolling 0 40 50 none)) [ent 40 .departed 6 [], ent 41 .named 0 [⟨40, 1⟩], ent 42 .named 0 []]
     s.Free ∧ s.claim false = some .sweep ∧ s.rstr.nextLive 40 = some (ent 41 .named 0 [⟨40, 1⟩]) ∧ s.rstr.Bars [] ⟨40, 1⟩ ∧
      ∃ v, s.SweepGoesOn { aSweep .rolling 0 41 50 none with rolled := true } v) := by
  refine ⟨⟨⟨rfl, rfl, rfl, rfl, rfl⟩, by decide⟩, ⟨⟨rfl, rfl, rfl, rfl, rfl⟩, by decide⟩, ⟨⟨rfl, rfl, rfl, rfl, rfl⟩, by decide⟩,
    ⟨rfl, rfl, rfl, rfl, rfl⟩, rfl, rfl, ?_, _, .inl ⟨rfl, ⟨_, rfl⟩, rfl⟩⟩
  intro c hc; cases hc; exact .inl rfl

set_option maxRecDepth 20000 in
/-- Every handle taken: no choice is left. -/
theorem meets_JobGranted_out_of_handles :
    chooseHandle (withE walk ((List.range 126).map (fun i => ent (i + 1) .named 0 []))).rstr walk.pins 33 named.stamp false = none := by decide

theorem meets_JobGranted_steps :
    ((claims walk .call).Free ∧ (claims walk .call).claim false = some (.disc .call) ∧
      ((claims walk .call).beginStep .call).jobq.grant ≠ none ∧ walk.line.route = walk.disc.levelRoute) ∧
    (let s := descending [rootAt 1] [⟨40, 1⟩]
     s.disc.cursorStep = some ⟨40, 1⟩ ∧ s.line.route = s.disc.levelRoute ++ [⟨40, 1⟩]) ∧
    (let s := routed walk [⟨40, 1⟩]
     s.line.route = [] ++ [] ++ [⟨40, 1⟩] ∧ s.disc.levelRoute = [] ++ []) ∧
    (let s := descending [inLeg 1, rootAt 1] []
     s.disc.levelRoute = s.line.route ++ ⟨40, 1⟩ :: [] ∧ s.rstr.find 40 = some (ent 40 .named 6 []) ∧
      (s.disc.restoreLost 0).levels = rootAt 1 :: [] ∧ s.disc.cancelled = false) ∧
    (withE walk [ent 40 .departed 6 []]).rstr.Bars [] ⟨40, 1⟩ ∧
    ((work .hail).step = .hail ∧ (atLeaf leaf).disc.leaf = some leaf ∧ named.nonces = some (4 :: [11])) ∧
    (chooseHandle walk.rstr walk.pins 33 named.stamp false).isSome = true ∧
    (∃ e, walk.rstr.find 33 = some e ∧ e.state ≠ .departed ∧ e.namedAt = 33) ∧
    (¬∃ e, walk.rstr.find 60 = some e ∧ e.state ≠ .departed ∧ e.namedAt = 60) ∧
    ((descending [rootAt 1] []).disc.levels = rootAt 1 :: [] ∧ (rootAt 1).junctions[(rootAt 1).index]? = some ⟨40, 40⟩ ∧
      (withE walk []).rstr.find 40 = none) := by
  refine ⟨⟨⟨rfl, rfl, rfl, rfl, rfl⟩, rfl, by decide, rfl⟩, by decide, by decide, by decide, ?_, by decide, by decide,
    ⟨_, rfl, by decide, rfl⟩, ?_, by decide⟩
  · intro c hc; cases hc; exact .inl rfl
  · rintro ⟨e, h, h2, -⟩; cases h; exact h2 rfl

/-- A ROLL job's roll in flight. -/
def rolling (h used : Nat) : State := busy asked .roll h (.job (job .roll h) 1 used)

theorem meets_RollJobTaken :
    (∀ h u, (rolling h u).Runs .roll (asked.lineOp .roll h) ∧ (rolling h u).Holds (.job (job .roll h) 1 u) ∧ (rolling h u).Owes req) ∧
    asked.rstr.find 50 = some (ent 50 .silent 0 []) ∧
    (rolling 50 0).Reads (asked.lineOp .roll 50) (cells 0#8) 0#8 ∧
    (rolling 50 0).Misreads (asked.lineOp .roll 50) silence .noReply ∧ 0 < 1 ∧ 1 ≤ 1 :=
  ⟨fun _ _ => ⟨⟨rfl, rfl⟩, rfl, rfl⟩, rfl, rfl, rfl, by decide, by decide⟩

/-- A ROLL of a handle whose entry has gone, answered and unanswered. -/
theorem meets_RollJobTaken_gone :
    asked.rstr.find 77 = none ∧ (rolling 77 0).Reads (asked.lineOp .roll 77) (cells 6#8) 6#8 ∧
      (rolling 77 0).Misreads (asked.lineOp .roll 77) silence .noReply := ⟨rfl, rfl, rfl⟩

/-- A return check in flight, on the open route or with the leg already closed. -/
def checking (route : Route) (used : Nat) : State :=
  busy (descending [rootAt 1] route) .roll 40 (.disc { work .returnCheck with used })

theorem meets_RollJobTaken_check :
    (∀ r u, let s := checking r u
      s.Runs .roll ((descending [rootAt 1] r).lineOp .roll 40) ∧ s.Holds (.disc { work .returnCheck with used := u }) ∧
        s.disc.cancelled = false ∧ s.disc.levels = rootAt 1 :: [] ∧ s.AtJunction (rootAt 1) ⟨40, 40⟩ (ent 40 .named 6 []) ∧
        s.rstr.find 40 = some (ent 40 .named 6 [])) ∧
    (let op := (descending [rootAt 1] []).lineOp .roll 40
     (checking [] 0).Reads op (cells 6#8) 6#8 ∧ (checking [] 0).Misreads op silence .noReply) ∧
    ((checking [⟨40, 1⟩] 0).line.route = (checking [⟨40, 1⟩] 0).disc.levelRoute ++ [⟨40, 1⟩] ∧
      (checking [] 0).line.route ≠ (checking [] 0).disc.levelRoute ++ [⟨40, 1⟩]) ∧ 0 < (work .returnCheck).retries :=
  ⟨fun _ _ => ⟨⟨rfl, rfl⟩, rfl, rfl, rfl, ⟨rfl, rfl⟩, rfl⟩, ⟨rfl, rfl⟩, by decide, by decide⟩

/-- A sweep's roll of a handle in flight. -/
def sweeping (h : Nat) (w : Sweep) : State :=
  let s := busy asked .roll h (.sweep h 1 0)
  { s with jobq := { s.jobq with sweep := some w } }

/-- The last attempt of a sweep roll, on an entry with misses; a leg of a sweep's switch in flight. -/
def rolledOut (w : Sweep) (misses : Nat) : State :=
  let s := sweeping 33 w
  { withE s [{ ent 33 .named 0 [] with misses }] with jobq := { s.jobq with grant := some ⟨.sweep 33 1 1, none, none⟩ } }
def sweepOpeningAt (used : Nat) : State :=
  { asked with
    jobq := { asked.jobq with
      sweep := some (aSweep .rolling 0 33 50 none)
      grant := some ⟨.sweep 41 1 0, some { switch [⟨40, 1⟩] used with purpose := .sweep }, none⟩ }
    line := { asked.line with state := .busy, op := some (asked.lineOp (.legOpen 1) 40) } }
def sweepOpening : State := sweepOpeningAt 0

theorem meets_SweepPasses :
    (∀ h w, (sweeping h w).Runs .roll (asked.lineOp .roll h) ∧ (sweeping h w).Holds (.sweep h 1 0) ∧ (sweeping h w).Owes req ∧
      (sweeping h w).jobq.sweep = some w) ∧
    ((sweeping 33 (aSweep .rolling 0 0 50 none)).Reads (asked.lineOp .roll 33) (cells 0#8) 0#8 ∧
      (sweeping 33 (aSweep .rolling 0 0 50 none)).Misreads (asked.lineOp .roll 33) silence .noReply ∧
      (asked.rstr.nextLive 33).isSome = true) ∧
    ((rolledOut (aSweep .rolling 1 0 50 none) 2).Holds (.sweep 33 1 1) ∧
      (rolledOut (aSweep .rolling 1 0 50 none) 2).rstr.find 33 = some { ent 33 .named 0 [] with misses := 2 } ∧
      (rolledOut (aSweep .rolling 1 0 50 none) 2).rstr.nextLive 33 = none ∧ 3 ≤ min (2 + 1) 15) ∧
    ((sweeping 50 (aSweep .rolling 0 41 50 none)).Reads (asked.lineOp .roll 50) (cells 0#8) 0#8 ∧
      asked.rstr.nextLive 50 = none ∧ (aSweep .rolling 1 41 50 none).count = min ((aSweep .rolling 1 41 50 none).passes + 1) 65535) ∧
    (aSweep .ending 0 41 50 none).phase = .ending ∧
    (sweepOpening.Runs (.legOpen 1) (asked.lineOp (.legOpen 1) 40) ∧
      sweepOpening.Reads (asked.lineOp (.legOpen 1) 40) (cells 3#8) 3#8 ∧
      ((sweepOpening.rstr.legCascade 40 1).1.nextLive 41).isSome = true) ∧
    ((aSweep .resting 0 0 50 (some 50)).rest.isSome = true ∧ (aSweep .resting 0 0 50 (some 50)).phase = .resting) ∧
    State.reset.rstr.nextLive 0 = none :=
  ⟨fun _ _ => ⟨⟨rfl, rfl⟩, rfl, rfl, rfl⟩, ⟨rfl, rfl, by decide⟩, ⟨rfl, by decide⟩, ⟨rfl, by decide⟩, rfl,
    ⟨⟨rfl, rfl⟩, rfl, by decide⟩, by decide⟩

/-- No sweep; a roll of an entry that has gone, answered, unanswered within the limit and beyond it. -/
theorem meets_SweepPasses_gone :
    asked.jobq.sweep = none ∧
    (let w := aSweep .rolling 0 0 50 none
     (sweeping 45 w).rstr.find 45 = none ∧ (sweeping 45 w).Reads (asked.lineOp .roll 45) (cells 6#8) 6#8 ∧
      (sweeping 45 w).Misreads (asked.lineOp .roll 45) silence .noReply ∧
      (withE (rolledOut w 0) []).Misreads (asked.lineOp .roll 33) silence .noReply ∧
      (withE (rolledOut w 0) []).rstr.find 33 = none ∧
      ∃ v, (sweeping 45 w).SweepGoesOn { w with position := 45, rolled := true } v) :=
  ⟨rfl, rfl, rfl, rfl, rfl, rfl, _, .inl ⟨rfl, ⟨_, rfl⟩, rfl⟩⟩

/-- A roll of the last entry with one change: a count that is not reached, an interval of 0; a rest that ends. -/
theorem meets_SweepPasses_on :
    ((sweeping 50 (aSweep .rolling 3 41 0 none)).Reads (asked.lineOp .roll 50) (cells 0#8) 0#8 ∧
      (sweeping 50 (aSweep .rolling 3 41 0 none)).rstr.find 50 = some (ent 50 .silent 0 [])) ∧
    (let t := (asked.rstr.rollAnswered 50 0#8).1
     (∃ v, ({ asked with rstr := t } : State).SweepGoesOn { passed 3 50 with position := 50, passChanges := 1 } v) ∧
      ∃ v, ({ asked with rstr := t } : State).SweepGoesOn { passed 3 0 with position := 50, passChanges := 1 } v) ∧
    (∃ v, (swept (aSweep .resting 0 0 50 (some 50))).SweepGoesOn { aSweep .resting 0 0 50 (some 50) with phase := .rolling, rest := none } v) ∧
    ∃ v, (withE asked []).SweepGoesOn (aSweep .rolling 0 0 50 none) v :=
  ⟨⟨rfl, rfl⟩,
    ⟨⟨_, .inr (.inl ⟨rfl, rfl, .inl ⟨by decide, rfl⟩, fun ⟨_, h, h2⟩ => by cases h; cases h2⟩)⟩,
      _, .inr (.inl ⟨rfl, rfl, .inl ⟨by decide, rfl⟩, fun _ => ⟨_, rfl⟩⟩)⟩,
    ⟨_, .inl ⟨rfl, ⟨_, rfl⟩, rfl⟩⟩, _, .inr (.inl ⟨rfl, rfl, .inl ⟨by decide, rfl⟩, fun ⟨_, h, h2⟩ => by cases h; cases h2⟩)⟩

/-- A leg exchange of a job's switch in flight. -/
def opening (target : Route) (used : Nat) : State :=
  { switching asked (job .roll 41) (switch target used) with
    line := { asked.line with state := .busy, op := some (asked.lineOp (.legOpen 1) 40) } }
def closing (target : Route) (used : Nat) : State :=
  let s := { asked with line := { asked.line with route := [⟨40, 1⟩] } }
  { switching s (job .roll 33) (switch target used) with
    line := { s.line with state := .busy, op := some (s.lineOp (.legClose 1) 40) } }
def deep : State :=
  let s := { asked with line := { asked.line with route := [⟨40, 1⟩, ⟨41, 2⟩] } }
  { switching s (job .roll 33) (switch [] 0) with
    line := { s.line with state := .busy, op := some (s.lineOp (.legClose 2) 41) } }

/-- The part once a LEG_CLOSE has been answered, its step off the open route, and once a leg exchange of a job or the sweep has gone
unanswered. -/
def shutFrom (s : State) (op : LineOp) : State :=
  { s with line := { s.line.endedWith s.link.settings (s.lastCell op (cells 0)) with route := s.line.route.dropLast } }
def lostFrom (s : State) (op : LineOp) : State :=
  let gone := (s.rstr.erred op.audience).cascade op.audience
  { s with
    line := { s.line.endedWith s.link.settings (s.lastCell op silence) with
      route := s.line.route.takeWhile (fun st => st.junction != op.audience) }
    rstr := gone.1
    link := { s.link with notices := putNotice (.roster .cascade gone.1.generation gone.2 op.audience 0) s.link.notices }
    jobq := { s.jobq with sweep := s.jobq.sweep.map (fun y => { y with passChanges := y.passChanges + gone.2 }) } }

theorem meets_LegOpenMovesRoute :
    (∀ u, (opening [⟨40, 1⟩] u).Runs (.legOpen 1) (asked.lineOp (.legOpen 1) 40) ∧
      (opening [⟨40, 1⟩] u).jobq.grant = some ⟨.job (job .roll 41) 1 0, some (switch [⟨40, 1⟩] u), none⟩ ∧
      (opening [⟨40, 1⟩] u).Owes req) ∧
    ((opening [⟨40, 1⟩] 0).Reads (asked.lineOp (.legOpen 1) 40) (cells 1#8) 1#8 ∧
      (opening [⟨40, 1⟩] 0).Reads (asked.lineOp (.legOpen 1) 40) (cells 2#8) 2#8 ∧
      (opening [⟨40, 1⟩] 0).Reads (asked.lineOp (.legOpen 1) 40) (cells 3#8) 3#8 ∧
      (opening [⟨40, 1⟩] 0).Reads (asked.lineOp (.legOpen 1) 40) (cells 0#8) 0#8) ∧
    (opening [⟨40, 1⟩] 0).Misreads (asked.lineOp (.legOpen 1) 40) silence .noReply ∧
    (switch [⟨40, 1⟩] 0).used < (switch [⟨40, 1⟩] 0).retries ∧ (switch [⟨40, 1⟩] 2).retries ≤ (switch [⟨40, 1⟩] 2).used ∧
    (members.generation ≤ 65535 ∧ members.entries.length ≤ 126 ∧ ([1, 3] : List Nat).Pairwise (· < ·)) :=
  ⟨fun _ => ⟨⟨rfl, rfl⟩, rfl, rfl⟩, ⟨rfl, rfl, rfl, rfl⟩, rfl, by decide, by decide, by decide⟩

/-- The sweep's LEG_OPEN, faulted, and its last attempt unanswered: 40 and 41 depart, and 50 is the next entry. -/
theorem meets_LegOpenMovesRoute_sweep :
    let op := asked.lineOp (.legOpen 1) 40
    let s := sweepOpeningAt 2
    (s.Runs (.legOpen 1) op ∧ s.jobq.sweep = some (aSweep .rolling 0 33 50 none) ∧
      s.jobq.grant = some ⟨.sweep 41 1 0, some { switch [⟨40, 1⟩] 2 with purpose := .sweep }, none⟩ ∧
      s.Reads op (cells 3#8) 3#8 ∧ s.Misreads op silence .noReply ∧ (switch [⟨40, 1⟩] 2).retries ≤ (switch [⟨40, 1⟩] 2).used) ∧
    (∃ v, State.SweepGoesOn { s with rstr := (s.rstr.legCascade 40 1).1, jobq := s.jobq.released }
      { aSweep .rolling 0 41 50 none with rolled := true, passChanges := 1 } v) ∧
    ∃ v, State.SweepGoesOn { lostFrom s op with jobq := s.jobq.released }
      { aSweep .rolling 0 41 50 none with rolled := true, passChanges := 2 } v :=
  ⟨⟨⟨rfl, rfl⟩, rfl, rfl, rfl, rfl, by decide⟩, ⟨_, .inl ⟨rfl, ⟨_, rfl⟩, rfl⟩⟩, _, .inl ⟨rfl, ⟨_, rfl⟩, rfl⟩⟩

/-- DISC's LEG_OPEN in flight: of a leg it opens, and of a restoration that a failure ends on the root segment. -/
theorem meets_LegOpenMovesRoute_disc :
    (let s := legging (descending [rootAt 1] []) (.legOpen 1) 40 .opening (sw .opening [⟨40, 1⟩] 0 2 none none)
     s.Runs (.legOpen 1) ((descending [rootAt 1] []).lineOp (.legOpen 1) 40) ∧ s.disc.cancelled = false ∧
      s.AtJunction (rootAt 1) ⟨40, 40⟩ (ent 40 .named 6 []) ∧ s.disc.levels = rootAt 1 :: [] ∧
      s.Reads ((descending [rootAt 1] []).lineOp (.legOpen 1) 40) (cells 3#8) 3#8 ∧
      s.Misreads ((descending [rootAt 1] []).lineOp (.legOpen 1) 40) silence .noReply) ∧
    (let s := legging (descending [inLeg 2, rootAt 2] []) (.legOpen 2) 40 .hail (sw .restore [⟨40, 2⟩] 0 2 none none)
     s.AtJunction (rootAt 2) ⟨40, 40⟩ (ent 40 .named 6 []) ∧ (s.disc.restoreLost s.line.route.length).levels = rootAt 2 :: [] ∧
      s.Misreads ((descending [rootAt 2] []).lineOp (.legOpen 2) 40) silence .noReply) :=
  ⟨⟨⟨rfl, rfl⟩, rfl, ⟨rfl, rfl⟩, rfl, rfl, rfl⟩, ⟨rfl, rfl⟩, by decide, rfl⟩

/-- How a switch goes on: a close, an open, and for each holder its target reached or a step that the roster bars. -/
theorem meets_SwitchGoesOn :
    (∃ v, asked.SwitchGoesOn (routed asked [⟨40, 1⟩]) .keepalive (switch [⟨40, 2⟩] 0) v) ∧
    (∃ v, asked.SwitchGoesOn asked .keepalive (switch [⟨40, 2⟩] 0) v) ∧
    (∀ k : JobKind, ∃ v, asked.SwitchGoesOn asked (.job (job k 33) 1 0) (switch [] 0) v) ∧
    (∃ v, asked.SwitchGoesOn asked (.job (job .roll 33) 1 0) (switch [⟨60, 1⟩] 0) v) ∧
    (let s := swept (aSweep .rolling 0 33 50 none)
     (∃ v, s.SwitchGoesOn s (.sweep 40 1 0) (switch [] 0) v) ∧ ∃ v, s.SwitchGoesOn s (.sweep 40 1 0) (switch [⟨60, 1⟩] 0) v) ∧
    (let s := descending [inLeg 1, rootAt 1] []
     (∃ v, s.SwitchGoesOn s (.disc (work .call)) (sw .restore [] 0 0 none none) v) ∧
      ∃ v, s.SwitchGoesOn s (.disc (work .call)) (sw .restore [⟨60, 1⟩] 0 0 none none) v) := by
  have bars : ∀ s ∈ [asked, swept (aSweep .rolling 0 33 50 none), descending [inLeg 1, rootAt 1] []],
      s.SwitchBarred [⟨60, 1⟩] := by
    simp only [List.forall_mem_cons]
    exact ⟨⟨_, _, rfl, fun c hc => by cases hc; exact .inl rfl⟩, ⟨_, _, rfl, fun c hc => by cases hc; exact .inl rfl⟩,
      ⟨_, _, rfl, fun c hc => by cases hc; exact .inl rfl⟩, fun _ h => nomatch h⟩
  exact ⟨⟨_, .inl ⟨_, .inl ⟨[], [⟨40, 2⟩], [], ⟨40, 1⟩, rfl, rfl, by decide, rfl⟩, rfl⟩⟩,
    ⟨_, .inl ⟨_, .inr ⟨⟨40, 2⟩, [], _, rfl, rfl, by decide, rfl, rfl, by decide, by decide, rfl⟩, rfl⟩⟩,
    fun k => ⟨_, .inr (.inl ⟨_, _, _, rfl, .inl ⟨rfl, rfl⟩⟩)⟩,
    ⟨_, .inr (.inl ⟨_, _, _, rfl, .inr ⟨req, bars _ (.head _), rfl, rfl, rfl⟩⟩)⟩,
    ⟨⟨_, .inr (.inr (.inl ⟨_, _, _, rfl, .inl ⟨rfl, rfl⟩⟩))⟩,
      _, .inr (.inr (.inl ⟨_, _, _, rfl, .inr ⟨_, _, bars _ (.tail _ (.head _)), rfl, .inl ⟨rfl, ⟨_, rfl⟩, rfl⟩, rfl⟩⟩))⟩,
    ⟨_, .inr (.inr (.inr ⟨_, rfl, rfl, .inl ⟨rfl, rfl⟩⟩))⟩,
    _, .inr (.inr (.inr ⟨_, rfl, rfl, .inr ⟨_, _, bars _ (.tail _ (.tail _ (.head _))), rfl, rfl, rfl⟩⟩))⟩

/-- A job's close: its operands, answered, retried, unanswered, and unanswered with its target past the junction. -/
theorem meets_LegCloseMovesRoute :
    ((closing [] 0).Runs (.legClose 1) (asked.lineOp (.legClose 1) 40) ∧
      (closing [] 0).jobq.grant = some ⟨.job (job .roll 33) 1 0, some (switch [] 0), none⟩ ∧
      (closing [] 0).Reads (asked.lineOp (.legClose 1) 40) (cells 0#8) 0#8 ∧
      (closing [] 2).Misreads (asked.lineOp (.legClose 1) 40) silence .noReply ∧ (switch [] 2).retries ≤ (switch [] 2).used ∧
      (switch [] 0).used < (switch [] 0).retries ∧ ¬∃ st ∈ (switch [] 2).target.drop (switch [] 2).common, st.junction = 40) ∧
    deep.Reads (asked.lineOp (.legClose 2) 41) (cells 0#8) 0#8 ∧
    ((closing [⟨40, 2⟩] 2).Misreads (asked.lineOp (.legClose 1) 40) silence .noReply ∧ (closing [⟨40, 2⟩] 2).Owes req ∧
      (switch [⟨40, 2⟩] 2).retries ≤ (switch [⟨40, 2⟩] 2).used ∧
      ∃ st ∈ (switch [⟨40, 2⟩] 2).target.drop (switch [⟨40, 2⟩] 2).common, st.junction = 40) :=
  ⟨⟨⟨rfl, rfl⟩, rfl, rfl, rfl, by decide, by decide, by decide⟩, rfl, rfl, rfl, by decide, _, .head _, rfl⟩

/-- What follows a job's close: another step to close, a leg to open, its own operation, a step that is barred. -/
theorem meets_LegCloseMovesRoute_on :
    let op := asked.lineOp (.legClose 1) 40
    let w : Work := .job (job .roll 33) 1 0
    let gone := fun target : Route => { switch target 2 with closeDeparted := true }
    (∃ v, deep.SwitchGoesOn (shutFrom deep (asked.lineOp (.legClose 2) 41)) w (switch [] 0) v) ∧
    (∃ v, deep.SwitchGoesOn (lostFrom deep (asked.lineOp (.legClose 2) 41)) w (gone []) v) ∧
    (∃ v, (closing [⟨40, 2⟩] 0).SwitchGoesOn (shutFrom (closing [⟨40, 2⟩] 0) op) w (switch [⟨40, 2⟩] 0) v) ∧
    (∃ v, (closing [] 0).SwitchGoesOn (shutFrom (closing [] 0) op) w (switch [] 0) v) ∧
    (∃ v, (closing [] 2).SwitchGoesOn (lostFrom (closing [] 2) op) w (gone []) v) ∧
    (∃ v, (closing [⟨60, 1⟩] 0).SwitchGoesOn (shutFrom (closing [⟨60, 1⟩] 0) op) w (switch [⟨60, 1⟩] 0) v) ∧
    ∃ v, (closing [⟨60, 1⟩] 2).SwitchGoesOn (lostFrom (closing [⟨60, 1⟩] 2) op) w (gone [⟨60, 1⟩]) v :=
  ⟨⟨_, .inl ⟨_, .inl ⟨[], [], [], ⟨40, 1⟩, rfl, rfl, by decide, rfl⟩, rfl⟩⟩,
    ⟨_, .inl ⟨_, .inl ⟨[], [], [], ⟨40, 1⟩, rfl, rfl, by decide, rfl⟩, rfl⟩⟩,
    ⟨_, .inl ⟨_, .inr ⟨⟨40, 2⟩, [], _, rfl, rfl, by decide, rfl, rfl, by decide, by decide, rfl⟩, rfl⟩⟩,
    ⟨_, .inr (.inl ⟨_, _, _, rfl, .inl ⟨rfl, rfl⟩⟩)⟩, ⟨_, .inr (.inl ⟨_, _, _, rfl, .inl ⟨rfl, rfl⟩⟩)⟩,
    ⟨_, .inr (.inl ⟨_, _, _, rfl, .inr ⟨req, ⟨_, _, rfl, fun c hc => by cases hc; exact .inl rfl⟩, rfl, rfl, rfl⟩⟩)⟩,
    _, .inr (.inl ⟨_, _, _, rfl, .inr ⟨req, ⟨_, _, rfl, fun c hc => by cases hc; exact .inl rfl⟩, rfl, rfl, rfl⟩⟩)⟩

/-- The sweep's close. -/
def sweepClosing (target : Route) (used : Nat) : State :=
  let s := routed asked [⟨40, 1⟩]
  { s with
    jobq := { s.jobq with
      sweep := some (aSweep .rolling 0 33 50 none)
      grant := some ⟨.sweep 50 1 0, some { switch target used with purpose := .sweep }, none⟩ }
    line := { s.line with state := .busy, op := some (s.lineOp (.legClose 1) 40) } }

theorem meets_LegCloseMovesRoute_sweep :
    let op := asked.lineOp (.legClose 1) 40
    let w : Work := .sweep 50 1 0
    let x := fun (target : Route) (used : Nat) => { switch target used with purpose := .sweep }
    ((sweepClosing [] 2).Runs (.legClose 1) op ∧ (sweepClosing [] 2).jobq.grant = some ⟨w, some (x [] 2), none⟩ ∧
      (sweepClosing [] 2).jobq.sweep = some (aSweep .rolling 0 33 50 none) ∧ (sweepClosing [] 2).Reads op (cells 0#8) 0#8 ∧
      (sweepClosing [] 2).Misreads op silence .noReply) ∧
    (∃ v, (sweepClosing [] 0).SwitchGoesOn (shutFrom (sweepClosing [] 0) op) w (x [] 0) v) ∧
    (∃ v, (sweepClosing [] 2).SwitchGoesOn (lostFrom (sweepClosing [] 2) op) w { x [] 2 with closeDeparted := true } v) ∧
    (∃ v, (sweepClosing [⟨60, 1⟩] 0).SwitchGoesOn (shutFrom (sweepClosing [⟨60, 1⟩] 0) op) w (x [⟨60, 1⟩] 0) v) ∧
    (∃ st ∈ (x [⟨40, 2⟩] 2).target.drop 0, st.junction = 40) ∧
    let t := lostFrom (sweepClosing [⟨40, 2⟩] 2) op
    ∃ v, State.SweepGoesOn { t with jobq := t.jobq.released } { aSweep .rolling 0 50 50 none with rolled := true, passChanges := 2 } v :=
  ⟨⟨⟨rfl, rfl⟩, rfl, rfl, rfl, rfl⟩,
    ⟨_, .inr (.inr (.inl ⟨_, _, _, rfl, .inl ⟨rfl, rfl⟩⟩))⟩, ⟨_, .inr (.inr (.inl ⟨_, _, _, rfl, .inl ⟨rfl, rfl⟩⟩))⟩,
    ⟨_, .inr (.inr (.inl ⟨_, _, _, rfl, .inr ⟨_, _, ⟨_, _, rfl, fun c hc => by cases hc; exact .inl rfl⟩, rfl,
      .inr (.inl ⟨rfl, rfl, .inl ⟨by decide, rfl⟩, fun ⟨_, h, h2⟩ => by cases h; cases h2⟩), rfl⟩⟩))⟩,
    ⟨_, .head _, rfl⟩, _, .inr (.inl ⟨rfl, rfl, .inl ⟨by decide, rfl⟩, fun ⟨_, h, h2⟩ => by cases h; cases h2⟩)⟩

/-- DISC's LEG_CLOSE in flight: of a leg it closes, and of a restoration, its target past the junction or not. -/
theorem meets_LegCloseMovesRoute_disc :
    (∀ st ∈ [DiscStep.returnCheck, .call], ∀ u ∈ [SwitchUse.closing, .restore],
      (legging (descending [rootAt 1] [⟨40, 1⟩]) (.legClose 1) 40 st (sw u [] 0 2 none none)).jobq.grant =
        some ⟨.disc (work st), some (sw u [] 0 2 none none), none⟩) ∧
    (let s := legging (descending [rootAt 1] [⟨40, 1⟩]) (.legClose 1) 40 .returnCheck (sw .closing [] 0 2 none none)
     let op := (descending [rootAt 1] [⟨40, 1⟩]).lineOp (.legClose 1) 40
     s.Runs (.legClose 1) op ∧ s.disc.cancelled = false ∧ s.disc.levels = rootAt 1 :: [] ∧
      s.AtJunction (rootAt 1) ⟨40, 40⟩ (ent 40 .named 6 []) ∧ s.line.route.dropLast = [] ∧ s.Reads op (cells 0#8) 0#8 ∧
      s.Misreads op silence .noReply) ∧
    (let s := legging (descending [inLeg 1, rootAt 1] [⟨40, 2⟩]) (.legClose 2) 40 .call (sw .restore [⟨40, 1⟩] 0 2 none none)
     (∃ st ∈ ([⟨40, 1⟩] : Route).drop 0, st.junction = 40) ∧ (s.disc.restoreLost 0).levels = rootAt 1 :: []) :=
  ⟨by decide, ⟨⟨rfl, rfl⟩, rfl, rfl, ⟨rfl, rfl⟩, rfl, rfl, rfl⟩, by decide, by decide⟩

theorem meets_LegSettleEnds :
    ((switching (tainted 0) (job .roll 41) (switch [⟨40, 1⟩] 0)).mmon.state ≠ .mated ∧ (switch [⟨40, 1⟩] 0).settle.isSome = true) ∧
    (let s := switching { asked with line := { asked.line with route := [⟨40, 1⟩] } } (job .roll 41) (switch [⟨40, 1⟩] 0)
     s.mmon.state = .mated ∧ s.line.state = .idle ∧ (switch [⟨40, 1⟩] 0).target = s.line.route) ∧
    (let s := switching asked (job .roll 41) (switch [⟨40, 1⟩] 0)
     (switch [⟨40, 1⟩] 0).target = s.line.route ++ [⟨40, 1⟩] ∧ s.rstr.find 40 = some (ent 40 .named 6 []) ∧
      (ent 40 .named 6 []).path = s.line.route ∧ 1 ≤ kindLegs 6#8) ∧
    (let s := switching asked (job .roll 41) (switch [⟨60, 1⟩] 0)
     s.rstr.find 60 = some (ent 60 .departed 0 []) ∧ s.rstr.find 99 = none) := by decide

/-- A leg settle that ends at the target or at a step that the roster bars: of a job with each kind of operation, and of the sweep. -/
theorem meets_LegSettleEnds_on :
    (∀ k, let s := switching asked (job k 33) (switch [] 0)
      s.mmon.state = .mated ∧ s.line.state = .idle ∧ ∃ v, s.SwitchGoesOn s (.job (job k 33) 1 0) (switch [] 0) v) ∧
    (let s := switching asked (job .roll 41) (switch [⟨60, 1⟩] 0)
     ∃ v, s.SwitchGoesOn s (.job (job .roll 41) 1 0) (switch [⟨60, 1⟩] 0) v) ∧
    ∀ target ∈ [([] : Route), [⟨60, 1⟩]], let x := { switch target 0 with purpose := .sweep }
      let q := { asked.jobq with sweep := some (aSweep .rolling 0 40 50 none), grant := some ⟨.sweep 41 1 0, some x, none⟩ }
      let s := { asked with jobq := q }
      s.mmon.state = .mated ∧ s.line.state = .idle ∧ x.settle.isSome = true ∧ ∃ v, s.SwitchGoesOn s (.sweep 41 1 0) x v := by
  refine ⟨fun _ => ⟨rfl, rfl, _, .inr (.inl ⟨_, _, _, rfl, .inl ⟨rfl, rfl⟩⟩)⟩,
    ⟨_, .inr (.inl ⟨_, _, _, rfl, .inr ⟨req, ⟨_, _, rfl, fun c hc => by cases hc; exact .inl rfl⟩, rfl, rfl, rfl⟩⟩)⟩, ?_⟩
  simp only [List.forall_mem_cons]
  exact ⟨⟨rfl, rfl, rfl, _, .inr (.inr (.inl ⟨_, _, _, rfl, .inl ⟨rfl, rfl⟩⟩))⟩,
    ⟨rfl, rfl, rfl, _, .inr (.inr (.inl ⟨_, _, _, rfl, .inr ⟨_, _, ⟨_, _, rfl, fun c hc => by cases hc; exact .inl rfl⟩, rfl,
      .inl ⟨rfl, ⟨_, rfl⟩, rfl⟩, rfl⟩⟩))⟩, fun _ h => nomatch h⟩

/-- A leg settle of DISC: an opening that reported CONNECTED or EMPTY, and a restoration that has reached its target or not. -/
theorem meets_LegSettleEnds_disc :
    (∀ status ∈ [1, 2],
      let x := sw .opening [⟨40, 1⟩] 0 0 (some 5) (some status)
      let s := settling (descending [rootAt 1] [⟨40, 1⟩]) .opening x
      s.mmon.state = .mated ∧ s.line.state = .idle ∧ s.disc.cancelled = false ∧ x.target = s.line.route ∧
        s.disc.pendingDrop = none ∧ s.line.route = s.disc.levelRoute ++ [⟨40, 1⟩]) ∧
    (let s := settling (descending [inLeg 1, rootAt 1] [⟨40, 1⟩]) .call (sw .restore [⟨40, 1⟩] 0 0 (some 5) none)
     s.line.route = [⟨40, 1⟩] ∧ s.line.state = .idle) ∧
    (let s := settling (descending [inLeg 1, rootAt 1] []) .call (sw .restore [⟨60, 1⟩] 0 0 (some 5) none)
     s.rstr.find 60 = some (ent 60 .departed 0 []) ∧ (s.disc.restoreLost s.line.route.length).levels = rootAt 1 :: []) := by
  decide

/-- An EXCHANGE of two bytes in flight, and the cells of the reply `[b]`. -/
def exchanging (used : Nat) : State := busy asked (.data [1#8, 2#8]) 33 (.job (job (.exchange [1#8, 2#8]) 33) 1 used)
def oneByte (b : Byte) : List LowSample :=
  ([1#8, b] ++ [crc8 [1#8, b]]).flatMap (fun b => (List.range 8).map (fun i => ⟨if b.getLsbD i then 320 else 160, 1⟩))

set_option maxRecDepth 4096 in
theorem meets_ExchangeAnswered :
    (∀ u, (exchanging u).Runs (.data [1#8, 2#8]) (asked.lineOp (.data [1#8, 2#8]) 33) ∧
      (exchanging u).Holds (.job (job (.exchange [1#8, 2#8]) 33) 1 u) ∧ (exchanging u).Owes req) ∧
    (decodeDataReply 80 (asked.lineOp (.data [1#8, 2#8]) 33).trim (oneByte 7#8)).reply = .ok [1#8, 7#8] ∧
    (decodeDataReply 80 (asked.lineOp (.data [1#8, 2#8]) 33).trim silence).reply = .error .noReply :=
  ⟨fun _ => ⟨⟨rfl, rfl⟩, rfl, rfl⟩, rfl, rfl⟩

theorem meets_TrainsAndKeepalive :
    (let s := busy asked (.wake ⟨16, 4, 4⟩) 0 (.job (job (.wake ⟨16, 4, 4⟩ true) 0) 1 0)
     s.Runs (.wake ⟨16, 4, 4⟩) (asked.lineOp (.wake ⟨16, 4, 4⟩) 0) ∧
      s.Holds (.job (job (.wake ⟨16, 4, 4⟩ true) 0) 1 0) ∧ s.Owes req) ∧
    (let s := busy sess (.keepalive ⟨2, 4, 4⟩) 0 .keepalive
     s.Runs (.keepalive ⟨2, 4, 4⟩) (sess.lineOp (.keepalive ⟨2, 4, 4⟩) 0) ∧ s.Holds .keepalive) ∧
    sess.line.keepalive = none ∧
    (let s := { State.reset with line := { State.reset.line with keepalive := some 5 } }
     s.line.keepalive.isSome = true ∧ s.line.state ≠ .idle) ∧
    (let s := { sess with line := { sess.line with keepalive := some 5 } }
     s.line.keepalive.isSome = true ∧ s.Free ∧ s.jobq.urgent = [] ∧ s.jobq.normal = [] ∧ s.jobq.sweep = none ∧
      s.disc.state = .idle) ∧
    (let w := aSweep .resting 0 0 50 (some 50)
     let s := { swept w with line := { asked.line with keepalive := some 5 } }
     s.line.keepalive.isSome = true ∧ s.Free ∧ s.jobq.sweep = some w ∧ w.phase ≠ .rolling ∧ s.disc.state = .idle) :=
  ⟨⟨⟨rfl, rfl⟩, rfl, rfl⟩, ⟨⟨rfl, rfl⟩, rfl⟩, rfl, by decide, ⟨rfl, ⟨rfl, rfl, rfl, rfl, rfl⟩, rfl, rfl, rfl, rfl⟩,
    rfl, ⟨rfl, rfl, rfl, rfl, rfl⟩, rfl, by decide, rfl⟩

/-- A low that the watch times. -/
def watched (s : State) : State := { s with line := { s.line with watch := some 12800 } }

theorem meets_StuckLineFaults :
    (sess.line.watch = none ∧ (exchanging 0).line.watch = none) ∧
    (let s := watched sess
     s.mmon.state = .mated ∧ (s.line.state = .idle ∧ s.line.watch.isSome = true) ∧ s.jobq.grant = none ∧ s.disc.state = .idle) ∧
    (let s := watched (armedAuto starting)
     s.line.state = .busy ∧ s.jobq.grant = none ∧ s.disc.state = .armed ∧ s.line.names = .wake) ∧
    (let s := watched (exchanging 0)
     s.line.state = .busy ∧ s.jobq.grant = some ⟨.job (job (.exchange [1#8, 2#8]) 33) 1 0, none, none⟩ ∧ s.disc.state = .idle ∧
      s.Owes req ∧ req.tag = (job (.exchange [1#8, 2#8]) 33).tag ∧ s.line.names = .verb 9) ∧
    (let s := watched (switching asked (job .roll 41) (switch [⟨40, 1⟩] 0))
     s.line.state = .idle ∧ s.jobq.grant = some ⟨.job (job .roll 41) 1 0, some (switch [⟨40, 1⟩] 0), none⟩ ∧
      s.line.names = .nothing) ∧
    (∀ phase, let s := watched (sweeping 33 (aSweep phase 0 0 50 none))
     s.line.state = .busy ∧ s.jobq.grant = some ⟨.sweep 33 1 0, none, none⟩ ∧ s.jobq.sweep = some (aSweep phase 0 0 50 none) ∧
      s.Owes req ∧ req.tag = (aSweep phase 0 0 50 none).tag ∧ s.disc.state = .idle) ∧
    (let s := watched (busy sess (.keepalive ⟨2, 4, 4⟩) 0 .keepalive)
     s.line.state = .busy ∧ s.jobq.grant = some ⟨.keepalive, none, none⟩ ∧ s.line.names = .keepalive) ∧
    ((watched hailing).line.state = .busy ∧ (watched hailing).jobq.grant = some ⟨.disc (work .hail), none, none⟩ ∧
      hailing.disc.state = .walking ∧ hailing.disc.result = some (ResultRecord.fresh .rescan true)) ∧
    ((watched (claims walk .call)).line.state = .idle ∧ (watched (claims walk .call)).jobq.grant = none ∧
      (watched (claims walk .call)).disc.waiting = true ∧ (watched (claims walk .call)).disc.state = .walking) ∧
    (let made := (ResultRecord.fresh .rescan true).stopped .line 7
     (∃ k, (watched hailing).DiscTold made k) ∧ ∃ k, (watched (reqd hailing)).DiscTold made k) :=
  ⟨by decide, by decide, by decide, ⟨rfl, rfl, rfl, rfl, rfl, rfl⟩, ⟨rfl, rfl, rfl⟩, fun _ => ⟨rfl, rfl, rfl, rfl, rfl, rfl⟩,
    ⟨rfl, rfl, rfl⟩, ⟨rfl, rfl, rfl, rfl⟩, ⟨rfl, rfl, rfl, rfl⟩, ⟨_, _, rfl, .inl ⟨rfl, rfl⟩⟩,
    _, _, rfl, .inr ⟨req, rfl, rfl, rfl⟩⟩

/-- A faulted line, the sampler and the high watch running. -/
def faulted (high : Bool) (owed : Option OwedTrain) : State :=
  { sess with line := { sess.line with
      state := .faulted, tlHigh := high, sampler := some 10, highWatch := some 1000, startUp := owed } }

theorem meets_FaultWatchAndClear :
    ({ sess.line with tlHigh := false } : Line).tlHigh = false ∧
    (sess.line.tlHigh = true ∧ sess.line.state = .idle ∧ sess.mmon.state = .mated ∧ (tainted 0).line.state = .idle ∧
      (tainted 0).line.tlHigh = true ∧ (tainted 0).mmon.state ≠ .mated) ∧
    ((faulted true none).line.state = .faulted ∧ (faulted true none).line.sampler.isSome = true ∧
      (faulted true none).line.tlHigh = true ∧ (faulted false none).line.tlHigh = false ∧
      (faulted true none).line.highWatch.isSome = true ∧ (faulted true none).disc.state ≠ .armed) ∧
    (let s := armedAuto (faulted true none)
     s.line.startUp = none ∧ s.disc.state = .armed ∧ s.disc.lineOpenSeen = true ∧ s.disc.mode = some .rescan) ∧
    (let s := trainless (faulted true (some (.begun ⟨16, 4, 4⟩)))
     s.line.highWatch.isSome = true ∧ s.line.startUp.isSome = true ∧ s.link.settings.wakeCount = 0 ∧ s.disc.state ≠ .armed ∧
      (armedAuto s).disc.state = .armed ∧ (armedAuto s).disc.mode = some .rescan) ∧
    (let s := faulted true (some (.waiting 16))
     s.line.startUp.isSome = true ∧ 1 ≤ s.link.settings.wakeCount ∧ s.mmon.state = .mated) ∧
    (let s := { faulted true (some (.begun ⟨16, 4, 4⟩)) with mmon := (tainted 0).mmon }
     s.line.startUp.isSome = true ∧ 1 ≤ s.link.settings.wakeCount ∧ s.mmon.state ≠ .mated) := by decide

/-! ### Meeting the hypotheses: the link port and the requests -/

theorem settled_sess : sess.Settled := fun _ => ⟨rfl, .inr rfl⟩

theorem meets_RequestFramesReadBack :
    (Instr.get 5#8 6#8).wellFormed = true ∧ requestFields (.get 5#8 6#8) = some (0x02#8, 5#8, [6#8]) := by decide

theorem meets_BytesMakeTheirRequest :
    (Instr.get 5#8 6#8).wellFormed = true ∧ requestFields (.get 5#8 6#8) = some (0x02#8, 5#8, [6#8]) ∧ sess.Settled ∧
    sess.deaf = false ∧ sess.link.rx = .hunt ∧ sess.link.frame = [] ∧ sess.link.gap = none :=
  ⟨rfl, rfl, settled_sess, rfl, rfl, rfl, rfl⟩

/-- LINK amid a frame; with no slot free. -/
def amid : State := { sess with link := { sess.link with rx := .header, frame := [0#8], gap := some 2000 } }
def crowded : State :=
  { sess with link := { sess.link with outstanding := (List.range 24).map (fun i => ⟨BitVec.ofNat 8 (i + 1), 0x0D#8⟩) } }

set_option maxRecDepth 4096 in
theorem meets_ReceiverAndRefusedFrames :
    (amid.link.gap.isSome = true ∧ sess.link.gap = none ∧ ({ sess with resetHeld := true } : State).deaf = true) ∧
    (∀ rx ∈ [RxState.header, .payload, .check], ({ amid with link := { amid.link with rx } } : State).deaf = false ∧ rx ≠ .hunt) ∧
    (sess.deaf = false ∧ sess.link.rx = .hunt ∧ 0x55#8 ≠ 0xD5#8) ∧
    (amid.Settled ∧ amid.link.rx = .header ∧ amid.link.frame = [0#8] ∧ 80 < (0#8 ++ 81#8).toNat ∧ (0#8 ++ 80#8).toNat ≤ 80) ∧
    crc16 [0#8, 1#8, 2#8, 5#8, 6#8] ≠ 0#16 ∧ (Instr.badRequest 0x7F#8 5#8 []).wellFormed = true ∧
    (crowded.link.freeSlots = 0 ∧ crowded.deaf = false ∧ asked.link.freeSlots ≠ 0) ∧
    (asked.Takes 5#8 ∧ asked.Settled ∧ asked.link.rx = .hunt ∧ asked.link.frame = [] ∧ asked.link.gap = none ∧
      1 < (2#8).toNat ∧ 2 < (3#8).toNat ∧ 3 < (4#8).toNat ∧ 4#8 ≠ 0xFF#8) ∧
    (requestFields (.get 9#8 6#8) = some (0x02#8, 9#8, [6#8]) ∧ ∃ q ∈ asked.link.outstanding, q.tag = 9#8) :=
  ⟨by decide, by decide, by decide, ⟨settled_sess, by decide⟩, by decide, by decide, by decide, ⟨takes_asked, settled_sess, by decide⟩,
    rfl, _, .head _, rfl⟩

/-- A reply on TXD, with others and a notice waiting. -/
def reply (t : Byte) : Reply := ⟨0x82#8, t, .ok, []⟩
def sending (rs : List Reply) (ns : List Notice) (tx : Option TxFrame) : State :=
  { sess with link := { sess.link with replies := rs, notices := ns, tx } }

theorem meets_TransmitterTakesNext :
    sess.link.tx = none ∧
    (let s := sending [reply 1, reply 2] [] (some (.reply (reply 1)))
     s.link.tx = some (.reply (reply 1)) ∧ s.link.replies = [reply 1, reply 2]) ∧
    (let n := Notice.misaligned InputSet.none
     let s := sending [reply 1] [] (some (.notice n))
     s.link.tx = some (.notice n) ∧ s.link.replies = [reply 1]) ∧
    (let n := Notice.misaligned InputSet.none
     let m := Notice.mate none .mated InputSet.none
     let s := sending [] [m] (some (.notice n))
     s.link.tx = some (.notice n) ∧ s.link.replies = [] ∧ s.link.restarting = false ∧ s.link.notices = [m] ∧
      (sending [] [] (some (.notice n))).link.notices = []) ∧
    (let n := Notice.misaligned InputSet.none
     let s := sending [reply 1] [n] (some (.reply (reply 1)))
     s.link.tx = some (.reply (reply 1)) ∧ s.link.replies = [reply 1] ∧ s.link.restarting = false ∧ s.link.notices = [n]) ∧
    (let s := sending [reply 1] [] (some (.reply (reply 1)))
     s.link.tx = some (.reply (reply 1)) ∧ s.link.replies = [reply 1] ∧ s.link.notices = []) := by decide

theorem meets_StatusPicture : sess.Takes 5#8 ∧ sess.line.route.length ≤ 4 := ⟨takes_sess, by decide⟩

theorem meets_GetReadsSetting :
    sess.Takes 5#8 ∧ (0x06#8, 80) ∈ [((0x06#8 : Byte), sess.link.settings.beat)] ∧ sess.link.settings.value 0 = none ∧
    sess.link.settings.value 0x19 = none := ⟨takes_sess, by decide⟩

theorem meets_SetStoresInRange :
    sess.Takes 5#8 ∧ (0x01#8, 2, 250) ∈ [((0x01#8 : Byte), 2, 250)] ∧ (3#16).toNat < 4 ∧ 4 ≤ (4#16).toNat ∧
    sess.link.settings.value 0x15 = some 0 ∧ (0#8).toNat = 0 ∧ 0x18 < (0x19#8).toNat := ⟨takes_sess, by decide⟩

theorem meets_SetBeatAndKeepalive :
    sess.Takes 5#8 ∧ ((59#16).toNat ≤ 59 ∧ ¬(60#16).toNat ≤ 59 ∧ (119#16).toNat ≤ 119 ∧ ¬(120#16).toNat ≤ 119) ∧
    (sess.mmon.state = .mated ∧ (40 ≠ sess.line.beat ∧ 80 = sess.line.beat ∧ 160 ≠ sess.line.beat)) ∧ State.reset.mmon.state = .opened ∧
    min 5000 (0#16).toNat = 0 ∧ sess.line.state = .idle ∧ State.reset.line.state = .off := ⟨takes_sess, by decide⟩

/-- A table of 32 pins, for handles 1 to 32. -/
def pinned : State :=
  { sess with pins := (List.range 32).map (fun i => ⟨BitVec.ofNat 48 (2000 + i), i + 1, none⟩) }
theorem takes_pinned : pinned.Takes 5#8 := ⟨rfl, by decide, by decide, rfl⟩

theorem meets_PinRequests :
    pinned.Takes 5#8 ∧ ¬(1 ≤ (127#8).toNat ∧ (127#8).toNat ≤ 126) ∧
    (pinAt pinned.pins 3 = some ⟨2002#48, 3, none⟩ ∧ (2002#48 : Stamp) ≠ 1#48) ∧
    (pinAt pinned.pins 41 = none ∧ (pinned.rstr.find 41).isSome = true ∧ (ent 41 .named 0 [⟨40, 1⟩]).stamp ≠ 1#48) ∧
    (pinAt pinned.pins 100 = none ∧ pinned.rstr.find 100 = none ∧ pinned.rstr.reserved ≠ 100 ∧ pinFor pinned.pins 1#48 = none ∧
      32 ≤ pinned.pins.length) ∧
    (pinFor sess.pins 1#48 = none ∧ pinAt sess.pins 100 = none ∧ ¬32 ≤ sess.pins.length) := ⟨takes_pinned, by decide⟩

theorem meets_UnpinAndPins :
    pinned.Takes 5#8 ∧ pinFor pinned.pins 2002#48 = some ⟨2002#48, 3, none⟩ ∧ pinFor pinned.pins 1#48 = none ∧
    pinned.PinsSound ∧ 126 < (127#8).toNat :=
  ⟨takes_pinned, by decide, by decide, ⟨by decide, by decide, by decide, by unfold handleValid; decide⟩, by decide⟩

theorem meets_RosterReadsAndMarks :
    sess.Takes 5#8 ∧ sess.rstr.find (50#8).toNat = some (ent 50 .silent 0 []) ∧ sess.rstr.reserved ≠ (50#8).toNat ∧
    sess.rstr.find (99#8).toNat = none := ⟨takes_sess, by decide⟩

/-- SILENT and DEPARTED targets, one junction among them. -/
def quiet : State := { sess with rstr := { members with
  entries := [ent 40 .silent 6 [], ent 41 .named 0 [⟨40, 1⟩], ent 50 .silent 0 [], ent 60 .departed 0 []] } }
theorem takes_quiet : quiet.Takes 5#8 := ⟨rfl, by decide, by decide, rfl⟩

theorem meets_ForgetByState :
    quiet.Takes 5#8 ∧ quiet.rstr.find (99#8).toNat = none ∧
    quiet.rstr.find (41#8).toNat = some (ent 41 .named 0 [⟨40, 1⟩]) ∧
    quiet.rstr.find (60#8).toNat = some (ent 60 .departed 0 []) ∧
    (quiet.rstr.find (40#8).toNat = some (ent 40 .silent 6 []) ∧
      ∃ x ∈ quiet.rstr.entries, x.state ≠ .departed ∧ x.path.any (fun st => st.junction == (40#8).toNat) = true) ∧
    (quiet.rstr.find (50#8).toNat = some (ent 50 .silent 0 []) ∧ quiet.mmon.state = .mated ∧ quiet.ssw.state = .on ∧
      quiet.jobq.normal.length < 12 ∧ quiet.rstr.reserved ≠ (50#8).toNat ∧
      12 ≤ (List.replicate 12 (job .roll 33)).length) ∧
    (let s : State := { quiet with mmon := State.reset.mmon }
     s.Takes 5#8 ∧ s.mmon.state = .opened ∧ s.rstr.find (50#8).toNat = some (ent 50 .silent 0 [])) ∧
    (let s : State := { quiet with ssw := (supply .tripped 0 false).ssw }
     s.Takes 5#8 ∧ s.mmon.state = .mated ∧ s.ssw.state = .tripped ∧ s.rstr.find (50#8).toNat = some (ent 50 .silent 0 [])) :=
  ⟨takes_quiet, by decide, by decide, by decide, by decide, by decide, ⟨takes_quiet, by decide⟩, takes_quiet, by decide⟩

/-- Full lanes. -/
def full : State :=
  { sess with jobq := { sess.jobq with urgent := List.replicate 4 (job .roll 33), normal := List.replicate 12 (job .roll 33) } }

theorem meets_LineJobsQueued :
    sess.Takes 5#8 ∧ (126 < (127#8).toNat ∧ 1 ≤ (126#8).toNat ∧ (126#8).toNat ≤ 126) ∧ State.reset.mmon.state = .opened ∧
    (supply .tripped 0 false).ssw.state = .tripped ∧ sess.rstr.lookup 126 = none ∧
    sess.rstr.lookup 60 = some (ent 60 .departed 0 []) ∧ sess.rstr.lookup 50 = some (ent 50 .silent 0 []) ∧
    sess.jobq.urgent.length < 4 ∧ 4 ≤ full.jobq.urgent.length ∧ sess.jobq.normal.length < 12 ∧ 12 ≤ full.jobq.normal.length ∧
    (Instr.exchange 5#8 50#8 true [1#8] ≠ .roll 5#8 50#8 true ∧
      Instr.calibrateProbe 5#8 50#8 none true ≠ .calibrateRecord 5#8 50#8 none true) :=
  ⟨takes_sess, by decide⟩

theorem meets_WakeAndSweepAccepted :
    (State.reset.Takes 5#8 ∧ State.reset.mmon.state = .opened) ∧
    ((supply .tripped 0 false).Takes 5#8 ∧ (supply .tripped 0 false).mmon.state = .mated ∧
      (supply .tripped 0 false).ssw.state = .tripped) ∧
    (sess.Takes 5#8 ∧ sess.mmon.state = .mated ∧ ¬(sess.ssw.state = .off ∧ sess.ssw.parked = true) ∧ sess.ssw.state ≠ .tripped ∧
      sess.jobq.normal.length < 12 ∧ sess.jobq.sweep = none ∧ (sess.rstr.nextLive 0).isSome = true) ∧
    (full.Takes 5#8 ∧ full.mmon.state = .mated ∧ full.ssw.state = .on ∧ 12 ≤ full.jobq.normal.length) ∧
    (laden.Takes 5#8 ∧ laden.mmon.state = .mated ∧ laden.ssw.state = .on ∧ laden.jobq.sweep.isSome = true) ∧
    (let s := withE sess [ent 60 .departed 0 []]
     s.Takes 5#8 ∧ s.rstr.nextLive 0 = none ∧ s.mmon.state = .mated ∧ s.ssw.state = .on ∧ s.jobq.sweep = none) ∧
    (0#8 : Byte) ≠ 1#8 :=
  ⟨⟨⟨rfl, by decide, by decide, rfl⟩, rfl⟩, ⟨takes_supply, rfl, rfl⟩, ⟨takes_sess, by decide⟩, ⟨⟨rfl, by decide, by decide, rfl⟩, by decide⟩,
    ⟨takes_laden, by decide⟩, ⟨⟨rfl, by decide, by decide, rfl⟩, rfl, rfl, rfl, rfl⟩, by decide⟩

theorem meets_DiscoverStarts :
    (sess.Takes 5#8 ∧ State.reset.mmon.state ≠ .mated ∧ sess.mmon.state = .mated ∧ sess.ssw.parked = false ∧
      sess.ssw.state ≠ .tripped ∧ sess.disc.state = .idle ∧ sess.jobq.grant = none ∧ sess.disc.lineOpenSeen = true ∧
      sess.line.state ≠ .faulted) ∧
    (laden.disc.state ≠ .idle ∧ laden.disc.state ≠ .armed) ∧ (supply .on 16 false).disc.state = .idle ∧
    (starting.jobq.grant = none ∧ ({ sess.disc with lineOpenSeen := false } : Disc).lineOpenSeen = false) ∧
    ((faulted true none).line.state = .faulted ∧ (faulted true none).disc.state = .idle) ∧
    ((exchanging 0).Takes 5#8 ∧ (exchanging 0).jobq.grant = some ⟨.job (job (.exchange [1#8, 2#8]) 33) 1 0, none, none⟩ ∧
      (exchanging 0).Owes req ∧ (exchanging 0).disc.state = .idle ∧ (exchanging 0).ssw.state = .on) ∧
    (∀ phase, let s := sweeping 33 (aSweep phase 0 0 50 none)
     s.Takes 5#8 ∧ s.jobq.grant = some ⟨.sweep 33 1 0, none, none⟩ ∧ s.jobq.sweep = some (aSweep phase 0 0 50 none) ∧ s.Owes req ∧
      s.disc.state = .idle ∧ s.ssw.state = .on) ∧
    (let s := busy sess (.keepalive ⟨2, 4, 4⟩) 0 .keepalive
     s.Takes 5#8 ∧ s.jobq.grant = some ⟨.keepalive, none, none⟩ ∧ s.disc.state = .idle ∧ s.ssw.state = .on) :=
  ⟨⟨takes_sess, by decide⟩, by decide, rfl, ⟨rfl, rfl⟩, ⟨rfl, rfl⟩, ⟨⟨rfl, by decide, by decide, rfl⟩, rfl, rfl, rfl, rfl⟩,
    fun p => ⟨⟨rfl, by cases p <;> decide, by decide, rfl⟩, rfl, rfl, rfl, rfl, rfl⟩, ⟨rfl, by decide, by decide, rfl⟩, rfl, rfl, rfl⟩

theorem meets_CancelActs :
    (laden.Takes 5#8 ∧ laden.Owes ⟨4#8, 0x0D#8⟩ ∧ ∃ j ∈ laden.jobq.urgent ++ laden.jobq.normal, j.tag = 4#8) ∧
    (laden.jobq.grant = some ⟨.job ⟨2#8, .roll, true, 33, 33⟩ 1 0, none, none⟩ ∧
      ∀ t ∈ [1#8, 2#8, 6#8, 77#8], ∀ x ∈ laden.jobq.urgent ++ laden.jobq.normal, x.tag ≠ t) ∧
    (sess.jobq.urgent ++ sess.jobq.normal = [] ∧ sess.jobq.grant = none ∧ sess.jobq.sweep = none ∧ sess.disc.origin = none ∧
      sess.disc.state = .idle) ∧
    (let s := sweeping 33 (aSweep .ending 0 0 50 none)
     s.Takes 5#8 ∧ s.jobq.sweep = some (aSweep .ending 0 0 50 none)) ∧
    (let s := sweeping 33 (aSweep .rolling 0 0 50 none)
     s.Takes 5#8 ∧ s.jobq.grant = some ⟨.sweep 33 1 0, none, none⟩) ∧
    (laden.jobq.sweep.map (fun w => w.tag) = some 6#8 ∧ laden.Owes ⟨6#8, 0x10#8⟩ ∧ laden.disc.origin = some (.requested 1#8)) ∧
    ({ State.reset.disc with state := .armed, origin := some .auto } : Disc).state = .armed ∧
    (hailing.Takes 5#8 ∧ hailing.jobq.grant = some ⟨.disc (work .hail), none, none⟩ ∧ hailing.disc.state = .walking) ∧
    (let made := (ResultRecord.fresh .rescan true).stopped .cancelled 7
     laden.disc.result = some (ResultRecord.fresh .rescan true) ∧ (∃ k, laden.DiscTold made k) ∧
      (cancelling hailing).disc.cancelled = true ∧ (∃ k, (cancelling hailing).DiscTold made k) ∧
      (cancelling hailing).Runs .hail (walk.lineOp .hail 0) ∧ (cancelling hailing).Holds (.disc (work .hail))) :=
  ⟨⟨takes_laden, rfl, _, .tail _ (.head _), rfl⟩, ⟨rfl, by decide⟩, by decide, ⟨⟨rfl, by decide, by decide, rfl⟩, rfl⟩,
    ⟨⟨rfl, by decide, by decide, rfl⟩, rfl⟩, ⟨rfl, rfl, rfl⟩, rfl, ⟨⟨rfl, by decide, by decide, rfl⟩, rfl, rfl⟩,
    ⟨rfl, ⟨_, _, rfl, .inr ⟨⟨1#8, 0x0B#8⟩, rfl, rfl, rfl⟩⟩, rfl, ⟨_, _, rfl, .inl ⟨rfl, rfl⟩⟩, ⟨rfl, rfl⟩, rfl⟩⟩

theorem meets_Restarts :
    ((supply .tripped 0 false).Takes 5#8 ∧ State.reset.Takes 5#8 ∧ State.reset.mmon.state = .opened) ∧
    (laden.Takes 5#8 ∧ laden.mmon.state = .mated ∧ laden.FlushReady ∧ ∀ w, laden.jobq.sweep = some w → w.phase ≠ .ending) ∧
    (let s := { sess with link := { sess.link with restarting := true } }
     s.link.restarting = true ∧ s.link.replies = [] ∧ s.link.tx = none) ∧
    ¬(sess.link.restarting = true ∧ sess.link.replies = [] ∧ sess.link.tx = none) :=
  ⟨⟨takes_supply, ⟨rfl, by decide, by decide, rfl⟩, rfl⟩, ⟨takes_laden, rfl, meets_FlushAnswersInOrder.1,
    fun w h => by cases h; decide⟩, by decide, by decide⟩

/-! ### Meeting the hypotheses: arithmetic, choices and invariants -/

theorem meets_RoundingByMode :
    (0 : Int) < 40 ∧ (0 : Int) < 80 ∧ (0 : Int) < 160 ∧ (80 : Int) = 2 * 40 ∧ 2 * ((20 : Int) % 40) = 40 ∧
    ((5125 : Int) - 5120) % 10 = 5 ∧ ((10250 : Int) - 10240) % 20 = 10 := by decide

theorem meets_CalibrationJudged :
    0 < 80 ∧
    (∀ ticks ∈ [2560, 10240], (⟨ticks, 1, false⟩ : Capture).edges = 1 ∧ 32 * 80 ≤ ticks ∧ ticks ≤ 128 * 80) ∧
    ¬(32 * 80 ≤ 2559) ∧ ¬(10241 ≤ 128 * 80) ∧ (⟨5120, 2, false⟩ : Capture).edges ≠ 1 ∧
    (⟨5120, 1, true⟩ : Capture).saturated = true := by decide

theorem meets_TurnaroundGap :
    (beatValid 160 = true ∧ 3 ≤ 31 ∧ (-128 : Int) ≤ 127) ∧ OpKind.verb (.roll) ≠ none ∧ OpKind.verb (.name 0 0 1) ≠ none ∧
    (∃ ds, OpKind.call [1#4, 2#4] = .call ds) ∧ (∃ p, OpKind.data [7#8] = .data p) ∧
    sess.rstr.find 33 = some { ent 33 .calibrated 0 [] with trim := some 10 } ∧
    (sess.rstr.find 50).bind (fun e => e.trim) = none :=
  ⟨by decide, by decide, by decide, ⟨_, rfl⟩, ⟨_, rfl⟩, by decide, by decide⟩

theorem meets_SlotWindows :
    0 < 80 ∧ beatValid 80 = true ∧ (⟨160, 1, false⟩ : Capture).ticks = 2 * 80 ∧ 5 * 80 = 4 * (⟨100, 1, false⟩ : Capture).ticks ∧
    4 * (⟨99, 1, false⟩ : Capture).ticks < 5 * 80 ∧ 2 * (⟨120, 1, false⟩ : Capture).ticks = 3 * 80 ∧ round.length = 16 := by decide

set_option maxRecDepth 8192 in
theorem meets_CellWindows :
    0 < 80 ∧ (-128 : Int) ≤ 127 ∧ 2 ≤ (⟨160, 2, false⟩ : Capture).edges ∧
    (∀ x ∈ [(20, 400), (13, 260), (11, 220), (6, 120)],
      (⟨x.2, 1, false⟩ : Capture).edges < 2 ∧ x.1 * 80 * (512 + 0) ≤ x.2 * 2048 ∧ ¬x.1 * 80 * (512 + 0) ≤ (x.2 - 1) * 2048) ∧
    (silence[0]?).map (fun l => cellClass 80 10 (LowSample.capture l)) = some .runt ∧
    (∀ l ∈ cells 7#8 ++ oneByte 7#8, cellClass 80 10 (LowSample.capture l) = .zero ∨ cellClass 80 10 (LowSample.capture l) = .one) ∧
    ((cells 7#8).length = 16 ∧ (oneByte 7#8).length = 16 + 8 * (1#8).toNat ∧ 32 < (33#8).toNat ∧ (32#8).toNat ≤ 32) := by
  decide

/-- A pin for handle 42, one for handle 60 whose DEPARTED entry has its stamp, one for handle 33 held by another live stamp. -/
def pinList : List Pin := [⟨7#48, 33, none⟩, ⟨3#48, 42, some 1#8⟩, ⟨1060#48, 60, none⟩]

theorem meets_ChoiceOfHandle :
    (1 ≤ 33 ∧ 33 ≤ 126) ∧ pinFor pinList 3#48 = some ⟨3#48, 42, some 1#8⟩ ∧ members.find 42 = none ∧
    (pinFor pinList 1060#48 = some ⟨1060#48, 60, none⟩ ∧ members.find 60 = some (ent 60 .departed 0 []) ∧
      (ent 60 .departed 0 []).stamp = 1060#48) ∧
    (pinFor pinList 7#48 = some ⟨7#48, 33, none⟩ ∧ (members.find 33).isSome = true) ∧
    (pinFor [] 1060#48 = none ∧
      members.entries = members.entries.take 4 ++ ent 60 .departed 0 [] :: [] ∧
      ∀ x ∈ members.entries.take 4, x.state ≠ .departed ∨ x.stamp ≠ 1060#48) ∧
    (∀ e ∈ members.entries, e.state ≠ .departed ∨ e.stamp ≠ 5#48) := by decide

theorem meets_BuffersStaySound :
    (∃ t, exec (.get 5#8 6#8) sess = .next t) ∧ sess.SlotsBounded ∧ sess.NoticesDistinct ∧ sess.SettingsSound ∧ sess.Settled ∧
    sess.LanesBounded :=
  ⟨⟨_, rfl⟩, by unfold State.SlotsBounded; decide, by unfold State.NoticesDistinct; decide, ⟨rfl, rfl⟩, settled_sess,
    by unfold State.LanesBounded; decide⟩

theorem meets_SupplyAndLineStaySound : (∃ t, exec (.park 5#8) sess = .next t) ∧ sess.SupplySound ∧ sess.LineSupplied :=
  ⟨⟨_, rfl⟩, ⟨rfl, fun _ => rfl⟩, fun _ => rfl, fun h => nomatch h⟩

theorem roster_sess : sess.RosterSound :=
  ⟨⟨by decide, by unfold handleValid; decide, by decide, by decide, by decide⟩, (fun _ h => nomatch h),
    ⟨by decide, by decide, by decide, fun _ h => nomatch h⟩, by unfold handleValid; decide⟩

/-- The tree of a discovery two levels deep, its leg open. -/
def inTree : State := descending [inLeg 1, rootAt 1] [⟨40, 1⟩]

theorem paths_members : members.PathsSound := by
  intro h e he
  have hm : e ∈ members.entries := List.mem_of_find?_eq_some he
  have hn : ∀ x ∈ members.entries, x.path = [] ∨ x.path = [⟨40, 1⟩] := by decide
  have hd : ∀ x ∈ members.entries, x.path = [⟨40, 1⟩] → x.handle = 41 := by decide
  obtain p | p := hn e hm
  · exact ⟨by rw [p]; decide, fun i st hi => by rw [p] at hi; cases hi⟩
  · refine ⟨by rw [p]; decide, fun i st hi => ?_⟩
    rw [p] at hi ⊢
    cases i with
    | zero => cases hi; exact ⟨ent 40 .named 6 [], rfl, rfl, rfl, by decide, by decide, fun h => nomatch h⟩
    | succ n => cases hi

theorem route_inTree : members.RouteSound [⟨40, 1⟩] := by
  refine ⟨by decide, fun i st hi => ?_⟩
  cases i with
  | zero => cases hi; rfl
  | succ n => cases hi

theorem meets_RosterStaysSound :
    (∃ t, exec (.forget 5#8 60#8) sess = .next t) ∧ sess.RosterSound ∧ sess.RosterNeedsSession ∧
    (∃ t, exec (.tlLevelChange false) inTree = .next t) ∧ inTree.SettingsSound ∧ inTree.RosterSound ∧ inTree.TreeSound ∧
    inTree.disc.frames.length ≤ 48 := by
  refine ⟨⟨_, rfl⟩, roster_sess, ⟨meets_SupplyAndLineStaySound.2.1, meets_SupplyAndLineStaySound.2.2, fun h => nomatch h⟩,
    ⟨_, rfl⟩, ⟨rfl, rfl⟩, ?_, ?_, by decide⟩
  · exact ⟨roster_sess.1, (fun _ h => nomatch h), roster_sess.2.2.1, roster_sess.2.2.2⟩
  · exact ⟨paths_members, route_inTree, ⟨by decide, by decide, ⟨rfl, by decide, .inl rfl, rfl, by decide, .inl rfl, trivial⟩⟩,
      (fun _ h => nomatch h), (fun _ _ _ h => nomatch h), (fun h => absurd rfl h), (fun h => absurd rfl h), (fun _ h => nomatch h),
      fun _ h => nomatch h⟩

/-! ### Ill-formed commands are refused -/

theorem refuses_round_of_15 : (Instr.callDone (round.take 15)).wellFormed = false := by decide
theorem refuses_low_without_its_cue : (Instr.echoDone (⟨0, 1⟩ :: round.take 15)).wellFormed = false := by decide
theorem refuses_reply_of_17_cells : (Instr.rollDone (List.replicate 17 ⟨160, 1⟩)).wellFormed = false := by decide
theorem refuses_empty_reply : (Instr.nameDone []).wellFormed = false ∧ (Instr.dataDone []).wellFormed = false := by decide
theorem refuses_cell_without_edge : (Instr.legOpenDone [⟨160, 0⟩]).wellFormed = false ∧
    (Instr.legCloseDone [⟨160, 0⟩]).wellFormed = false ∧ (Instr.dataDone [⟨160, 0⟩]).wellFormed = false := by decide
set_option maxRecDepth 4096 in
theorem refuses_data_of_273_cells : (Instr.dataDone (List.replicate 273 ⟨160, 1⟩)).wellFormed = false := by decide
theorem refuses_measure_without_ticks : (Instr.measureDone ⟨0, 1⟩).wellFormed = false := by decide
theorem refuses_short_frame : (Instr.frameCheck [0#8, 0#8, 1#8] 0#16).wellFormed = false := by decide
theorem refuses_wrong_length : (Instr.frameCheck [0#8, 2#8, 1#8, 5#8] 0#16).wellFormed = false := by decide
set_option maxRecDepth 4096 in
theorem refuses_good_check :
    (Instr.frameCheck [0#8, 0#8, 1#8, 5#8] (crc16 [0#8, 0#8, 1#8, 5#8])).wellFormed = false := by decide
theorem refuses_a_request_as_bad : (Instr.badRequest 0x01#8 5#8 []).wellFormed = false := by decide
theorem refuses_set_of_rows_of_their_own :
    (Instr.set 5#8 0x06#8 0#16).wellFormed = false ∧ (Instr.set 5#8 0x0A#8 0#16).wellFormed = false := by decide
theorem refuses_clear_marks_of_handle_0 : (Instr.clearMarks 5#8 0#8).wellFormed = false := by decide
theorem refuses_33_bytes : (Instr.exchange 5#8 33#8 false (List.replicate 33 0#8)).wellFormed = false := by decide
theorem refuses_tag_0 :
    [Instr.status 0#8, .get 0#8 1#8, .set 0#8 1#8 1#16, .setBeat 0#8 80#16, .pin 0#8 1#48 5#8 none, .roll 0#8 5#8 true, .park 0#8,
      .exchange 0#8 5#8 true [], .clearMarks 0#8 5#8, .sweep 0#8 0#8 false 0#16, .cancel 0#8 5#8, .restartFull 0#8].all
      (fun c => !c.wellFormed) = true := by decide

/-! ### Values of the spec's tables -/

/-- Trim and clamp of a first calibration under each rounding mode. -/
def modes (beat ticks : Nat) : List (Option Int × Bool) :=
  [RoundMode.nearestEven, .down, .up, .towardZero].map (fun m =>
    let r := judge beat ⟨m, .record, false⟩ ⟨ticks, 1, false⟩ none 8
    (r.trim, r.clamped))

/-- Table 4-4. -/
theorem test_calibrations_at_80 :
    modes 80 5487 = [(some 37, false), (some 36, false), (some 37, false), (some 36, false)] ∧
    modes 80 4853 = [(some (-27), false), (some (-27), false), (some (-26), false), (some (-26), false)] ∧
    modes 80 5115 = [(some 0, false), (some (-1), false), (some 0, false), (some 0, false)] ∧
    modes 80 5105 = [(some (-2), false), (some (-2), false), (some (-1), false), (some (-1), false)] ∧
    modes 80 6394 = [(some 127, false), (some 127, false), (some 127, true), (some 127, false)] ∧
    modes 80 3835 = [(some (-128), false), (some (-128), true), (some (-128), false), (some (-128), false)] ∧
    modes 80 2400 = [(none, false), (none, false), (none, false), (none, false)] := by decide

/-- Tables 4-5 and 4-6. -/
theorem test_calibrations_at_40_and_160 :
    modes 40 2427 = [(some (-27), false), (some (-27), false), (some (-26), false), (some (-26), false)] ∧
    modes 40 1280 = List.replicate 4 (some (-128), true) ∧ modes 40 1279 = List.replicate 4 (none, false) ∧
    modes 160 10970 = [(some 36, false), (some 36, false), (some 37, false), (some 36, false)] ∧
    modes 160 12780 = List.replicate 4 (some 127, false) ∧ modes 160 20481 = List.replicate 4 (none, false) := by decide

/-- Table 4-7, calibrations 3, 4 and 5. -/
theorem test_calibration_history :
    let judged := fun (ticks : Nat) (old : Int) => judge 80 ⟨.nearestEven, .record, false⟩ ⟨ticks, 1, false⟩ (some old) 8
    ((judged 5611 37).delta, (judged 5611 37).drift, (judged 5611 37).inexact) = (some 12, some .slower, true) ∧
    ((judged 5560 49).delta, (judged 5560 49).drift, (judged 5560 49).inexact) = (some (-5), some .steady, false) ∧
    ((judged 6800 44).delta, (judged 6800 44).drift, (judged 6800 44).clamped) = (some 83, some .slower, true) := by decide

/-- Tables 4-9 and 4-10. -/
theorem test_cell_classes :
    [349, 190, 250, 80].map (fun l => cellClass 80 37 ⟨l, 1, false⟩) = [.one, .zero, .erased, .runt] ∧
    [648, 649, 998, 999].map (fun l => cellClass 160 127 ⟨l, 1, false⟩) = [.erased, .one, .one, .stretch] ∧
    [55, 56, 101, 102, 119, 120, 184].map (fun l => cellClass 40 (-41) ⟨l, 1, false⟩) =
      [.runt, .zero, .zero, .erased, .erased, .one, .stretch] ∧ cellClass 80 0 ⟨160, 2, false⟩ = .split := by decide

/-- Table 4-11. -/
theorem test_slot_classes :
    [80, 99, 100, 159, 160].map (fun l => slotClass 80 ⟨l, 1, false⟩) = [.empty, .empty, .faint, .faint, .occupied] ∧
    [240, 320, 399].map (fun l => slotClass 160 ⟨l, 1, false⟩) = [.faint, .occupied, .occupied] := by decide

/-- Table 4-12. -/
theorem test_gaps : [gapTicks 40 7 37, gapTicks 40 3 (-41), gapTicks 80 7 37, gapTicks 160 7 37, gapTicks 160 31 127] =
    [343, 160, 686, 1372, 6390] := by decide

set_option maxRecDepth 4096 in
/-- R38, worked by hand: the check byte of audience 0Ch and verb 05h (Table 11-4) is 41h; that of a frame of zeros is 00h. -/
theorem test_roll_frame : lineFrame 12 .roll = [0x0C#8, 0x05#8, 0x41#8] ∧ crc8 [0#8, 0#8] = 0#8 := by decide

set_option maxRecDepth 4096 in
/-- R32, worked by hand: the request part of a ROLL to 0Ch is the attention, then byte 0Ch least significant bit first; 160 beats. -/
theorem test_roll_symbols :
    let y := (sess.lineOp .roll 12).symbols
    y.take 9 = [⟨12, 4⟩, ⟨2, 4⟩, ⟨2, 4⟩, ⟨4, 2⟩, ⟨4, 2⟩, ⟨2, 4⟩, ⟨2, 4⟩, ⟨2, 4⟩, ⟨2, 4⟩] ∧
      (y.map (fun c => c.low + c.high)).sum = 160 := by decide

set_option maxRecDepth 4096 in
/-- R159, worked by hand: the CRC-16 of the frame of STATUS with tag 05h (LEN 0, kind 01h) is E754h. -/
theorem test_status_frame : crc16 (frameBody 0x01#8 5#8 []) = 0xE754#16 := by decide

/-- Section 12.1: kind 06h is a JUNCTION of 2 legs; section 3.9: kind 5Ah is a JUNCTION. -/
theorem test_kinds : kindIsJunction 0x06#8 = true ∧ kindLegs 0x06#8 = 2 ∧ kindIsJunction 0x5A#8 = true ∧
    kindIsJunction 0x01#8 = false ∧ kindIsJunction 0x20#8 = false := by decide

/-! ### Steps of the worked sessions -/

/-- Outcome of one command, by a property of the next state. -/
def after (c : Instr) (s : State) (p : State → Bool) : Bool :=
  match exec c s with
  | .next t => p t
  | _ => false

/-- Table 12-1: the debounce expiry starts the session, the ramp and an automatic RESCAN. -/
theorem test_debounce_expiry :
    after .debounceExpiry (mate .qualifying true true true) (fun t => t.mmon.state == .mated && t.ssw.state == .ramping &&
      t.ssw.duty == 1 && t.disc.state == .armed && t.disc.origin == some .auto && t.disc.mode == some .rescan) = true := by decide
/-- Table 12-1: OVL asserted at level 4 holds; its release restarts the dwell at level 4. -/
theorem test_ovl :
    after .ovlAsserted (supply .ramping 4 false) (fun t => t.ssw.state == .holding && t.ssw.duty == 4 && t.ssw.hold == some 5) = true ∧
    after .ovlReleased (supply .holding 4 true)
      (fun t => t.ssw.state == .ramping && t.ssw.duty == 4 && t.ssw.step == some 1250) = true := by decide
/-- Table 12-1: the dwell at level 16 ends in ON. -/
theorem test_last_dwell : after .dwellExpiry (supply .ramping 16 false) (fun t => t.ssw.state == .on && t.ssw.duty == 16) = true := by
  decide
set_option maxRecDepth 4096 in
/-- Table 3-8: the slots 3 (OCCUPIED) and 7 (FAINT) of the first round push frames; the lower is walked next. -/
theorem test_call_round :
    after (.callDone ((List.range 16).map (fun i => ⟨if i = 3 then 172 else if i = 7 then 132 else 80, 1⟩))) (calling walk [])
      (fun t => t.line.op.any (fun op => op.kind == .call [3#4]) && t.disc.frames == [[7#4], [1#4]]) = true := by decide
/-- Table 12-6, pass 3: an unanswered roll at the limit makes the entry SILENT. -/
theorem test_silent :
    let e := { ent 34 .calibrated 0 [] with trim := some 20, misses := 2, errors := 5 }
    let s := busy { asked with rstr := ⟨[e], 3, 0, false⟩ } .roll 34 (.job (job .roll 34) 0 0)
    after (.rollDone silence) s (fun t => t.rstr.entries == [{ e with state := .silent, misses := 3, errors := 6 }] &&
      t.rstr.generation == 4 && t.link.replies == [⟨0x8D#8, 9#8, .noReply, [0#8, 2#8, 3#8]⟩]) = true := by decide
/-- Section 12.2: a ROLL while the part is tripped is rejected SUPPLY_OFF. -/
theorem test_roll_tripped :
    after (.roll 5#8 33#8 false) (supply .tripped 0 false) (fun t => t.link.replies == [⟨0x8D#8, 5#8, .supplyOff, []⟩]) = true := by
  decide
/-- Table 11-2: RECEIVED_BYTE begins a frame at SYNC. -/
theorem test_sync : after (.receivedByte (.good 0xD5#8)) sess (fun t => t.link.rx == .header) = true := by decide
/-- The first command of the queue runs; the rest waits. -/
theorem test_step_takes_the_front :
    (match step { sess with pending := [.tlLevelChange false, .pwmPeriod] } with
      | .next t => t.pending == [.pwmPeriod] && t.line.tlHigh == false
      | _ => false) = true := by decide
/-- An idle queue leaves the part as it is (log 1). -/
theorem test_idle : step sess = .next sess := rfl

end Sys2Proof.Tests
end

section
/-! SUPPORT. What the shared operations make of a part, as equations with the words of the statements: replies, MMON's evaluation,
the ramp start, the arming, a break and supply ready. -/

namespace Sys2Proof.Machine

variable {s : State}

/-! ### Replies (R160, R161) -/

/-- The reply of an outstanding request. -/
theorem answer_of_owes {q : Request} {tag : Byte} (r : Result) (p : List Byte) (h : s.Owes q) (e : q.tag = tag) :
    s.answer tag r p = { s with link := s.link.answered q r p } := by
  subst e
  unfold State.answer
  rw [show s.link.outstanding.find? (fun x => x.tag == q.tag) = some q from h]
  rfl

/-! ### MMON (R2, R3, R13) -/

theorem Mmon.enter_eq_approach (m : Mmon) (debounceMs : Nat) : m.enter debounceMs = m.approach debounceMs := by
  cases h : m.inputs.cls <;> simp [Mmon.enter, Mmon.approach, h]

theorem evaluate_eq : s.evaluate = { s with mmon := s.mmon.approach s.link.settings.mateDebounceMs } := by
  unfold State.evaluate
  rw [Mmon.enter_eq_approach]
  rfl

/-! ### The session start (R6) -/

theorem rampStart_eq : s.rampStart = { s with ssw := s.ssw.ramping s.link.settings } := by
  cases h : s.ssw.ovl <;> simp [State.rampStart, Ssw.ramping, dwellOf, State.withSsw, h]

theorem arm_eq : s.arm = { s with disc := s.disc.armedBy s.link.settings } := by
  unfold State.arm Disc.armedBy
  cases s.link.settings.autoDiscover <;> rfl

theorem sessionStart_eq : s.sessionStart = { s with
    mmon := { s.mmon with state := .mated, debounce := none }
    ssw := s.ssw.ramping s.link.settings
    line := { s.line with beat := s.link.settings.beat, tickPhase := 0 }
    disc := s.disc.armedBy s.link.settings
    link := { s.link with deferred := false, notices := putNotice (.mate none .mated s.mmon.inputs) s.link.notices } } := by
  simp only [State.sessionStart, rampStart_eq, arm_eq]
  rfl

/-! ### A break (R7, R8, R39) -/

/-- The operations that clock lows are those of a verb, DROP apart (R33 to R36). -/
theorem OpKind.clocks_iff (k : OpKind) : k.clocks = true ↔ k.verb ≠ none ∧ k ≠ .drop := by
  cases k <;> simp [OpKind.clocks, OpKind.verb]

/-- An operation cut short that clocks no lows. -/
theorem cut_of_silent {l : Line} {op : LineOp} (h : l.op = some op) (hc : op.kind.clocks = false) :
    l.cut = { l with op := none } := by
  simp [Line.cut, h, hc]

/-- An operation cut short that clocks lows. -/
theorem cut_of_clocks {l : Line} {op : LineOp} (h : l.op = some op) (hc : op.kind.clocks = true) :
    l.cut = { l with op := none, capture := l.cutCapture, cuts := l.cuts + 1 } := by
  simp [Line.cut, h, hc]

/-- The ranges of the capture unit at a restart and some counts (R39). -/
theorem restart_count_range (ticks edges : Nat) :
    let c := Capture.restart.count ticks edges
    1 ≤ c.edges ∧ c.edges ≤ 15 ∧ c.ticks ≤ 65535 ∧ (c.saturated = true ↔ c.ticks = 65535) := by
  show 1 ≤ min (1 + edges) 15 ∧ min (1 + edges) 15 ≤ 15 ∧ min (0 + ticks) 65535 ≤ 65535 ∧
    ((false || decide (65535 ≤ 0 + ticks)) = true ↔ min (0 + ticks) 65535 = 65535)
  rw [Bool.false_or, decide_eq_true_iff]
  omega

/-- What the capture unit keeps of an operation cut short: its old values, or values of R39's ranges (log 32). -/
theorem cutCapture_range (l : Line) :
    l.cutCapture = l.capture ∨ 1 ≤ l.cutCapture.edges ∧ l.cutCapture.edges ≤ 15 ∧ l.cutCapture.ticks ≤ 65535 ∧
      (l.cutCapture.saturated = true ↔ l.cutCapture.ticks = 65535) := by
  unfold Line.cutCapture
  split
  · exact .inr (restart_count_range _ _)
  · exact .inl rfl

/-- A break with nothing in flight. -/
theorem suspect_of_idle (filter : Nat) (h : s.line.op = none) : s.suspect filter = { s with
    mmon := { s.mmon with state := .suspect, breakFilter := some filter }, line := { s.line with watch := none } } := by
  simp only [State.suspect, withMmon_line, h]
  rfl

/-- LINE in SUSPECT, its operation abandoned (R8). -/
def Line.abandoned (l : Line) (t : Settings) : Line :=
  { l.cut with state := .idle, watch := none, keepalive := keepaliveFrom t }

/-- A break in a start-up train, which stays owed (R30). -/
theorem suspect_of_startUp (filter : Nat) {op : LineOp} {train : Train} (h : s.line.op = some op) (hk : op.kind = .startUp train) :
    s.suspect filter = { s with
      mmon := { s.mmon with state := .suspect, breakFilter := some filter }, line := s.line.abandoned s.link.settings } := by
  simp only [State.suspect, withMmon_line, h, hk]
  rfl

/-- A break in any other operation, which is handed to the holder as tainted (R10). -/
theorem suspect_of_op (filter : Nat) {op : LineOp} (h : s.line.op = some op) (hk : ¬∃ train, op.kind = .startUp train) :
    s.suspect filter = { s with
      mmon := { s.mmon with state := .suspect, breakFilter := some filter }, line := s.line.abandoned s.link.settings
      jobq := { s.jobq with grant := s.jobq.grant.map (fun g => { g with tainted := some op }) } } := by
  simp only [State.suspect, withMmon_line, h]
  split
  · next train e => exact absurd ⟨train, e⟩ hk
  · rfl

end Sys2Proof.Machine
end

section
/-! The mate monitor and RESET_N (O3, O5, O6, O7). -/

namespace Sys2Proof.Machine

variable {s : State} {i : PlugInput} {made : Bool}

/-! ### INPUT_CHANGE (Table 1-2) -/

/-- The part with one plug input at a level. -/
abbrev State.plugged (s : State) (i : PlugInput) (made : Bool) : State :=
  { s with mmon := { s.mmon with inputs := s.mmon.inputs.put i made } }

theorem exec_inputChange_same (h : s.mmon.inputs.get i = made) : exec (.inputChange i made) s = .next s := if_pos h

theorem exec_inputChange_deaf (h : s.mmon.inputs.get i ≠ made) (hd : s.deaf = true) :
    exec (.inputChange i made) s = .next (s.plugged i made) :=
  (if_neg h).trans (if_pos hd)

theorem exec_inputChange_heard (h : s.mmon.inputs.get i ≠ made) (hd : s.deaf = false) :
    exec (.inputChange i made) s = .next (s.plugged i made).takeInput.kick :=
  (if_neg h).trans (if_neg (Bool.eq_false_iff.1 hd))

/-- Outside a session a change calls for an evaluation, but for a stay in PARTIAL (R2, R3). -/
theorem takeInput_approach (h : s.mmon.state = .opened ∨ s.mmon.state = .partialMate ∨ s.mmon.state = .qualifying) :
    s.takeInput = { s with
      mmon := if s.mmon.state = .partialMate ∧ s.mmon.inputs.cls = .some then s.mmon
        else s.mmon.approach s.link.settings.mateDebounceMs } := by
  unfold State.takeInput
  rcases h with h | h | h
  · simp [h, evaluate_eq]
  · cases hc : s.mmon.inputs.cls <;> simp [h, evaluate_eq]
  · simp [h, evaluate_eq]

theorem takeInput_break (h : s.mmon.state = .mated) (hc : s.mmon.inputs.cls ≠ .all) : s.takeInput = s.takeBreak := by
  unfold State.takeInput
  cases hi : s.mmon.inputs.cls <;> simp_all

theorem takeInput_waits (h : s.mmon.state = .suspect) (hc : s.mmon.inputs.cls ≠ .all) : s.takeInput = s := by
  unfold State.takeInput
  cases hi : s.mmon.inputs.cls <;> simp_all

theorem takeInput_returns (h : s.mmon.state = .suspect) (hc : s.mmon.inputs.cls = .all) : s.takeInput = s.comeBack := by
  simp [State.takeInput, h, hc]

end Sys2Proof.Machine

open Sys2Proof Sys2Proof.Machine

/-- Settles O3: both commands give the values of power-on, and the evaluation reads the inputs alone. -/
theorem resetTakesPowerOnValues : Obligations.ResetTakesPowerOnValues := by
  refine ⟨fun s => rfl, fun s b1 b0 held => ?_, fun s b1 b0 free => ?_⟩
  · have released : exec (.resetRelease b1 b0) s = .next (State.evaluate
        { s.powerOn with resetHeld := false, link := { s.powerOn.link with baud := baudOf b1 b0 } }) := if_pos held
    rw [released, evaluate_eq]
    cases b1 <;> cases b0 <;> rfl
  · exact if_neg (by simp [free])

/-- Settles O5, by the mate state and the class of the input set. -/
theorem approachTransitions : Obligations.ApproachTransitions := by
  refine ⟨fun s i made => exec_inputChange_same, fun s i made => exec_inputChange_deaf, ?_, ?_, ?_⟩
  · intro s i made change heard outside m
    rw [exec_inputChange_heard change heard, takeInput_approach (by exact outside)]
  · intro s stay timer
    exact if_pos ⟨stay, timer⟩
  · intro s idle
    exact if_neg idle

/-- Settles O6. -/
theorem sessionStarts : Obligations.SessionStarts := by
  refine ⟨fun s qualifying timer => ?_, fun s idle => if_neg idle⟩
  have started : exec .debounceExpiry s = .next s.sessionStart.kick := if_pos ⟨qualifying, timer⟩
  rw [started, sessionStart_eq]

/-- Settles O7, by what is in flight at the break. -/
theorem breakEntersSuspect : Obligations.BreakEntersSuspect := by
  refine ⟨?_, fun l op flight => ⟨fun silent => ?_, fun verb drop => ?_⟩⟩
  · intro s i made change heard mated broken filter m cut
    have entered : exec (.inputChange i made) s =
        .next (State.kick ((s.plugged i made).suspect s.link.settings.breakFilterMs)) := by
      rw [exec_inputChange_heard change heard, takeInput_break (s := s.plugged i made) mated broken]
      exact congrArg (fun t => Host.Outcome.next (State.kick t)) (if_neg (Nat.one_le_iff_ne_zero.1 filter))
    refine ⟨fun idle => ?_, fun op flight train => ?_, fun op flight other => ?_⟩
    · rw [entered, suspect_of_idle (s := s.plugged i made) _ idle]
    · obtain ⟨train, kind⟩ := train
      rw [entered, suspect_of_startUp (s := s.plugged i made) _ flight kind]
      rfl
    · rw [entered, suspect_of_op (s := s.plugged i made) _ flight other]
      rfl
  · refine cut_of_silent flight (Bool.eq_false_iff.2 fun clocks => ?_)
    obtain ⟨verb, drop⟩ := (OpKind.clocks_iff _).1 clocks
    exact silent.elim verb drop
  · exact ⟨_, cut_of_clocks flight ((OpKind.clocks_iff _).2 ⟨verb, drop⟩), cutCapture_range l⟩
end

section
/-! SUPPORT. Supply ready, and DISC's leave of ARMED (R20, R30, R100, R101). -/

namespace Sys2Proof.Machine

variable {s : State}

theorem armWatch_eq (idle : s.line.state = .idle) : s.armWatch = { s with line := { s.line with
    watch := if s.mmon.state = .mated ∧ s.line.tlHigh = false then some (160 * s.line.beat) else s.line.watch } } := by
  unfold State.armWatch
  by_cases h : s.mmon.state = .mated ∧ s.line.tlHigh = false
  · rw [if_pos ⟨idle, h⟩, if_pos h]; rfl
  · rw [if_neg (fun k => h k.2), if_neg h]

/-- DISC keeps ARMED, or is not there. -/
theorem leaveArmed_of_not_armed (h : s.disc.state ≠ .armed) : s.leaveArmed = s := if_neg (fun k => h k.1)

/-- DISC with the root level alone, its junctions seeded from the roster; those beyond the eighth are not entered (R101, R112). -/
def State.atRoot (s : State) : State :=
  let here := s.rstr.entries.filter (fun e => e.live && e.isJunction && e.path == [])
  let beyond := (here.drop 8).map (fun e => e.handle)
  { s with
    rstr := { s.rstr with
      entries := s.rstr.entries.map (fun e => if beyond.contains e.handle then { e with notEntered := true } else e) }
    disc := { s.disc with
      frames := [], pass := Pass.cleared, leaf := none
      levels := [⟨0, none, (here.take 8).map (fun e => ⟨e.handle, e.namedAt⟩), 0, 1, false⟩]
      result := s.disc.result.map (fun r => { r with notEntered := r.notEntered + beyond.length }) } }

theorem pushLevel_root : (s.withDisc { s.disc with levels := [] }).pushLevel [] none = s.atRoot := rfl

/-- An armed discovery takes up the root level once the line is open (R101). -/
theorem leaveArmed_rooted {m : DiscMode} (armed : s.disc.state = .armed) (mode : s.disc.mode = some m)
    (seen : s.disc.lineOpenSeen = true) (clear : s.line.state ≠ .faulted) : s.leaveArmed = s.rooted m := by
  unfold State.leaveArmed
  rw [if_pos ⟨armed, seen, clear⟩]
  by_cases auto : s.disc.origin = some .auto
  · simp only [auto, if_true, mode, State.rooted, pushLevel_root]
    rfl
  · simp only [auto, if_false, State.rooted, pushLevel_root]
    rfl

/-- LINE starts a start-up train: no trim, no frame and no gap (R33, R37). -/
theorem startTrain_eq (o : OwedTrain) : s.startTrain o = { s with
    line := Line.started { s.line with startUp := some (.begun (o.train s.link.settings)) }
      ⟨.startUp (o.train s.link.settings), 0, 0, [], 0⟩ } := rfl

theorem exec_settleExpiry_ready (on : s.ssw.state = .on) (timer : s.ssw.step.isSome = true) (off : s.line.state = .off) :
    exec .settleExpiry s = .next (State.kick (State.startUp
      { s with ssw := { s.ssw with step := none }, line := { s.line with state := .idle } })) := by
  show execSettleExpiry s = _
  rw [execSettleExpiry, if_pos ⟨on, timer⟩, State.supplyReady, if_pos (by exact off)]
  rfl

theorem startUp_mated (count : s.link.settings.wakeCount ≠ 0) (mated : s.mmon.state = .mated) :
    s.startUp = s.startTrain (.waiting s.link.settings.wakeCount) := by
  simp only [State.startUp, count, mated, if_true, if_false]

theorem startUp_suspect (count : s.link.settings.wakeCount ≠ 0) (away : s.mmon.state ≠ .mated) :
    s.startUp = { s with line := { s.line with startUp := some (.waiting s.link.settings.wakeCount) } } := by
  simp only [State.startUp, count, away, if_false]
  rfl

/-- The part with the line open, no start-up train being due (R30). -/
def State.openedAtOnce (s : State) : State := { s with
  line := { s.line with
    startUp := none
    watch := if s.mmon.state = .mated ∧ s.line.tlHigh = false then some (160 * s.line.beat) else s.line.watch
    keepalive := keepaliveFrom s.link.settings }
  disc := { s.disc with lineOpenSeen := true } }

theorem startUp_none (count : s.link.settings.wakeCount = 0) (idle : s.line.state = .idle) :
    s.startUp = s.openedAtOnce.leaveArmed.arbitrate := by
  simp only [State.startUp, count, if_true]
  rw [armWatch_eq (by exact idle)]
  rfl

end Sys2Proof.Machine

open Sys2Proof Sys2Proof.Machine

/-- Settles O11, by WAKE_COUNT and the mate state. -/
theorem supplyReadyStartsTrain : Obligations.SupplyReadyStartsTrain := by
  intro s on timer off n t ready
  rw [exec_settleExpiry_ready on timer off]
  refine ⟨fun count mated => ?_, fun count away => ?_, fun count => ⟨fun unarmed => ?_, fun m armed mode => ?_⟩⟩
  · rw [startUp_mated (by exact Nat.one_le_iff_ne_zero.1 count) (by exact mated)]
    rfl
  · rw [startUp_suspect (by exact Nat.one_le_iff_ne_zero.1 count) (by exact away)]
  · rw [startUp_none (by exact count) rfl, leaveArmed_of_not_armed (by exact unarmed)]
    rfl
  · rw [startUp_none (by exact count) rfl, leaveArmed_rooted (by exact armed) (by exact mode) rfl (by exact nofun)]
    rfl
end

section
/-! SUPPORT. What LINK says and tells: the replies that a flush makes one after another, and the notices that stay told (R155,
R161 to R163). -/

namespace Sys2Proof.Machine

variable {s t u : State} {k k' k'' : Link}

/-! ### Replies made one after another -/

/-- A request with this tag is outstanding. -/
def Link.Owed (k : Link) (tag : Byte) : Prop := ∃ q ∈ k.outstanding, q.tag = tag

/-- `k'` comes from `k` by answering the requests of a list, in its order, by tag and result; the other requests stay
outstanding. -/
structure Link.Answers (k k' : Link) (l : List (Byte × Result)) : Prop where
  said : k'.replies.map (fun r => (r.tag, r.result)) = k.replies.map (fun r => (r.tag, r.result)) ++ l
  outstanding : ∀ q, q ∈ k'.outstanding ↔ q ∈ k.outstanding ∧ q.tag ∉ l.map Prod.fst

/-- Nothing answered. -/
theorem Link.Answers.none (hr : k'.replies = k.replies) (ho : k'.outstanding = k.outstanding) : k.Answers k' [] :=
  ⟨by simp [hr], by simp [ho]⟩

theorem Link.Answers.trans {l m : List (Byte × Result)} (h : k.Answers k' l) (g : k'.Answers k'' m) : k.Answers k'' (l ++ m) :=
  ⟨by rw [g.said, h.said, List.append_assoc], fun q => by
    rw [g.outstanding, h.outstanding, List.map_append, List.mem_append, not_or, and_assoc]⟩

/-- A request that the list does not name stays outstanding. -/
theorem Link.Answers.owed {l : List (Byte × Result)} {tag : Byte} (h : k.Answers k' l) (o : k.Owed tag)
    (n : tag ∉ l.map Prod.fst) : k'.Owed tag := by
  obtain ⟨q, hq, rfl⟩ := o
  exact ⟨q, (h.outstanding q).2 ⟨hq, n⟩, rfl⟩

theorem owes_of_owed {tag : Byte} (h : s.link.Owed tag) : ∃ q, s.Owes q ∧ q ∈ s.link.outstanding ∧ q.tag = tag := by
  obtain ⟨x, hx, rfl⟩ := h
  have found : (s.link.outstanding.find? (fun q => q.tag == x.tag)).isSome := List.find?_isSome.2 ⟨x, hx, beq_self_eq_true _⟩
  obtain ⟨q, hq⟩ := Option.isSome_iff_exists.1 found
  have tag : q.tag = x.tag := by simpa using List.find?_some hq
  exact ⟨q, by rw [State.Owes, tag]; exact hq, List.mem_of_find?_eq_some hq, tag⟩

/-- A reply answers its request alone. -/
theorem answer_answers {tag : Byte} (r : Result) (p : List Byte) (h : s.link.Owed tag) :
    s.link.Answers (s.answer tag r p).link [(tag, r)] := by
  obtain ⟨q, owes, -, rfl⟩ := owes_of_owed h
  rw [answer_of_owes r p owes rfl]
  exact ⟨by simp [Link.answered], fun x => by simp [Link.answered]⟩

/-- The reply of a tag without a request is none. -/
theorem answer_of_not_owed {tag : Byte} (r : Result) (p : List Byte) (h : ¬s.link.Owed tag) : s.answer tag r p = s := by
  have : s.link.outstanding.find? (fun q => q.tag == tag) = none :=
    List.find?_eq_none.2 fun q hq e => h ⟨q, hq, by simpa using e⟩
  simp only [State.answer, this]

/-- A reply leaves all of LINK but its slots. -/
theorem answer_slots (tag : Byte) (r : Result) (p : List Byte) : s.answer tag r p = { s with link := { s.link with
    replies := (s.answer tag r p).link.replies, outstanding := (s.answer tag r p).link.outstanding } } := by
  unfold State.answer
  split <;> rfl

/-- Several jobs answered, each outstanding under a tag of its own. -/
theorem answerJobs_answers (code : Result) : ∀ (js : List Job) {s : State}, (js.map (fun j => j.tag)).Nodup →
    (∀ j ∈ js, s.link.Owed j.tag) → s.link.Answers (s.answerJobs code js).link (js.map (fun j => (j.tag, code)))
  | [], _, _, _ => .none rfl rfl
  | j :: js, s, own, owed => by
    rw [List.map_cons, List.nodup_cons] at own
    have first := answer_answers code [] (owed j (List.mem_cons_self ..))
    refine first.trans (answerJobs_answers code js own.2 fun x hx => first.owed (owed x (List.mem_cons_of_mem j hx)) ?_)
    have : x.tag ≠ j.tag := fun e => own.1 (e ▸ List.mem_map_of_mem hx)
    simpa using this

theorem answerJobs_slots (code : Result) : ∀ (js : List Job) {s : State}, s.answerJobs code js = { s with link := { s.link with
    replies := (s.answerJobs code js).link.replies, outstanding := (s.answerJobs code js).link.outstanding } }
  | [], _ => rfl
  | j :: js, s => by
    rw [State.answerJobs, answerJobs_slots code js, answer_slots]

@[simp] theorem answerJobs_jobq (code : Result) (js : List Job) : (s.answerJobs code js).jobq = s.jobq := by
  rw [answerJobs_slots]

theorem endSweep_none (code : Result) (h : s.jobq.sweep = none) : s.endSweep code = s := by simp only [State.endSweep, h]

theorem endSweep_some {w : Sweep} (code : Result) (h : s.jobq.sweep = some w) :
    s.endSweep code = (s.withJobq { s.jobq with sweep := none }).answer w.tag code w.payload := by simp only [State.endSweep, h]

theorem endSweep_answers {w : Sweep} (code : Result) (h : s.jobq.sweep = some w) (owed : s.link.Owed w.tag) :
    s.link.Answers (s.endSweep code).link [(w.tag, code)] := by
  rw [endSweep_some code h]
  exact answer_answers (s := s.withJobq { s.jobq with sweep := none }) code _ owed

theorem endSweep_slots (code : Result) : s.endSweep code = { s with
    jobq := { s.jobq with sweep := none }
    link := { s.link with
      replies := (s.endSweep code).link.replies, outstanding := (s.endSweep code).link.outstanding } } := by
  cases h : s.jobq.sweep with
  | none => rw [endSweep_none code h, ← h]
  | some w =>
    rw [endSweep_some code h]
    exact answer_slots (s := s.withJobq { s.jobq with sweep := none }) ..

/-! ### Notices told (R163) -/

theorem mem_putNotice (n : Notice) : ∀ l, n ∈ putNotice n l
  | [] => List.mem_singleton_self n
  | x :: xs => by
    unfold putNotice
    split
    · exact List.mem_cons_self ..
    · exact List.mem_cons_of_mem _ (mem_putNotice n xs)

/-- A notice of another kind replaces none. -/
theorem mem_putNotice_of_mem {n m : Notice} (hk : m.kind ≠ n.kind) : ∀ {l}, m ∈ l → m ∈ putNotice n l
  | x :: xs, h => by
    unfold putNotice
    split
    · next e =>
      rcases List.mem_cons.1 h with rfl | h
      · exact absurd e hk
      · exact List.mem_cons_of_mem _ h
    · rcases List.mem_cons.1 h with rfl | h
      · exact List.mem_cons_self ..
      · exact List.mem_cons_of_mem _ (mem_putNotice_of_mem hk h)

theorem raise_tells (n : Notice) : (s.raise n).Tells n := .inl (mem_putNotice n _)

theorem raise_tells_of_tells {n m : Notice} (hk : m.kind ≠ n.kind) (h : s.Tells m) : (s.raise n).Tells m :=
  h.imp (mem_putNotice_of_mem hk) id

/-- The transmitter's start keeps a notice pending, or sends it. -/
theorem kick_tells {n : Notice} (h : s.Tells n) : s.kick.Tells n := by
  unfold State.kick
  split
  · exact h
  · next idle =>
    have pending : n ∈ s.link.notices := h.resolve_right (by simp [idle])
    split
    · exact .inl pending
    · split
      · exact .inl pending
      · split
        · next e => rw [e] at pending; cases pending
        · next e =>
          rw [e] at pending
          exact (List.mem_cons.1 pending).symm.imp id (fun e => by rw [e]; rfl)

/-- `u` is `t` but for MMON and LINK, where the settings stand and a DISCOVERY_DONE stays told. -/
structure TellsOn (t u : State) : Prop where
  blocks : u = { t with mmon := u.mmon, link := u.link }
  settings : u.link.settings = t.link.settings
  deferred : u.link.deferred = t.link.deferred
  told : ∀ r, t.Tells (.discoveryDone r) → u.Tells (.discoveryDone r)

theorem TellsOn.trans {a b c : State} (h : TellsOn a b) (g : TellsOn b c) : TellsOn a c :=
  ⟨by have e := g.blocks; rw [h.blocks] at e; exact e, g.settings.trans h.settings, g.deferred.trans h.deferred,
    fun r k => g.told r (h.told r k)⟩

theorem tellsOn_answer (tag : Byte) (r : Result) (p : List Byte) : TellsOn t (t.answer tag r p) := by
  rw [answer_slots]
  exact ⟨rfl, rfl, rfl, fun _ => id⟩

theorem tellsOn_evaluate : TellsOn t t.evaluate := ⟨rfl, rfl, rfl, fun _ => id⟩

/-- A notice of another kind than DISCOVERY_DONE (Table 11-11). -/
theorem tellsOn_raise {n : Notice} (hk : n.kind ≠ 0xF2#8) : TellsOn t (t.raise n) :=
  ⟨rfl, rfl, rfl, fun _ => raise_tells_of_tells hk.symm⟩

theorem tellsOn_kick : TellsOn t t.kick := by
  refine ⟨?_, kick_settings, ?_, fun _ => kick_tells⟩
  · rw [kick_link]; rfl
  · rw [kick_link]; rfl

end Sys2Proof.Machine
end

section
/-! SUPPORT. The end of a session in every block (R11, R85, R116, R119, R155, Table 1-4). -/

namespace Sys2Proof.Machine

variable {s t u : State}

/-! ### The discovery ended from outside (R116, R119) -/

/-- The record of a discovery that ends now. -/
def State.finished (s : State) (o : DiscOutcome) (why : Option AbortReason) : ResultRecord :=
  (s.disc.result.getD (ResultRecord.fresh (s.disc.mode.getD .rescan) (s.disc.origin == some .auto))).finish o why
    s.rstr.generation

/-- DISC IDLE with its record, no handle reserved. -/
def State.withRecord (s : State) (made : ResultRecord) : State :=
  { s with disc := { s.disc.idled with result := some made }, rstr := { s.rstr with reserved := 0 } }

theorem endDiscovery_requested {tag : Byte} (o : DiscOutcome) (why : Option AbortReason) (code : Result)
    (h : s.disc.origin = some (.requested tag)) :
    s.endDiscovery o why code = (s.withRecord (s.finished o why)).answer tag code (s.finished o why).bytes := by
  simp only [State.endDiscovery, h]
  simp only [State.finished, State.withRecord, h]
  rfl

theorem endDiscovery_auto (o : DiscOutcome) (why : Option AbortReason) (code : Result)
    (h : ∀ tag, s.disc.origin ≠ some (.requested tag)) :
    s.endDiscovery o why code = (s.withRecord (s.finished o why)).raise (.discoveryDone (s.finished o why)) := by
  unfold State.endDiscovery
  dsimp only
  split
  · next tag e => exact absurd e (h tag)
  · rfl

theorem abortDiscovery_running (why : AbortReason) (code : Result) (h : s.disc.running = true) :
    s.abortDiscovery why code = s.endDiscovery .aborted (some why) code := if_pos h

theorem abortDiscovery_still (why : AbortReason) (code : Result) (h : s.disc.running = false) :
    s.abortDiscovery why code = { s with disc := if s.disc.arming then s.disc.idled else s.disc } := by
  unfold State.abortDiscovery
  rw [if_neg (Bool.eq_false_iff.1 h)]
  split <;> rfl

/-- Everything but DISC, the reservation and LINK's slots and notices stands. -/
theorem abortDiscovery_frame (why : AbortReason) (code : Result) : ∃ d held replies outstanding notices,
    s.abortDiscovery why code = { s with
      disc := d, rstr := { s.rstr with reserved := held }
      link := { s.link with replies, outstanding, notices } } := by
  by_cases run : s.disc.running = true
  · rw [abortDiscovery_running _ _ run]
    by_cases h : ∃ tag, s.disc.origin = some (.requested tag)
    · obtain ⟨tag, h⟩ := h
      rw [endDiscovery_requested _ _ _ h, answer_slots]
      exact ⟨_, 0, _, _, s.link.notices, rfl⟩
    · rw [endDiscovery_auto _ _ _ (not_exists.1 h)]
      exact ⟨_, 0, s.link.replies, s.link.outstanding, _, rfl⟩
  · rw [abortDiscovery_still _ _ (Bool.eq_false_iff.2 run)]
    exact ⟨_, s.rstr.reserved, s.link.replies, s.link.outstanding, s.link.notices, rfl⟩

/-- The replies of a discovery that is ended: the DISCOVER request of a running one (R119). -/
def State.discReplies (s : State) (code : Result) : List (Byte × Result) :=
  match s.disc.origin with
  | some (.requested tag) => if s.disc.running then [(tag, code)] else []
  | _ => []

theorem abortDiscovery_answers (why : AbortReason) (code : Result)
    (owed : ∀ tag, s.disc.origin = some (.requested tag) → s.disc.running = true → s.link.Owed tag) :
    s.link.Answers (s.abortDiscovery why code).link (s.discReplies code) := by
  unfold State.discReplies
  cases run : s.disc.running
  · rw [abortDiscovery_still _ _ run]
    show s.link.Answers s.link _
    split <;> exact .none rfl rfl
  · rw [abortDiscovery_running _ _ run]
    split
    · next tag h =>
      rw [endDiscovery_requested _ _ _ h]
      exact answer_answers (s := s.withRecord _) code _ (owed tag h run)
    · next h =>
      rw [endDiscovery_auto _ _ _ (fun tag e => h tag e)]
      exact .none rfl rfl

/-- How a discovery stops, when what follows keeps its record and tells its end (R96, R98, R116). -/
theorem discStopped_of_abort (why : AbortReason) (code : Result) (pass : Pass)
    (disc : t.disc = { (s.abortDiscovery why code).disc with lineOpenSeen := false, pass })
    (told : ∀ n, n ∈ (s.abortDiscovery why code).link.notices → n ∈ t.link.notices) : s.DiscStopped t why pass := by
  refine ⟨fun idle => ?_, fun armed auto => ?_, fun run => ?_⟩
  · rw [disc, abortDiscovery_still _ _ (by simp [Disc.running, idle])]
    simp [Disc.arming, idle]
  · have arming : s.disc.arming = true := by simp [Disc.arming, armed, auto]
    rw [disc, abortDiscovery_still _ _ (by simp [Disc.running, arming])]
    simp [arming]
  · have made : (s.abortDiscovery why code).disc = { s.disc.idled with result := some (s.finished .aborted (some why)) } := by
      rw [abortDiscovery_running _ _ run]
      by_cases h : ∃ tag, s.disc.origin = some (.requested tag)
      · obtain ⟨tag, h⟩ := h
        rw [endDiscovery_requested _ _ _ h, answer_slots]; rfl
      · rw [endDiscovery_auto _ _ _ (not_exists.1 h)]; rfl
    refine ⟨s.finished .aborted (some why), by rw [disc, made], rfl, rfl, rfl, fun rec h => ?_, fun auto => .inl (told _ ?_)⟩
    · simp only [State.finished, h, Option.getD_some]
      rfl
    · rw [abortDiscovery_running _ _ run, endDiscovery_auto _ _ _ (by simp [auto])]
      exact mem_putNotice _ _

/-! ### The flush of JOBQ (R155) -/

/-- The jobs that a flush answers: the one in flight, then the lanes. -/
def Jobq.jobs (q : Jobq) : List Job := q.inFlight.toList ++ q.urgent ++ q.normal

/-- The replies of a flush: its jobs, then the sweep. -/
def Jobq.flushReplies (q : Jobq) (code : Result) : List (Byte × Result) :=
  q.jobs.map (fun j => (j.tag, code)) ++ (q.sweep.map (fun w => (w.tag, w.flushCode code))).toList

/-- The tags of a flush, in its order. -/
def Jobq.tags (q : Jobq) : List Byte := q.jobs.map (fun j => j.tag) ++ (q.sweep.map (fun w => w.tag)).toList

theorem Jobq.flushReplies_tags (q : Jobq) (code : Result) : (q.flushReplies code).map Prod.fst = q.tags := by
  cases h : q.sweep <;> simp [Jobq.flushReplies, Jobq.tags, h, Function.comp_def]

/-- JOBQ with its lanes and its holder gone. -/
def State.unqueued (s : State) : State := s.withJobq { s.jobq with urgent := [], normal := [], grant := none }

theorem flushJobs_eq (code : Result) : s.flushJobs code = (s.unqueued.answerJobs code s.jobq.jobs).endSweep
    ((s.jobq.sweep.map (fun w => w.flushCode code)).getD code) := by
  show (s.unqueued.answerJobs code s.jobq.jobs).endSweep _ = _
  rw [answerJobs_jobq]
  rfl

theorem flushJobs_frame (code : Result) : s.flushJobs code = { s with
    jobq := ⟨[], [], none, none⟩
    link := { s.link with
      replies := (s.flushJobs code).link.replies, outstanding := (s.flushJobs code).link.outstanding } } := by
  rw [flushJobs_eq, endSweep_slots, answerJobs_slots]
  rfl

/-- A flush answers the requests of JOBQ in order, each outstanding under a tag of its own. -/
theorem flushJobs_answers (code : Result) (own : s.jobq.tags.Nodup) (owed : ∀ tag ∈ s.jobq.tags, s.link.Owed tag) :
    s.link.Answers (s.flushJobs code).link (s.jobq.flushReplies code) := by
  obtain ⟨ownJobs, -, apart⟩ := List.nodup_append.1 own
  have jobs := answerJobs_answers (s := s.unqueued) code s.jobq.jobs ownJobs
    (fun j hj => owed _ (List.mem_append_left _ (List.mem_map_of_mem hj)))
  have kept : (s.unqueued.answerJobs code s.jobq.jobs).jobq.sweep = s.jobq.sweep := by rw [answerJobs_jobq]; rfl
  refine jobs.trans ?_
  rw [flushJobs_eq]
  cases h : s.jobq.sweep with
  | none =>
    rw [endSweep_none _ (kept.trans h)]
    exact .none rfl rfl
  | some w =>
    have mine : w.tag ∈ (s.jobq.sweep.map (fun w => w.tag)).toList := by simp [h]
    have others : w.tag ∉ (s.jobq.jobs.map (fun j => (j.tag, code))).map Prod.fst := by
      simpa using fun j hj => apart _ (List.mem_map_of_mem hj) _ mine
    exact endSweep_answers _ (kept.trans h) (jobs.owed (owed _ (List.mem_append_right _ mine)) others)

/-! ### The session end -/

/-- The replies of a session end: the discovery with `discCode`, JOBQ with `code` (R116, R155). -/
def State.endReplies (s : State) (code discCode : Result) : List (Byte × Result) :=
  s.discReplies discCode ++ s.jobq.flushReplies code

theorem sessionEnd_frame (code discCode : Result) : s.sessionEnd code discCode = { s with
    ssw := { s.ssw.unpowered .off with parked := false }
    line := s.line.unpowered, rate := ⟨none⟩, jobq := ⟨[], [], none, none⟩
    rstr := { s.rstr with entries := [], generation := 0, reserved := 0 }
    disc := { (s.abortDiscovery .sessionEnd discCode).disc with lineOpenSeen := false, pass := Pass.cleared }
    link := { (s.abortDiscovery .sessionEnd discCode).link with
      replies := (s.sessionEnd code discCode).link.replies, outstanding := (s.sessionEnd code discCode).link.outstanding } } := by
  obtain ⟨d, held, replies, outstanding, notices, aborted⟩ := abortDiscovery_frame (s := s) .sessionEnd discCode
  simp only [State.sessionEnd]
  rw [flushJobs_frame, aborted]
  rfl

theorem sessionEnd_link (code discCode : Result) :
    (s.sessionEnd code discCode).link = ((s.abortDiscovery .sessionEnd discCode).flushJobs code).link := by
  simp [State.sessionEnd, State.lineOff, State.dropChoices]

theorem flushTags_eq (code : Result) : s.flushTags = (s.discReplies code).map Prod.fst ++ s.jobq.tags := by
  have disc : (s.discReplies code).map Prod.fst = match s.disc.origin with
      | some (.requested tag) => if s.disc.running then [tag] else []
      | _ => [] := by
    unfold State.discReplies
    split
    · split <;> rfl
    · rfl
  rw [disc, State.flushTags, List.append_assoc]
  rfl

/-- A session end answers the discovery and JOBQ in order. -/
theorem sessionEnd_answers (code discCode : Result) (ready : s.FlushReady) :
    s.link.Answers (s.sessionEnd code discCode).link (s.endReplies code discCode) := by
  obtain ⟨own, owed⟩ := ready
  rw [flushTags_eq discCode] at own owed
  obtain ⟨-, ownJobs, apart⟩ := List.nodup_append.1 own
  have disc := abortDiscovery_answers (s := s) .sessionEnd discCode fun tag h run =>
    owed tag (List.mem_append_left _ (by simp [State.discReplies, h, run]))
  have jobq : (s.abortDiscovery .sessionEnd discCode).jobq = s.jobq := by
    obtain ⟨d, held, replies, outstanding, notices, aborted⟩ := abortDiscovery_frame (s := s) .sessionEnd discCode
    rw [aborted]
  have flush := flushJobs_answers (s := s.abortDiscovery .sessionEnd discCode) code (jobq ▸ ownJobs) fun tag h =>
    disc.owed (owed tag (List.mem_append_right _ (jobq ▸ h))) fun mem => apart tag mem tag (jobq ▸ h) rfl
  rw [sessionEnd_link]
  exact disc.trans (jobq ▸ flush)

theorem sessionEnd_endedFrom (code discCode : Result) : s.EndedFrom (s.sessionEnd code discCode) := by
  have stopped : s.DiscStopped (s.sessionEnd code discCode) .sessionEnd Pass.cleared :=
    discStopped_of_abort _ discCode _ (by rw [sessionEnd_frame]) (fun n h => by rw [sessionEnd_frame]; exact h)
  obtain ⟨d, held, replies, outstanding, notices, aborted⟩ := abortDiscovery_frame (s := s) .sessionEnd discCode
  have frame := sessionEnd_frame (s := s) code discCode
  rw [aborted] at frame
  exact ⟨congrArg State.ssw frame, congrArg State.line frame, congrArg State.rate frame,
    (congrArg State.pins frame :), congrArg State.jobq frame, stopped, congrArg State.rstr frame,
    congrArg (fun t => t.link.settings) frame, congrArg (fun t => t.link.deferred) frame⟩

/-- What follows a session end in MMON and LINK leaves it as it is. -/
theorem State.EndedFrom.tellsOn (h : s.EndedFrom t) (k : TellsOn t u) : s.EndedFrom u := by
  obtain ⟨ssw, line, rate, pins, jobq, ⟨idle, arming, running⟩, rstr, settings, deferred⟩ := h
  have disc : u.disc = t.disc := (congrArg State.disc k.blocks :)
  refine ⟨(congrArg State.ssw k.blocks :).trans ssw, (congrArg State.line k.blocks :).trans line,
    (congrArg State.rate k.blocks :).trans rate, (congrArg State.pins k.blocks :).trans pins,
    (congrArg State.jobq k.blocks :).trans jobq, ⟨?_, ?_, fun run => ?_⟩, (congrArg State.rstr k.blocks :).trans rstr,
    k.settings.trans settings, k.deferred.trans deferred⟩
  · rw [disc]; exact idle
  · rw [disc]; exact arming
  · obtain ⟨made, left, outcome, reason, generation, kept, told⟩ := running run
    exact ⟨made, disc.trans left, outcome, reason, generation, kept, fun auto => k.told made (told auto)⟩

/-- MMON evaluates its inputs and the MATE notice tells the end (R12, R13). -/
def State.closed (t : State) (cause : EndCause) : State :=
  t.evaluate.raise (.mate (some cause) t.evaluate.mmon.state t.evaluate.mmon.inputs)

theorem closed_tellsOn (cause : EndCause) : TellsOn t (t.closed cause).kick :=
  (tellsOn_evaluate.trans (tellsOn_raise (n := .mate ..) nofun)).trans tellsOn_kick

theorem closed_mmon (cause : EndCause) :
    (t.closed cause).kick.mmon = t.mmon.approach t.link.settings.mateDebounceMs := by
  rw [kick_mmon]
  exact congrArg State.mmon evaluate_eq

theorem closed_tells (cause : EndCause) :
    (t.closed cause).kick.Tells (.mate (some cause) (t.closed cause).kick.mmon.state (t.closed cause).kick.mmon.inputs) := by
  rw [kick_mmon]
  exact kick_tells (raise_tells _)

/-- A session that ends: every block takes the end, and the MATE notice tells it. -/
theorem endSession_ends (cause : EndCause) :
    let t := (s.endSession cause).kick
    s.EndedFrom t ∧ t.mmon = s.mmon.approach s.link.settings.mateDebounceMs ∧
      t.Tells (.mate (some cause) t.mmon.state t.mmon.inputs) := by
  have ended := sessionEnd_endedFrom (s := s) .sessionLost .aborted
  have mmon : (s.sessionEnd .sessionLost .aborted).mmon = s.mmon := by rw [sessionEnd_frame]
  have settings : (s.sessionEnd .sessionLost .aborted).link.settings = s.link.settings := by
    obtain ⟨-, -, -, -, -, -, -, settings, -⟩ := ended; exact settings
  refine ⟨ended.tellsOn (closed_tellsOn cause), (closed_mmon cause).trans ?_, closed_tells cause⟩
  rw [mmon, settings]

end Sys2Proof.Machine

open Sys2Proof Sys2Proof.Machine

/-- Settles O9: the filter's expiry and a break without a filter both end the session. -/
theorem sessionEnds : Obligations.SessionEnds := by
  refine ⟨fun s suspect timer => ?_, fun s i made change heard mated broken filter => ?_, fun s idle => if_neg idle⟩
  · have ends : exec .breakFilterExpiry s = .next (s.endSession .filterExpiry).kick := if_pos ⟨suspect, timer⟩
    exact ⟨_, ends, endSession_ends _⟩
  · have ends : exec (.inputChange i made) s = .next ((s.plugged i made).endSession .breakTaken).kick := by
      rw [exec_inputChange_heard change heard, takeInput_break (s := s.plugged i made) mated broken]
      exact congrArg (fun t => Host.Outcome.next (State.kick t)) (if_pos filter)
    exact ⟨_, ends, endSession_ends (s := s.plugged i made) _⟩
end

section
/-! RESTART SESSION, RESTART FULL and its reset (O51): the restart's own request is answered last (R168, R169). -/

namespace Sys2Proof.Machine

variable {s t u : State} {tag : Byte}

/-! ### The request taken in -/

/-- The part with the frame over and the slot of a RESTART reserved (R158, R159). -/
def State.restarted (s : State) (tag : Byte) : State := s.frameOver.reserveSlot tag 0x14#8

theorem exec_restartSession (h : s.Takes tag) :
    exec (.restartSession tag) s = .next ((s.restarted tag).ownRestartSession tag).kick :=
  congrArg (fun t => Host.Outcome.next (State.kick t)) (takeIn_takes _ _ h)

theorem exec_restartFull (h : s.Takes tag) :
    exec (.restartFull tag) s = .next ((s.restarted tag).ownRestartFull tag).kick :=
  congrArg (fun t => Host.Outcome.next (State.kick t)) (takeIn_takes _ _ h)

/-- The requests outstanding before stay so beside the new one, whose tag none of them has. -/
theorem mem_restarted {q : Request} :
    q ∈ (s.restarted tag).link.outstanding ↔ q ∈ s.link.outstanding ∨ q = ⟨tag, 0x14#8⟩ := by
  simp [State.restarted, State.reserveSlot, State.frameOver]

theorem tag_ne_of_takes {q : Request} (h : s.Takes tag) (hq : q ∈ s.link.outstanding) : q.tag ≠ tag := by
  obtain ⟨-, -, -, fresh⟩ := h
  simpa using List.all_eq_true.1 fresh q hq

theorem restarted_flushReady (ready : s.FlushReady) : (s.restarted tag).FlushReady := by
  refine ⟨ready.1, fun x hx => ?_⟩
  obtain ⟨q, hq, e⟩ := ready.2 x hx
  exact ⟨q, mem_restarted.2 (.inl hq), e⟩

/-- The tag of the restart is none of those that the flush answers. -/
theorem tag_not_flushed (h : s.Takes tag) (ready : s.FlushReady) : tag ∉ s.flushTags := by
  intro mem
  obtain ⟨q, hq, e⟩ := ready.2 tag mem
  exact tag_ne_of_takes h hq e

theorem endReplies_tags (code discCode : Result) : (s.endReplies code discCode).map Prod.fst = s.flushTags := by
  rw [flushTags_eq discCode, State.endReplies, List.map_append, Jobq.flushReplies_tags]

theorem restarted_live (h : s.mmon.state = .mated ∨ s.mmon.state = .suspect) : (s.restarted tag).live = true := by
  show (s.mmon.state == .mated || s.mmon.state == .suspect) = true
  simpa using h

/-! ### RESTART SESSION (R168) -/

/-- The replies of a session end at RESTART SESSION. -/
theorem endReplies_flushSays (code : Result) : s.endReplies code .aborted = s.flushSays code := by
  rw [State.flushSays, List.append_assoc]
  rfl

/-- No session ends: MMON evaluates, and the reply is given. -/
theorem restartSession_idle (h : s.Takes tag) (idle : s.mmon.state ≠ .mated) (calm : s.mmon.state ≠ .suspect) :
    (s.restarted tag).ownRestartSession tag = { s with
      mmon := s.mmon.approach s.link.settings.mateDebounceMs, link := s.link.replied ⟨0x94#8, tag, .ok, []⟩ } := by
  have dead : (s.restarted tag).live = false := by
    show (s.mmon.state == .mated || s.mmon.state == .suspect) = false
    simp [idle, calm]
  obtain ⟨-, -, -, fresh⟩ := h
  rw [State.ownRestartSession, if_neg (Bool.eq_false_iff.1 dead), evaluate_eq]
  exact answer_reserved (s := { s.frameOver with mmon := s.mmon.approach s.link.settings.mateDebounceMs }) tag 0x14#8 .ok [] fresh

/-- A session end and the reply of the RESTART, which comes last. -/
theorem sessionEnd_then_reply (code discCode : Result) (h : s.Takes tag) (ready : s.FlushReady) :
    (s.restarted tag).link.Answers (((s.restarted tag).sessionEnd code discCode).answer tag .ok []).link
      (s.endReplies code discCode ++ [(tag, .ok)]) := by
  have flush := sessionEnd_answers (s := s.restarted tag) code discCode (restarted_flushReady ready)
  have own : (s.restarted tag).link.Owed tag := ⟨⟨tag, 0x14#8⟩, mem_restarted.2 (.inr rfl), rfl⟩
  have apart : tag ∉ ((s.restarted tag).endReplies code discCode).map Prod.fst := by
    rw [endReplies_tags]
    exact tag_not_flushed (s := s) h ready
  exact flush.trans (answer_answers _ _ (flush.owed own apart))

/-! ### RESTART FULL (R169) -/

/-- The other requests answered RESTARTED: of those that the list names, only the restart's own stays. -/
theorem answerOthers_answers (tag : Byte) : ∀ (qs : List Request) {s : State}, ∃ l,
    s.link.Answers (s.answerOthers tag qs).link l ∧ (∀ x ∈ l, x.2 = .restarted ∧ x.1 ≠ tag) ∧
      ∀ q ∈ qs, q ∈ (s.answerOthers tag qs).link.outstanding → q.tag = tag
  | [], s => ⟨[], .none rfl rfl, nofun, nofun⟩
  | a :: qs, s => by
    unfold State.answerOthers
    split
    · next own =>
      obtain ⟨l, ans, all, left⟩ := answerOthers_answers tag qs (s := s)
      exact ⟨l, ans, all, fun q hq mem => (List.mem_cons.1 hq).elim (fun e => e ▸ own) (fun hq => left q hq mem)⟩
    · next other =>
      obtain ⟨l, ans, all, left⟩ := answerOthers_answers tag qs (s := s.answer a.tag .restarted [])
      by_cases owed : s.link.Owed a.tag
      · have first := answer_answers .restarted [] owed
        refine ⟨_, first.trans ans, by simpa [other] using all, fun q hq mem => ?_⟩
        rcases List.mem_cons.1 hq with rfl | hq
        · exact absurd (((first.trans ans).outstanding q).1 mem).2 (by simp)
        · exact left q hq mem
      · rw [answer_of_not_owed _ _ owed] at ans left ⊢
        refine ⟨l, ans, all, fun q hq mem => ?_⟩
        rcases List.mem_cons.1 hq with rfl | hq
        · exact absurd ⟨q, ((ans.outstanding q).1 mem).1, rfl⟩ owed
        · exact left q hq mem

/-- The other requests' replies leave all of LINK but its slots. -/
theorem answerOthers_slots (tag : Byte) : ∀ (qs : List Request) {s : State}, s.answerOthers tag qs = { s with
    link := { s.link with
      replies := (s.answerOthers tag qs).link.replies, outstanding := (s.answerOthers tag qs).link.outstanding } }
  | [], _ => rfl
  | a :: qs, s => by
    unfold State.answerOthers
    split
    · exact answerOthers_slots tag qs
    · rw [answerOthers_slots tag qs, answer_slots]

/-- The session end of a RESTART FULL, when a session is live (R169). -/
def State.restartEnd (s : State) : State := if s.live then s.sessionEnd .restarted .restarted else s

/-- Every reply of the session end is RESTARTED. -/
theorem endReplies_restarted : ∀ x ∈ s.endReplies .restarted .restarted, x.2 = .restarted := by
  intro x hx
  rcases List.mem_append.1 hx with hx | hx
  · unfold State.discReplies at hx
    split at hx
    · split at hx <;> simp_all
    · cases hx
  · rcases List.mem_append.1 hx with hx | hx
    · obtain ⟨j, -, rfl⟩ := List.mem_map.1 hx; rfl
    · cases w : s.jobq.sweep <;> simp_all [Sweep.flushCode]

/-- The replies before the RESTART's own: all RESTARTED, and none left unanswered. -/
theorem restart_answers (h : s.Takes tag) (ready : s.FlushReady) :
    let e := (s.restarted tag).restartEnd
    ∃ l, (s.restarted tag).link.Answers (e.answerOthers tag e.link.outstanding).link l ∧
      (∀ x ∈ l, x.2 = .restarted ∧ x.1 ≠ tag) ∧
      ∀ q ∈ (e.answerOthers tag e.link.outstanding).link.outstanding, q.tag = tag := by
  intro e
  have flush : ∃ l, (s.restarted tag).link.Answers e.link l ∧ ∀ x ∈ l, x.2 = .restarted ∧ x.1 ≠ tag := by
    by_cases live : (s.restarted tag).live = true
    · refine ⟨_, ?_, fun x hx => ⟨endReplies_restarted (s := s.restarted tag) x hx, fun own => ?_⟩⟩
      · rw [show e = _ from if_pos live]
        exact sessionEnd_answers .restarted .restarted (restarted_flushReady ready)
      · refine tag_not_flushed h ready ?_
        show tag ∈ (s.restarted tag).flushTags
        rw [← own, ← endReplies_tags .restarted .restarted]
        exact List.mem_map_of_mem hx
    · rw [show e = _ from if_neg live]
      exact ⟨[], .none rfl rfl, nofun⟩
  obtain ⟨l, ended, all⟩ := flush
  obtain ⟨m, others, rest, left⟩ := answerOthers_answers tag e.link.outstanding (s := e)
  refine ⟨l ++ m, ended.trans others, fun x hx => (List.mem_append.1 hx).elim (all x) (rest x), fun q hq => ?_⟩
  exact left q ((others.outstanding q).1 hq).1 hq

/-- The part once every other request has been answered. -/
def State.drained (s : State) (tag : Byte) : State :=
  (s.restarted tag).restartEnd.answerOthers tag (s.restarted tag).restartEnd.link.outstanding

/-- The restart's own request is then the only one outstanding, so its reply comes last. -/
theorem drained_owes (h : s.Takes tag) (ready : s.FlushReady) : (s.drained tag).Owes ⟨tag, 0x14#8⟩ := by
  obtain ⟨l, ans, all, -⟩ := restart_answers h ready
  have own : (s.restarted tag).link.Owed tag := ⟨⟨tag, 0x14#8⟩, mem_restarted.2 (.inr rfl), rfl⟩
  have apart : tag ∉ l.map Prod.fst := by
    simpa using fun r hr => (all (tag, r) hr).2 rfl
  obtain ⟨q, owes, mem, e⟩ := owes_of_owed (s := s.drained tag) (ans.owed own apart)
  rcases mem_restarted.1 ((ans.outstanding q).1 mem).1 with old | rfl
  · exact absurd e (tag_ne_of_takes h old)
  · exact owes

/-- Every request outstanding before has been answered RESTARTED. -/
theorem drained_said (h : s.Takes tag) (ready : s.FlushReady) :
    ∀ q ∈ s.link.outstanding, (q.tag, Result.restarted) ∈ (s.drained tag).said := by
  obtain ⟨l, ans, all, left⟩ := restart_answers h ready
  intro q hq
  have named : q.tag ∈ l.map Prod.fst := Decidable.byContradiction fun n =>
    tag_ne_of_takes h hq (left q ((ans.outstanding q).2 ⟨mem_restarted.2 (.inl hq), n⟩))
  obtain ⟨x, hx, e⟩ := List.mem_map.1 named
  have : x = (q.tag, .restarted) := Prod.ext e (all x hx).1
  rw [show (s.drained tag).said = _ from ans.said, ← this]
  exact List.mem_append_right _ hx

theorem restartEnd_mmon : (s.restarted tag).restartEnd.mmon = s.mmon := by
  unfold State.restartEnd
  split
  · rw [sessionEnd_frame]; rfl
  · rfl

theorem drained_mmon : (s.drained tag).mmon = s.mmon := by
  rw [State.drained, answerOthers_slots]
  exact restartEnd_mmon

theorem drained_left (h : s.Takes tag) (ready : s.FlushReady) : ∀ q ∈ (s.drained tag).link.outstanding, q.tag = tag := by
  obtain ⟨l, -, -, left⟩ := restart_answers h ready
  exact left

/-- The first step of a RESTART FULL: its own reply after all others, MMON OPEN with its timers stopped, LINK taking no frame. -/
theorem ownRestartFull_eq (h : s.Takes tag) (ready : s.FlushReady) : (s.restarted tag).ownRestartFull tag = { s.drained tag with
    mmon := Mmon.reset s.mmon.inputs
    link := { (s.drained tag).link.answered ⟨tag, 0x14#8⟩ .ok [] with restarting := true } } := by
  have last : (s.restarted tag).ownRestartFull tag =
      (((s.drained tag).answer tag .ok []).withMmon (Mmon.stopped ((s.drained tag).answer tag .ok []).mmon)).withLink
        { ((s.drained tag).answer tag .ok []).link with restarting := true } := rfl
  rw [last, answer_of_owes _ _ (drained_owes h ready) rfl, ← drained_mmon (s := s) (tag := tag)]
  rfl

/-- A RESTART FULL ends a live session in every block. -/
theorem drained_endedFrom (live : s.mmon.state = .mated ∨ s.mmon.state = .suspect) : s.EndedFrom (s.drained tag) := by
  have on : (s.restarted tag).live = true := restarted_live live
  have ended : s.EndedFrom (s.restarted tag).restartEnd := by
    rw [State.restartEnd, if_pos on]
    exact sessionEnd_endedFrom (s := s.restarted tag) .restarted .restarted
  refine ended.tellsOn ?_
  rw [State.drained, answerOthers_slots]
  exact ⟨rfl, rfl, rfl, fun _ => id⟩

/-- A RESTART SESSION in a live session: the flush, the reply, then the evaluation and its notice. -/
theorem restartSession_live (h : s.Takes tag) (ready : s.FlushReady) (live : s.mmon.state = .mated ∨ s.mmon.state = .suspect) :
    ∃ t, exec (.restartSession tag) s = .next t ∧ s.EndedFrom t ∧
      t.mmon = s.mmon.approach s.link.settings.mateDebounceMs ∧ t.said = s.said ++ s.flushSays .sessionLost ++ [(tag, .ok)] ∧
      t.Tells (.mate (some .restart) t.mmon.state t.mmon.inputs) := by
  have on : (s.restarted tag).live = true := restarted_live live
  have ends : (s.restarted tag).ownRestartSession tag =
      (((s.restarted tag).sessionEnd .sessionLost .aborted).answer tag .ok []).closed .restart := if_pos on
  have ended : s.EndedFrom (((s.restarted tag).sessionEnd .sessionLost .aborted).answer tag .ok []) :=
    (sessionEnd_endedFrom (s := s.restarted tag) ..).tellsOn (tellsOn_answer ..)
  have mmon : (((s.restarted tag).sessionEnd .sessionLost .aborted).answer tag .ok []).mmon = s.mmon := by
    rw [answer_slots, sessionEnd_frame]; rfl
  refine ⟨_, (exec_restartSession h).trans (by rw [ends]), ended.tellsOn (closed_tellsOn _), ?_, ?_, closed_tells _⟩
  · obtain ⟨-, -, -, -, -, -, -, settings, -⟩ := ended
    rw [closed_mmon, mmon, settings]
  · rw [State.said, kick_replies, ← endReplies_flushSays, List.append_assoc]
    exact (sessionEnd_then_reply .sessionLost .aborted h ready).said

end Sys2Proof.Machine

open Sys2Proof Sys2Proof.Machine

/-- Settles O51: the replies of the end come one after another, and the restart's own request is the last that is outstanding. -/
theorem restarts : Obligations.Restarts := by
  refine ⟨fun s tag takes => ⟨fun idle calm => ?_, fun live ready => restartSession_live takes ready live⟩,
    fun s tag takes ready => ⟨_, exec_restartFull takes, ?_⟩, fun s full quiet sent => ?_, fun s early => if_neg early⟩
  · rw [exec_restartSession takes, restartSession_idle takes idle calm]
  · rw [ownRestartFull_eq takes ready]
    refine ⟨by simp, ?_, by simp [Link.answered], fun q hq => ?_, by simp [Mmon.reset], fun live => ?_⟩
    · simpa [Link.answered] using drained_left takes ready
    · rw [State.said, kick_replies]
      simp only [Link.answered, List.map_append, List.mem_append]
      exact .inl (drained_said takes ready q hq)
    · refine (drained_endedFrom (tag := tag) live).tellsOn (.trans ?_ tellsOn_kick)
      exact ⟨rfl, rfl, rfl, fun _ => id⟩
  · have reset : exec .restartFullReset s = .next s.powerOn.evaluate := if_pos ⟨full, quiet, sent⟩
    rw [reset, evaluate_eq]
    rfl
end

section
/-! SUPPORT. What the line's work makes of a part, as equations with the words of the statements: operations started and ended, the
holder's retries and ends, DISC's cursor, and an entry put into the roster (R29, R33, R72 to R74, R97, R128, R143, R145). -/

namespace Sys2Proof.Machine

variable {s t b : State}

/-! ### Operations and grants (R29, R33, R141) -/

/-- What LINE starts depends on the trim of the entry addressed, BEAT and ANSWER_WAIT alone. -/
theorem lineOp_congr (k : OpKind) (a : Nat) (trim : (t.rstr.find a).bind (fun e => e.trim) = (s.rstr.find a).bind (fun e => e.trim))
    (beat : t.line.beat = s.line.beat) (wait : t.link.settings.answerWait = s.link.settings.answerWait) :
    t.lineOp k a = s.lineOp k a := by
  simp only [State.lineOp, State.opTrim, trim, beat, wait]

/-- While a holder has the line nothing more is granted. -/
theorem regrant_of_holder {g : Grant} (h : t.jobq.grant = some g) : t.regrant b = t := by
  show t.arbitrateFrom (199 + 1) _ = t
  rw [State.arbitrateFrom, if_neg (by simp [State.canGrant, h])]

/-- A holder's further attempt (R10, R145). -/
theorem rerun_eq {g : Grant} (k : OpKind) (a : Nat) (h : s.jobq.grant = some g) : s.rerun k a =
    { s with line := s.line.started (s.lineOp k a), jobq := { s.jobq with grant := some g.retry } } := by
  simp only [State.rerun, h]
  rfl

/-- DISC's next operation under the grant of its step, the work in hand replaced. -/
theorem putDiscWork_startOp_eq {d d' : DiscWork} (k : OpKind) (a : Nat) (holds : s.Holds (.disc d)) :
    (s.putDiscWork d').startOp k a =
      { s with line := s.line.started (s.lineOp k a), jobq := s.jobq.granted (.disc d') } := by
  rw [State.putDiscWork, show s.jobq.grant = _ from holds]
  rfl

/-- A job ends (R145). -/
theorem endJob_of_owes {j : Job} {q : Request} (r : Result) (p : List Byte) (owes : s.Owes q) (tag : q.tag = j.tag) :
    s.endJob j r p = { s with jobq := s.jobq.released, rate := ⟨none⟩, link := s.link.answered q r p } :=
  answer_of_owes (s := (s.withJobq { s.jobq with grant := none }).dropChoices) r p owes tag

/-! ### DISC's cursor and the end of its steps (R97, R117, R128) -/

theorem mapTop_of_levels {d : Disc} {top : Level} {below : List Level} (f : Level → Level) (h : d.levels = top :: below) :
    d.mapTop f = { d with levels := f top :: below } := by
  simp only [Disc.mapTop, h]

theorem nextJunction_eq {top : Level} {below : List Level} (h : s.disc.levels = top :: below) :
    s.nextJunction = { s with disc := { s.disc with levels := top.atNextJunction :: below } } := by
  rw [State.nextJunction, mapTop_of_levels _ h]
  rfl

/-- The cursor moves on from a leg of a junction of a kind. -/
theorem nextLeg_eq {top : Level} {below : List Level} {j : Listed} {c : Entry} (h : s.disc.levels = top :: below)
    (at' : s.AtJunction top j c) :
    s.nextLeg = { s with disc := { s.disc with levels := top.atNextLeg (kindLegs c.kind) :: below } } := by
  obtain ⟨listed, held⟩ := at'
  rw [State.nextLeg, mapTop_of_levels _ h]
  simp only [listed, held, Option.bind_some, Option.map_some, Option.getD_some]
  rfl

theorem cursorStep_eq {d : Disc} {top : Level} {below : List Level} {j : Listed} (h : d.levels = top :: below)
    (listed : top.junctions[top.index]? = some j) : d.cursorStep = some ⟨j.handle, top.leg⟩ := by
  simp [Disc.cursorStep, h, listed]

/-- A step of a discovery that goes on is over. -/
theorem stepDone_onward (h : t.disc.cancelled = false) : (t.stepDone.regrant b).kick = t.onward b := by
  have next : t.stepDone = State.discNext { t with jobq := { t.jobq with grant := none } } := if_neg (by simp [h])
  rw [next]
  rfl

/-! ### The close of a leg (R121, R130) -/

/-- Two routes that begin alike and then differ. -/
theorem commonLen_append : ∀ pre x y : Route, (∀ st, x.head? = some st → y.head? ≠ some st) →
    commonLen (pre ++ x) (pre ++ y) = pre.length
  | [], [], _, _ => rfl
  | [], _ :: _, [], _ => rfl
  | [], a :: as, b :: bs, h => if_neg fun e => h a rfl (by rw [e]; rfl)
  | p :: pre, x, y, h => by
    simp only [List.cons_append, commonLen, if_true, List.length_cons, commonLen_append pre x y h]

/-- A switch before its next leg exchange (R121, R122). -/
def Switch.afresh (sw : Switch) : Switch := { sw with used := 0, settle := none, resume := false }

/-- What lies beyond the beginning that the open route shares with the target is closed, deepest first (R121). -/
theorem switchNext_closes {sw : Switch} {w : Work} {old : Option Switch} {pre rest more : Route} {st : RouteStep}
    (grant : s.jobq.grant = some ⟨w, old, none⟩) (route : s.line.route = pre ++ more ++ [st]) (target : sw.target = pre ++ rest)
    (parts : rest.head? ≠ (more ++ [st]).head?) : s.switchNext sw = ({ s with
      line := s.line.started (s.lineOp (.legClose st.leg) st.junction)
      jobq := { s.jobq with grant := some ⟨w, some sw.afresh, none⟩ } }, none) := by
  have shared : commonLen s.line.route sw.target < s.line.route.length := by
    rw [route, target, List.append_assoc, commonLen_append _ _ _ fun _ h k => parts (k.trans h.symm)]
    simp
  have deepest : s.line.route.getLast? = some st := by rw [route]; exact List.getLast?_concat
  unfold State.switchNext
  dsimp only
  rw [if_pos shared]
  simp only [deepest, State.putSwitch, grant]
  rfl

/-! ### An entry put into the roster -/

theorem find_update_other {r : Rstr} {h x : Nat} (f : Entry → Entry) (hf : ∀ e, (f e).handle = e.handle) (n : x ≠ h) :
    (r.update h f).find x = r.find x := by
  unfold Rstr.update Rstr.find
  rw [find_map_entries _ _ (by intro e; split <;> simp [hf])]
  cases e : r.entries.find? (fun e => e.handle == x) with
  | none => rfl
  | some y =>
    have : y.handle = x := by simpa using List.find?_some e
    simp [this, n]

theorem update_of_none {r : Rstr} {h : Nat} (f : Entry → Entry) (none : r.find h = none) : r.update h f = r := by
  have apart : ∀ e ∈ r.entries, e.handle ≠ h := by simpa [Rstr.find] using none
  have same : r.entries.map (fun e => if e.handle = h then f e else e) = r.entries :=
    (List.map_congr_left fun e he => if_neg (apart e he)).trans (List.map_id _)
  rw [Rstr.update, same]

theorem update_puts {r : Rstr} {h : Nat} {e : Entry} (f : Entry → Entry) (hf : ∀ e, (f e).handle = e.handle)
    (found : r.find h = some e) : r.Puts (r.update h f) h (f e) :=
  ⟨by rw [find_update _ _ hf, found]; rfl, fun _ => find_update_other f hf, rfl, rfl⟩

theorem Rstr.Puts.trans {r t u : Rstr} {h : Nat} {e e' : Entry} (a : r.Puts t h e) (b : t.Puts u h e') : r.Puts u h e' := by
  obtain ⟨-, others, reserved, summary⟩ := a
  obtain ⟨found, others', reserved', summary'⟩ := b
  exact ⟨found, fun x n => (others' x n).trans (others x n), reserved'.trans reserved, summary'.trans summary⟩

/-- A field that the entry put has kept reads the same at every handle. -/
theorem Rstr.Puts.map_find {α : Type} {r t : Rstr} {h : Nat} {e e' : Entry} (p : r.Puts t h e') (found : r.find h = some e)
    (f : Entry → α) (kept : f e' = f e) (x : Nat) : (t.find x).map f = (r.find x).map f := by
  obtain ⟨put, others, -, -⟩ := p
  by_cases at' : x = h
  · rw [at', put, found, Option.map_some, Option.map_some, kept]
  · rw [others x at']

/-- An operation fixed after an entry was put with its trim kept. -/
theorem lineOp_of_puts {h : Nat} {e e' : Entry} (k : OpKind) (a : Nat) (p : s.rstr.Puts t.rstr h e')
    (found : s.rstr.find h = some e) (kept : e'.trim = e.trim) (beat : t.line.beat = s.line.beat)
    (wait : t.link.settings.answerWait = s.link.settings.answerWait) : t.lineOp k a = s.lineOp k a := by
  refine lineOp_congr k a ?_ beat wait
  have trims := p.map_find found (fun e => e.trim) kept a
  cases ht : t.rstr.find a <;> cases hs : s.rstr.find a <;> simp_all

theorem lineOp_addError (h : Nat) (k : OpKind) (a : Nat) : (s.addError h).lineOp k a = s.lineOp k a := by
  cases found : s.rstr.find h with
  | none => rw [State.addError, update_of_none _ found, withRstr_self]
  | some e => exact lineOp_of_puts k a (update_puts Entry.addError (fun _ => rfl) found) found rfl rfl rfl

/-- The entry after an answered roll (R72). -/
def Entry.answered (e : Entry) (k : Byte) : Entry :=
  { e with
    misses := 0, oddAnswer := e.oddAnswer || e.kind != k
    state := if e.state = .silent then (if e.trim.isSome then .calibrated else .named) else e.state }

/-- The last unanswered attempt of a roll makes the entry SILENT (R73). -/
abbrev Entry.silenced (e : Entry) (limit : Nat) : Prop :=
  limit ≤ min (e.misses + 1) 15 ∧ (e.state = .named ∨ e.state = .calibrated)

/-- The entry after the last unanswered attempt of a roll (R73). -/
def Entry.missed (e : Entry) (limit : Nat) : Entry :=
  { e with misses := min (e.misses + 1) 15, state := if e.silenced limit then .silent else e.state }

theorem rollAnswered_puts {r : Rstr} {h : Nat} {e : Entry} (k : Byte) (found : r.find h = some e) :
    r.Puts (r.rollAnswered h k).1 h (e.answered k) ∧
      (r.rollAnswered h k).1.generation = if e.state = .silent then advance r.generation else r.generation := by
  have heard := update_puts (fun e => { e with misses := 0, oddAnswer := e.oddAnswer || e.kind != k }) (fun _ => rfl) found
  unfold Rstr.rollAnswered
  simp only [found]
  by_cases silent : e.state = .silent
  · have revived := update_puts (fun e => { e with state := if e.trim.isSome then .calibrated else .named }) (fun _ => rfl) heard.1
    rw [if_pos silent, if_pos silent]
    refine ⟨?_, rfl⟩
    rw [Entry.answered, if_pos silent]
    exact heard.trans revived
  · rw [if_neg silent, if_neg silent]
    refine ⟨?_, rfl⟩
    rw [Entry.answered, if_neg silent]
    exact heard

theorem rollUnanswered_puts {r : Rstr} {h : Nat} {e : Entry} (limit : Nat) (found : r.find h = some e) :
    r.Puts (r.rollUnanswered h limit).1 h (e.missed limit) ∧
      (r.rollUnanswered h limit).1.generation = if e.silenced limit then advance r.generation else r.generation := by
  have counted := update_puts (fun x => { x with misses := min (e.misses + 1) 15 }) (fun _ => rfl) found
  unfold Rstr.rollUnanswered
  simp only [found]
  by_cases silent : e.silenced limit
  · have lost := update_puts (fun e => { e with state := .silent }) (fun _ => rfl) counted.1
    rw [if_pos silent, if_pos silent]
    refine ⟨?_, rfl⟩
    rw [Entry.missed, if_pos silent]
    exact counted.trans lost
  · rw [if_neg silent, if_neg silent]
    refine ⟨?_, rfl⟩
    rw [Entry.missed, if_neg silent]
    exact counted

theorem rollAnswered_none {r : Rstr} {h : Nat} (k : Byte) (none : r.find h = none) : r.rollAnswered h k = (r, false) := by
  simp only [Rstr.rollAnswered, none]

theorem rollUnanswered_none {r : Rstr} {h : Nat} (limit : Nat) (none : r.find h = none) :
    r.rollUnanswered h limit = (r, false) := by
  simp only [Rstr.rollUnanswered, none]

/-! ### ROLL_DONE, by its holder -/

variable {op : LineOp} {cells : List LowSample}

/-- The part with the roll ended and the capture unit at its last low (R29, R39). -/
def State.rolled (s : State) (op : LineOp) (cells : List LowSample) : State :=
  { s with line := s.line.endedWith s.link.settings (s.lastCell op cells) }

/-- What a holder does with the reply of its roll. -/
def State.rollTaken (s : State) (w : Work) (h : Nat) (reply : Except DecodeFail (List Byte)) : State :=
  match w with
  | .disc d => s.checkRolled d h reply
  | .job j r u => s.jobRolled j r u reply
  | .sweep x r u => s.sweepRolled x r u reply
  | .keepalive => s

theorem exec_rollDone {w : Work} {reply : Except DecodeFail (List Byte)} (runs : s.Runs .roll op) (holds : s.Holds w)
    (rolls : w ≠ .keepalive) (decoded : (decodeByteReply s.line.beat op.trim cells).reply = reply) :
    exec (.rollDone cells) s = .next (((s.rolled op cells).rollTaken w op.audience reply).regrant s).kick := by
  obtain ⟨flight, kind⟩ := runs
  obtain ⟨k, a, trim, frame, gap⟩ := op
  subst kind decoded
  show execRollDone cells s = _
  simp only [execRollDone, flight, State.work, show s.jobq.grant = _ from holds, Option.map_some]
  cases w with
  | keepalive => exact absurd rfl rolls
  | job | disc | sweep => rfl

end Sys2Proof.Machine
end

section
/-! ROLL_DONE of a ROLL job and of a return check (O26). -/

namespace Sys2Proof.Machine

variable {s : State} {op : LineOp} {cells : List LowSample} {j : Job} {r u : Nat} {q : Request} {e : Entry}

/-! ### A ROLL job (R147) -/

theorem rollFields_of_find {h : Nat} (k : Byte) (found : s.rstr.find h = some e) :
    s.rollFields h k = [k, byteOf e.state.code, byteOf e.misses] := by
  simp only [State.rollFields, found]

theorem rollFields_of_none {h : Nat} (k : Byte) (gone : s.rstr.find h = none) : s.rollFields h k = [k, 0#8, 0#8] := by
  simp only [State.rollFields, gone]

theorem jobRolled_answered (k : Byte) (owes : s.Owes q) (tag : q.tag = j.tag) : s.jobRolled j r u (.ok [k]) = { s with
    jobq := s.jobq.released, rate := ⟨none⟩, rstr := (s.rstr.rollAnswered j.handle k).1
    link := s.link.answered q .ok ((s.withRstr (s.rstr.rollAnswered j.handle k).1).rollFields j.handle k) } :=
  endJob_of_owes (s := s.withRstr (s.rstr.rollAnswered j.handle k).1) _ _ owes tag

theorem jobRolled_again (f : DecodeFail) (holds : s.Holds (.job j r u)) (more : u < r) :
    s.jobRolled j r u (.error f) = { s with
      line := s.line.started (s.lineOp .roll j.handle), jobq := s.jobq.granted (.job j r (u + 1))
      rstr := s.rstr.update j.handle Entry.addError } := by
  simp only [State.jobRolled, more, if_true]
  rw [rerun_eq (s := s.addError j.handle) _ _ holds, lineOp_addError]
  rfl

/-- The roster after the last unanswered attempt (R73, R74). -/
def Rstr.unanswered (r : Rstr) (h limit : Nat) : Rstr := ((r.update h Entry.addError).rollUnanswered h limit).1

theorem jobRolled_unanswered (f : DecodeFail) (owes : s.Owes q) (tag : q.tag = j.tag) (last : r ≤ u) :
    s.jobRolled j r u (.error f) = { s with
      jobq := s.jobq.released, rate := ⟨none⟩, rstr := s.rstr.unanswered j.handle s.link.settings.missLimit
      link := s.link.answered q f.result
        ((s.withRstr (s.rstr.unanswered j.handle s.link.settings.missLimit)).rollFields j.handle 0#8) } := by
  simp only [State.jobRolled, Nat.not_lt.2 last, if_false]
  exact endJob_of_owes (s := s.withRstr (s.rstr.unanswered j.handle s.link.settings.missLimit)) _ _ owes tag

theorem unanswered_puts {r : Rstr} {h : Nat} (limit : Nat) (found : r.find h = some e) :
    r.Puts (r.unanswered h limit) h (e.addError.missed limit) ∧
      (r.unanswered h limit).generation = if e.silenced limit then advance r.generation else r.generation := by
  have erred := update_puts Entry.addError (fun _ => rfl) found
  obtain ⟨missed, generation⟩ := rollUnanswered_puts limit erred.1
  exact ⟨erred.trans missed, generation⟩

theorem unanswered_none {r : Rstr} {h : Nat} (limit : Nat) (gone : r.find h = none) : r.unanswered h limit = r := by
  rw [Rstr.unanswered, update_of_none _ gone, rollUnanswered_none _ gone]

/-- The answer of a ROLL job's attempt. -/
theorem rollDone_job_answered {k : Byte} (runs : s.Runs .roll op) (holds : s.Holds (.job j r u)) (owes : s.Owes q)
    (tag : q.tag = j.tag) (reads : s.Reads op cells k) : exec (.rollDone cells) s = .next (State.kick (State.regrant { s with
      line := s.line.endedWith s.link.settings (s.lastCell op cells), jobq := s.jobq.released, rate := ⟨none⟩
      rstr := (s.rstr.rollAnswered j.handle k).1
      link := s.link.answered q .ok ((s.withRstr (s.rstr.rollAnswered j.handle k).1).rollFields j.handle k) } s)) := by
  rw [exec_rollDone runs holds nofun reads, State.rollTaken, jobRolled_answered (s := s.rolled op cells) k owes tag]
  rfl

/-- A decode outcome within the retries of a ROLL job. -/
theorem rollDone_job_again {f : DecodeFail} (runs : s.Runs .roll op) (holds : s.Holds (.job j r u))
    (misreads : s.Misreads op cells f) (more : u < r) : exec (.rollDone cells) s = .next (State.kick { s with
      line := (s.line.endedWith s.link.settings (s.lastCell op cells)).started (s.lineOp .roll j.handle)
      jobq := s.jobq.granted (.job j r (u + 1)), rstr := s.rstr.update j.handle Entry.addError }) := by
  rw [exec_rollDone runs holds nofun misreads, State.rollTaken, jobRolled_again (s := s.rolled op cells) f holds more,
    regrant_of_holder rfl]
  rfl

/-- The last decode outcome of a ROLL job. -/
theorem rollDone_job_unanswered {f : DecodeFail} (runs : s.Runs .roll op) (holds : s.Holds (.job j r u)) (owes : s.Owes q)
    (tag : q.tag = j.tag) (misreads : s.Misreads op cells f) (last : r ≤ u) :
    exec (.rollDone cells) s = .next (State.kick (State.regrant { s with
      line := s.line.endedWith s.link.settings (s.lastCell op cells), jobq := s.jobq.released, rate := ⟨none⟩
      rstr := s.rstr.unanswered j.handle s.link.settings.missLimit
      link := s.link.answered q f.result
        ((s.withRstr (s.rstr.unanswered j.handle s.link.settings.missLimit)).rollFields j.handle 0#8) } s)) := by
  rw [exec_rollDone runs holds nofun misreads, State.rollTaken, jobRolled_unanswered (s := s.rolled op cells) f owes tag last]
  rfl

/-! ### A return check (R130, R131) -/

variable {d : DiscWork} {top : Level} {below : List Level} {i : Listed} {c : Entry}

theorem checkRolled_again (h : Nat) (f : DecodeFail) (holds : s.Holds (.disc d)) (more : d.used < d.retries) :
    s.checkRolled d h (.error f) = { s with
      line := s.line.started (s.lineOp .roll h), rstr := s.rstr.erred h
      jobq := s.jobq.granted (.disc { d with used := d.used + 1 }) } := by
  simp only [State.checkRolled, more, if_true]
  rw [putDiscWork_startOp_eq (s := s.addError h) _ _ holds, lineOp_addError]
  rfl

/-- The open route ends with the leg at the cursor: DISC closes it under the same grant. -/
theorem closeLeg_eq {st : RouteStep} (retries : Nat) (holds : s.Holds (.disc d))
    (route : s.line.route = s.disc.levelRoute ++ [st]) : s.closeLeg retries = { s with
      line := s.line.started (s.lineOp (.legClose st.leg) st.junction)
      jobq := { s.jobq with grant := some ⟨.disc d, some ⟨.closing, s.disc.levelRoute, s.disc.levelRoute.length, retries,
        s.link.settings.legSettleMs, 0, none, false, none, false⟩, none⟩ } } := by
  have common : commonLen s.line.route s.disc.levelRoute = s.disc.levelRoute.length := by
    rw [route]
    simpa using commonLen_append s.disc.levelRoute [st] [] (by simp)
  rw [State.closeLeg, State.startSwitch, switchNext_closes (pre := s.disc.levelRoute) (rest := []) (more := []) holds
    (by simpa using route) (by simp) (by simp), common]
  rfl

/-- The return check answered while the open route holds its leg (R130). -/
theorem checkAnswered_closes {h : Nat} (k : Byte) (holds : s.Holds (.disc d)) (levels : s.disc.levels = top :: below)
    (listed : top.junctions[top.index]? = some i) (found : s.rstr.find h = some e)
    (route : s.line.route = s.disc.levelRoute ++ [⟨i.handle, top.leg⟩]) : s.checkAnswered d h k = { s with
      line := s.line.started (s.lineOp (.legClose top.leg) i.handle), rstr := (s.rstr.rollAnswered h k).1
      jobq := { s.jobq with grant := some ⟨.disc d, some ⟨.closing, s.disc.levelRoute, s.disc.levelRoute.length, d.retries,
        s.link.settings.legSettleMs, 0, none, false, none, false⟩, none⟩ } } := by
  have here : s.disc.cursorStep.any (fun st => s.line.route == s.disc.levelRoute ++ [st]) = true := by
    simp [cursorStep_eq levels listed, route]
  have op : (s.withRstr (s.rstr.rollAnswered h k).1).lineOp (.legClose top.leg) i.handle =
      s.lineOp (.legClose top.leg) i.handle :=
    lineOp_of_puts _ _ (rollAnswered_puts k found).1 found rfl rfl rfl
  rw [State.checkAnswered]
  dsimp only
  rw [if_pos (by exact here), closeLeg_eq (s := s.withRstr (s.rstr.rollAnswered h k).1) d.retries holds route, op]
  rfl

/-- The return check answered once its leg is closed already: the cursor moves on (R130). -/
theorem checkAnswered_moves {h : Nat} (k : Byte) (levels : s.disc.levels = top :: below)
    (at' : s.AtJunction top i c) (found : s.rstr.find h = some e)
    (route : s.line.route ≠ s.disc.levelRoute ++ [⟨i.handle, top.leg⟩]) : s.checkAnswered d h k = State.stepDone { s with
      rstr := (s.rstr.rollAnswered h k).1
      disc := { s.disc with levels := top.atNextLeg (kindLegs c.kind) :: below } } := by
  obtain ⟨listed, held⟩ := at'
  have away : ¬s.disc.cursorStep.any (fun st => s.line.route == s.disc.levelRoute ++ [st]) = true := by
    simp [cursorStep_eq levels listed, route]
  have kinds := (rollAnswered_puts k found).1.map_find found (fun e => e.kind) rfl i.handle
  rw [held, Option.map_some, Option.map_eq_some_iff] at kinds
  obtain ⟨c', held', kind⟩ := kinds
  rw [State.checkAnswered]
  dsimp only
  rw [if_neg (by exact away), nextLeg_eq (s := s.withRstr (s.rstr.rollAnswered h k).1) levels ⟨listed, held'⟩, kind]
  rfl

/-- The return check unanswered: the junction departs and the cursor moves on (R131, R132). -/
theorem checkRolled_unanswered (h : Nat) (f : DecodeFail) (last : d.retries ≤ d.used) (levels : s.disc.levels = top :: below) :
    s.checkRolled d h (.error f) = State.stepDone { s with
      line := { s.line with route := s.line.route.take s.disc.levelRoute.length }, rstr := ((s.rstr.erred h).cascade h).1
      disc := { s.disc with
        levels := top.atNextJunction :: below, abandoned := true
        result := s.disc.result.map (fun r => { r with departed := r.departed + ((s.rstr.erred h).cascade h).2 }) } } := by
  have moved := nextJunction_eq (s := { s with
    line := { s.line with route := s.line.route.take s.disc.levelRoute.length }, rstr := ((s.rstr.erred h).cascade h).1
    disc := { s.disc with
      abandoned := true
      result := s.disc.result.map (fun r => { r with departed := r.departed + ((s.rstr.erred h).cascade h).2 }) } }) levels
  simp only [State.checkRolled, Nat.not_lt.2 last, if_false]
  exact congrArg State.stepDone moved

end Sys2Proof.Machine

open Sys2Proof Sys2Proof.Machine

/-- Settles O26, by the holder of the roll and its reply. -/
theorem rollJobTaken : Obligations.RollJobTaken := by
  intro s op e cells runs line next err answered
  refine ⟨fun j r u q holds owes tag found => ?_, fun j r u q holds owes tag gone => ?_,
    fun d top below j c holds running levels at' found => ?_⟩
  · refine ⟨fun k reads => ?_, fun f misreads more => ?_, fun f misreads last => ?_⟩
    · obtain ⟨put, generation⟩ := rollAnswered_puts k found
      refine ⟨_, ?_, put, generation⟩
      rw [rollDone_job_answered runs holds owes tag reads, rollFields_of_find k (by exact put.1)]
      rfl
    · exact ⟨_, rollDone_job_again runs holds misreads more, update_puts Entry.addError (fun _ => rfl) found, rfl⟩
    · obtain ⟨put, generation⟩ := unanswered_puts s.link.settings.missLimit found
      refine ⟨_, ?_, put, generation⟩
      rw [rollDone_job_unanswered runs holds owes tag misreads last, rollFields_of_find _ (by exact put.1)]
      rfl
  · refine ⟨fun k reads => ?_, fun f misreads more => ?_, fun f misreads last => ?_⟩
    · rw [rollDone_job_answered runs holds owes tag reads, rollAnswered_none k gone, rollFields_of_none k (by exact gone)]
    · rw [rollDone_job_again runs holds misreads more, update_of_none _ gone]
    · rw [rollDone_job_unanswered runs holds owes tag misreads last, unanswered_none _ gone, rollFields_of_none _ (by exact gone)]
  · have listed := at'.1
    refine ⟨fun k reads => ?_, fun f misreads more => ?_, fun f misreads last => ?_⟩
    · obtain ⟨put, generation⟩ := rollAnswered_puts k found
      refine ⟨_, put, generation, fun route => ?_, fun route => ?_⟩
      · rw [exec_rollDone runs holds nofun reads, State.rollTaken, State.checkRolled]
        dsimp only
        rw [List.headD_cons, checkAnswered_closes (s := s.rolled op cells) k holds levels listed found route, regrant_of_holder rfl]
        rfl
      · rw [exec_rollDone runs holds nofun reads, State.rollTaken, State.checkRolled]
        dsimp only
        rw [List.headD_cons, checkAnswered_moves (s := s.rolled op cells) k levels at' found route,
          stepDone_onward (by exact running)]
        rfl
    · rw [exec_rollDone runs holds nofun misreads, State.rollTaken, checkRolled_again (s := s.rolled op cells) _ f holds more,
        regrant_of_holder rfl]
      rfl
    · rw [exec_rollDone runs holds nofun misreads, State.rollTaken,
        checkRolled_unanswered (s := s.rolled op cells) _ f last levels, stepDone_onward (by exact running)]
      rfl
end

section
/-! SUPPORT. How the sweep and a route switch go on, as functions of the relations that the statements use (R121, R151 to R154). -/

namespace Sys2Proof.Machine

variable {s t u v before : State}

/-! ### The sweep (R151 to R154) -/

/-- The ROSTER notice of a pass with changes (R153). -/
def State.tellsPass (t : State) (w : Sweep) : Link := { t.link with
  notices := if 1 ≤ w.passChanges then putNotice (.roster .sweep t.rstr.generation w.passChanges 0 0) t.link.notices
    else t.link.notices }

theorem raise_pass (w : Sweep) :
    (if 1 ≤ w.passChanges then s.raise (.roster .sweep s.rstr.generation w.passChanges 0 0) else s) =
      { s with link := s.tellsPass w } := by
  unfold State.tellsPass
  split <;> rfl

theorem sweepPassEnd_of_over {w : Sweep} (o : Option Sweep) (past : t.PassOver w u) : (t.putSweep o).sweepPassEnd w = u := by
  rcases past with ⟨goes, rfl⟩ | ⟨q, ends, owes, tag, rfl⟩
  · simp only [State.sweepPassEnd]
    rw [if_neg (by exact goes), raise_pass (s := t.putSweep o) w]
    rfl
  · simp only [State.sweepPassEnd]
    rw [if_pos (by exact ends), raise_pass (s := t.putSweep o) w, endSweep_some _ rfl]
    exact answer_of_owes (s := { t with jobq := { t.jobq with sweep := none }, link := t.tellsPass w }) _ _ owes tag

theorem sweepSeek_stays {w : Sweep} (sweep : s.jobq.sweep = some w)
    (h : w.phase = .rolling → ∃ e, s.rstr.nextLive w.position = some e) : s.sweepSeek = s := by
  simp only [State.sweepSeek, sweep]
  refine if_neg fun k => ?_
  obtain ⟨e, found⟩ := h k.1
  simp [found] at k

theorem sweepSeek_ends {w : Sweep} (sweep : s.jobq.sweep = some w) (rolling : w.phase = .rolling)
    (none : s.rstr.nextLive w.position = none) : s.sweepSeek = s.sweepPassEnd w := by
  simp only [State.sweepSeek, sweep]
  exact if_pos ⟨rolling, by simp [none]⟩

/-- After a pass the sweep is gone, or starts at position 0 on the same roster. -/
theorem passOver_next {w y : Sweep} (past : t.PassOver w u) (sweep : u.jobq.sweep = some y) :
    y.position = 0 ∧ u.rstr = t.rstr := by
  rcases past with ⟨-, rfl⟩ | ⟨q, -, -, -, rfl⟩
  · cases sweep; exact ⟨rfl, rfl⟩
  · cases sweep

/-- The sweep without the line looks for its next entry, or ends when it is being cancelled. -/
def State.sweepOn (s : State) (w : Sweep) : State :=
  if w.phase = .ending then (s.putSweep (some w)).endSweep .cancelled else (s.putSweep (some w)).sweepLook

theorem sweepOn_of_goesOn {w : Sweep} (on : t.SweepGoesOn w u) : t.sweepOn w = u := by
  rcases on with ⟨rolling, live, rfl⟩ | ⟨rolling, none, past, again⟩ |
    ⟨rolling, none, none0, v, y, past, sweep, rolling', past'⟩ | ⟨q, ending, owes, tag, rfl⟩
  · rw [State.sweepOn, if_neg (by simp [rolling]), State.sweepLook]
    have stays := sweepSeek_stays (s := t.putSweep (some w)) rfl fun _ => live
    rw [stays, stays]
    rfl
  · rw [State.sweepOn, if_neg (by simp [rolling]), State.sweepLook, sweepSeek_ends (s := t.putSweep (some w)) rfl rolling none,
      sweepPassEnd_of_over _ past]
    cases sweep : u.jobq.sweep with
    | none => simp only [State.sweepSeek, sweep]
    | some y =>
      obtain ⟨start, roster⟩ := passOver_next past sweep
      refine sweepSeek_stays sweep fun rolling' => ?_
      rw [start, roster]
      exact again ⟨y, sweep, rolling'⟩
  · obtain ⟨start, roster⟩ := passOver_next past sweep
    rw [State.sweepOn, if_neg (by simp [rolling]), State.sweepLook, sweepSeek_ends (s := t.putSweep (some w)) rfl rolling none,
      sweepPassEnd_of_over _ past, sweepSeek_ends sweep rolling' (by rw [start, roster]; exact none0)]
    exact sweepPassEnd_of_over v.jobq.sweep past'
  · rw [State.sweepOn, if_pos ending, endSweep_some _ rfl]
    exact answer_of_owes (s := { t with jobq := { t.jobq with sweep := none } }) _ _ owes tag

/-- A sweep roll ends with some changes of its own (R152). -/
theorem endRoll_of_goesOn {w : Sweep} (h n : Nat) (sweep : s.jobq.sweep = some w)
    (on : State.SweepGoesOn { s with jobq := s.jobq.released }
      { w with position := h, rolled := true, passChanges := w.passChanges + n } v) : s.endRoll h n = v := by
  simp only [State.endRoll, withJobq_jobq, sweep]
  exact sweepOn_of_goesOn on

/-! ### Route switches (R121) -/

variable {w : Work} {old : Option Switch} {sw : Switch}

theorem stepGood_of_not_barred {r : Rstr} {route : Route} {st : RouteStep} {c : Entry} (found : r.find st.junction = some c)
    (live : c.state ≠ .departed) (junction : kindIsJunction c.kind = true) (path : c.path = route) (low : 1 ≤ st.leg)
    (high : st.leg ≤ kindLegs c.kind) : r.stepGood route st = true := by
  simp [Rstr.stepGood, found, Entry.live, live, Entry.isJunction, junction, path, low, high]

theorem stepGood_of_bars {r : Rstr} {route : Route} {st : RouteStep} (bars : r.Bars route st) : r.stepGood route st = false := by
  unfold Rstr.stepGood
  cases found : r.find st.junction with
  | none => rfl
  | some c =>
    have barred := bars c found
    simp only [Option.any_some, Entry.live, Entry.isJunction, Bool.and_eq_false_iff, bne_eq_false_iff_eq, beq_eq_false_iff_ne,
      decide_eq_false_iff_not]
    rcases barred with h | h | h | h | h
    · exact .inl (.inl (.inl h))
    · exact .inl (.inl (.inr h))
    · exact .inl (.inr h)
    · exact .inr (by omega)
    · exact .inr (by omega)

/-- A target that begins with the open route: nothing is closed, and what lies beyond is left. -/
theorem extends_route {route target more : Route} (h : target = route ++ more) :
    ¬commonLen route target < route.length ∧ target.drop route.length = more := by
  have shared : commonLen route (route ++ more) = route.length := by simpa using commonLen_append route [] more nofun
  rw [h, shared, List.drop_left]
  exact ⟨Nat.lt_irrefl _, rfl⟩

/-- The target's first step beyond the open route is opened, the roster allowing it. -/
theorem switchNext_opens {st : RouteStep} {rest : Route} (grant : s.jobq.grant = some ⟨w, old, none⟩)
    (target : sw.target = s.line.route ++ st :: rest) (good : s.rstr.stepGood s.line.route st = true) :
    s.switchNext sw = ({ s with
      line := s.line.started (s.lineOp (.legOpen st.leg) st.junction)
      jobq := { s.jobq with grant := some ⟨w, some sw.afresh, none⟩ } }, none) := by
  obtain ⟨whole, beyond⟩ := extends_route target
  unfold State.switchNext
  dsimp only
  rw [if_neg whole]
  simp only [beyond, good, if_true, State.putSwitch, grant]
  rfl

theorem switchNext_barred {st : RouteStep} {rest : Route} (grant : s.jobq.grant = some ⟨w, old, none⟩)
    (target : sw.target = s.line.route ++ st :: rest) (bars : s.rstr.Bars s.line.route st) :
    s.switchNext sw = ({ s with jobq := s.jobq.granted w }, some ⟨.routeFail, sw.afresh⟩) := by
  obtain ⟨whole, beyond⟩ := extends_route target
  unfold State.switchNext
  dsimp only
  rw [if_neg whole]
  simp only [beyond, stepGood_of_bars bars, Bool.false_eq_true, if_false, State.putSwitch, grant]
  rfl

theorem switchNext_done (grant : s.jobq.grant = some ⟨w, old, none⟩) (target : sw.target = s.line.route) :
    s.switchNext sw = ({ s with jobq := s.jobq.granted w }, some ⟨.done, sw.afresh⟩) := by
  obtain ⟨whole, beyond⟩ := extends_route (target.trans (List.append_nil _).symm)
  unfold State.switchNext
  dsimp only
  rw [if_neg whole]
  simp only [beyond, State.putSwitch, grant]
  rfl

/-- A switch that asks for its next leg exchange. -/
theorem switchNext_asks {op : LineOp} (grant : s.jobq.grant = some ⟨w, old, none⟩) (asks : s.SwitchAsks sw.target op) :
    s.switchNext sw = ({ s with
      line := s.line.started op, jobq := { s.jobq with grant := some ⟨w, some sw.afresh, none⟩ } }, none) := by
  rcases asks with ⟨pre, rest, more, st, route, target, parts, rfl⟩ |
    ⟨st, rest, c, target, found, live, junction, path, low, high, rfl⟩
  · exact switchNext_closes grant route target parts
  · exact switchNext_opens grant target (stepGood_of_not_barred found live junction path low high)

/-! ### What a holder does at the end of its switch (R125) -/

theorem jobOp_eq (j : Job) (r n : Nat) (holds : s.jobq.grant = some ⟨.job j r n, none, none⟩) : s.jobOp j = s.jobAsks j r n := by
  have same : s.jobq.granted (.job j r n) = s.jobq := by rw [Jobq.granted, ← holds]
  unfold State.jobOp State.jobAsks
  rw [same]
  cases j.kind <;> rfl

/-- A restoration that the roster bars (R135, R136). -/
theorem restoreFailed_barred {top : Level} {below : List Level} (running : s.disc.cancelled = false)
    (levels : (s.disc.restoreLost s.line.route.length).levels = top :: below) : s.restoreFailed .routeFail =
      State.discNext { s with
        jobq := s.jobq.released
        disc := { s.disc.restoreLost s.line.route.length with levels := top.atNextJunction :: below } } := by
  have moved := nextJunction_eq (s := s.withDisc (s.disc.restoreLost s.line.route.length)) levels
  have done : s.restoreFailed .routeFail = State.stepDone
      (State.nextJunction (s.withDisc (s.disc.restoreLost s.line.route.length))) := rfl
  rw [done, moved]
  exact if_neg (by simp [Disc.restoreLost, running])

/-- A switch goes on, and the arbiter grants what it may. -/
theorem switchWent_of_goesOn (grant : t.jobq.grant = some ⟨w, old, none⟩) (on : before.SwitchGoesOn t w sw u) :
    (State.switchWent (t.switchNext sw) w).regrant before = u := by
  rcases on with ⟨op, asks, rfl⟩ | ⟨j, r, n, rfl, on⟩ | ⟨h, r, n, rfl, on⟩ | ⟨d, rfl, restore, on⟩
  · rw [switchNext_asks grant asks]
    exact regrant_of_holder rfl
  · rcases on with ⟨target, rfl⟩ | ⟨q, ⟨st, rest, target, bars⟩, owes, tag, rfl⟩
    · have asked := jobOp_eq (s := { t with jobq := t.jobq.granted (.job j r n) }) j r n rfl
      rw [switchNext_done grant target]
      exact (congrArg (fun x => State.regrant x before) asked).trans (regrant_of_holder rfl)
    · have ended := endJob_of_owes (s := { t with jobq := t.jobq.granted (.job j r n) }) .routeFail [] owes tag
      rw [switchNext_barred grant target bars]
      exact congrArg (fun x => State.regrant x before) ended
  · rcases on with ⟨target, rfl⟩ | ⟨y, v, ⟨st, rest, target, bars⟩, sweep, on, rfl⟩
    · rw [switchNext_done grant target]
      exact regrant_of_holder rfl
    · have moved := endRoll_of_goesOn (s := { t with jobq := t.jobq.granted (.sweep h r n) }) h 0 sweep on
      rw [switchNext_barred grant target bars]
      exact congrArg (fun x => State.regrant x before) moved
  · have purpose : sw.afresh.purpose = .restore := restore
    rcases on with ⟨target, rfl⟩ | ⟨top, below, ⟨st, rest, target, bars⟩, running, levels, rfl⟩
    · rw [switchNext_done grant target]
      simp only [State.switchWent, State.switchEnded, purpose, State.restoreEnded]
    · have failed := restoreFailed_barred (s := { t with jobq := t.jobq.granted (.disc d) }) running levels
      rw [switchNext_barred grant target bars]
      simp only [State.switchWent, State.switchEnded, purpose, State.restoreEnded]
      exact congrArg (fun x => State.regrant x before) failed

end Sys2Proof.Machine
end

section
/-! SUSPECT and the return to MATED (O8): what the holder makes of its tainted operation (R8 to R10, R114, R122, R125, R145, R152). -/

namespace Sys2Proof.Machine

variable {s t u v : State} {op : LineOp} {g : Grant}

/-! ### A tainted operation by its holder -/

/-- The holder takes its tainted operation up. -/
theorem holderResumes_tainted (grant : s.jobq.grant = some g) (taint : g.tainted = some op) :
    s.holderResumes = s.dealTaint g op := by
  simp only [State.holderResumes, grant, taint]

theorem holderResumes_none (grant : s.jobq.grant = none) : s.holderResumes = s := by
  simp only [State.holderResumes, grant]

/-- The part with an operation of the holder started again. -/
abbrev State.runsAgain (s : State) (op : LineOp) (g : Grant) : State :=
  { s with line := s.line.started op, jobq := { s.jobq with grant := some g } }

section Job
variable {j : Job} {r n : Nat} (grant : s.jobq.grant = some ⟨.job j r n, none, some op⟩)
include grant

theorem job_again (more : n < r) :
    s.holderResumes = s.runsAgain (s.lineOp op.kind op.audience) ⟨.job j r (n + 1), none, none⟩ := by
  rw [holderResumes_tainted grant rfl]
  show State.jobTainted _ j r n op = _
  rw [State.jobTainted, if_pos more]
  exact rerun_eq (s := { s with jobq := s.jobq.granted (.job j r n) }) _ _ rfl

theorem job_disturbed {q : Request} (last : r ≤ n) (owes : s.Owes q) (tag : q.tag = j.tag) : s.holderResumes = { s with
    jobq := s.jobq.released, rate := ⟨none⟩, link := s.link.answered q .disturbed [] } := by
  rw [holderResumes_tainted grant rfl]
  show State.jobTainted _ j r n op = _
  rw [State.jobTainted, if_neg (Nat.not_lt.2 last)]
  exact endJob_of_owes (s := { s with jobq := s.jobq.granted (.job j r n) }) _ _ owes tag

end Job

section Sweep
variable {h r n : Nat} (grant : s.jobq.grant = some ⟨.sweep h r n, none, some op⟩)
include grant

theorem sweep_again (more : n < r) :
    s.holderResumes = s.runsAgain (s.lineOp .roll h) ⟨.sweep h r (n + 1), none, none⟩ := by
  rw [holderResumes_tainted grant rfl]
  show State.sweepTainted _ h r n = _
  rw [State.sweepTainted, if_pos more]
  exact rerun_eq (s := { s with jobq := s.jobq.granted (.sweep h r n) }) _ _ rfl

theorem sweep_disturbed {x : Sweep} (last : r ≤ n) (sweep : s.jobq.sweep = some x)
    (on : State.SweepGoesOn { s with jobq := s.jobq.released } { x with position := h, rolled := true } v) :
    s.holderResumes = v := by
  rw [holderResumes_tainted grant rfl]
  show State.sweepTainted _ h r n = _
  rw [State.sweepTainted, if_neg (Nat.not_lt.2 last)]
  exact endRoll_of_goesOn (s := { s with jobq := s.jobq.granted (.sweep h r n) }) h 0 sweep on

end Sweep

theorem keepalive_tainted (grant : s.jobq.grant = some ⟨.keepalive, none, some op⟩) : s.holderResumes = { s with
    line := { s.line with keepaliveDue := true }, jobq := s.jobq.released } := by
  rw [holderResumes_tainted grant rfl]
  rfl

/-- A step of discovery has failed, its effect on DISC given (Table 7-5). -/
theorem failStep_of_failsWith {st : DiscStep} {x : Disc} (h : s.disc.failsWith st x) :
    s.failStep st = State.stepDone { s with disc := x } := by
  rcases h with ⟨rfl, rfl⟩ | ⟨rfl | rfl, rfl⟩ | ⟨rfl, rfl⟩ | ⟨rfl, rfl⟩ | ⟨rfl, rfl⟩ <;> rfl

theorem failsWith_cancelled {d x : Disc} {st : DiscStep} (h : d.failsWith st x) : x.cancelled = d.cancelled := by
  rcases h with ⟨-, rfl⟩ | ⟨-, rfl⟩ | ⟨-, rfl⟩ | ⟨-, rfl⟩ | ⟨-, rfl⟩ <;> rfl

/-- A failed return check moves the cursor on (Table 8-6). -/
theorem failStep_returnCheck {top : Level} {below : List Level} {i : Listed} {c : Entry} (levels : s.disc.levels = top :: below)
    (at' : s.AtJunction top i c) : s.failStep .returnCheck = State.stepDone
      { s with disc := { s.disc with levels := top.atNextLeg (kindLegs c.kind) :: below } } :=
  congrArg State.stepDone (nextLeg_eq levels at')

/-- A failed opening moves the cursor on, the abandoned mark set (Table 8-6). -/
theorem failStep_opening {top : Level} {below : List Level} {i : Listed} {c : Entry} (levels : s.disc.levels = top :: below)
    (at' : s.AtJunction top i c) : s.failStep .opening = State.stepDone
      { s with disc := { s.disc with levels := top.atNextLeg (kindLegs c.kind) :: below, abandoned := true } } :=
  congrArg State.stepDone (nextLeg_eq (s := s.abandon) levels at')

/-- A failed naming is counted, and its nonce is done with (R109). -/
theorem countFailedNaming_eq : s.countFailedNaming = { s with disc := { s.disc with
    pass := s.disc.pass.missed, leaf := s.disc.leaf.map Leaf.nonceDone } } := rfl

/-- The DROP of a naming becomes pending (R109, log 43). -/
theorem dropPending_eq (why : DropCause) (h : Nat) : s.dropPending why h = State.stepDone { s with disc := { s.disc with
    pendingDrop := some h
    pass := if why = .failed then s.disc.pass.missed else { s.disc.pass with failed := true }
    leaf := if why = .failed then s.disc.leaf.map Leaf.nonceDone else s.disc.leaf } } := by
  cases why with
  | failed =>
    have counted := countFailedNaming_eq (s := { s with disc := { s.disc with
      pass := { s.disc.pass with failed := true }, pendingDrop := some h } })
    rw [if_pos rfl, if_pos rfl]
    exact congrArg State.stepDone counted
  | withdrawn => rw [if_neg nofun, if_neg nofun]; rfl

section Disc
variable {d : DiscWork} (grant : s.jobq.grant = some ⟨.disc d, none, some op⟩)
include grant

theorem disc_again (more : d.used < d.retries) : s.holderResumes =
    s.runsAgain (s.lineOp op.kind op.audience) ⟨.disc { d with used := d.used + 1 }, none, none⟩ := by
  rw [holderResumes_tainted grant rfl]
  show State.discTainted _ d op = _
  rw [State.discTainted, if_pos more]
  exact putDiscWork_startOp_eq (s := { s with jobq := s.jobq.granted (.disc d) }) _ _ rfl

/-- A NAME beyond its limit passes to its DROP (R109). -/
theorem name_disturbed {stamp : Stamp} {nonce h : Nat} (last : d.retries ≤ d.used) (kind : op.kind = .name stamp nonce h) :
    s.holderResumes = s.runsAgain (s.lineOp .drop h) ⟨.disc { d with dropping := some .failed, used := 0 }, none, none⟩ := by
  rw [holderResumes_tainted grant rfl]
  show State.discTainted _ d op = _
  rw [State.discTainted, if_neg (Nat.not_lt.2 last)]
  simp only [kind]
  exact putDiscWork_startOp_eq (s := { s with jobq := s.jobq.granted (.disc d) }) _ _ rfl

/-- The DROP of a naming beyond its limit becomes the pending DROP (R109). -/
theorem drop_disturbed {why : DropCause} (last : d.retries ≤ d.used) (kind : op.kind = .drop) (dropping : d.dropping = some why) :
    s.holderResumes = State.stepDone { s with
      jobq := s.jobq.granted (.disc d)
      disc := { s.disc with
        pendingDrop := some op.audience
        pass := if why = .failed then s.disc.pass.missed else { s.disc.pass with failed := true }
        leaf := if why = .failed then s.disc.leaf.map Leaf.nonceDone else s.disc.leaf } } := by
  rw [holderResumes_tainted grant rfl]
  show State.discTainted _ d op = _
  rw [State.discTainted, if_neg (Nat.not_lt.2 last)]
  simp only [kind, dropping]
  exact dropPending_eq (s := { s with jobq := s.jobq.granted (.disc d) }) why op.audience

/-- Any other operation of a step beyond its limit fails the step (R114). -/
theorem step_disturbed (last : d.retries ≤ d.used) (kind : ∀ stamp nonce h, op.kind ≠ .name stamp nonce h)
    (dropping : d.dropping = none) :
    s.holderResumes = State.failStep { s with jobq := s.jobq.granted (.disc d), rate := ⟨none⟩ } d.step := by
  rw [holderResumes_tainted grant rfl]
  show State.discTainted _ d op = _
  rw [State.discTainted, if_neg (Nat.not_lt.2 last)]
  simp only [dropping]
  split
  · next e => exact absurd e (kind _ _ _)
  · next e => cases e
  · rfl

end Disc

section Switch
variable {w : Work} {sw : Switch} (grant : s.jobq.grant = some ⟨w, some sw, some op⟩)
include grant

theorem switch_again (more : sw.used < sw.retries) : s.holderResumes =
    s.runsAgain (s.lineOp op.kind op.audience) ⟨w, some { sw with used := sw.used + 1 }, none⟩ := by
  rw [holderResumes_tainted grant rfl]
  show State.switchWent (State.legTainted _ sw op.kind op.audience) w = _
  rw [State.legTainted, if_pos more]
  rfl

/-- A leg exchange beyond its limit ends the switch DISTURBED, the route as it is (R125). -/
theorem switch_disturbed (last : sw.retries ≤ sw.used) : s.holderResumes =
    State.switchEnded { s with jobq := s.jobq.granted w } w ⟨.disturbed, sw⟩ := by
  rw [holderResumes_tainted grant rfl]
  show State.switchWent (State.legTainted _ sw op.kind op.audience) w = _
  rw [State.legTainted, if_neg (Nat.not_lt.2 last)]
  rfl

end Switch

section SwitchDisturbed
variable {sw : Switch}

theorem job_switch_disturbed {j : Job} {r n : Nat} {q : Request} (grant : s.jobq.grant = some ⟨.job j r n, some sw, some op⟩)
    (last : sw.retries ≤ sw.used) (owes : s.Owes q) (tag : q.tag = j.tag) : s.holderResumes = { s with
      jobq := s.jobq.released, rate := ⟨none⟩, link := s.link.answered q .disturbed [] } := by
  rw [switch_disturbed grant last]
  exact endJob_of_owes (s := { s with jobq := s.jobq.granted (.job j r n) }) _ _ owes tag

theorem sweep_switch_disturbed {h r n : Nat} {x : Sweep} (grant : s.jobq.grant = some ⟨.sweep h r n, some sw, some op⟩)
    (last : sw.retries ≤ sw.used) (sweep : s.jobq.sweep = some x)
    (on : State.SweepGoesOn { s with jobq := s.jobq.released } { x with position := h, rolled := true } v) :
    s.holderResumes = v := by
  rw [switch_disturbed grant last]
  exact endRoll_of_goesOn (s := { s with jobq := s.jobq.granted (.sweep h r n) }) h 0 sweep on

variable {d : DiscWork} (grant : s.jobq.grant = some ⟨.disc d, some sw, some op⟩) (last : sw.retries ≤ sw.used)
include grant last

/-- A disturbed restoration fails the step that it was made for (R137). -/
theorem restore_disturbed (restore : sw.purpose = .restore) :
    s.holderResumes = State.failStep { s with jobq := s.jobq.granted (.disc d) } d.step := by
  rw [switch_disturbed grant last]
  simp only [State.switchEnded, restore, State.restoreEnded]

theorem closing_disturbed (close : sw.purpose = .closing) :
    s.holderResumes = State.failStep { s with jobq := s.jobq.granted (.disc d) } .returnCheck := by
  rw [switch_disturbed grant last]
  simp only [State.switchEnded, close, State.closingEnded, State.failStep]

theorem opening_disturbed (opens : sw.purpose = .opening) :
    s.holderResumes = State.failStep { s with jobq := s.jobq.granted (.disc d) } .opening := by
  rw [switch_disturbed grant last]
  simp only [State.switchEnded, opens, State.openingEnded]

end SwitchDisturbed

/-- A switch without a tainted exchange goes on at the return when its leg settle has ended meanwhile (R125). -/
theorem holderResumes_switch {w : Work} {sw : Switch} (grant : s.jobq.grant = some ⟨w, some sw, none⟩) :
    s.holderResumes = if sw.resume then State.switchWent (s.switchNext sw) w else s := by
  simp only [State.holderResumes, grant]

/-! ### The return (R8 to R10, R44) -/

/-- MMON back in MATED, a low that is present timed from there. -/
def State.returned (s : State) : State := { s with
  mmon := { s.mmon with state := .mated, breakFilter := none }
  line := { s.line with watch := if s.line.tlHigh then s.line.watch else some (160 * s.line.beat) } }

theorem comeBack_unlit (dark : s.line.state ≠ .idle) :
    s.comeBack = { s with mmon := { s.mmon with state := .mated, breakFilter := none } } := by
  have still : State.armWatch (s.withMmon { s.mmon with state := .mated, breakFilter := none }) =
      s.withMmon { s.mmon with state := .mated, breakFilter := none } := if_neg fun k => dark k.1
  unfold State.comeBack
  dsimp only
  rw [still, if_neg (by exact dark)]
  rfl

theorem armWatch_returned (idle : s.line.state = .idle) :
    State.armWatch (s.withMmon { s.mmon with state := .mated, breakFilter := none }) = s.returned := by
  rw [armWatch_eq (by exact idle), State.returned]
  cases h : s.line.tlHigh <;> simp [State.withMmon, h]

theorem comeBack_owed {o : OwedTrain} (idle : s.line.state = .idle) (owed : s.line.startUp = some o) :
    s.comeBack = s.returned.startTrain o := by
  unfold State.comeBack
  dsimp only
  rw [armWatch_returned idle, if_pos (by exact idle), show s.returned.line.startUp = _ from owed]

theorem comeBack_resumes (idle : s.line.state = .idle) (owed : s.line.startUp = none) :
    s.comeBack = s.returned.holderResumes.regrant s := by
  unfold State.comeBack
  dsimp only
  rw [armWatch_returned idle, if_pos (by exact idle), show s.returned.line.startUp = _ from owed]
  rfl

section Return
variable {i : PlugInput} {made : Bool} (change : s.mmon.inputs.get i ≠ made) (heard : s.deaf = false)
  (suspect : s.mmon.state = .suspect) (all : (s.mmon.inputs.put i made).cls = .all)
include change heard suspect all

theorem exec_return : exec (.inputChange i made) s = .next (s.plugged i made).comeBack.kick := by
  rw [exec_inputChange_heard change heard, takeInput_returns (by exact suspect) (by exact all)]

variable (idle : s.line.state = .idle) (owed : s.line.startUp = none)
include idle owed

/-- The return at which the holder resumes, and the arbiter grants what it may. -/
theorem return_resumes (h : (s.plugged i made).returned.holderResumes = u) :
    exec (.inputChange i made) s = .next (State.kick (u.regrant s)) := by
  rw [exec_return change heard suspect all, comeBack_resumes (by exact idle) (by exact owed), h]
  rfl

/-- The holder runs an operation again, and keeps the line. -/
theorem return_runs (h : (s.plugged i made).returned.holderResumes = (s.plugged i made).returned.runsAgain op g) :
    exec (.inputChange i made) s = .next (State.kick ((s.plugged i made).returned.runsAgain op g)) := by
  rw [return_resumes change heard suspect all idle owed h, regrant_of_holder rfl]

/-- A step of a discovery that goes on is over at the return. -/
theorem return_onward (h : (s.plugged i made).returned.holderResumes = t.stepDone) (running : t.disc.cancelled = false) :
    exec (.inputChange i made) s = .next (t.onward s) := by
  rw [return_resumes change heard suspect all idle owed h, stepDone_onward running]

end Return

end Sys2Proof.Machine

open Sys2Proof Sys2Proof.Machine

/-- Settles O8: by the class of the inputs, then by what waits at the return, a start-up train, nothing, or the holder with its
tainted operation, its tainted leg exchange or the switch that a leg settle left to go on. -/
theorem suspectWaitsAndReturns : Obligations.SuspectWaitsAndReturns := by
  refine ⟨fun s i made change heard suspect short => ?_, fun s i made change heard suspect all dark => ?_, ?_⟩
  · rw [exec_inputChange_heard change heard, takeInput_waits (by exact suspect) (by exact short)]
  · rw [exec_return change heard suspect all, comeBack_unlit (by rcases dark with h | h <;> simp [h])]
  intro s i made change heard suspect all idle back runs leaves
  refine ⟨fun o owed => ?_, fun owed free => ?_, fun owed => ?_⟩
  · rw [exec_return change heard suspect all, comeBack_owed (by exact idle) (by exact owed), startTrain_eq]
    cases o <;> rfl
  · exact return_resumes change heard suspect all idle owed (holderResumes_none free)
  have resumes : ∀ {u}, back.holderResumes = u → leaves u := return_resumes change heard suspect all idle owed
  have again : ∀ {op g}, back.holderResumes = back.runsAgain op g → runs op (some g) :=
    return_runs change heard suspect all idle owed
  have onward : ∀ {t}, back.holderResumes = State.stepDone t → t.disc.cancelled = false →
      exec (.inputChange i made) s = .next (t.onward s) := return_onward change heard suspect all idle owed
  refine ⟨fun w op grant => ?_, fun w sw op grant => ?_, fun w sw grant => ?_⟩
  · replace grant : back.jobq.grant = some ⟨w, none, some op⟩ := grant
    refine ⟨fun j r n work => ?_, fun h r n work kind at' => ?_, fun work => ?_, fun d work => ?_⟩ <;> subst work
    · exact ⟨fun more => again (job_again grant more),
        fun q last owes tag => resumes (job_disturbed (s := back) grant last owes tag)⟩
    · subst at'
      refine ⟨fun more => again ((sweep_again grant more).trans ?_), fun x v last sweep on => ?_⟩
      · rw [kind]; rfl
      · exact resumes (sweep_disturbed (s := back) grant last sweep on)
    · exact resumes (keepalive_tainted (s := back) grant)
    · intro fails
      refine ⟨fun more => again (disc_again grant more), fun last => ⟨fun st nonce h kind => ?_,
        fun why kind dropping running => ?_, fun kind dropping running => ⟨fun x failed => ?_, ?_⟩⟩⟩
      · exact again (name_disturbed grant last kind)
      · exact onward (drop_disturbed grant last kind dropping) running
      · have step := step_disturbed grant last kind dropping
        rw [failStep_of_failsWith (x := x) (by exact failed)] at step
        exact onward step ((failsWith_cancelled failed).trans running)
      · intro top below j c step levels at'
        have failed := step_disturbed grant last kind dropping
        rw [step, failStep_returnCheck (by exact levels) (by exact at')] at failed
        exact onward failed running
  · replace grant : back.jobq.grant = some ⟨w, some sw, some op⟩ := grant
    refine ⟨fun more => again (switch_again grant more), fun last => ⟨fun j r u q work owes tag => ?_,
      fun h r u x v work sweep on => ?_, fun d work running => ?_⟩⟩ <;> subst work
    · exact resumes (job_switch_disturbed (s := back) grant last owes tag)
    · exact resumes (sweep_switch_disturbed (s := back) grant last sweep on)
    · intro fails
      refine ⟨fun x restore failed => ?_, fun top below j c levels at' => ?_⟩
      · have step := restore_disturbed grant last restore
        rw [failStep_of_failsWith (x := x) (by exact failed)] at step
        exact onward step ((failsWith_cancelled failed).trans running)
      · intro moved
        refine ⟨fun close => ?_, fun opens => ?_⟩
        · have failed : back.holderResumes = State.failStep { back with jobq := back.jobq.granted (.disc d) } .returnCheck :=
            close.elim (closing_disturbed grant last) fun ⟨restore, step⟩ => step ▸ restore_disturbed grant last restore
          rw [failStep_returnCheck (by exact levels) (by exact at')] at failed
          exact onward failed running
        · have failed : back.holderResumes = State.failStep { back with jobq := back.jobq.granted (.disc d) } .opening :=
            opens.elim (opening_disturbed grant last) fun ⟨restore, step⟩ => step ▸ restore_disturbed grant last restore
          rw [failStep_opening (by exact levels) (by exact at')] at failed
          exact onward failed running
  · replace grant : back.jobq.grant = some ⟨w, some sw, none⟩ := grant
    refine ⟨fun v resume on => ?_, fun waits => ?_⟩
    · have goes : exec (.inputChange i made) s = .next (State.kick (State.regrant _ s)) :=
        resumes ((holderResumes_switch grant).trans (if_pos resume))
      rwa [switchWent_of_goesOn grant on] at goes
    · exact resumes ((holderResumes_switch grant).trans (if_neg (Bool.eq_false_iff.1 waits)))
end

section
/-! SUPPORT. A single grant (R141), the end of a discovery told (R119), and the holder ended by LINE (R44, R152, R156). -/

namespace Sys2Proof.Machine

variable {s : State}

/-- What the transmitter starts depends on LINK alone. -/
theorem kick_link_congr {t : State} (link : t.link = s.link) : t.kick.link = s.kick.link := by
  unfold State.kick
  rw [link]
  split
  · exact link
  · split
    · rfl
    · split
      · exact link
      · split
        · exact link
        · rfl

/-! ### The arbiter (R141) -/

theorem canGrant_iff : s.canGrant = true ↔ s.Free := by
  simp [State.canGrant, State.Free, and_assoc]

/-- Without the conditions of a grant the arbiter grants nothing. -/
theorem arbitrate_of_not_free (taken : ¬s.Free) : s.arbitrate = s := by
  show s.arbitrateFrom (199 + 1) false = s
  rw [State.arbitrateFrom, if_neg (mt canGrant_iff.1 taken)]

/-- A claim whose grant keeps the line is the only one granted. -/
theorem arbitrate_of_claim {t : State} {c : Claim} {passed : Bool} {g : Grant} (free : s.Free) (claim : s.claim false = some c)
    (grants : s.grantClaim c = (t, passed)) (keeps : t.jobq.grant = some g) : s.arbitrate = t := by
  have stops : t.arbitrateFrom 199 passed = t := by
    show t.arbitrateFrom (198 + 1) passed = t
    rw [State.arbitrateFrom, if_neg (by simp [State.canGrant, keeps])]
  show s.arbitrateFrom (199 + 1) false = t
  rw [State.arbitrateFrom, if_pos (canGrant_iff.2 free)]
  simp only [claim, grants, stops]

/-! ### The end of a discovery -/

/-- A discovery ends with its record told (R119). -/
theorem endDiscovery_told {rec : ResultRecord} {o : DiscOutcome} {why : Option AbortReason} {k : Link}
    (result : s.disc.result = some rec) (told : s.DiscTold (rec.finish o why s.rstr.generation) k) :
    s.endDiscovery o why o.result = s.discEnded (rec.finish o why s.rstr.generation) k := by
  have made : s.finished o why = rec.finish o why s.rstr.generation := by simp only [State.finished, result, Option.getD_some]
  obtain ⟨_, ⟨⟩, told⟩ := told
  rcases told with ⟨auto, rfl⟩ | ⟨q, requested, owes, rfl⟩
  · rw [endDiscovery_auto _ _ _ (by simp [auto]), made]
    rfl
  · rw [endDiscovery_requested _ _ _ requested, made]
    exact answer_of_owes (s := s.withRecord _) _ _ owes rfl

/-! ### The holder dropped -/

variable {sw : Option Switch} {t : Option LineOp} (code : Result)

theorem dropHolder_none (grant : s.jobq.grant = none) : s.dropHolder code = s := by
  have same : { s.jobq with grant := none } = s.jobq := by rw [← grant]
  simp only [State.dropHolder, Jobq.inFlight, Jobq.sweepHolds, grant, Bool.false_and, Bool.false_eq_true, if_false, same]
  rfl

/-- A job in flight is answered (R156). -/
theorem dropHolder_job {j : Job} {r u : Nat} {q : Request} (grant : s.jobq.grant = some ⟨.job j r u, sw, t⟩) (owes : s.Owes q)
    (tag : q.tag = j.tag) :
    s.dropHolder code = { s with jobq := s.jobq.released, link := s.link.answered q code [] } := by
  simp only [State.dropHolder, Jobq.inFlight, Jobq.sweepHolds, grant, Bool.false_and, Bool.false_eq_true, if_false]
  exact answer_of_owes (s := s.withJobq s.jobq.released) _ _ owes tag

/-- A sweep that goes on loses the line alone (R152). -/
theorem dropHolder_sweep {w : Sweep} {h r u : Nat} (grant : s.jobq.grant = some ⟨.sweep h r u, sw, t⟩)
    (sweep : s.jobq.sweep = some w) (goes : w.phase ≠ .ending) : s.dropHolder code = { s with jobq := s.jobq.released } := by
  have stays : s.jobq.sweep.any (fun w => w.phase == .ending) = false := by simpa [sweep] using goes
  simp only [State.dropHolder, Jobq.inFlight, Jobq.sweepHolds, grant, stays, Bool.and_false, Bool.false_eq_true, if_false]
  rfl

/-- A sweep that is being cancelled is answered CANCELLED (R152, log 21). -/
theorem dropHolder_ending {w : Sweep} {h r u : Nat} {q : Request} (grant : s.jobq.grant = some ⟨.sweep h r u, sw, t⟩)
    (sweep : s.jobq.sweep = some w) (ending : w.phase = .ending) (owes : s.Owes q) (tag : q.tag = w.tag) :
    s.dropHolder code = { s with
      jobq := { s.jobq with grant := none, sweep := none }, link := s.link.answered q .cancelled w.payload } := by
  have dropped : s.dropHolder code = (s.withJobq s.jobq.released).endSweep .cancelled := by
    have ends : s.jobq.sweep.any (fun w => w.phase == .ending) = true := by simpa [sweep] using ending
    simp only [State.dropHolder, Jobq.inFlight, Jobq.sweepHolds, grant, ends, Bool.and_true, if_true]
    rfl
  rw [dropped, endSweep_some _ (by exact sweep)]
  exact answer_of_owes (s := s.withJobq { s.jobq with grant := none, sweep := none }) _ _ owes tag

/-- The keepalive and DISC lose the line alone. -/
theorem dropHolder_other {w : Work} (grant : s.jobq.grant = some ⟨w, sw, t⟩) (other : w = .keepalive ∨ ∃ d, w = .disc d) :
    s.dropHolder code = { s with jobq := s.jobq.released } := by
  rcases other with rfl | ⟨d, rfl⟩ <;>
    simp only [State.dropHolder, Jobq.inFlight, Jobq.sweepHolds, grant, Bool.false_and, Bool.false_eq_true, if_false] <;> rfl

end Sys2Proof.Machine
end

section
/-! The start-up train's end, which opens the line (O16). -/

namespace Sys2Proof.Machine

variable {s : State} {op : LineOp} {train : Train}

/-- The part with the start-up train over and line-open seen (R30, R96). -/
def State.trainOver (s : State) : State := { s with
  line := { s.line.ended s.link.settings with startUp := none }, disc := { s.disc with lineOpenSeen := true } }

theorem exec_startUpTrainDone (runs : s.Runs (.startUp train) op) :
    exec .startUpTrainDone s = .next s.trainOver.leaveArmed.arbitrate.kick := by
  obtain ⟨flight, kind⟩ := runs
  obtain ⟨k, a, trim, frame, gap⟩ := op
  subst kind
  show execStartUpTrainDone s = _
  simp only [execStartUpTrainDone, flight]
  rfl

theorem exec_startUpTrainDone_armed {m : DiscMode} (runs : s.Runs (.startUp train) op) (armed : s.disc.state = .armed)
    (mode : s.disc.mode = some m) : exec .startUpTrainDone s = .next (s.trainOver.rooted m).arbitrate.kick := by
  rw [exec_startUpTrainDone runs, leaveArmed_rooted (s := s.trainOver) armed mode rfl nofun]

/-- The command without a start-up train in flight (log 3). -/
theorem exec_startUpTrainDone_idle (idle : ¬∃ train op, s.Runs (.startUp train) op) : exec .startUpTrainDone s = .next s := by
  show execStartUpTrainDone s = _
  unfold execStartUpTrainDone
  split
  · next flight => exact absurd ⟨_, _, flight, rfl⟩ idle
  · rfl

/-! ### The hail granted (R97, R102) -/

/-- The work of a hail, with the settings of its grant (R97, R118). -/
def Settings.hailWork (t : Settings) : DiscWork :=
  { step := .hail, retries := t.stepRetries, used := 0, frame := [], nameRetries := t.nameRetries, nameUsed := 0,
    autoCalib := t.autoCalibrate, dropping := none }

/-- A hail on the open route begins its pass (R102). -/
theorem beginStep_hail (route : s.line.route = s.disc.levelRoute) : s.beginStep .hail = { s with
    line := s.line.started (s.lineOp .hail 0), jobq := s.jobq.granted (.disc s.link.settings.hailWork)
    disc := { s.disc with
      state := .walking, waiting := false, next := none
      pass := ⟨s.disc.pass.number + 1, if s.disc.pass.number = 0 then s.link.settings.walkPasses else s.disc.pass.kept,
        false, false, false, 0⟩ } } :=
  if_pos route

/-- DISC's hail is granted when no urgent job waits (Table 9-4). -/
theorem arbitrate_hail (free : s.Free) (urgent : s.jobq.urgent = []) (asks : s.disc = s.disc.decided .hail)
    (route : s.line.route = s.disc.levelRoute) : s.arbitrate = s.beginStep .hail := by
  have claims : s.discClaim = some (.disc .hail) := by
    rw [State.discClaim, asks]
    rfl
  have granted : (s.beginStep .hail).jobq.grant = some ⟨.disc s.link.settings.hailWork, none, none⟩ := by
    rw [beginStep_hail route]
    rfl
  refine arbitrate_of_claim (c := .disc .hail) (passed := false) free ?_ rfl granted
  simp [State.claim, State.urgentClaim, urgent, claims]

end Sys2Proof.Machine

open Sys2Proof Sys2Proof.Machine

/-- Settles O16: DISC leaves ARMED at the end of the train, and with the line free its hail is granted. -/
theorem startUpTrainOpensLine : Obligations.StartUpTrainOpensLine := by
  refine ⟨fun s t op runs unarmed => ?_, ?_, fun s t op m runs armed mode => exec_startUpTrainDone_armed runs armed mode,
    fun s => exec_startUpTrainDone_idle⟩
  · rw [exec_startUpTrainDone runs, leaveArmed_of_not_armed (by exact unarmed)]
    rfl
  · intro s t op runs armed auto mode urgent grant route on mated here beyond
    have opens := exec_startUpTrainDone_armed runs armed mode
    have free : (s.trainOver.rooted .rescan).Free := ⟨grant, rfl, rfl, on, mated⟩
    have level : (s.trainOver.rooted .rescan).line.route = (s.trainOver.rooted .rescan).disc.levelRoute := route
    rw [arbitrate_hail free urgent rfl level, beginStep_hail level] at opens
    refine ⟨_, opens, ?_⟩
    rw [kick_line, kick_disc, kick_jobq, kick_rstr, kick_mmon, kick_ssw, kick_rate, kick_pins]
    refine ⟨rfl, rfl, rfl, rfl, rfl, ?_, rfl, rfl, ?_, ⟨_, rfl, rfl, rfl, rfl, rfl⟩, ⟨_, rfl, rfl, rfl, rfl⟩, rfl,
      rfl, rfl, rfl, rfl, kick_link_congr rfl⟩
    · exact if_pos auto
    · have begun : (s.trainOver.rooted .rescan).disc.result =
          some { ResultRecord.fresh .rescan true with notEntered := 0 + beyond.length } := by
        simp only [State.rooted, Disc.decided, show s.trainOver.disc.origin = some .auto from auto, if_true]
        rfl
      rw [Nat.zero_add] at begun
      exact congrArg (Option.map _) begun
end

section
/-! SUPPORT. DISC between its steps: the next step of a segment's walk, and the descent decisions once the walk is over (R97,
R102 to R113, R127, R133). -/

namespace Sys2Proof.Machine

variable {s t : State} {top : Level} {below : List Level}

theorem ask_eq (st : DiscStep) : s.ask st = { s with disc := s.disc.decided st } := by cases st <;> rfl

/-! ### The walk (R102, R103, R113) -/

/-- A pending DROP goes first (R109). -/
theorem discNext_pendingDrop {h : Nat} (drop : s.disc.pendingDrop = some h) : s.discNext = s.ask .pendingDrop :=
  if_pos (by rw [drop]; rfl)

/-- The part with the walk of the segment over, and its last pass counted (R113). -/
def State.segmentWalked (s : State) (top : Level) (below : List Level) : State := { s with disc := { s.disc with
  levels := { top with walkDone := true } :: below, result := s.disc.result.map (fun r => r.walked s.disc.pass) } }

section Levels
variable (levels : s.disc.levels = top :: below) (drop : s.disc.pendingDrop = none)
include levels drop

theorem discNext_leaf {l : Leaf} (walks : top.walkDone = false) (leaf : s.disc.leaf = some l) : s.discNext = s.leafNext l := by
  simp only [State.discNext, drop, levels, walks, leaf, Option.isSome_none, Bool.false_eq_true, if_false]

theorem discNext_walk (walks : top.walkDone = false) (leaf : s.disc.leaf = none) : s.discNext = s.walkNext := by
  simp only [State.discNext, drop, levels, walks, leaf, Option.isSome_none, Bool.false_eq_true, if_false]

theorem discNext_descent (walked : top.walkDone = true) : s.discNext = s.descent := by
  simp only [State.discNext, drop, levels, walked, Option.isSome_none, Bool.false_eq_true, if_false, if_true]

/-- A pass that is not walked again is the segment's last (R113). -/
theorem passEnd_last (last : ¬s.disc.pass.again) : s.passEnd = (s.segmentWalked top below).discNext := by
  have walked := mapTop_of_levels (d := { s.disc with result := s.disc.result.map (fun r => r.walked s.disc.pass) })
    (fun l => { l with walkDone := true }) levels
  rw [discNext_descent (s := s.segmentWalked top below) rfl drop rfl, State.passEnd]
  exact (if_neg last).trans (congrArg (fun d => State.descent (s.withDisc d)) walked)

end Levels

theorem passEnd_again (again : s.disc.pass.again) : s.passEnd = s.ask .hail := if_pos again

theorem walkNext_first (first : s.disc.pass.number = 0) : s.walkNext = s.ask .hail := if_pos first

theorem walkNext_call (begun : s.disc.pass.number ≠ 0) (frames : s.disc.frames ≠ []) : s.walkNext = s.ask .call :=
  (if_neg begun).trans (if_neg frames)

theorem walkNext_passEnd (begun : s.disc.pass.number ≠ 0) (empty : s.disc.frames = []) : s.walkNext = s.passEnd :=
  (if_neg begun).trans (if_pos empty)

/-! ### The leaf in hand (R105 to R108, R111) -/

section Leaf
variable {l : Leaf}

theorem leafNext_calibration {c : CalibDue} (calib : l.calib = some c) : s.leafNext l = s.ask .calibration := by
  simp only [State.leafNext, calib]

variable (calib : l.calib = none)
include calib

theorem leafNext_echo (nonces : l.nonces = none) : s.leafNext l = s.ask .echo := by
  simp only [State.leafNext, calib, nonces]

theorem leafNext_naming {n : Nat} {ns : List Nat} (nonces : l.nonces = some (n :: ns)) : s.leafNext l = s.ask .naming := by
  simp only [State.leafNext, calib, nonces]

theorem leafNext_following {d : Nibble} {ds : List Nibble} (nonces : l.nonces = some []) (more : l.remaining = d :: ds) :
    s.leafNext l = (s.putLeaf (some (l.following d ds))).ask .echo := by
  simp only [State.leafNext, calib, nonces, Leaf.nextDigit, more]
  rfl

theorem leafNext_over (nonces : l.nonces = some []) (last : l.remaining = []) : s.leafNext l = (s.putLeaf none).walkNext := by
  simp only [State.leafNext, calib, nonces, Leaf.nextDigit, last]

end Leaf

/-! ### Descent decisions (R127, R130, R133) -/

/-- The handle of a listed junction still holds the entry that was listed (R126). -/
def Rstr.stillHolds (r : Rstr) (j : Listed) : Bool := (r.find j.handle).any (fun e => e.namedAt == j.namedAt)

theorem stillHolds_iff {r : Rstr} {j : Listed} :
    r.stillHolds j = true ↔ ∃ e, r.find j.handle = some e ∧ e.namedAt = j.namedAt := by
  simp [Rstr.stillHolds, Option.any_eq_true]

theorem listedGood_iff {r : Rstr} {j : Listed} {route : Route} : r.listedGood j route = true ↔
    ∃ e, (r.find j.handle = some e ∧ e.namedAt = j.namedAt) ∧ e.state ≠ .departed ∧ e.path = route := by
  simp only [Rstr.listedGood, Option.any_eq_true, Entry.live, Bool.and_eq_true, bne_iff_ne, beq_iff_eq]
  exact exists_congr fun e => by simp only [and_assoc, and_left_comm]

/-- The part with the cursor past a junction at the depth limit, counted, and marked while the roster holds it (R127). -/
def State.pastDeep (s : State) (j : Listed) (top : Level) (below : List Level) : State := { s with
  rstr := if s.rstr.stillHolds j then
      { s.rstr with
        entries := s.rstr.entries.map (fun e => if e.handle = j.handle then { e with notEntered := true } else e) }
    else s.rstr
  disc := { s.disc with
    levels := top.atNextJunction :: below
    result := s.disc.result.map (fun r => { r with notEntered := r.notEntered + 1 }) } }

/-- The part with the cursor past a junction that the roster no longer holds as listed (R127). -/
def State.pastLost (s : State) (top : Level) (below : List Level) : State :=
  { s with disc := { s.disc with levels := top.atNextJunction :: below, abandoned := true } }

section Descend
variable (levels : s.disc.levels = top :: below)
include levels

theorem pastDeep_eq (j : Listed) : (if s.rstr.stillHolds j then s.notEntered [j.handle]
    else s.record (fun r => { r with notEntered := r.notEntered + 1 })).nextJunction = s.pastDeep j top below := by
  unfold State.pastDeep
  split
  · rw [nextJunction_eq (s := s.notEntered [j.handle]) levels]
    simp [State.notEntered, State.record, State.withDisc, State.withRstr]
  · rw [nextJunction_eq (s := s.record _) levels]
    rfl

/-- The decision on the junction at the cursor. -/
theorem descend_listed {j : Listed} (n : Nat) (listed : top.junctions[top.index]? = some j) : s.descend (n + 1) =
    if top.leg = 1 ∧ s.link.settings.maxDepth ≤ (s.rstr.listedPath j s.disc.levelRoute).length then
      (s.pastDeep j top below).descend n
    else if s.rstr.listedGood j s.disc.levelRoute then s.ask .opening
    else (s.pastLost top below).descend n := by
  have lost : s.abandon.nextJunction = s.pastLost top below := nextJunction_eq (s := s.abandon) levels
  rw [← pastDeep_eq levels, ← lost, State.descend]
  simp only [levels, listed]
  rfl

/-- The list done: the level is popped for its return check (R130). -/
theorem descend_popped {st : RouteStep} (n : Nat) (done : top.junctions[top.index]? = none) (entry : top.entry = some st) :
    s.descend (n + 1) = (s.withDisc { s.disc with levels := below }).ask .returnCheck := by
  rw [State.descend]
  simp only [levels, done, entry]

/-- The root's list done: the discovery has reached its end (R133). -/
theorem descend_finished (n : Nat) (done : top.junctions[top.index]? = none) (root : top.entry = none) :
    s.descend (n + 1) = s.finishDiscovery := by
  rw [State.descend]
  simp only [levels, done, root]

/-- One decision ends the descent, or moves the cursor to the next junction. -/
theorem descend_ends_or_moves : (∃ u, ∀ n, s.descend (n + 1) = u) ∨
    ∃ t : State, top.index < top.junctions.length ∧ t.disc.levels = top.atNextJunction :: below ∧
      ∀ n, s.descend (n + 1) = t.descend n := by
  cases listed : top.junctions[top.index]? with
  | none =>
    cases entry : top.entry with
    | none => exact .inl ⟨_, fun n => descend_finished levels n listed entry⟩
    | some st => exact .inl ⟨_, fun n => descend_popped levels n listed entry⟩
  | some j =>
    have inside : top.index < top.junctions.length := (List.getElem?_eq_some_iff.1 listed).1
    by_cases deep : top.leg = 1 ∧ s.link.settings.maxDepth ≤ (s.rstr.listedPath j s.disc.levelRoute).length
    · exact .inr ⟨_, inside, rfl, fun n => (descend_listed levels n listed).trans (if_pos deep)⟩
    · by_cases good : s.rstr.listedGood j s.disc.levelRoute = true
      · exact .inl ⟨_, fun n => (descend_listed levels n listed).trans ((if_neg deep).trans (if_pos good))⟩
      · exact .inr ⟨_, inside, rfl, fun n => (descend_listed levels n listed).trans ((if_neg deep).trans (if_neg good))⟩

end Descend

/-- More decisions than junctions left to look at make no difference. -/
theorem descend_enough {n m : Nat} (levels : s.disc.levels = top :: below) (hn : top.junctions.length - top.index < n)
    (hm : top.junctions.length - top.index < m) : s.descend n = s.descend m := by
  induction n generalizing m s top with
  | zero => omega
  | succ n ih =>
    obtain ⟨m, rfl⟩ := Nat.exists_eq_add_one_of_ne_zero (n := m) (by omega)
    rcases descend_ends_or_moves levels with ⟨u, ends⟩ | ⟨t, inside, moved, moves⟩
    · rw [ends, ends]
    · have left : top.atNextJunction.junctions.length - top.atNextJunction.index = top.junctions.length - (top.index + 1) := rfl
      rw [moves, moves]
      exact ih moved (by omega) (by omega)

/-- A descent whose decision moves the cursor goes on as the descent from there. -/
theorem descent_moves (levels : s.disc.levels = top :: below) (moved : t.disc.levels = top.atNextJunction :: below)
    (moves : ∀ n, s.descend (n + 1) = t.descend n) : s.descent = t.descent := by
  simp only [State.descent, levels, moved, List.head?_cons, Option.map_some, Option.getD_some]
  rw [moves]
  have same : top.atNextJunction.junctions.length = top.junctions.length := rfl
  exact descend_enough moved (by omega) (by omega)

section Decisions
variable {j : Listed} (levels : s.disc.levels = top :: below) (drop : s.disc.pendingDrop = none) (walked : top.walkDone = true)
  (listed : top.junctions[top.index]? = some j)
include levels drop walked listed

/-- A junction at the depth limit is passed by (R127). -/
theorem discNext_deep
    (deep : top.leg = 1 ∧ s.link.settings.maxDepth ≤ (s.rstr.listedPath j s.disc.levelRoute).length) :
    s.discNext = (s.pastDeep j top below).discNext := by
  have moves : ∀ n, s.descend (n + 1) = (s.pastDeep j top below).descend n := fun n =>
    (descend_listed levels n listed).trans (if_pos deep)
  rw [discNext_descent levels drop walked, descent_moves levels rfl moves]
  exact (discNext_descent (s := s.pastDeep j top below) rfl drop walked).symm

variable (shallow : ¬(top.leg = 1 ∧ s.link.settings.maxDepth ≤ (s.rstr.listedPath j s.disc.levelRoute).length))
include shallow

/-- The next leg of a good junction is opened (R127). -/
theorem discNext_opening (good : s.rstr.listedGood j s.disc.levelRoute = true) : s.discNext = s.ask .opening := by
  rw [discNext_descent levels drop walked]
  exact (descend_listed levels _ listed).trans ((if_neg shallow).trans (if_pos good))

/-- A junction that the roster no longer holds as listed is passed by (R127). -/
theorem discNext_lost (lost : ¬s.rstr.listedGood j s.disc.levelRoute = true) :
    s.discNext = (s.pastLost top below).discNext := by
  have moves : ∀ n, s.descend (n + 1) = (s.pastLost top below).descend n := fun n =>
    (descend_listed levels n listed).trans ((if_neg shallow).trans (if_neg lost))
  rw [discNext_descent levels drop walked, descent_moves levels rfl moves]
  exact (discNext_descent (s := s.pastLost top below) rfl drop walked).symm

end Decisions

/-- The discovery has reached its end: COMPLETE or INCOMPLETE by its counts (R119, R133). -/
theorem finishDiscovery_told {rec : ResultRecord} {k : Link} (result : s.disc.result = some rec)
    (told : s.DiscTold (rec.reached s.disc.abandoned s.rstr.generation) k) :
    s.finishDiscovery = s.discEnded (rec.reached s.disc.abandoned s.rstr.generation) k := by
  simp only [State.finishDiscovery, result, Option.getD_some]
  by_cases whole : rec.incomplete = 0 ∧ rec.notEntered = 0 ∧ s.disc.abandoned = false
  · have made : rec.reached s.disc.abandoned s.rstr.generation = rec.finish .complete none s.rstr.generation := by
      rw [ResultRecord.reached, if_pos whole]
      rfl
    rw [made] at told ⊢
    rw [if_pos whole]
    exact endDiscovery_told result told
  · have made : rec.reached s.disc.abandoned s.rstr.generation = rec.finish .incomplete none s.rstr.generation := by
      rw [ResultRecord.reached, if_neg whole]
      rfl
    rw [made] at told ⊢
    rw [if_neg whole]
    exact endDiscovery_told result told

end Sys2Proof.Machine
end

section
/-! HAIL_DONE, and what DISC does between its steps (O17). -/

namespace Sys2Proof.Machine

variable {s : State} {op : LineOp} {w : DiscWork} {lows : List Nat}

/-- The part with the hail over: the one empty frame when it was answered, no frame otherwise (R102). -/
def State.hailOver (s : State) (present : Bool) : State := { s with
  line := s.line.ended s.link.settings, jobq := s.jobq.released
  disc := { s.disc with frames := if present then [[]] else [] } }

theorem exec_hailDone (runs : s.Runs .hail op) (holds : s.Holds (.disc w)) (running : s.disc.cancelled = false) :
    exec (.hailDone lows) s = .next (((s.hailOver (hailPresent s.line.beat lows)).discNext.regrant s).kick) := by
  obtain ⟨flight, kind⟩ := runs
  obtain ⟨k, a, trim, frame, gap⟩ := op
  subst kind
  have hailed : s.endOp.hailed (hailPresent s.line.beat lows) = (s.hailOver (hailPresent s.line.beat lows)).discNext :=
    if_neg (Bool.eq_false_iff.1 running)
  show execHailDone lows s = _
  simp only [execHailDone, flight, State.work, show s.jobq.grant = _ from holds, Option.map_some, hailed]

theorem hailPresent_iff {beat : Nat} : hailPresent beat lows = true ↔ ∃ l ∈ lows, beat ≤ 2 * l := by
  simp [hailPresent]

end Sys2Proof.Machine

open Sys2Proof Sys2Proof.Machine

/-- Settles O17: the hail's end is a walk decision of DISC, and the decisions follow its record, the leaf first, then the frames
and the pass, then the descent. -/
theorem hailDecidesPass : Obligations.HailDecidesPass := by
  constructor
  · intro s op w lows runs holds ⟨running, drop, top, below, levels, walks⟩ leaf begun after
    have next : ∀ p, (s.hailOver p).discNext = (s.hailOver p).walkNext := fun p => discNext_walk levels drop walks leaf
    refine ⟨fun answered => ?_, fun silent => ?_⟩
    · rw [exec_hailDone runs holds running, hailPresent_iff.2 answered, next, 
        walkNext_call (s := s.hailOver true) begun (List.cons_ne_nil _ _), ask_eq]
      rfl
    · have absent : hailPresent s.line.beat lows = false :=
        Bool.eq_false_iff.2 fun h => by
          obtain ⟨l, mem, reaches⟩ := hailPresent_iff.1 h
          exact Nat.not_le.2 (silent l mem) reaches
      have ends : exec (.hailDone lows) s = .next (((s.hailOver false).passEnd.regrant s).kick) := by
        rw [exec_hailDone runs holds running, absent, next, walkNext_passEnd (s := s.hailOver false) begun rfl]
      refine ⟨fun again => ?_, fun top' below' last levels' => ?_⟩
      · rw [ends, passEnd_again (s := s.hailOver false) again, ask_eq]
        rfl
      · rw [ends, passEnd_last (s := s.hailOver false) levels' drop last]
        rfl
  · intro s top below levels
    refine ⟨fun h drop => (discNext_pendingDrop drop).trans (ask_eq _), fun drop walks => ⟨fun l leaf => ?_, fun leaf => ?_⟩,
      fun drop walked => ?_⟩
    · rw [discNext_leaf levels drop walks leaf]
      refine ⟨fun c calib => ?_, fun calib nonces => ?_, fun n ns calib nonces => ?_,
        fun calib nonces => ⟨fun d ds more => ?_, fun last => ?_⟩⟩
      · exact (leafNext_calibration calib).trans (ask_eq _)
      · exact (leafNext_echo calib nonces).trans (ask_eq _)
      · exact (leafNext_naming calib nonces).trans (ask_eq _)
      · exact (leafNext_following calib nonces more).trans (ask_eq _)
      · exact (leafNext_over calib nonces last).trans (discNext_walk (s := s.putLeaf none) levels drop walks rfl).symm
    · rw [discNext_walk levels drop walks leaf]
      refine ⟨fun first => ?_, fun begun frames => ?_, fun begun empty again => ?_, fun begun empty last => ?_⟩
      · exact (walkNext_first first).trans (ask_eq _)
      · exact (walkNext_call begun frames).trans (ask_eq _)
      · exact (walkNext_passEnd begun empty).trans ((passEnd_again again).trans (ask_eq _))
      · exact (walkNext_passEnd begun empty).trans (passEnd_last levels drop last)
    · have descends := discNext_descent levels drop walked
      refine ⟨?_, fun done => ?_⟩
      · intro j listed level isHeld path isDeep isGood counted
        refine ⟨fun deep held => ?_, fun deep gone => ?_, fun shallow good => ?_, fun shallow lost => ?_⟩
        · rw [discNext_deep levels drop walked listed deep, State.pastDeep, if_pos (stillHolds_iff.2 held)]
        · rw [discNext_deep levels drop walked listed deep, State.pastDeep, if_neg (mt stillHolds_iff.1 gone)]
        · exact (discNext_opening levels drop walked listed shallow (listedGood_iff.2 good)).trans (ask_eq _)
        · exact discNext_lost levels drop walked listed shallow (mt listedGood_iff.1 lost)
      · have passed : top.junctions[top.index]? = none := List.getElem?_eq_none done
        refine ⟨fun st entry => ?_, fun rec k root result => ?_⟩
        · exact descends.trans ((descend_popped levels _ passed entry).trans (ask_eq _))
        · intro made told
          exact descends.trans ((descend_finished levels _ passed root).trans (finishDiscovery_told result told))
end

section
/-! DATA_DONE of an EXCHANGE job (O31). -/

namespace Sys2Proof.Machine

variable {s : State} {op : LineOp} {p : List Byte} {j : Job} {r u : Nat} {q : Request} {cells : List LowSample}

/-- The part with the DATA operation ended and the capture unit at its last low (R29, R39). -/
def State.exchanged (s : State) (op : LineOp) (cells : List LowSample) : State :=
  { s with line := s.line.endedWith s.link.settings (decodeDataReply s.line.beat op.trim cells).capture }

theorem exec_dataDone {reply : Except DecodeFail (List Byte)} (runs : s.Runs (.data p) op) (holds : s.Holds (.job j r u))
    (decoded : (decodeDataReply s.line.beat op.trim cells).reply = reply) :
    exec (.dataDone cells) s = .next (((s.exchanged op cells).jobExchanged j r u (.data p) reply).regrant s).kick := by
  obtain ⟨flight, kind⟩ := runs
  obtain ⟨k, a, trim, frame, gap⟩ := op
  subst kind decoded
  show execDataDone cells s = _
  simp only [execDataDone, flight, State.work, show s.jobq.grant = _ from holds, Option.map_some]
  rfl

theorem jobExchanged_again (k : OpKind) (f : DecodeFail) (holds : s.Holds (.job j r u)) (more : u < r) :
    s.jobExchanged j r u k (.error f) = { s with
      line := s.line.started (s.lineOp k j.handle), rstr := s.rstr.erred j.handle
      jobq := s.jobq.granted (.job j r (u + 1)) } := by
  simp only [State.jobExchanged, more, if_true]
  rw [rerun_eq (s := s.addError j.handle) _ _ holds, lineOp_addError]
  rfl

theorem jobExchanged_failed (k : OpKind) (f : DecodeFail) (owes : s.Owes q) (tag : q.tag = j.tag) (last : r ≤ u) :
    s.jobExchanged j r u k (.error f) = { s with
      rstr := s.rstr.erred j.handle, rate := ⟨none⟩, jobq := s.jobq.released, link := s.link.answered q f.result [] } := by
  simp only [State.jobExchanged, Nat.not_lt.2 last, if_false]
  exact endJob_of_owes (s := s.addError j.handle) _ _ owes tag

end Sys2Proof.Machine

open Sys2Proof Sys2Proof.Machine

/-- Settles O31, by the reply of the DATA operation and the retries left. -/
theorem exchangeAnswered : Obligations.ExchangeAnswered := by
  intro s op p j r u q cells runs holds owes tag d line hurt
  refine ⟨fun bs reads => ?_, fun f misreads more => ?_, fun f misreads last => ?_⟩
  · have ended : (s.exchanged op cells).jobExchanged j r u (.data p) (.ok bs) = _ :=
      endJob_of_owes (s := s.exchanged op cells) .ok bs owes tag
    rw [exec_dataDone runs holds reads, ended]
    rfl
  · rw [exec_dataDone runs holds misreads, jobExchanged_again (s := s.exchanged op cells) _ f holds more, regrant_of_holder rfl]
    rfl
  · rw [exec_dataDone runs holds misreads, jobExchanged_failed (s := s.exchanged op cells) _ f owes tag last]
    rfl
end

section
/-! The ends of trains and the keepalive timer (O32). -/

namespace Sys2Proof.Machine

variable {s : State} {op : LineOp} {train train' : Train} {j : Job} {r u : Nat} {q : Request}

/-! ### Trains that end (R43, R149) -/

theorem exec_wakeTrainDone (runs : s.Runs (.wake train) op) (holds : s.Holds (.job j r u)) :
    exec .wakeTrainDone s = .next ((s.endOp.jobWoken j train).regrant s).kick := by
  obtain ⟨flight, kind⟩ := runs
  obtain ⟨k, a, trim, frame, gap⟩ := op
  subst kind
  show execWakeTrainDone s = _
  simp only [execWakeTrainDone, flight, State.work, show s.jobq.grant = _ from holds, Option.map_some]

/-- A WAKE job is answered with the values its train used (R149). -/
theorem jobWoken_eq {clamped : Bool} (wake : j.kind = .wake train' clamped) (owes : s.Owes q) (tag : q.tag = j.tag) :
    s.jobWoken j train = { s with
      rate := ⟨none⟩, jobq := s.jobq.released
      link := s.link.answered q (if clamped then .clamped else .ok)
        [byteOf train.count, byteOf train.low, byteOf train.high] } := by
  simp only [State.jobWoken, wake]
  exact endJob_of_owes _ _ owes tag

theorem exec_keepaliveTrainDone (runs : s.Runs (.keepalive train) op) : exec .keepaliveTrainDone s =
    .next (State.kick (State.regrant { s with
      line := { s.line.ended s.link.settings with keepaliveDue := false }, jobq := s.jobq.released } s)) := by
  obtain ⟨flight, kind⟩ := runs
  obtain ⟨k, a, trim, frame, gap⟩ := op
  subst kind
  show execKeepaliveTrainDone s = _
  simp only [execKeepaliveTrainDone, flight]
  rfl

/-! ### The keepalive's claim (R141) -/

theorem discClaim_none (quiet : s.disc.state = .idle ∨ s.disc.state = .armed ∨ s.disc.waiting = false) :
    s.discClaim = none := by
  refine if_neg fun ⟨running, past, waiting⟩ => ?_
  rcases quiet with idle | armed | still
  · simp [Disc.running, idle] at running
  · exact past armed
  · simp [still] at waiting

/-- The keepalive has the lowest claim (Table 9-4). -/
theorem claim_keepalive (urgent : s.jobq.urgent = []) (disc : s.discClaim = none) (normal : s.jobq.normal = [])
    (sweep : ∀ w, s.jobq.sweep = some w → w.phase ≠ .rolling) (due : s.line.keepaliveDue = true) :
    s.claim false = some .keepalive := by
  have rests : s.jobq.sweep.any (fun w => w.phase == .rolling) = false := by
    cases h : s.jobq.sweep with
    | none => rfl
    | some w => simpa using sweep w h
  simp [State.claim, State.urgentClaim, urgent, disc, State.lowClaim, normal, rests, due]

end Sys2Proof.Machine

open Sys2Proof Sys2Proof.Machine

/-- Settles O32: the ends of the trains, then the timer by whether the line is free. -/
theorem trainsAndKeepalive : Obligations.TrainsAndKeepalive := by
  refine ⟨⟨fun s op t t' c j r u q runs holds wake owes tag => ?_, fun s op t runs _ => exec_keepaliveTrainDone runs⟩,
    fun s => ⟨fun stopped => if_neg (by simp [stopped]), fun timer taken => ?_,
      fun timer free urgent normal sweep quiet => ?_⟩⟩
  · rw [exec_wakeTrainDone runs holds, jobWoken_eq (s := s.endOp) wake owes tag]
    rfl
  all_goals
    have expires : exec .keepaliveExpiry s = .next (State.kick (State.arbitrate
      { s with line := { s.line with keepalive := none, keepaliveDue := true } })) := if_pos timer
    rw [expires]
  · rw [arbitrate_of_not_free (by exact taken)]
  · rw [arbitrate_of_claim (by exact free) (claim_keepalive (by exact urgent) (discClaim_none (by exact quiet)) (by exact normal)
      (by exact sweep) rfl) rfl rfl]
    rfl
end

section
/-! STUCK_LINE_EXPIRY (O33). -/

namespace Sys2Proof.Machine

variable {s base : State}

theorem inFlight_eq_names (l : Line) : l.inFlight = l.names := by
  unfold Line.inFlight Line.names
  cases l.op with
  | none => rfl
  | some op => cases h : op.kind <;> simp [OpKind.inFlight, h]

theorem keepaliveRuns_iff (l : Line) : l.keepaliveRuns = true ↔ l.names = .keepalive := by
  unfold Line.keepaliveRuns Line.names
  cases h : l.op with
  | none => simp
  | some op =>
    obtain ⟨k, a, trim, frame, gap⟩ := op
    cases k <;> simp

/-- The part with LINE faulted and RATE without choices (R44, R48). -/
def State.faulted (s : State) : State := { s with
  line := { s.line.cut with
    state := .faulted, keepalive := none, keepaliveDue := s.line.keepaliveDue && s.line.names != .keepalive, watch := none
    sampler := some 10, highWatch := none, tlHigh := false }
  rate := ⟨none⟩ }

/-- A faulted part with the end of a discovery past ARMED (R115). -/
def State.faultEnds (s : State) : State :=
  if s.disc.running ∧ s.disc.state ≠ .armed then s.faulted.endDiscovery .aborted (some .line) .aborted else s.faulted

/-- A fault: the line, the discovery, the holder, then the notice (R44, R47). -/
theorem stuck_eq : s.stuck =
    (s.faultEnds.dropHolder .lineFault).raise (.line false s.line.names (s.faultEnds.dropHolder .lineFault).line.route) := by
  have due : (!s.line.keepaliveRuns) = (s.line.names != .keepalive) := by
    rw [Bool.eq_iff_iff, Bool.not_eq_true', ← Bool.not_eq_true, keepaliveRuns_iff, bne_iff_ne]
  rw [← inFlight_eq_names, State.faultEnds, State.faulted, ← due]
  rfl

theorem running_past_armed :
    (s.disc.running = true ∧ s.disc.state ≠ .armed) ↔ s.disc.state ≠ .idle ∧ s.disc.state ≠ .armed := by
  simp only [Disc.running, Disc.arming]
  cases s.disc.state <;> simp

theorem faultEnds_still (still : s.disc.state = .idle ∨ s.disc.state = .armed) : s.faultEnds = s.faulted :=
  if_neg fun h => still.elim (running_past_armed.1 h).1 (running_past_armed.1 h).2

theorem faultEnds_told {rec : ResultRecord} {k : Link} (begun : s.disc.state ≠ .idle) (past : s.disc.state ≠ .armed)
    (result : s.disc.result = some rec) (told : s.DiscTold (rec.stopped .line s.rstr.generation) k) :
    s.faultEnds = s.faulted.discEnded (rec.stopped .line s.rstr.generation) k := by
  rw [State.faultEnds, if_pos (running_past_armed.2 ⟨begun, past⟩)]
  exact endDiscovery_told (s := s.faulted) (o := .aborted) (why := some .line) result told

/-- What the holder leaves at a fault, and the notice (R47). -/
theorem exec_stuckLineExpiry {q : Jobq} {k : Link} (mated : s.mmon.state = .mated)
    (lit : s.line.state = .busy ∨ s.line.state = .idle) (watch : s.line.watch.isSome = true) (ends : s.faultEnds = base)
    (route : base.line.route = s.line.route) (drops : base.dropHolder .lineFault = { base with jobq := q, link := k }) :
    exec .stuckLineExpiry s = .next (State.kick { base with
      jobq := q, link := { k with notices := putNotice (.line false s.line.names s.line.route) k.notices } }) := by
  have fault : exec .stuckLineExpiry s = .next s.stuck.kick := if_pos ⟨mated, lit, watch⟩
  rw [fault, stuck_eq, ends, drops, ← route]
  rfl

end Sys2Proof.Machine

open Sys2Proof Sys2Proof.Machine

/-- Settles O33, by the discovery and then by the holder. -/
theorem stuckLineFaults : Obligations.StuckLineFaults := by
  refine ⟨fun s still => if_neg still, ?_⟩
  intro s mated lit watch faulted base begins fault
  have ⟨ends, route, jobq⟩ : s.faultEnds = base ∧ base.line.route = s.line.route ∧ base.jobq = s.jobq := by
    rcases begins with ⟨still, rfl⟩ | ⟨rec, k, begun, past, result, told, rfl⟩
    · exact ⟨faultEnds_still still, cut_route _, rfl⟩
    · exact ⟨faultEnds_told begun past result told, cut_route _, rfl⟩
  have faults : ∀ {q k}, base.dropHolder .lineFault = { base with jobq := q, link := k } → fault q k :=
    exec_stuckLineExpiry mated lit watch ends route
  rw [← jobq]
  exact ⟨fun grant => faults (dropHolder_none _ grant),
    fun j r u sw t q grant owes tag => faults (dropHolder_job _ grant owes tag),
    fun h r u sw t w grant sweep => ⟨fun goes => faults (dropHolder_sweep _ grant sweep goes),
      fun q ending owes tag => faults (dropHolder_ending _ grant sweep ending owes tag)⟩,
    fun sw t grant => faults (dropHolder_other _ grant (.inl rfl)),
    fun d sw t grant => faults (dropHolder_other _ grant (.inr ⟨d, rfl⟩))⟩
end

section
/-! The level of TL, the fault sampler and the clearing of a fault (O34). -/

namespace Sys2Proof.Machine

variable {s : State}

theorem exec_tlLevelChange_high (low : s.line.tlHigh = false) :
    exec (.tlLevelChange true) s = .next { s with line := { s.line with tlHigh := true, watch := none } } := by
  show execTlLevelChange true s = _
  rw [execTlLevelChange, if_neg (by simp [low]), if_pos rfl]
  rfl

/-- A low seen while LINE is IDLE or BUSY in MATED is timed (R44). -/
theorem exec_tlLevelChange_watched (high : s.line.tlHigh = true) (lit : s.line.state = .idle ∨ s.line.state = .busy)
    (mated : s.mmon.state = .mated) : exec (.tlLevelChange false) s =
      .next { s with line := { s.line with tlHigh := false, watch := some (160 * s.line.beat) } } := by
  show execTlLevelChange false s = _
  rw [execTlLevelChange, if_neg (by simp [high]), if_neg nofun]
  rcases lit with state | state <;> simp only [state, mated, if_true] <;> rfl

/-- A low seen while LINE is OFF or the coupling is suspect is not timed (R44). -/
theorem exec_tlLevelChange_unwatched (high : s.line.tlHigh = true)
    (unwatched : s.line.state = .off ∨ (s.line.state = .idle ∨ s.line.state = .busy) ∧ s.mmon.state ≠ .mated) :
    exec (.tlLevelChange false) s = .next { s with line := { s.line with tlHigh := false } } := by
  show execTlLevelChange false s = _
  rw [execTlLevelChange, if_neg (by simp [high]), if_neg nofun]
  rcases unwatched with state | ⟨state | state, away⟩
  · simp only [state]; rfl
  all_goals simp only [state, away, if_false]; rfl

/-- A low in FAULTED abandons the high watch (R45). -/
theorem exec_tlLevelChange_faulted (high : s.line.tlHigh = true) (fault : s.line.state = .faulted) :
    exec (.tlLevelChange false) s = .next { s with line := { s.line with tlHigh := false, highWatch := none } } := by
  show execTlLevelChange false s = _
  rw [execTlLevelChange, if_neg (by simp [high]), if_neg nofun]
  simp only [fault]
  rfl

/-- The part with its fault cleared and told (R45, R47). -/
def State.cleared (s : State) : State := { s with
  line := { s.line with
    state := .idle, sampler := none, highWatch := none, keepalive := keepaliveFrom s.link.settings }
  link := { s.link with notices := putNotice (.line true .nothing s.line.route) s.link.notices } }

theorem exec_faultClear (faulted : s.line.state = .faulted) (watch : s.line.highWatch.isSome = true) :
    exec .faultClear s =
      .next (State.kick (if s.line.startUp.isSome then s.cleared.startUp else s.cleared.leaveArmed.arbitrate)) :=
  if_pos ⟨faulted, watch⟩

theorem exec_faultClear_idle (faulted : s.line.state = .faulted) (watch : s.line.highWatch.isSome = true)
    (owed : s.line.startUp = none) : exec .faultClear s = .next s.cleared.leaveArmed.arbitrate.kick := by
  rw [exec_faultClear faulted watch, if_neg (by simp [owed])]

theorem exec_faultClear_owed (faulted : s.line.state = .faulted) (watch : s.line.highWatch.isSome = true)
    (owed : s.line.startUp.isSome = true) : exec .faultClear s = .next s.cleared.startUp.kick := by
  rw [exec_faultClear faulted watch, if_pos owed]

end Sys2Proof.Machine

open Sys2Proof Sys2Proof.Machine

/-- Settles O34: the level and the sampler by LINE's state, then the clearing by the start-up train owed. -/
theorem faultWatchAndClear : Obligations.FaultWatchAndClear := by
  refine ⟨fun s => if_pos rfl, fun s => exec_tlLevelChange_high, fun s high => ⟨exec_tlLevelChange_watched high,
      exec_tlLevelChange_unwatched high, exec_tlLevelChange_faulted high⟩,
    fun s fault sampler => ⟨fun high => if_pos ⟨fault, sampler, high⟩, fun low => if_neg (by simp [low])⟩, ?_⟩
  · intro s fault watch clear told n train
    refine ⟨fun owed => ?_, fun owed zero => ?_, fun owed count mated => ?_, fun owed count away => ?_⟩
    · intro cleared
      refine ⟨fun stays => ?_, fun m armed seen mode => ?_⟩
      · have keeps : s.cleared.leaveArmed = s.cleared := if_neg fun ⟨armed, seen, _⟩ =>
          stays.elim (fun h => h armed) fun h => by simp [h, State.cleared] at seen
        rw [exec_faultClear_idle fault watch owed, keeps]
        rfl
      · rw [exec_faultClear_idle fault watch owed, leaveArmed_rooted (s := s.cleared) armed mode seen nofun]
        rfl
    · intro opened
      rw [exec_faultClear_owed fault watch owed, startUp_none (s := s.cleared) zero rfl]
      refine ⟨fun unarmed => ?_, fun m armed mode => ?_⟩
      · rw [leaveArmed_of_not_armed (by exact unarmed)]
        rfl
      · rw [leaveArmed_rooted (by exact armed) (by exact mode) rfl (by exact nofun)]
        rfl
    · rw [exec_faultClear_owed fault watch owed,
        startUp_mated (s := s.cleared) (by exact Nat.one_le_iff_ne_zero.1 count) (by exact mated)]
      rfl
    · rw [exec_faultClear_owed fault watch owed,
        startUp_suspect (s := s.cleared) (by exact Nat.one_le_iff_ne_zero.1 count) (by exact away)]
      rfl
end

section
/-! SET of BEAT and of KEEPALIVE_MS (O42). -/

namespace Sys2Proof.Machine

variable {s : State} {tag : Byte}

theorem exec_setBeat (v : BitVec 16) (takes : s.Takes tag) : exec (.setBeat tag v) s =
    .next (State.kick (State.ownSetBeat (s.frameOver.reserveSlot tag 0x03#8) tag v.toNat)) :=
  congrArg (fun t => Host.Outcome.next (State.kick t)) (takeIn_takes _ _ takes)

theorem exec_setKeepaliveMs (v : BitVec 16) (takes : s.Takes tag) : exec (.setKeepaliveMs tag v) s =
    .next (State.kick (State.ownSetKeepalive (s.frameOver.reserveSlot tag 0x03#8) tag v.toNat)) :=
  congrArg (fun t => Host.Outcome.next (State.kick t)) (takeIn_takes _ _ takes)

theorem bringBeat_eq (v : Nat) : bringBeat v = if v ≤ 59 then 40 else if v ≤ 119 then 80 else 160 := by
  simp only [bringBeat, Nat.lt_succ_iff]

/-- A BEAT fits in the low byte of a SET reply. -/
theorem bringBeat_high (v : Nat) : byteOf (bringBeat v / 256) = 0#8 := by
  unfold bringBeat
  split
  · rfl
  · split <;> rfl

/-- A SET of BEAT waits in a live session when the value differs from the BEAT in use (R167). -/
theorem beat_waits (b : Nat) :
    (s.live && b != s.line.beat) = decide ((s.mmon.state = .mated ∨ s.mmon.state = .suspect) ∧ b ≠ s.line.beat) := by
  rw [Bool.eq_iff_iff]
  simp [State.live]

/-- SET of BEAT answered at once (R161, R167). -/
theorem ownSetBeat_eq (v : Nat) (takes : s.Takes tag) :
    let b := bringBeat v
    let wait := s.live && b != s.line.beat
    (s.frameOver.reserveSlot tag 0x03#8).ownSetBeat tag v = { s with
      link := Link.replied { s.link with settings := { s.link.settings with beat := b }, deferred := wait }
        ⟨0x83#8, tag, if b ≠ v then .clamped else if wait then .deferred else .ok,
          [0x06#8, 0#8, byteOf b, flagByte wait]⟩ } := by
  intro b wait
  obtain ⟨-, -, -, fresh⟩ := takes
  have reply := answer_reserved (s := { s.frameOver with
    link := { s.frameOver.link with settings := { s.link.settings with beat := b }, deferred := wait } }) tag 0x03#8
    (if b ≠ v then .clamped else if wait then .deferred else .ok) [0x06#8, 0#8, byteOf b, flagByte wait] fresh
  rw [← bringBeat_high v] at reply ⊢
  exact reply

theorem resetKeepalive_eq (ms : Nat) : s.resetKeepalive ms = { s with line :=
    if ms = 0 then { s.line with keepalive := none, keepaliveDue := false }
    else if s.line.state = .idle ∨ s.line.state = .busy then { s.line with keepalive := some ms } else s.line } := by
  unfold State.resetKeepalive
  split
  · rfl
  · split <;> rfl

/-- SET of KEEPALIVE_MS answered at once, the timer restarted or stopped (R43, R161, R166). -/
theorem ownSetKeepalive_eq (v : Nat) (takes : s.Takes tag) :
    let ms := min 5000 v
    (s.frameOver.reserveSlot tag 0x03#8).ownSetKeepalive tag v = { s with
      line := (s.resetKeepalive ms).line
      link := Link.replied { s.link with settings := { s.link.settings with keepaliveMs := ms } }
        ⟨0x83#8, tag, if ms = v then .ok else .clamped, [0x0A#8, byteOf (ms / 256), byteOf ms, 0#8]⟩ } := by
  intro ms
  let stored : State := { s with
    link := { s.frameOver.link with settings := { s.link.settings with keepaliveMs := ms } } }
  have brought : bring 0 5000 v = ms := by simp [bring, ms]
  have moved : (stored.reserveSlot tag 0x03#8).resetKeepalive ms =
      State.reserveSlot { stored with line := (s.resetKeepalive ms).line } tag 0x03#8 := by
    rw [resetKeepalive_eq, resetKeepalive_eq]
    rfl
  obtain ⟨-, -, -, fresh⟩ := takes
  simp only [State.ownSetKeepalive, brought]
  exact (congrArg (fun t => State.answer t tag _ _) moved).trans (answer_reserved _ _ _ _ (by exact fresh))

end Sys2Proof.Machine

open Sys2Proof Sys2Proof.Machine

/-- Settles O42. -/
theorem setBeatAndKeepalive : Obligations.SetBeatAndKeepalive := by
  constructor
  · intro s tag v takes b wait
    have beat : bringBeat v.toNat = b := bringBeat_eq _
    have waits : (s.live && b != s.line.beat) = wait := beat_waits b
    rw [exec_setBeat v takes, ownSetBeat_eq _ takes, beat, waits]
    rfl
  · intro s tag v takes ms
    rw [exec_setKeepaliveMs v takes, ownSetKeepalive_eq _ takes, resetKeepalive_eq]
end

section
/-! What LINE drives for an operation, and the turnaround gap (O54). -/

namespace Sys2Proof.Machine

variable {s : State} {beat wait : Nat} {t : Int}

/-! ### The gap (R62) -/

theorem gapTicks_int (beat wait : Nat) (t : Int) :
    (gapTicks beat wait t : Int) = (beat : Int) * ((wait : Int) + 1) * (512 + max t 0) / 512 := by
  rw [gapTicks, ← Int.toNat_eq_max]
  simp only [Int.natCast_ediv, Int.natCast_mul, Int.natCast_add]
  rfl

/-- A trim of a member that is not slow leaves the gap unscaled. -/
theorem gapTicks_of_nonpos (beat wait : Nat) (h : t ≤ 0) : gapTicks beat wait t = beat * (wait + 1) := by
  rw [gapTicks, Int.toNat_of_nonpos h]
  exact Nat.mul_div_cancel _ (by decide)

theorem le_gapTicks (beat wait : Nat) (t : Int) : beat * (wait + 1) ≤ gapTicks beat wait t := by
  rw [gapTicks, Nat.le_div_iff_mul_le (by decide)]
  exact Nat.mul_le_mul_left _ (Nat.le_add_right ..)

theorem gapTicks_le (high : wait ≤ 31) (slow : t ≤ 127) : gapTicks beat wait t ≤ beat * 32 * 639 / 512 := by
  have trim : t.toNat ≤ 127 := by omega
  exact Nat.div_le_div_right (Nat.mul_le_mul (Nat.mul_le_mul_left _ (by omega)) (by omega))

theorem gapTicks_range (valid : beatValid beat = true) (low : 3 ≤ wait) (high : wait ≤ 31) (slow : t ≤ 127) :
    160 ≤ gapTicks beat wait t ∧ gapTicks beat wait t ≤ 6390 ∧ gapTicks beat wait t ≤ 40 * beat := by
  have least := le_gapTicks beat wait t
  have most : gapTicks beat wait t ≤ _ := gapTicks_le high slow
  have beats : (beat = 40 ∨ beat = 80) ∨ beat = 160 := by simpa [beatValid] using valid
  rcases beats with (rfl | rfl) | rfl <;> omega

/-! ### What LINE drives (R31, R32, R37) -/

/-- The operations with a verb send a request frame. -/
theorem symbols_of_verb {op : LineOp} (verb : op.kind.verb.isSome = true) : op.symbols = requestSymbols op.frame := by
  obtain ⟨k, audience, trim, frame, gap⟩ := op
  cases k with
  | hail | startUp | wake | keepalive => cases verb
  | call | echo | name | measure | roll | legOpen | legClose | drop | data => rfl

/-- A request cell lasts 6 beats. -/
theorem requestCell_beats (b : Bool) : (requestCell b).low + (requestCell b).high = 6 := by cases b <;> rfl

theorem requestByte_beats (b : Byte) : symbolBeats (requestByte b) = 48 := by
  simp only [symbolBeats, requestByte, List.map_map, Function.comp_def, requestCell_beats]
  rfl

theorem symbolBeats_append (x y : List Symbol) : symbolBeats (x ++ y) = symbolBeats x + symbolBeats y := by
  simp [symbolBeats]

theorem requestSymbols_beats (frame : List Byte) : symbolBeats (requestSymbols frame) = 16 + 48 * frame.length := by
  have bytes : symbolBeats (frame.flatMap requestByte) = 48 * frame.length := by
    induction frame with
    | nil => rfl
    | cons b bs ih =>
      rw [List.flatMap_cons, symbolBeats_append, requestByte_beats, ih, List.length_cons]
      omega
  show symbolBeats ([attention] ++ frame.flatMap requestByte) = _
  rw [symbolBeats_append, bytes]
  rfl

/-- The frame of an operation with a verb, its arguments those of Table 11-4 (R38). -/
theorem lineFrame_of_verb {k : OpKind} {code : Nat} (a : Nat) (verb : k.verb = some code) :
    let body := byteOf a :: byteOf code :: k.args
    lineFrame a k = body ++ [crc8 body] := by
  simp only [lineFrame, verb]

/-! ### Trims (R33) -/

theorem lineOp_trim_of_find {a : Nat} {e : Entry} (k : OpKind) (addressed : a ≠ 0) (found : s.rstr.find a = some e)
    (trim : e.trim = some t) : (s.lineOp k a).trim = t := by
  simp [State.lineOp, State.opTrim, addressed, found, trim]

/-- A sound roster holds no entry above the highest handle. -/
theorem find_above_none (sound : s.RosterSound) : s.rstr.find 127 = none := by
  obtain ⟨⟨-, handles, -⟩, -⟩ := sound
  refine List.find?_eq_none.2 fun e he at' => ?_
  have range : 1 ≤ e.handle ∧ e.handle ≤ 126 := handles e he
  have : e.handle = 127 := by simpa using at'
  omega

/-- The audience 0, and one that no stored trim is held for, are addressed without a trim. -/
theorem opTrim_zero {a : Nat} (h : a = 0 ∨ (s.rstr.find a).bind (fun e => e.trim) = none ∨ s.RosterSound ∧ a = 127) :
    s.opTrim a = 0 := by
  unfold State.opTrim
  split
  · rfl
  · next addressed =>
    rcases h with zero | untrimmed | ⟨sound, rfl⟩
    · exact absurd zero addressed
    · rw [untrimmed]; rfl
    · rw [find_above_none sound]; rfl

theorem lineOp_gap {k : OpKind} (a : Nat) (verb : k.verb.isSome = true) :
    (s.lineOp k a).gap = gapTicks s.line.beat s.link.settings.answerWait (s.opTrim a) := if_pos verb

end Sys2Proof.Machine

open Sys2Proof Sys2Proof.Machine

/-- Settles O54: the gap's formula and range, then the request part, then the trims. -/
theorem turnaroundGap : Obligations.TurnaroundGap := by
  refine ⟨fun beat wait t => ⟨gapTicks_int beat wait t, gapTicks_of_nonpos beat wait, le_gapTicks beat wait t,
    fun valid low high _ slow => gapTicks_range valid low high slow⟩, by decide, by decide, ?_, fun s t k => ⟨rfl, ?_⟩,
    fun s k a verb => ⟨lineOp_gap a verb, fun unscaled => ?_, fun e t => lineOp_trim_of_find k⟩⟩
  · intro s k a code args kind body frame op cell
    have ⟨verb, arguments⟩ : k.verb = some code ∧ k.args = args := by
      rcases kind with ⟨_, rfl, rfl, rfl⟩ | ⟨_, rfl, rfl, rfl⟩ | ⟨_, _, _, rfl, rfl, rfl⟩ | ⟨rfl, rfl, rfl⟩ | ⟨rfl, rfl, rfl⟩ |
        ⟨_, rfl, rfl, rfl⟩ | ⟨_, rfl, rfl, rfl⟩ | ⟨rfl, rfl, rfl⟩ | ⟨_, rfl, rfl, rfl⟩ <;> exact ⟨rfl, rfl⟩
    have sent : op.frame = frame := by
      have made := lineFrame_of_verb a verb
      rw [arguments] at made
      exact made
    have drives : op.symbols = requestSymbols frame := by
      rw [← sent]
      exact symbols_of_verb (by show k.verb.isSome = true; rw [verb]; rfl)
    refine ⟨sent, drives, ?_⟩
    rw [drives]
    exact requestSymbols_beats frame
  · rintro (rfl | rfl | rfl) <;> rfl
  · have trim := opTrim_zero unscaled
    refine ⟨trim, ?_⟩
    rw [lineOp_gap a verb, trim]
    exact gapTicks_of_nonpos _ _ (Int.le_refl 0)
end

section
/-! SUPPORT. Reply cells and the decoding of replies (R38 to R41, R59, R60). -/

namespace Sys2Proof.Machine

variable {beat : Nat} {t : Int}

/-! ### The class of a cell (R59, R60) -/

theorem reaches_iff {low k : Nat} : reaches beat t low k = true ↔ (k : Int) * beat * (512 + t) ≤ (low : Int) * 2048 :=
  decide_eq_true_iff

/-- A low that reaches a threshold reaches every lower one. -/
theorem reaches_of_le {low k l : Nat} (range : -128 ≤ t) (le : k ≤ l) (h : reaches beat t low l = true) :
    reaches beat t low k = true := by
  rw [reaches_iff] at h ⊢
  have scaled : (k : Int) * beat * (512 + t) ≤ l * beat * (512 + t) := by
    have kl : (k : Int) * beat ≤ l * beat := by exact_mod_cast Nat.mul_le_mul_right beat le
    exact Int.mul_le_mul_of_nonneg_right kl (by omega)
  exact Int.le_trans scaled h

theorem cellClass_split_iff {c : Capture} : cellClass beat t c = .split ↔ 2 ≤ c.edges := by
  unfold cellClass
  by_cases edges : 2 ≤ c.edges
  · simp [edges]
  · simp only [edges, if_false, iff_false]
    repeat' split
    all_goals nofun

theorem cellClass_saturated {c : Capture} (edges : c.edges < 2) (saturated : c.saturated = true) :
    cellClass beat t c = .stretch := by
  simp only [cellClass, Nat.not_le.2 edges, saturated, if_true, if_false]

/-- The classes of a low with one edge, by the thresholds it reaches (Table 4-8). -/
theorem cellClass_iffs {c : Capture} (range : -128 ≤ t) (edges : c.edges < 2) (unsaturated : c.saturated = false) :
    let at' := fun k : Nat => reaches beat t c.ticks k = true
    (cellClass beat t c = .stretch ↔ at' 20) ∧ (cellClass beat t c = .one ↔ at' 13 ∧ ¬at' 20) ∧
      (cellClass beat t c = .erased ↔ at' 11 ∧ ¬at' 13) ∧ (cellClass beat t c = .zero ↔ at' 6 ∧ ¬at' 11) ∧
      (cellClass beat t c = .runt ↔ ¬at' 6) := by
  intro at'
  have down : ∀ {k l}, k ≤ l → at' l → at' k := fun le => reaches_of_le range le
  have ladder : cellClass beat t c = if at' 20 then .stretch else if at' 13 then .one else if at' 11 then .erased
      else if at' 6 then .zero else .runt := by
    simp only [cellClass, Nat.not_le.2 edges, unsaturated, Bool.false_eq_true, if_false, at']
  rw [ladder]
  by_cases stretch : at' 20
  · have one := down (k := 13) (by decide) stretch
    have erased := down (k := 11) (by decide) one
    have zero := down (k := 6) (by decide) erased
    simp [stretch, one, erased, zero]
  by_cases one : at' 13
  · have erased := down (k := 11) (by decide) one
    have zero := down (k := 6) (by decide) erased
    simp [stretch, one, erased, zero]
  by_cases erased : at' 11
  · have zero := down (k := 6) (by decide) erased
    simp [stretch, one, erased, zero]
  by_cases zero : at' 6 <;> simp [stretch, one, erased, zero]

/-! ### Bits and bytes (R40) -/

theorem testBit_foldr (i : Nat) (bs : List Bool) : (bs.foldr (fun b n => bit b + 2 * n) 0).testBit i = bs.getD i false := by
  induction bs generalizing i with
  | nil => simp
  | cons b bs ih =>
    cases i with
    | zero => cases b <;> simp [bit, Nat.testBit_zero]
    | succ i =>
      have half : (bit b + 2 * bs.foldr (fun b n => bit b + 2 * n) 0) / 2 = bs.foldr (fun b n => bit b + 2 * n) 0 := by
        cases b with
        | false => simp [bit]
        | true => simp only [bit, if_true]; omega
      rw [List.foldr_cons, Nat.testBit_succ, half, ih, List.getD_cons_succ]

/-- Eight bits, least significant first, make the byte that has them. -/
theorem bitsByte_eq {b : Byte} {f : Nat → Bool} (bits : ∀ x, x < 8 → b.getLsbD x = f x) :
    bitsByte ((List.range 8).map f) = b := by
  refine BitVec.eq_of_getLsbD_eq fun x hx => ?_
  rw [bits x hx, bitsByte, byteOf, BitVec.getLsbD_ofNat, testBit_foldr]
  simp [hx]

theorem drop_range_map {α : Type} (k m : Nat) (f : Nat → α) :
    ((List.range (k + m)).map f).drop k = (List.range m).map (fun x => f (k + x)) := by
  rw [List.range_add, List.map_append, List.drop_left' (by simp), List.map_map]
  rfl

theorem take_range_map {α : Type} (k m : Nat) (f : Nat → α) :
    ((List.range (k + m)).map f).take k = (List.range k).map f := by
  rw [List.range_add, List.map_append, List.take_left' (by simp)]

/-- A bit list made byte by byte is cut into those bytes. -/
theorem bitsBytes_eq (m : Nat) {bs : List Byte} {f : Nat → Bool}
    (bits : ∀ i b, bs[i]? = some b → ∀ x, x < 8 → b.getLsbD x = f (8 * i + x)) :
    bitsBytes bs.length ((List.range (8 * bs.length + m)).map f) = bs := by
  induction bs generalizing f with
  | nil => rfl
  | cons b bs ih =>
    have size : 8 * (b :: bs).length + m = 8 + (8 * bs.length + m) := by simp only [List.length_cons]; omega
    have head : bitsByte ((List.range 8).map f) = b := bitsByte_eq fun x hx => by simpa using bits 0 b rfl x hx
    have tail := ih (f := fun x => f (8 + x)) fun i c found x hx => by
      rw [bits (i + 1) c found x hx]
      congr 1
      omega
    rw [size, List.length_cons, bitsBytes, take_range_map, drop_range_map, head, tail]

/-! ### Cells read (R39 to R41) -/

/-- The capture of the `i`th cell that LINE clocks; a cell not listed is a bare cue (log 5). -/
def cellAt (beat : Nat) (cells : List Capture) (i : Nat) : Capture := (cells[i]?).getD (bareCue beat)

theorem cellAt_tail (cells : List Capture) (i : Nat) : cellAt beat cells.tail i = cellAt beat cells (i + 1) := by
  rw [cellAt, cellAt, List.getElem?_tail]

theorem cellAt_drop (cells : List Capture) (n i : Nat) : cellAt beat (cells.drop n) i = cellAt beat cells (n + i) := by
  rw [cellAt, cellAt, List.getElem?_drop]

theorem headD_eq_cellAt (cells : List Capture) : cells.headD (bareCue beat) = cellAt beat cells 0 := by
  cases cells <;> rfl

/-- A cell that reads a bit: ZERO or ONE (R41). -/
def Capture.Reads (beat : Nat) (t : Int) (c : Capture) : Prop := cellClass beat t c = .zero ∨ cellClass beat t c = .one

/-- The bit a cell reads. -/
def Capture.reading (beat : Nat) (t : Int) (c : Capture) : Bool := decide (cellClass beat t c = .one)

/-- The outcome of a cell that reads no bit, by whether it is the reply's first (R41). -/
def Capture.failure (beat : Nat) (t : Int) (c : Capture) (first : Bool) : DecodeFail :=
  if first = true ∧ cellClass beat t c = .runt then .noReply else .erasure

theorem readBits_step {n : Nat} {first : Bool} {cells rest : List Capture} {last l : Capture} {bs : List Bool}
    (reads : (cellAt beat cells 0).Reads beat t)
    (more : readBits beat t n false cells.tail (cellAt beat cells 0) = (.ok bs, rest, l)) :
    readBits beat t (n + 1) first cells last = (.ok ((cellAt beat cells 0).reading beat t :: bs), rest, l) := by
  simp only [readBits, headD_eq_cellAt]
  rcases reads with cls | cls <;> simp only [cls, more, Capture.reading] <;> rfl

theorem readBits_step_fails {n : Nat} {first : Bool} {cells rest : List Capture} {last l : Capture} {f : DecodeFail}
    (reads : (cellAt beat cells 0).Reads beat t)
    (more : readBits beat t n false cells.tail (cellAt beat cells 0) = (.error f, rest, l)) :
    readBits beat t (n + 1) first cells last = (.error f, rest, l) := by
  simp only [readBits, headD_eq_cellAt]
  rcases reads with cls | cls <;> simp only [cls, more]

theorem readBits_stops {n : Nat} {first : Bool} {cells : List Capture} {last : Capture}
    (stops : ¬(cellAt beat cells 0).Reads beat t) : readBits beat t (n + 1) first cells last =
      (.error ((cellAt beat cells 0).failure beat t first), cells.tail, cellAt beat cells 0) := by
  simp only [readBits, headD_eq_cellAt, Capture.failure]
  cases cls : cellClass beat t (cellAt beat cells 0) with
  | zero => exact absurd (.inl cls) stops
  | one => exact absurd (.inr cls) stops
  | runt => cases first <;> rfl
  | erased | stretch | split => simp

/-- Cells that all read a bit. -/
theorem readBits_ok {n : Nat} {first : Bool} {cells : List Capture} {last : Capture}
    (reads : ∀ i, i < n → (cellAt beat cells i).Reads beat t) : readBits beat t n first cells last =
      (.ok ((List.range n).map (fun i => (cellAt beat cells i).reading beat t)), cells.drop n,
        if n = 0 then last else cellAt beat cells (n - 1)) := by
  induction n generalizing first cells last with
  | zero => rfl
  | succ n ih =>
    have rest := ih (first := false) (cells := cells.tail) (last := cellAt beat cells 0) fun i hi => by
      rw [cellAt_tail]
      exact reads (i + 1) (by omega)
    rw [readBits_step (reads 0 (by omega)) rest, List.range_succ_eq_map, List.map_cons, List.map_map, List.drop_tail]
    simp only [cellAt_tail]
    cases n <;> rfl

/-- The first cell that reads no bit ends the reply (R41). -/
theorem readBits_error {n i : Nat} {first : Bool} {cells : List Capture} {last : Capture} (inside : i < n)
    (reads : ∀ x, x < i → (cellAt beat cells x).Reads beat t) (stops : ¬(cellAt beat cells i).Reads beat t) :
    readBits beat t n first cells last = (.error ((cellAt beat cells i).failure beat t (first && i == 0)),
      cells.drop (i + 1), cellAt beat cells i) := by
  obtain ⟨n, rfl⟩ := Nat.exists_eq_add_one_of_ne_zero (n := n) (by omega)
  induction i generalizing n first cells last with
  | zero =>
    rw [readBits_stops stops]
    simp
  | succ i ih =>
    obtain ⟨m, rfl⟩ := Nat.exists_eq_add_one_of_ne_zero (n := n) (by omega)
    have rest := ih (first := false) (cells := cells.tail) (last := cellAt beat cells 0)
      (fun x hx => by rw [cellAt_tail]; exact reads (x + 1) (by omega)) (by rw [cellAt_tail]; exact stops) m (by omega)
    rw [cellAt_tail, List.drop_tail] at rest
    rw [readBits_step_fails (reads 0 (by omega)) rest]
    simp

/-! ### Replies decoded (R38, R40, R41) -/

/-- The `i`th cell of a reply: the low listed, or a bare cue of one beat (R39, log 5). -/
def replyCell (beat : Nat) (cells : List LowSample) (i : Nat) : Capture :=
  ((cells[i]?).map LowSample.capture).getD ⟨min beat 65535, 1, decide (65535 ≤ beat)⟩

theorem cellAt_capture (cells : List LowSample) (i : Nat) :
    cellAt beat (cells.map LowSample.capture) i = replyCell beat cells i := by
  simp [cellAt, replyCell, bareCue, Capture.restart, Capture.count]

/-- The outcome that the first cell without a bit gives a reply (R41). -/
theorem failure_at (cells : List LowSample) (i : Nat) : (replyCell beat cells i).failure beat t (i == 0) =
    if i = 0 ∧ cellClass beat t (replyCell beat cells 0) = .runt then .noReply else .erasure := by
  cases i <;> simp [Capture.failure]

variable {cells : List LowSample} {i k : Nat} {b len check : Byte}

/-- The eight cells from the `k`th on read the bits of a byte, least significant first (R40). -/
def ReadsByte (beat : Nat) (t : Int) (cells : List LowSample) (k : Nat) (b : Byte) : Prop :=
  ∀ x, x < 8 → b.getLsbD x = (replyCell beat cells (k + x)).reading beat t

/-- The bit that the `i`th cell of a reply reads. -/
def readingAt (beat : Nat) (t : Int) (cells : List LowSample) (i : Nat) : Bool := (replyCell beat cells i).reading beat t

theorem bitsByte_first (byte : ReadsByte beat t cells 0 b) : bitsByte ((List.range 8).map (readingAt beat t cells)) = b :=
  bitsByte_eq fun x hx => by rw [byte x hx, Nat.zero_add]; rfl

theorem bitsByte_at (byte : ReadsByte beat t cells k b) :
    bitsByte ((List.range 8).map (fun x => readingAt beat t cells (k + x))) = b :=
  bitsByte_eq byte

/-- Reading on from the `k`th cell of a reply, every cell a bit. -/
theorem readBits_from {n : Nat} {first : Bool} {last : Capture} (k : Nat)
    (reads : ∀ i, i < k + n → (replyCell beat cells i).Reads beat t) :
    readBits beat t n first ((cells.map LowSample.capture).drop k) last =
      (.ok ((List.range n).map (fun i => readingAt beat t cells (k + i))), (cells.map LowSample.capture).drop (k + n),
        if n = 0 then last else replyCell beat cells (k + (n - 1))) := by
  rw [readBits_ok fun i hi => by rw [cellAt_drop, cellAt_capture]; exact reads _ (by omega)]
  simp only [cellAt_drop, cellAt_capture, List.drop_drop, readingAt]

/-- Reading on from the `k`th cell of a reply, the `i`th the first without a bit. -/
theorem readBits_from_error {n : Nat} {first : Bool} {last : Capture} (k : Nat) (beyond : k ≤ i) (inside : i < k + n)
    (reads : ∀ x, x < i → (replyCell beat cells x).Reads beat t) (stops : ¬(replyCell beat cells i).Reads beat t) :
    readBits beat t n first ((cells.map LowSample.capture).drop k) last =
      (.error ((replyCell beat cells i).failure beat t (first && i - k == 0)), (cells.map LowSample.capture).drop (i + 1),
        replyCell beat cells i) := by
  have at' : k + (i - k) = i := by omega
  have here : cellAt beat ((cells.map LowSample.capture).drop k) (i - k) = replyCell beat cells i := by
    rw [cellAt_drop, cellAt_capture, at']
  rw [readBits_error (i := i - k) (by omega) (fun x hx => by rw [cellAt_drop, cellAt_capture]; exact reads _ (by omega))
    (by rw [here]; exact stops), here, List.drop_drop, ← Nat.add_assoc, at']

theorem decodeByteReply_error (inside : i < 16) (reads : ∀ x, x < i → (replyCell beat cells x).Reads beat t)
    (stops : ¬(replyCell beat cells i).Reads beat t) :
    decodeByteReply beat t cells = ⟨.error ((replyCell beat cells i).failure beat t (i == 0)), replyCell beat cells i⟩ := by
  have read := readBits_from_error (n := 16) (first := true) (last := bareCue beat) 0 (Nat.zero_le i) (by omega) reads stops
  rw [List.drop_zero, Bool.true_and, Nat.sub_zero] at read
  rw [decodeByteReply, read]

theorem decodeByteReply_ok (reads : ∀ i, i < 16 → (replyCell beat cells i).Reads beat t)
    (byte : ReadsByte beat t cells 0 b) (last : ReadsByte beat t cells 8 check) :
    decodeByteReply beat t cells = ⟨checkReply [b] check, replyCell beat cells 15⟩ := by
  have read := readBits_from (n := 8 + 8) (first := true) (last := bareCue beat) 0 reads
  simp only [List.drop_zero, Nat.zero_add] at read
  have first : bitsByte (((List.range (8 + 8)).map (readingAt beat t cells)).take 8) = b := by
    rw [take_range_map, bitsByte_first byte]
  have second : bitsByte (((List.range (8 + 8)).map (readingAt beat t cells)).drop 8) = check := by
    rw [drop_range_map, bitsByte_at last]
  rw [decodeByteReply, read]
  dsimp only
  rw [first, second]
  rfl

/-! ### DATA replies -/

theorem decodeDataReply_error_length (inside : i < 8) (reads : ∀ x, x < i → (replyCell beat cells x).Reads beat t)
    (stops : ¬(replyCell beat cells i).Reads beat t) :
    decodeDataReply beat t cells = ⟨.error ((replyCell beat cells i).failure beat t (i == 0)), replyCell beat cells i⟩ := by
  have read := readBits_from_error (n := 8) (first := true) (last := bareCue beat) 0 (Nat.zero_le i) (by omega) reads stops
  rw [List.drop_zero, Bool.true_and, Nat.sub_zero] at read
  rw [decodeDataReply, read]

/-- A DATA reply of a length by what reading its bytes and their check gave. -/
def Decoded.ofPayload (len : Byte) : Except DecodeFail (List Bool) × List Capture × Capture → Decoded
  | (.error e, _, l) => ⟨.error e, l⟩
  | (.ok more, _, l) => ⟨checkReply (len :: bitsBytes len.toNat more) (bitsByte (more.drop (8 * len.toNat))), l⟩

/-- A DATA reply once its length byte has been read. -/
theorem decodeDataReply_length (reads : ∀ i, i < 8 → (replyCell beat cells i).Reads beat t)
    (length : ReadsByte beat t cells 0 len) : decodeDataReply beat t cells =
      if 32 < len.toNat then ⟨.error .badReply, replyCell beat cells 7⟩
      else Decoded.ofPayload len
        (readBits beat t (8 * len.toNat + 8) false ((cells.map LowSample.capture).drop 8) (replyCell beat cells 7)) := by
  have read := readBits_from (n := 8) (first := true) (last := bareCue beat) 0 (by simpa using reads)
  simp only [List.drop_zero, Nat.zero_add] at read
  rw [decodeDataReply, read]
  dsimp only
  rw [bitsByte_first length]
  rfl

theorem decodeDataReply_long (reads : ∀ i, i < 8 → (replyCell beat cells i).Reads beat t)
    (length : ReadsByte beat t cells 0 len) (long : 32 < len.toNat) :
    decodeDataReply beat t cells = ⟨.error .badReply, replyCell beat cells 7⟩ := by
  rw [decodeDataReply_length reads length, if_pos long]

theorem decodeDataReply_error_payload (length : ReadsByte beat t cells 0 len) (short : len.toNat ≤ 32) (beyond : 8 ≤ i)
    (inside : i < 16 + 8 * len.toNat) (reads : ∀ x, x < i → (replyCell beat cells x).Reads beat t)
    (stops : ¬(replyCell beat cells i).Reads beat t) :
    decodeDataReply beat t cells = ⟨.error .erasure, replyCell beat cells i⟩ := by
  rw [decodeDataReply_length (fun x hx => reads x (by omega)) length, if_neg (Nat.not_lt.2 short),
    readBits_from_error 8 beyond (by omega) reads stops]
  simp [Decoded.ofPayload, Capture.failure]

theorem decodeDataReply_ok {bs : List Byte} (size : bs.length = len.toNat) (short : len.toNat ≤ 32)
    (reads : ∀ i, i < 16 + 8 * len.toNat → (replyCell beat cells i).Reads beat t) (length : ReadsByte beat t cells 0 len)
    (bytes : ∀ i b, bs[i]? = some b → ReadsByte beat t cells (8 * (i + 1)) b)
    (last : ReadsByte beat t cells (8 * (len.toNat + 1)) check) :
    decodeDataReply beat t cells = ⟨checkReply (len :: bs) check, replyCell beat cells (15 + 8 * len.toNat)⟩ := by
  have payload : bitsBytes bs.length ((List.range (8 * bs.length + 8)).map (fun i => readingAt beat t cells (8 + i))) = bs :=
    bitsBytes_eq 8 fun i b found x hx => by
      rw [bytes i b found x hx, readingAt]
      congr 2
      omega
  have tail : bitsByte (((List.range (8 * bs.length + 8)).map (fun i => readingAt beat t cells (8 + i))).drop (8 * bs.length)) =
      check := by
    rw [drop_range_map]
    refine bitsByte_eq fun x hx => ?_
    rw [last x hx, readingAt, size]
    congr 2
    omega
  rw [decodeDataReply_length (fun x hx => reads x (by omega)) length, if_neg (Nat.not_lt.2 short), ← size,
    readBits_from 8 fun i hi => reads i (by omega), Decoded.ofPayload, ← size, payload, tail, if_neg (by omega)]
  congr 2
  omega

end Sys2Proof.Machine

open Sys2Proof Sys2Proof.Machine

/-- Settles O56: the classes by the thresholds, then the replies by the first cell that reads no bit, or by the bytes read. -/
theorem cellWindows : Obligations.CellWindows := by
  constructor
  · intro beat t c _ low _ at'
    refine ⟨cellClass_split_iff, cellClass_saturated, fun edges unsaturated => ?_⟩
    have classes := cellClass_iffs (beat := beat) low edges unsaturated
    simp only [reaches_iff] at classes
    exact classes
  · intro beat t cells cell reads holds ends one data
    have fails : ∀ {d : Decoded} {i},
        d = ⟨.error ((replyCell beat cells i).failure beat t (i == 0)), replyCell beat cells i⟩ →
        d.reply = .error (if i = 0 ∧ cellClass beat t (cell 0) = .runt then .noReply else .erasure) ∧ d.capture = cell i := by
      rintro d i rfl
      exact ⟨congrArg Except.error (failure_at cells i), rfl⟩
    refine ⟨fun i inside before stops => fails (decodeByteReply_error inside before stops),
      fun b check all byte last => ?_,
      fun i inside before stops => fails (decodeDataReply_error_length inside before stops),
      fun len all length => ⟨fun long => ?_,
        fun short => ⟨fun i inside before stops => ?_, fun bs check size all bytes last => ?_⟩⟩⟩
    · have read : one = _ := decodeByteReply_ok all byte last
      rw [read]
      exact ⟨rfl, rfl⟩
    · have read : data = _ := decodeDataReply_long all length long
      rw [read]
      exact ⟨rfl, rfl⟩
    · by_cases first : i < 8
      · exact fails (decodeDataReply_error_length first before stops)
      · have read : data = _ := decodeDataReply_error_payload length short (Nat.not_lt.1 first) inside before stops
        rw [read, if_neg (by omega)]
        exact ⟨rfl, rfl⟩
    · have read : data = _ := decodeDataReply_ok size short all length bytes last
      rw [read]
      exact ⟨rfl, rfl⟩
end

section
/-! The rounding of the trim quotient and the judging of a calibration low (O52, O53): R49 to R55. -/

namespace Sys2Proof.Machine

variable {n d q : Int} {beat limit : Nat} {ch : CalibChoices} {c : Capture} {old : Option Int}

/-! ### The quotient and its remainder -/

/-- The floor of a quotient, below it by less than one (R51). -/
theorem floor_le_lt (pos : 0 < d) : n / d * d ≤ n ∧ n < (n / d + 1) * d :=
  ⟨Int.ediv_mul_le n (Int.ne_of_gt pos), Int.lt_ediv_add_one_mul_self n pos⟩

/-- The next integer above a quotient that is none. -/
theorem lt_le_floor_succ (pos : 0 < d) (inexact : n % d ≠ 0) : (n / d + 1 - 1) * d < n ∧ n ≤ (n / d + 1) * d := by
  have below := Int.emod_nonneg n (Int.ne_of_gt pos)
  have parts := Int.ediv_mul_add_emod n d
  rw [Int.add_sub_cancel]
  exact ⟨by omega, Int.le_of_lt (floor_le_lt pos).2⟩

/-! ### The modes (R51, Table 4-2) -/

/-- An integer stays itself in every mode. -/
theorem roundQuotient_mul (mode : RoundMode) (q : Int) (pos : 0 < d) : roundQuotient mode (q * d) d = q := by
  cases mode <;> simp [roundQuotient, Int.ne_of_gt pos, pos]

theorem roundQuotient_of_dvd (mode : RoundMode) (pos : 0 < d) (exact : n % d = 0) : roundQuotient mode n d = n / d := by
  have whole := roundQuotient_mul mode (n / d) pos
  rwa [Int.ediv_mul_cancel (Int.dvd_of_emod_eq_zero exact)] at whole

/-- The nearest integer, a halfway value to the even one. -/
theorem roundQuotient_nearestEven (pos : 0 < d) :
    let t := roundQuotient .nearestEven n d
    2 * (n - t * d) ≤ d ∧ -d ≤ 2 * (n - t * d) ∧ (2 * (n - t * d) = d ∨ 2 * (n - t * d) = -d → t % 2 = 0) := by
  have parts := Int.ediv_mul_add_emod n d
  have low := Int.emod_nonneg n (Int.ne_of_gt pos)
  have high := Int.emod_lt_of_pos n pos
  have up : (n / d + 1) * d = n / d * d + d := by rw [Int.add_mul, Int.one_mul]
  unfold roundQuotient
  dsimp only
  split
  · omega
  · split
    · rw [up]; omega
    · split
      · omega
      · rw [up]; omega

theorem roundQuotient_up (pos : 0 < d) :
    let t := roundQuotient .up n d
    (t - 1) * d < n ∧ n ≤ t * d := by
  by_cases exact : n % d = 0
  · rw [roundQuotient_of_dvd _ pos exact]
    dsimp only
    rw [Int.sub_mul, Int.one_mul]
    have parts := Int.ediv_mul_add_emod n d
    omega
  · have next : roundQuotient .up n d = n / d + 1 := if_neg exact
    rw [next]
    exact lt_le_floor_succ pos exact

/-- The truncation is the floor of what is not negative, and the ceiling of what is negative. -/
theorem roundQuotient_towardZero (n d : Int) :
    roundQuotient .towardZero n d = roundQuotient (if 0 ≤ n then .down else .up) n d := by
  by_cases sign : 0 ≤ n
  · rw [if_pos sign]
    exact if_pos (.inr sign)
  · rw [if_neg sign]
    simp only [roundQuotient, sign, or_false]

/-- A halfway value needs an even denominator. -/
theorem even_of_halfway (half : 2 * (n % d) = d) : d % 2 = 0 := by omega

/-! ### The judging (R49 to R55) -/

theorem clampTrim_eq (t : Int) : clampTrim t = min 127 (max (-128) t) := by
  unfold clampTrim
  split
  · omega
  · split <;> omega

/-- A quotient has been rounded, its integer being another number, just when it leaves a remainder. -/
theorem roundQuotient_mul_ne_iff (mode : RoundMode) (pos : 0 < d) : roundQuotient mode n d * d ≠ n ↔ n % d ≠ 0 := by
  refine not_congr ⟨fun exact => ?_, fun exact => ?_⟩
  · rw [← exact]
    exact Int.mul_emod_left ..
  · rw [roundQuotient_of_dvd mode pos exact]
    exact Int.ediv_mul_cancel (Int.dvd_of_emod_eq_zero exact)

/-- The result of a valid measurement (R50 to R55). -/
theorem judge_valid (valid : calibValid beat c = true) :
    let n := quotientNum beat c.ticks
    let t := roundQuotient ch.mode n beat
    judge beat ch c old limit =
      { ticks := c.ticks, edges := c.edges, choices := ch, trim := some (clampTrim t)
        inexact := decide (n % (beat : Int) ≠ 0) && !ch.ignoreInexact, clamped := decide (clampTrim t ≠ t)
        delta := old.map (fun o => clampTrim t - o)
        drift := if ch.form = .record then (old.map (fun o => clampTrim t - o)).map (driftOf limit) else none } :=
  if_pos valid

/-- The result of an invalid measurement (R49). -/
theorem judge_invalid (invalid : ¬calibValid beat c = true) : judge beat ch c old limit =
    { ticks := c.ticks, edges := c.edges, choices := ch, trim := none, inexact := false, clamped := false, delta := none
      drift := none } :=
  if_neg invalid

theorem quotientNum_eq (beat ticks : Nat) : quotientNum beat ticks = 8 * ((ticks : Int) - 64 * beat) := Int.mul_comm ..

end Sys2Proof.Machine

open Sys2Proof Sys2Proof.Machine

/-- Settles O52, mode by mode; at each BEAT the remainders are those modulo a number. -/
theorem roundingByMode : Obligations.RoundingByMode := by
  refine ⟨fun n d pos => ⟨roundQuotient_nearestEven pos, floor_le_lt pos, roundQuotient_up pos, ⟨fun sign => ?_, fun sign => ?_⟩,
    fun mode q exact => exact ▸ roundQuotient_mul mode q pos⟩, by decide, by decide, fun n d _ => even_of_halfway,
    fun ticks => ⟨?_, ?_, ?_, fun beat limit ch c old valid => ?_⟩⟩
  · rw [roundQuotient_towardZero, if_pos sign]
    exact floor_le_lt pos
  · rcases Int.lt_or_eq_of_le sign with negative | rfl
    · rw [roundQuotient_towardZero, if_neg (Int.not_le.2 negative)]
      exact roundQuotient_up pos
    · have zero : roundQuotient .towardZero 0 d = 0 := by simpa using roundQuotient_mul .towardZero 0 pos
      rw [zero]
      omega
  · unfold quotientNum; omega
  · unfold quotientNum; omega
  · unfold quotientNum; omega
  · rw [judge_valid valid, clampTrim_eq, quotientNum_eq]

/-- Settles O53, by the three conditions of a measurement. -/
theorem calibrationJudged : Obligations.CalibrationJudged := by
  intro beat limit ch c old pos n t k r valid
  have validity : calibValid beat c = true ↔ valid := decide_eq_true_iff
  have num : quotientNum beat c.ticks = n := quotientNum_eq ..
  have clamp : clampTrim t = k := clampTrim_eq t
  have positive : (0 : Int) < beat := Int.natCast_pos.2 pos
  refine ⟨fun invalid => ?_, fun holds => ?_⟩
  · rw [show r = _ from judge_invalid (mt validity.1 invalid)]
    exact ⟨rfl, rfl, rfl, rfl, rfl⟩
  · have judged : r = _ := judge_valid (validity.2 holds)
    rw [num, show roundQuotient ch.mode n beat = t from rfl, clamp] at judged
    rw [judged]
    refine ⟨rfl, decide_eq_true_iff, ?_, ?_, ?_⟩
    · rw [Bool.and_eq_true, decide_eq_true_iff, Bool.not_eq_true', ← roundQuotient_mul_ne_iff ch.mode positive]
    · rintro rfl
      simp
    · rintro o rfl
      refine ⟨rfl, fun probe => if_neg (by simp [probe]), fun record => if_pos record⟩
end

section
/-! The classes of slots and the answered slots of a round (O55): R35, R61, R103. -/

namespace Sys2Proof.Machine

variable {beat i : Nat} {c : Capture} {slots : List LowSample}

/-! ### The classes (R61) -/

/-- OCCUPIED first, saturated or 2 beats long, then FAINT from a beat and a quarter on. -/
theorem slotClass_eq : slotClass beat c =
    if c.saturated = true ∨ 2 * beat ≤ c.ticks then .occupied else if 5 * beat ≤ 4 * c.ticks then .faint else .empty := by
  unfold slotClass
  by_cases saturated : c.saturated = true
  · rw [if_pos saturated, if_pos (.inl saturated)]
  · simp only [saturated, Bool.false_eq_true, false_or, if_false]

theorem slotClass_occupied_iff : slotClass beat c = .occupied ↔ c.saturated = true ∨ 2 * beat ≤ c.ticks := by
  rw [slotClass_eq]
  by_cases occupied : c.saturated = true ∨ 2 * beat ≤ c.ticks
  · simp only [occupied, if_true]
  · rw [if_neg occupied, iff_false_right occupied]
    split <;> nofun

theorem slotClass_faint_iff :
    slotClass beat c = .faint ↔ c.saturated = false ∧ c.ticks < 2 * beat ∧ 5 * beat ≤ 4 * c.ticks := by
  rw [slotClass_eq, ← Bool.not_eq_true, ← Nat.not_le, ← and_assoc, ← not_or]
  by_cases occupied : c.saturated = true ∨ 2 * beat ≤ c.ticks
  · simp [occupied]
  · by_cases faint : 5 * beat ≤ 4 * c.ticks <;> simp [occupied, faint]

/-- A low shorter than FAINT is shorter than OCCUPIED. -/
theorem slotClass_empty_iff : slotClass beat c = .empty ↔ c.saturated = false ∧ 4 * c.ticks < 5 * beat := by
  rw [slotClass_eq, ← Bool.not_eq_true]
  by_cases occupied : c.saturated = true ∨ 2 * beat ≤ c.ticks
  · rw [if_pos occupied, iff_false_left nofun]
    rintro ⟨unsaturated, short⟩
    have long : 2 * beat ≤ c.ticks := occupied.resolve_left unsaturated
    omega
  · rw [if_neg occupied]
    obtain ⟨unsaturated, -⟩ := not_or.1 occupied
    by_cases faint : 5 * beat ≤ 4 * c.ticks
    · rw [if_pos faint, iff_false_left nofun]
      omega
    · simp [faint, unsaturated, Nat.not_le.1 faint]

/-- An unanswered cue is EMPTY at each value of BEAT. -/
theorem slotClass_bareCue (valid : beatValid beat = true) : slotClass beat (bareCue beat) = .empty := by
  have beats : (beat = 40 ∨ beat = 80) ∨ beat = 160 := by simpa [beatValid] using valid
  rcases beats with (rfl | rfl) | rfl <;> rfl

/-! ### A round (R35, R103) -/

/-- A round whose 16 slots are all given has no bare cue to add. -/
theorem roundCaptures_of_length (beat : Nat) (all : slots.length = 16) :
    roundCaptures beat slots = slots.map LowSample.capture := by
  rw [roundCaptures, List.take_left' (by rw [List.length_map, all])]

/-- A slot is answered when its class is not EMPTY. -/
theorem mem_answeredSlots (all : slots.length = 16) : i ∈ answeredSlots beat slots ↔
    ∃ l, slots[i]? = some l ∧ slotClass beat (LowSample.capture l) ≠ .empty := by
  have classes : (roundClasses beat slots)[i]? = slots[i]?.map (fun l => slotClass beat (LowSample.capture l)) := by
    rw [roundClasses, roundCaptures_of_length beat all, List.getElem?_map, List.getElem?_map, Option.map_map]
    rfl
  rw [answeredSlots, List.mem_filter, List.mem_range, classes, bne_iff_ne]
  cases slot : slots[i]? with
  | none =>
    have beyond : slots.length ≤ i := List.getElem?_eq_none_iff.1 slot
    simp only [reduceCtorEq, false_and, exists_false, iff_false, not_and]
    omega
  | some l =>
    have inside : i < slots.length := (List.getElem?_eq_some_iff.1 slot).1
    simp [all ▸ inside]

end Sys2Proof.Machine

open Sys2Proof Sys2Proof.Machine

/-- Settles O55. -/
theorem slotWindows : Obligations.SlotWindows := by
  intro beat c pos
  refine ⟨slotClass_occupied_iff, slotClass_faint_iff, slotClass_empty_iff, fun x => rfl, slotClass_bareCue,
    fun half unsaturated => ?_, fun slots i => mem_answeredSlots⟩
  rw [slotClass_faint_iff]
  exact ⟨unsaturated, by omega, by omega⟩
end

section
/-! MEASURE_DONE of a CALIBRATE job and of a discovery's calibration (O23): R48 to R58, R111, R148. -/

namespace Sys2Proof.Machine

variable {s : State} {op : LineOp} {low : LowSample} {j : Job} {h : Nat} {q : Request} {ch : CalibChoices}
  {c : Capture}

/-! ### What a calibration does to the roster (R55 to R57) -/

theorem judge_choices (beat limit : Nat) (ch : CalibChoices) (c : Capture) (old : Option Int) :
    (judge beat ch c old limit).choices = ch := by
  unfold judge
  split <;> rfl

/-- An invalid calibration changes nothing, a PROBE sets its CLAMPED mark alone, a RECORD stores its trim and its drift. -/
theorem Entry.calibrated_eq (e : Entry) {res : CalibResult} (form : res.choices = ch) : e.calibrated res =
    if res.trim = none then e
    else if ch.form = .probe then { e with clamped := e.clamped || res.clamped }
    else { e with
      clamped := e.clamped || res.clamped, trim := res.trim, drift := if res.drift = none then e.drift else res.drift
      state := if e.state = .named then .calibrated else e.state } := by
  subst form
  unfold Entry.calibrated
  cases res.trim with
  | none => rfl
  | some t => cases res.choices.form <;> cases res.drift <;> rfl

/-- The roster with a calibration handed on to the entry at a handle, which may have gone (R55 to R57, log 39). -/
def Rstr.measured (t : Rstr) (h : Nat) (res : CalibResult) : Rstr := t.update h (fun e => e.calibrated res)

theorem measured_puts {t : Rstr} {e : Entry} (res : CalibResult) (found : t.find h = some e) :
    t.Puts (t.measured h res) h (e.calibrated res) :=
  update_puts (fun e => e.calibrated res) (fun e => Entry.calibrated_handle e res) found

theorem measured_none {t : Rstr} (res : CalibResult) (gone : t.find h = none) : t.measured h res = t :=
  update_of_none _ gone

/-- The part with a calibration stored in a roster and the choices dropped (R48, R57). -/
def State.calibStored (s : State) (t : Rstr) (res : CalibResult) : State := { s with
  rate := ⟨none⟩, rstr := { t with clampedSummary := s.rstr.clampedSummary || res.clamped } }

/-- The low judged against the trim that the entry has stored, if there is an entry and it has one (R54). -/
def State.judged (s : State) (h : Nat) (ch : CalibChoices) (c : Capture) : CalibResult :=
  judge s.line.beat ch c ((s.rstr.find h).bind (fun e => e.trim)) s.link.settings.driftLimit

theorem judged_of_find {e : Entry} (found : s.rstr.find h = some e) :
    s.judged h ch c = judge s.line.beat ch c e.trim s.link.settings.driftLimit := by
  simp only [State.judged, found, Option.bind_some]

theorem judged_of_none (gone : s.rstr.find h = none) :
    s.judged h ch c = judge s.line.beat ch c none s.link.settings.driftLimit := by
  simp only [State.judged, gone, Option.bind_none]

theorem judgeLow_eq (h : Nat) (c : Capture) (choices : s.rate.choices = some ch) :
    s.judgeLow h c = (s.calibStored (s.rstr.measured h (s.judged h ch c)) (s.judged h ch c), s.judged h ch c) := by
  simp only [State.judgeLow, choices, Option.getD_some]
  rfl

/-! ### The holder of the MEASURE (R111, R148) -/

/-- A CALIBRATE job is answered with the record (R148). -/
theorem jobMeasured_eq {res : CalibResult} {t : Rstr} (choices : s.rate.choices = some ch) (owes : s.Owes q)
    (tag : q.tag = j.tag) (judged : s.judged j.handle ch c = res) (stored : s.rstr.measured j.handle res = t) :
    s.jobMeasured j c = { s.calibStored t res with
      jobq := s.jobq.released
      link := s.link.answered q (if res.trim = none then .calibFail else .ok) (res.bytes (t.find j.handle)) } := by
  subst judged stored
  have code : ∀ o : Option Int, (if o.isSome then Result.ok else .calibFail) = if o = none then .calibFail else .ok
    | none => rfl
    | some _ => rfl
  simp only [State.jobMeasured, judgeLow_eq j.handle c choices, code]
  exact endJob_of_owes (s := s.calibStored _ _) _ _ owes tag

/-- A discovery's calibration is counted when it failed, and its nonce is done with (R111). -/
theorem discMeasured_eq {res : CalibResult} {t : Rstr} (choices : s.rate.choices = some ch) (judged : s.judged h ch c = res)
    (stored : s.rstr.measured h res = t) : s.discMeasured h c = State.stepDone { s.calibStored t res with disc := { s.disc with
      leaf := s.disc.leaf.map Leaf.nonceDone
      result := s.disc.result.map (fun r =>
        { r with calibFailures := if res.trim = none then min (r.calibFailures + 1) 255 else r.calibFailures }) } } := by
  subst judged stored
  simp only [State.discMeasured, judgeLow_eq h c choices]
  generalize s.judged h ch c = res
  cases trim : res.trim with
  | none => rfl
  | some t =>
    have uncounted : s.disc.result.map (fun r => { r with calibFailures := r.calibFailures }) = s.disc.result :=
      Option.map_id'
    simp only [reduceCtorEq, if_false, uncounted]
    rfl

/-! ### MEASURE_DONE -/

/-- The part with the MEASURE ended and the capture unit at its low (R29, R39). -/
def State.measured (s : State) (low : LowSample) : State :=
  { s with line := s.line.endedWith s.link.settings (LowSample.capture low) }

/-- The part after MEASURE_DONE, by the holder of the line; a sweep and the keepalive measure nothing. -/
def State.measureTaken (s : State) (low : LowSample) (w : Work) (h : Nat) : State :=
  match w with
  | .disc _ => (((s.measured low).discMeasured h (LowSample.capture low)).regrant s).kick
  | .job j _ _ => (((s.measured low).jobMeasured j (LowSample.capture low)).regrant s).kick
  | .sweep _ _ _ | .keepalive => s

theorem exec_measureDone {w : Work} (runs : s.Runs .measure op) (holds : s.Holds w) :
    exec (.measureDone low) s = .next (s.measureTaken low w op.audience) := by
  obtain ⟨flight, kind⟩ := runs
  obtain ⟨k, a, trim, frame, gap⟩ := op
  subst kind
  show execMeasureDone low s = _
  simp only [execMeasureDone, flight, State.work, show s.jobq.grant = _ from holds, Option.map_some]
  cases w <;> rfl

end Sys2Proof.Machine

open Sys2Proof Sys2Proof.Machine

/-- Settles O23, by the holder of the MEASURE and by whether its entry still stands. -/
theorem calibrationsStored : Obligations.CalibrationsStored := by
  intro s op ch low runs choices line judged kept
  have puts : ∀ {h e}, s.rstr.find h = some e →
      s.rstr.Puts (s.rstr.measured h (judged e.trim)) h (kept e (judged e.trim)) := fun {h e} found => by
    have keeps : e.calibrated (judged e.trim) = kept e (judged e.trim) := e.calibrated_eq (judge_choices ..)
    exact keeps ▸ measured_puts (judged e.trim) found
  constructor
  · intro j r u q holds owes tag answered
    have ends : ∀ {res t}, (s.measured low).judged j.handle ch (LowSample.capture low) = res →
        s.rstr.measured j.handle res = t → answered res (t.find j.handle) t := fun judged stored =>
      (exec_measureDone runs holds).trans (by
        rw [State.measureTaken, jobMeasured_eq (by exact choices) (by exact owes) tag judged stored]; rfl)
    refine ⟨fun e found => ⟨_, ?_, puts found, rfl⟩, fun gone => ?_⟩
    · rw [← (puts found).1]
      exact ends (judged_of_find (by exact found)) rfl
    · rw [← gone]
      exact ends (judged_of_none (by exact gone)) (measured_none _ gone)
  · intro w holds running goesOn
    have ends : ∀ {res t}, (s.measured low).judged op.audience ch (LowSample.capture low) = res →
        s.rstr.measured op.audience res = t → goesOn res t := fun judged stored =>
      (exec_measureDone runs holds).trans (by
        rw [State.measureTaken, discMeasured_eq (by exact choices) judged stored, stepDone_onward (by exact running)]; rfl)
    exact ⟨fun e found => ⟨_, ends (judged_of_find (by exact found)) rfl, puts found, rfl⟩,
      fun gone => ends (judged_of_none (by exact gone)) (measured_none _ gone)⟩
end

section
/-! SUPPORT. A grant and the route switch that it starts, for a job, for the sweep and for a step of discovery (R97, R121, R134,
R141, R143 to R152). -/

namespace Sys2Proof.Machine

variable {s t : State} {w : Work} {j : Job} {e : Entry} {q : Request}

/-! ### Route switches at their start (R121) -/

/-- A switch that has just started. -/
abbrev Switch.fresh (use : SwitchUse) (target : Route) (common : Nat) (t : Settings) : Switch :=
  ⟨use, target, common, t.stepRetries, t.legSettleMs, 0, none, false, none, false⟩

/-- A switch to a target shares a beginning of some length with the open route, and asks for its first leg exchange. -/
def State.SwitchBegins (s : State) (target : Route) (common : Nat) (op : LineOp) : Prop :=
  s.SwitchAsks target op ∧ commonLen s.line.route target = common

theorem switchBegins_close {target pre rest more : Route} {st : RouteStep} (route : s.line.route = pre ++ more ++ [st])
    (goal : target = pre ++ rest) (parts : rest.head? ≠ (more ++ [st]).head?) :
    s.SwitchBegins target pre.length (s.lineOp (.legClose st.leg) st.junction) := by
  refine ⟨.inl ⟨pre, rest, more, st, route, goal, parts, rfl⟩, ?_⟩
  rw [route, goal, List.append_assoc]
  exact commonLen_append _ _ _ fun _ h k => parts (k.trans h.symm)

theorem commonLen_extends {route target more : Route} (h : target = route ++ more) : commonLen route target = route.length := by
  subst h
  simpa using commonLen_append route [] more nofun

theorem switchBegins_open {target rest : Route} {st : RouteStep} {c : Entry} (goal : target = s.line.route ++ st :: rest)
    (found : s.rstr.find st.junction = some c) (live : c.state ≠ .departed) (junction : kindIsJunction c.kind = true)
    (path : c.path = s.line.route) (low : 1 ≤ st.leg) (high : st.leg ≤ kindLegs c.kind) :
    s.SwitchBegins target s.line.route.length (s.lineOp (.legOpen st.leg) st.junction) :=
  ⟨.inr ⟨st, rest, c, goal, found, live, junction, path, low, high, rfl⟩, commonLen_extends goal⟩

section Start
variable {use : SwitchUse} {target : Route} (grant : s.jobq.grant = some ⟨w, none, none⟩)
include grant

theorem startSwitch_begins {common : Nat} {op : LineOp} (begins : s.SwitchBegins target common op) :
    s.startSwitch use target s.link.settings.stepRetries = ({ s with
      line := s.line.started op
      jobq := { s.jobq with grant := some ⟨w, some (.fresh use target common s.link.settings), none⟩ } }, none) := by
  obtain ⟨asks, rfl⟩ := begins
  exact switchNext_asks grant asks

theorem startSwitch_done (there : target = s.line.route) : ∃ sw : Switch,
    s.startSwitch use target s.link.settings.stepRetries = ({ s with jobq := s.jobq.granted w }, some ⟨.done, sw⟩) :=
  ⟨_, switchNext_done grant there⟩

theorem startSwitch_barred {st : RouteStep} {rest : Route} (goal : target = s.line.route ++ st :: rest)
    (bars : s.rstr.Bars s.line.route st) : ∃ sw : Switch,
    s.startSwitch use target s.link.settings.stepRetries = ({ s with jobq := s.jobq.granted w }, some ⟨.routeFail, sw⟩) :=
  ⟨_, switchNext_barred grant goal bars⟩

end Start

/-- A first leg opened, whoever holds the line. -/
theorem switchNext_opens_anyGrant {sw : Switch} {st : RouteStep} {rest : Route} (goal : sw.target = s.line.route ++ st :: rest)
    (good : s.rstr.stepGood s.line.route st = true) :
    s.switchNext sw = ((s.putSwitch (some sw.afresh)).startOp (.legOpen st.leg) st.junction, none) := by
  obtain ⟨whole, beyond⟩ := extends_route goal
  unfold State.switchNext
  dsimp only
  rw [if_neg whole]
  simp only [beyond, good, if_true]
  rfl

/-- A first leg barred, whoever holds the line. -/
theorem switchNext_barred_anyGrant {sw : Switch} {st : RouteStep} {rest : Route} (goal : sw.target = s.line.route ++ st :: rest)
    (bars : s.rstr.Bars s.line.route st) : s.switchNext sw = (s.putSwitch none, some ⟨.routeFail, sw.afresh⟩) := by
  obtain ⟨whole, beyond⟩ := extends_route goal
  unfold State.switchNext
  dsimp only
  rw [if_neg whole]
  simp only [beyond, stepGood_of_bars bars, Bool.false_eq_true, if_false]
  rfl

/-! ### The arbiter (R141) -/

theorem arbitrateFrom_of_holder {g : Grant} (n : Nat) (after : Bool) (grant : s.jobq.grant = some g) :
    s.arbitrateFrom n after = s := by
  cases n with
  | zero => rfl
  | succ n => rw [State.arbitrateFrom, if_neg (by simp [State.canGrant, grant])]

theorem arbitrateFrom_of_noClaim (n : Nat) (after : Bool) (none : s.NoClaim) : s.arbitrateFrom n after = s := by
  cases n with
  | zero => rfl
  | succ n =>
    simp only [State.arbitrateFrom, none after]
    exact ite_self s

/-- One grant of an opportunity. -/
theorem arbitrateFrom_of_claim {c : Claim} {passed : Bool} (n : Nat) {after : Bool} (free : s.Free)
    (claim : s.claim after = some c) (grants : s.grantClaim c = (t, passed)) :
    s.arbitrateFrom (n + 1) after = t.arbitrateFrom n passed := by
  rw [State.arbitrateFrom, if_pos (canGrant_iff.2 free)]
  simp only [claim, grants]

/-- Nobody claims the line when the lanes are empty, no sweep stands, no discovery runs and no keepalive is due. -/
theorem noClaim_of_empty (urgent : s.jobq.urgent = []) (normal : s.jobq.normal = []) (sweep : s.jobq.sweep = none)
    (due : s.line.keepaliveDue = false) (idle : s.disc.state = .idle) : s.NoClaim := by
  have disc := discClaim_none (s := s) (.inl idle)
  have low : s.lowClaim = none := by simp [State.lowClaim, normal, sweep, due]
  have high : s.urgentClaim = none := by simp [State.urgentClaim, urgent]
  intro after
  cases after <;> simp [State.claim, disc, low, high]

/-- The part with both lanes empty. -/
abbrev State.unlaned (s : State) : State := { s with jobq := { s.jobq with urgent := [], normal := [] } }

/-- The one job in the lanes, in either of them, is the one that an opportunity grants. -/
theorem arbitrate_job (free : s.Free) (idle : s.disc.state = .idle)
    (lanes : (s.jobq.urgent = [j] ∧ s.jobq.normal = []) ∨ (s.jobq.urgent = [] ∧ s.jobq.normal = [j])) :
    ∃ after, s.arbitrate = (s.unlaned.beginJob j).arbitrateFrom 199 after := by
  have disc := discClaim_none (s := s) (.inl idle)
  rcases lanes with ⟨urgent, normal⟩ | ⟨urgent, normal⟩
  · have claim : s.claim false = some (.urgent j []) := by simp [State.claim, State.urgentClaim, urgent]
    have lanes : s.withJobq { s.jobq with urgent := [] } = s.unlaned := by rw [State.unlaned, ← normal]; rfl
    exact ⟨_, arbitrateFrom_of_claim 199 free claim (by rw [State.grantClaim, lanes])⟩
  · have claim : s.claim false = some (.normal j []) := by
      simp [State.claim, State.urgentClaim, urgent, disc, State.lowClaim, normal]
    have lanes : s.withJobq { s.jobq with normal := [] } = s.unlaned := by rw [State.unlaned, ← urgent]; rfl
    exact ⟨_, arbitrateFrom_of_claim 199 free claim (by rw [State.grantClaim, lanes])⟩

/-! ### The dispatch checks (R144) -/

theorem find_of_lookup {r : Rstr} {h : Nat} (found : r.lookup h = some e) : r.find h = some e := by
  unfold Rstr.lookup at found
  split at found
  · cases found
  · exact found

/-- A junction has a live entry behind it (R80). -/
theorem liveBehind_iff {r : Rstr} {h : Nat} (found : r.find h = some e) : r.liveBehind h = true ↔
    kindIsJunction e.kind = true ∧ ∃ x ∈ r.entries, x.state ≠ .departed ∧ ∃ st ∈ x.path, st.junction = h := by
  simp [Rstr.liveBehind, found, Entry.isJunction, Entry.live, Entry.behind]

theorem dispatch_wake {train : Train} {clamped : Bool} (kind : j.kind = .wake train clamped) : s.dispatch j = none := by
  simp only [State.dispatch, kind]

section Checks
variable (line : ∀ train clamped, j.kind ≠ .wake train clamped)
include line

theorem dispatch_unknown (none : s.rstr.lookup j.handle = none) : s.dispatch j = some .unknownHandle := by
  unfold State.dispatch
  split
  · next kind => exact absurd kind (line _ _)
  · simp only [none]

theorem dispatch_of_lookup (found : s.rstr.lookup j.handle = some e) : s.dispatch j =
    if e.namedAt ≠ j.namedAt then some .staleHandle
    else if e.live = false then some .notLive
    else if j.kind = .drop ∧ e.state ≠ .silent then some .live
    else if j.kind = .drop ∧ s.rstr.liveBehind j.handle = true then some .liveBelow
    else none := by
  unfold State.dispatch
  split
  · next kind => exact absurd kind (line _ _)
  · simp only [found]

end Checks

/-! ### A job under its grant (R143, R145 to R150) -/

theorem released_of_free {l : Jobq} (free : l.grant = none) : l.released = l := by rw [Jobq.released, ← free]

theorem beginJob_refused {code : Result} (fails : s.dispatch j = some code) (owes : s.Owes q) (tag : q.tag = j.tag) :
    s.beginJob j = { s with link := s.link.answered q code [] } := by
  simp only [State.beginJob, fails]
  exact answer_of_owes _ _ owes tag

/-- The part with the line granted to a job (R145). -/
abbrev State.jobGranted (s : State) (j : Job) : State :=
  s.withJobq { s.jobq with grant := some ⟨.job j s.link.settings.exchangeRetries 0, none, none⟩ }

theorem beginJob_wake {train : Train} {clamped : Bool} (kind : j.kind = .wake train clamped) :
    s.beginJob j = s.jobAsks j s.link.settings.exchangeRetries 0 := by
  simp only [State.beginJob, dispatch_wake kind, kind]
  exact jobOp_eq (s := s.jobGranted j) j _ 0 rfl

section Switch
variable (passes : s.dispatch j = none) (line : ∀ train clamped, j.kind ≠ .wake train clamped)
  (found : s.rstr.find j.handle = some e)
include passes line found

/-- A job that passes its checks switches to its entry's path. -/
theorem beginJob_switches {went : State × Option SwitchEnd}
    (starts : (s.jobGranted j).startSwitch .job e.path s.link.settings.stepRetries = went) :
    s.beginJob j = State.switchWent went (.job j s.link.settings.exchangeRetries 0) := by
  have path : ((s.rstr.find j.handle).map (fun e => e.path)).getD [] = e.path := by rw [found]; rfl
  simp only [State.beginJob, passes, withJobq_rstr, path, starts]
  obtain ⟨u, _ | x⟩ := went
  all_goals
    cases kind : j.kind with
    | wake train clamped => exact absurd kind (line train clamped)
    | exchange | roll | calibrate | drop => rfl

theorem beginJob_starts {common : Nat} {op : LineOp} (begins : s.SwitchBegins e.path common op) : s.beginJob j = { s with
    line := s.line.started op
    jobq := { s.jobq with grant := some ⟨.job j s.link.settings.exchangeRetries 0,
      some (.fresh .job e.path common s.link.settings), none⟩ } } :=
  beginJob_switches passes line found (startSwitch_begins (s := s.jobGranted j) rfl begins)

theorem beginJob_asks (there : e.path = s.line.route) : s.beginJob j = s.jobAsks j s.link.settings.exchangeRetries 0 := by
  obtain ⟨sw, done⟩ := startSwitch_done (s := s.jobGranted j) (use := .job) rfl there
  rw [beginJob_switches passes line found done]
  exact jobOp_eq (s := s.jobGranted j) j _ 0 rfl

theorem beginJob_barred {st : RouteStep} {rest : Route} (free : s.jobq.grant = none)
    (goal : e.path = s.line.route ++ st :: rest) (bars : s.rstr.Bars s.line.route st) (owes : s.Owes q) (tag : q.tag = j.tag) :
    s.beginJob j = { s with rate := ⟨none⟩, link := s.link.answered q .routeFail [] } := by
  obtain ⟨sw, barred⟩ := startSwitch_barred (s := s.jobGranted j) (use := .job) rfl goal bars
  rw [beginJob_switches passes line found barred]
  have ended := endJob_of_owes (s := s.jobGranted j) .routeFail [] owes tag
  rw [show (s.jobGranted j).jobq.released = s.jobq from released_of_free free] at ended
  exact ended

end Switch

/-! ### A sweep roll under its grant (R151, R152) -/

/-- The part with the line granted to the roll of an entry (R152). -/
abbrev State.rollGranted (s : State) (e : Entry) : State :=
  s.withJobq { s.jobq with grant := some ⟨.sweep e.handle s.link.settings.exchangeRetries 0, none, none⟩ }

theorem beginRoll_switches {went : State × Option SwitchEnd}
    (starts : (s.rollGranted e).startSwitch .sweep e.path s.link.settings.stepRetries = went) :
    s.beginRoll e = State.switchWent went (.sweep e.handle s.link.settings.exchangeRetries 0) := by
  simp only [State.beginRoll, starts]
  obtain ⟨u, _ | x⟩ := went <;> rfl

theorem beginRoll_starts {common : Nat} {op : LineOp} (begins : s.SwitchBegins e.path common op) : s.beginRoll e = { s with
    line := s.line.started op
    jobq := { s.jobq with grant := some ⟨.sweep e.handle s.link.settings.exchangeRetries 0,
      some (.fresh .sweep e.path common s.link.settings), none⟩ } } :=
  beginRoll_switches (startSwitch_begins (s := s.rollGranted e) rfl begins)

theorem beginRoll_rolls (there : e.path = s.line.route) : s.beginRoll e = { s with
    line := s.line.started (s.lineOp .roll e.handle)
    jobq := s.jobq.granted (.sweep e.handle s.link.settings.exchangeRetries 0) } := by
  obtain ⟨sw, done⟩ := startSwitch_done (s := s.rollGranted e) (use := .sweep) rfl there
  rw [beginRoll_switches done]
  rfl

/-- A switch that the roster bars ends the roll, and the sweep goes on (R152, log 30). -/
theorem beginRoll_barred {y : Sweep} {v : State} {st : RouteStep} {rest : Route} (free : s.jobq.grant = none)
    (sweep : s.jobq.sweep = some y) (goal : e.path = s.line.route ++ st :: rest) (bars : s.rstr.Bars s.line.route st)
    (on : s.SweepGoesOn { y with position := e.handle, rolled := true } v) : s.beginRoll e = v := by
  obtain ⟨sw, barred⟩ := startSwitch_barred (s := s.rollGranted e) (use := .sweep) rfl goal bars
  rw [beginRoll_switches barred]
  have back : { s with jobq := (s.rollGranted e).jobq.released } = s := by
    rw [show (s.rollGranted e).jobq.released = s.jobq from released_of_free free]
  exact endRoll_of_goesOn (s := s.rollGranted e) e.handle 0 sweep (back.symm ▸ on)

/-! ### The grant of a step of discovery (R97, R102, R103, R118, R134) -/

variable {st : DiscStep}

/-- DISC at the grant of a step: a hail counts its pass, a CALL round takes its frame (R102, R103). -/
def Disc.stepTaken (d : Disc) (t : Settings) (st : DiscStep) : Disc := { d with
  waiting := false, next := none
  frames := if st = .call then d.frames.tail else d.frames
  pass := if st = .hail then
      ⟨d.pass.number + 1, if d.pass.number = 0 then t.walkPasses else d.pass.kept, false, false, false, 0⟩
    else d.pass }

/-- The work of a step, with the settings of its grant (R118). -/
def State.stepWork (s : State) (st : DiscStep) : DiscWork :=
  ⟨st, s.link.settings.stepRetries, 0, if st = .call then s.disc.frames.headD [] else [], s.link.settings.nameRetries, 0,
    s.link.settings.autoCalibrate, none⟩

theorem stepOpen_eq (s : State) (st : DiscStep) : (s.withDisc { s.disc with waiting := false, next := none }).stepOpen st =
    (s.withDisc (s.disc.stepTaken s.link.settings st), if st = .call then s.disc.frames.headD [] else []) := by
  cases st <;> rfl

/-- The part with the line granted to a step. -/
abbrev State.stepGranted (s : State) (st : DiscStep) : State :=
  (s.withDisc (s.disc.stepTaken s.link.settings st)).withJobq { s.jobq with grant := some ⟨.disc (s.stepWork st), none, none⟩ }

/-- The open route is the one that a step needs (Table 8-5). -/
abbrev State.RouteStands (s : State) (st : DiscStep) : Prop :=
  s.line.route = s.disc.levelRoute ∨
    st = .returnCheck ∧ ∃ c, s.disc.cursorStep = some c ∧ s.line.route = s.disc.levelRoute ++ [c]

theorem route_eq_neededRoute (stands : s.RouteStands st) : s.line.route = s.neededRoute st := by
  unfold State.neededRoute
  dsimp only
  split
  · rfl
  · next off =>
    refine stands.resolve_right fun ⟨check, c, cursor, route⟩ => off ⟨check, ?_⟩
    simp [cursor, route]

theorem neededRoute_eq_level (away : ¬s.RouteStands st) : s.neededRoute st = s.disc.levelRoute := by
  refine if_neg fun ⟨check, ends⟩ => away (.inr ⟨check, ?_⟩)
  simpa [Option.any_eq_true] using ends

/-- The part with the line granted to a step whose route must be restored first. -/
abbrev State.restoring (s : State) (st : DiscStep) : State :=
  (s.stepGranted st).withDisc { (s.stepGranted st).disc with state := .restoring }

/-- A restoration goes on or has ended. -/
def State.restoreWent (went : State × Option SwitchEnd) (d : DiscWork) : State :=
  match went with
  | (s, none) => s
  | (s, some e) => s.restoreEnded d e

/-- A step is granted: its own work on the route that it needs, or a restoration first. -/
theorem beginStep_eq : s.beginStep st =
    if s.line.route = s.neededRoute st then (s.stepGranted st).stepBody (s.stepWork st)
    else State.restoreWent ((s.restoring st).startSwitch .restore (s.neededRoute st) s.link.settings.stepRetries)
      (s.stepWork st) := by
  simp only [State.beginStep, stepOpen_eq]
  rfl

theorem beginStep_stands (stands : s.RouteStands st) : s.beginStep st = (s.stepGranted st).stepBody (s.stepWork st) :=
  beginStep_eq.trans (if_pos (route_eq_neededRoute stands))

section Restore
variable (away : ¬s.RouteStands st)
include away

theorem beginStep_switches {went : State × Option SwitchEnd}
    (starts : (s.restoring st).startSwitch .restore s.disc.levelRoute s.link.settings.stepRetries = went) :
    s.beginStep st = State.restoreWent went (s.stepWork st) := by
  rw [beginStep_eq, neededRoute_eq_level away, if_neg fun h => away (.inl h), starts]

theorem beginStep_restores {common : Nat} {op : LineOp} (begins : s.SwitchBegins s.disc.levelRoute common op) :
    s.beginStep st = { s with
      disc := { s.disc.stepTaken s.link.settings st with state := .restoring }
      jobq := { s.jobq with grant := some ⟨.disc (s.stepWork st),
        some (.fresh .restore s.disc.levelRoute common s.link.settings), none⟩ }
      line := s.line.started op } :=
  beginStep_switches away (startSwitch_begins (s := s.restoring st) rfl begins)

/-- A restoration that the roster bars (R136, log 50). -/
theorem beginStep_barred {x : RouteStep} {rest : Route} {top : Level} {below : List Level}
    (goal : s.disc.levelRoute = s.line.route ++ x :: rest) (bars : s.rstr.Bars s.line.route x)
    (running : s.disc.cancelled = false) (levels : (s.disc.restoreLost s.line.route.length).levels = top :: below) :
    s.beginStep st = State.discNext { s with
      disc := { (s.disc.stepTaken s.link.settings st).restoreLost s.line.route.length with
        state := .restoring, levels := top.atNextJunction :: below }
      jobq := s.jobq.released } := by
  obtain ⟨sw, barred⟩ := startSwitch_barred (s := s.restoring st) (use := .restore) rfl goal bars
  rw [beginStep_switches away barred]
  exact restoreFailed_barred (s := s.restoring st) running levels

end Restore

end Sys2Proof.Machine
end

section
/-! What a granted job, a sweep roll and a step of discovery meet (O25). -/

namespace Sys2Proof.Machine

variable {s t : State} {w : DiscWork} {l : Leaf}

/-! ### The work of a step on its route (R97, R102 to R111, R128, R130) -/

/-- A step asks for its operation, DISC as it then stands. -/
abbrev State.discAsks (s : State) (d : Disc) (op : LineOp) : State := { s with disc := d, line := s.line.started op }

/-- A step is over: DISC, as it then stands, releases the line and decides its next step. -/
abbrev State.discGoesOn (s : State) (d : Disc) : State := State.discNext { s with disc := d, jobq := s.jobq.released }

theorem stepDone_of_running (running : t.disc.cancelled = false) : t.stepDone = t.discGoesOn t.disc :=
  if_neg (Bool.eq_false_iff.1 running)

theorem stepBody_hail (step : w.step = .hail) :
    s.stepBody w = s.discAsks { s.disc with state := .walking } ⟨.hail, 0, 0, [], 0⟩ := by
  simp only [State.stepBody, step]
  rfl

theorem stepBody_call (step : w.step = .call) :
    s.stepBody w = s.discAsks { s.disc with state := .walking } (s.lineOp (.call w.frame) 0) := by
  simp only [State.stepBody, step]
  rfl

/-- The first ECHO of a leaf sets its limit of tries (R106). -/
theorem stepBody_echo (step : w.step = .echo) (leaf : s.disc.leaf = some l) : s.stepBody w = s.discAsks
    { s.disc with
      state := .resolving
      leaf := some (if l.tryLimit = none then { l with tries := 0, tryLimit := some s.link.settings.nonceTries } else l) }
    (s.lineOp (.echo l.stamp) 0) := by
  simp only [State.stepBody, step, withDisc_disc, leaf]
  cases limit : l.tryLimit <;> rfl

section Naming
variable {n : Nat} {ns : List Nat} (step : w.step = .naming) (leaf : s.disc.leaf = some l) (nonces : l.nonces = some (n :: ns))
include step leaf nonces

theorem stepBody_naming :
    s.stepBody w = (s.withDisc { s.disc with state := .resolving }).beginNaming l n (ns.length + 1) := by
  simp only [State.stepBody, step, withDisc_disc, leaf, nonces]
  rfl

/-- A free handle that is chosen is reserved until the naming is over (R71). -/
theorem stepBody_naming_chosen {c : Choice}
    (choice : chooseHandle s.rstr s.pins s.link.settings.dynBase l.stamp l.mismatch = some c) : s.stepBody w =
    { s.discAsks { s.disc with state := .resolving, leaf := some { l with choice := some c } }
        (s.lineOp (.name l.stamp n c.handle) 0) with
      rstr := { s.rstr with reserved := if c.restores then s.rstr.reserved else c.handle } } := by
  rw [stepBody_naming step leaf nonces, State.beginNaming]
  simp only [withDisc_rstr, withDisc_pins, withDisc_link, choice]
  cases restores : c.restores <;> rfl

/-- Without a handle the walk of the segment ends (R110). -/
theorem stepBody_naming_none (choice : chooseHandle s.rstr s.pins s.link.settings.dynBase l.stamp l.mismatch = none)
    (running : s.disc.cancelled = false) : s.stepBody w = s.discGoesOn { s.disc with
      state := .resolving, leaf := none, frames := []
      pass := { s.disc.pass with
        outOfHandles := true, leftUnnamed := min (s.disc.pass.leftUnnamed + (ns.length + 1)) 255 } } := by
  rw [stepBody_naming step leaf nonces, State.beginNaming]
  simp only [withDisc_rstr, withDisc_pins, withDisc_link, choice]
  exact stepDone_of_running running

end Naming

theorem stepBody_pendingDrop {h : Nat} (step : w.step = .pendingDrop) (drop : s.disc.pendingDrop = some h) :
    s.stepBody w = s.discAsks { s.disc with state := .resolving } (s.lineOp .drop h) := by
  simp only [State.stepBody, step, withDisc_disc, drop]
  rfl

section Calibration
variable {c : CalibDue} (step : w.step = .calibration) (leaf : s.disc.leaf = some l) (calib : l.calib = some c)
include step leaf calib

/-- The calibration is owed while the entry named stands (R111). -/
theorem stepBody_calibration : s.stepBody w =
    if (s.rstr.find c.handle).any (fun e => e.live && e.namedAt == c.namedAt) then
      { s.discAsks { s.disc with state := .measuring } (s.lineOp .measure c.handle) with
        rate := ⟨some ⟨s.link.settings.roundMode, .record, false⟩⟩ }
    else State.stepDone { s with disc := { s.disc with state := .measuring, leaf := some l.nonceDone } } := by
  have next : (s.withDisc { s.disc with state := .measuring }).dropNonce =
      { s with disc := { s.disc with state := .measuring, leaf := some l.nonceDone } } := by
    simp only [State.dropNonce, withDisc_disc, leaf]
    rfl
  rw [← next]
  simp only [State.stepBody, step, withDisc_disc, leaf, Option.bind_some, calib]
  rfl

end Calibration

theorem owed_iff {r : Rstr} {c : CalibDue} : (r.find c.handle).any (fun e => e.live && e.namedAt == c.namedAt) = true ↔
    ∃ e, r.find c.handle = some e ∧ e.state ≠ .departed ∧ e.namedAt = c.namedAt := by
  simp [Option.any_eq_true, Entry.live]

/-- The switch of an opening step goes on or has ended. -/
def State.openingWent (went : State × Option SwitchEnd) : State :=
  match went with
  | (s, none) => s
  | (s, some e) => s.openingEnded e

section Cursor
variable {top : Level} {below : List Level} {j : Listed} (levels : s.disc.levels = top :: below)
  (listed : top.junctions[top.index]? = some j)
include levels

/-- The cursor past a junction that the roster no longer holds, the abandoned mark set (R127, R130). -/
theorem passed_eq (st : DiscState) (running : s.disc.cancelled = false) :
    (s.withDisc { s.disc with state := st }).abandon.nextJunction.stepDone = s.discGoesOn
      { s.disc with state := st, abandoned := true, levels := top.atNextJunction :: below } := by
  rw [nextJunction_eq (s := (s.withDisc { s.disc with state := st }).abandon) levels]
  exact stepDone_of_running running

include listed

/-- DISC opens the leg at its cursor (R128). -/
theorem stepBody_opening {went : State × Option SwitchEnd} (step : w.step = .opening)
    (starts : (s.withDisc { s.disc with state := .opening }).startSwitch .opening
      (s.disc.levelRoute ++ [⟨j.handle, top.leg⟩]) s.link.settings.stepRetries = went) :
    s.stepBody w = State.openingWent went := by
  have cursor : Disc.cursorStep { s.disc with state := DiscStep.state .opening } = some ⟨j.handle, top.leg⟩ :=
    cursorStep_eq (d := { s.disc with state := .opening }) levels listed
  subst starts
  simp only [State.stepBody, step, withDisc_disc, cursor]
  rfl

section Opening
variable (step : w.step = .opening) (route : s.line.route = s.disc.levelRoute)
include step route

/-- The switch of the opening step takes STEP_RETRIES as it stands at its own start (R121, log 44). -/
theorem stepBody_opening_opens (good : s.rstr.stepGood s.line.route ⟨j.handle, top.leg⟩ = true) : s.stepBody w =
    { s.discAsks { s.disc with state := .opening } (s.lineOp (.legOpen top.leg) j.handle) with
      jobq := { s.jobq with grant := s.jobq.grant.map (fun g => { g with
        switch := some (.fresh .opening (s.disc.levelRoute ++ [⟨j.handle, top.leg⟩]) s.disc.levelRoute.length
          s.link.settings) }) } } := by
  have goal : s.disc.levelRoute ++ [⟨j.handle, top.leg⟩] = s.line.route ++ [⟨j.handle, top.leg⟩] := by rw [route]
  have common : commonLen s.line.route (s.disc.levelRoute ++ [⟨j.handle, top.leg⟩]) = s.disc.levelRoute.length := by
    rw [commonLen_extends goal, route]
  rw [← common]
  exact stepBody_opening levels listed step (switchNext_opens_anyGrant (s := s.withDisc { s.disc with state := .opening }) goal good)

theorem stepBody_opening_barred (bars : s.rstr.Bars s.line.route ⟨j.handle, top.leg⟩) (running : s.disc.cancelled = false) :
    s.stepBody w = s.discGoesOn
      { s.disc with state := .opening, abandoned := true, levels := top.atNextJunction :: below } := by
  have goal : s.disc.levelRoute ++ [⟨j.handle, top.leg⟩] = s.line.route ++ [⟨j.handle, top.leg⟩] := by rw [route]
  rw [← passed_eq levels .opening running]
  exact stepBody_opening levels listed step
    (switchNext_barred_anyGrant (s := s.withDisc { s.disc with state := .opening }) goal bars)

end Opening

section ReturnCheck
variable (step : w.step = .returnCheck)
include step

theorem stepBody_returnCheck : s.stepBody w =
    if s.rstr.listedGood j s.disc.levelRoute then
      s.discAsks { s.disc with state := .returning } (s.lineOp .roll j.handle)
    else (s.withDisc { s.disc with state := .returning }).abandon.nextJunction.stepDone := by
  have cursor : Disc.cursorItem { s.disc with state := DiscStep.state .returnCheck } = some j := by
    simp [Disc.cursorItem, levels, listed]
  simp only [State.stepBody, step, withDisc_disc, cursor]
  rfl

end ReturnCheck

end Cursor

end Sys2Proof.Machine

open Sys2Proof Sys2Proof.Machine

/-- Settles O25: a job by its kind, its checks and its route, the sweep's roll by its route, a step of discovery by its route and
then by its own work. -/
theorem jobGranted : Obligations.JobGranted := by
  refine ⟨?_, ?_, ?_, ?_, ?_⟩
  · intro s j q free idle lane sweep due owes tag refused running switching
    have lanes : (s.jobq.urgent = [j] ∧ s.jobq.normal = []) ∨ (s.jobq.urgent = [] ∧ s.jobq.normal = [j]) :=
      lane.imp And.right And.right
    obtain ⟨after, granted⟩ := arbitrate_job free idle lanes
    have keeps : ∀ {t g}, s.unlaned.beginJob j = t → t.jobq.grant = some g → s.arbitrate = t := fun begins grant => by
      rw [granted, begins, arbitrateFrom_of_holder _ _ grant]
    have ends : ∀ {t}, s.unlaned.beginJob j = t → t.NoClaim → s.arbitrate = t := fun begins quiet => by
      rw [granted, begins, arbitrateFrom_of_noClaim _ _ quiet]
    have quiet : ∀ code, (refused code).NoClaim := fun code => noClaim_of_empty rfl rfl sweep due idle
    have refuses : ∀ {code}, s.unlaned.dispatch j = some code → s.arbitrate = refused code := fun fails =>
      ends (beginJob_refused fails (by exact owes) tag) (quiet _)
    refine ⟨fun t c kind => ?_, fun line => ⟨fun none => refuses (dispatch_unknown line none), fun e held => ?_⟩⟩
    · have asks := keeps (beginJob_wake kind) rfl
      simp only [State.jobAsks, kind] at asks
      exact asks
    intro below
    have checks := dispatch_of_lookup (s := s.unlaned) line held
    have found : s.unlaned.rstr.find j.handle = some e := find_of_lookup held
    have behind : s.unlaned.rstr.liveBehind j.handle = true ↔ below := liveBehind_iff found
    refine ⟨fun stale => refuses (checks.trans (if_pos stale)), fun same gone => refuses ?_, fun same live => ?_⟩
    · rw [checks, if_neg (not_not_intro same), if_pos (by simp [Entry.live, gone])]
    replace checks := (checks.trans (if_neg (not_not_intro same))).trans (if_neg (by simp [Entry.live, live]))
    refine ⟨fun drop loud => refuses (checks.trans (if_pos ⟨drop, loud⟩)), fun drop silent under => refuses ?_, fun clear => ?_⟩
    · rw [checks, if_neg fun h => h.2 silent, if_pos ⟨drop, behind.2 under⟩]
    have passes : s.unlaned.dispatch j = none := by
      rw [checks, if_neg fun h => h.2 (clear h.1).1, if_neg fun h => (clear h.1).2 (behind.1 h.2)]
    refine ⟨fun there => ?_, ?_, ?_⟩
    · have asks := keeps (beginJob_asks passes line found there) rfl
      refine ⟨fun p kind => ?_, fun kind => ?_, fun kind => ?_, fun form mode ignore kind => ?_⟩ <;>
      · simp only [State.jobAsks, kind] at asks
        exact asks
    · intro pre rest st more route goal parts
      exact keeps (beginJob_starts passes line found (switchBegins_close (s := s.unlaned) route goal parts)) rfl
    · intro st rest goal
      refine ⟨fun c held live junction path low high => ?_, fun bars => ?_⟩
      · exact keeps (beginJob_starts passes line found
          (switchBegins_open (s := s.unlaned) goal held live junction path low high)) rfl
      · exact ends (beginJob_barred passes line found free.1 goal bars owes tag) (quiet .routeFail)
  · intro s y e free claim sweep next rolling switching
    have grants : s.grantClaim .sweep = (s.beginRoll e, false) := by
      simp only [State.grantClaim, sweep, Option.bind_some, next]
    have keeps : ∀ {t g}, s.beginRoll e = t → t.jobq.grant = some g → s.arbitrate = t := fun begins grant =>
      arbitrate_of_claim free claim (begins ▸ grants) grant
    refine ⟨fun there => keeps (beginRoll_rolls there) rfl, fun pre rest more st route goal parts => ?_,
      fun st rest goal => ⟨fun c held live junction path low high => ?_, fun n v bars on => ?_⟩⟩
    · exact keeps (beginRoll_starts (switchBegins_close route goal parts)) rfl
    · exact keeps (beginRoll_starts (switchBegins_open goal held live junction path low high)) rfl
    · rw [← beginRoll_barred free.1 sweep goal bars on]
      exact arbitrateFrom_of_claim n free claim grants
  · intro s st free claim
    refine ⟨fun n => arbitrateFrom_of_claim n free claim rfl, fun grant => ?_⟩
    obtain ⟨g, keeps⟩ := Option.ne_none_iff_exists'.1 grant
    exact arbitrate_of_claim free claim rfl keeps
  · intro s st t w d level stands restoring
    refine ⟨fun here => beginStep_stands here, fun away => ⟨fun pre rest more last route goal parts => ?_,
      fun x rest goal => ⟨fun c held live junction path low high => ?_, fun top below bars running levels => ?_⟩⟩⟩
    · exact beginStep_restores away (switchBegins_close route goal parts)
    · exact beginStep_restores away (switchBegins_open goal held live junction path low high)
    · exact beginStep_barred away goal bars running levels
  · intro s w asks goesOn
    refine ⟨stepBody_hail, stepBody_call, fun l step leaf => stepBody_echo step leaf, ?_,
      fun h step drop => stepBody_pendingDrop step drop, ?_, ?_⟩
    · intro l n ns step leaf nonces choice
      exact ⟨fun c => stepBody_naming_chosen step leaf nonces, stepBody_naming_none step leaf nonces⟩
    · intro l c step leaf calib owed
      have body := stepBody_calibration step leaf calib
      exact ⟨fun due => body.trans (if_pos (owed_iff.2 due)),
        fun done running => (body.trans (if_neg (mt owed_iff.1 done))).trans (stepDone_of_running running)⟩
    · intro top below j levels listed level past
      refine ⟨fun step route => ⟨?_, fun bars => ?_⟩, ?_⟩
      · intro c held live junction path low high
        exact stepBody_opening_opens levels listed step route
          (stepGood_of_not_barred held live junction (path.trans route.symm) low high)
      · exact stepBody_opening_barred levels listed step route (by rw [route]; exact bars)
      · intro step good
        have body := stepBody_returnCheck levels listed step
        have checked : s.rstr.listedGood j level = true ↔ good := by
          rw [listedGood_iff]
          exact exists_congr fun e => and_assoc
        exact ⟨fun stands => body.trans (if_pos (checked.2 stands)),
          fun gone running => (body.trans (if_neg (mt checked.1 gone))).trans (passed_eq levels _ running)⟩
end

section
/-! The choice of a handle (O57): R90 to R93, Table 6-3. -/

namespace Sys2Proof.Machine

variable {r : Rstr} {ps : List Pin} {base n h : Nat} {st : Stamp} {conflict mismatch : Bool} {p : Pin} {e : Entry}

/-! ### Open handles (R93) -/

/-- A handle that a dynamic or a fallback choice may give: free and not pinned (R93). -/
def Rstr.Open (r : Rstr) (ps : List Pin) (h : Nat) : Prop := r.find h = none ∧ r.reserved ≠ h ∧ pinAt ps h = none

theorem free_iff : r.free h = true ↔ r.find h = none ∧ r.reserved ≠ h := by simp [Rstr.free]

theorem not_free_of_find (held : r.find h = some e) : ¬r.free h = true := fun free =>
  nomatch held.symm.trans (free_iff.1 free).1

theorem open_iff : (r.free h && (pinAt ps h).isNone) = true ↔ r.Open ps h := by
  rw [Bool.and_eq_true, free_iff, Option.isNone_iff_eq_none, and_assoc, Rstr.Open]

theorem not_open_iff : (!(r.free h && (pinAt ps h).isNone)) = true ↔ ¬r.Open ps h := by
  rw [← open_iff, Bool.not_eq_true', Bool.eq_false_iff]

theorem lowestOpen_range'_eq_some (low : base ≤ h) (high : h < base + n) (opened : r.Open ps h)
    (below : ∀ x, base ≤ x → x < h → ¬r.Open ps x) : lowestOpen r ps (List.range' base n) = some h :=
  List.find?_range'_eq_some.2 ⟨open_iff.2 opened, List.mem_range'_1.2 ⟨low, high⟩, fun x hb hx =>
    not_open_iff.2 (below x hb hx)⟩

theorem lowestOpen_range'_eq_none (full : ∀ x, base ≤ x → x < base + n → ¬r.Open ps x) :
    lowestOpen r ps (List.range' base n) = none :=
  List.find?_range'_eq_none.2 fun x hb hx => not_open_iff.2 (full x hb hx)

/-! ### Steps 3 to 5 of Table 6-3 -/

theorem chooseOpen_dynamic (low : base ≤ h) (high : h ≤ 126) (opened : r.Open ps h)
    (below : ∀ x, base ≤ x → x < h → ¬r.Open ps x) :
    chooseOpen r ps base conflict mismatch = some ⟨h, .dynamic, false, none, conflict, mismatch⟩ := by
  rw [chooseOpen, lowestOpen_range'_eq_some low (by simp only [Config.topHandle]; omega) opened below]

theorem chooseOpen_full (full : ∀ x, base ≤ x → x ≤ 126 → ¬r.Open ps x) : chooseOpen r ps base conflict mismatch =
    (lowestOpen r ps (List.range' 1 (base - 1))).map (fun h => ⟨h, .fallback, false, none, conflict, mismatch⟩) := by
  rw [chooseOpen, lowestOpen_range'_eq_none]
  intro x low high
  exact full x low (by simp only [Config.topHandle] at high; omega)

theorem chooseOpen_fallback (full : ∀ x, base ≤ x → x ≤ 126 → ¬r.Open ps x) (low : 1 ≤ h) (high : h < base)
    (opened : r.Open ps h) (below : ∀ x, 1 ≤ x → x < h → ¬r.Open ps x) :
    chooseOpen r ps base conflict mismatch = some ⟨h, .fallback, false, none, conflict, mismatch⟩ := by
  rw [chooseOpen_full full, lowestOpen_range'_eq_some low (by omega) opened below, Option.map_some]

theorem chooseOpen_none (start : 1 ≤ base) (inside : base ≤ 126) (full : ∀ x, 1 ≤ x → x ≤ 126 → ¬r.Open ps x) :
    chooseOpen r ps base conflict mismatch = none := by
  rw [chooseOpen_full fun x low => full x (Nat.le_trans start low), lowestOpen_range'_eq_none, Option.map_none]
  intro x low high
  exact full x low (by omega)

/-! ### Steps 1 and 2 of Table 6-3 -/

/-- An entry that handle memory may restore (R92). -/
theorem remembers_iff : (!e.live && e.stamp == st) = true ↔ e.state = .departed ∧ e.stamp = st := by simp [Entry.live]

theorem not_remembers_iff : (!(!e.live && e.stamp == st)) = true ↔ e.state ≠ .departed ∨ e.stamp ≠ st := by
  simp [Entry.live]

theorem chooseHandle_mismatch : chooseHandle r ps base st true = chooseOpen r ps base false true := rfl

section Pinned

variable (pinned : pinFor ps st = some p)
include pinned

theorem chooseHandle_pin_free (free : r.free p.handle = true) :
    chooseHandle r ps base st false = some ⟨p.handle, .pin, false, p.expected, false, false⟩ := by
  simp only [chooseHandle, pinned, free, if_true, Bool.false_eq_true, if_false]

theorem chooseHandle_pin_held (held : r.find p.handle = some e) : chooseHandle r ps base st false =
    if e.state = .departed ∧ e.stamp = st then some ⟨p.handle, .pin, true, p.expected, false, false⟩
    else chooseOpen r ps base true false := by
  simp only [chooseHandle, pinned, not_free_of_find held, held, Option.any_some, remembers_iff, Bool.false_eq_true, if_false]

end Pinned

section Unpinned

variable (unpinned : pinFor ps st = none)
include unpinned

theorem chooseHandle_memory {pre post : List Entry} (entries : r.entries = pre ++ e :: post) (departed : e.state = .departed)
    (stamp : e.stamp = st) (first : ∀ x ∈ pre, x.state ≠ .departed ∨ x.stamp ≠ st) :
    chooseHandle r ps base st false = some ⟨e.handle, .memory, true, none, false, false⟩ := by
  have found : r.entries.find? (fun e => !e.live && e.stamp == st) = some e :=
    List.find?_eq_some_iff_append.2 ⟨remembers_iff.2 ⟨departed, stamp⟩, pre, post, entries,
      fun x hx => not_remembers_iff.2 (first x hx)⟩
  simp only [chooseHandle, unpinned, found, Bool.false_eq_true, if_false]

theorem chooseHandle_unknown (unknown : ∀ e ∈ r.entries, e.state ≠ .departed ∨ e.stamp ≠ st) :
    chooseHandle r ps base st false = chooseOpen r ps base false false := by
  have none_found : r.entries.find? (fun e => !e.live && e.stamp == st) = none :=
    List.find?_eq_none.2 fun x hx kept => by
      obtain ⟨departed, stamp⟩ := remembers_iff.1 kept
      exact (unknown x hx).elim (· departed) (· stamp)
  simp only [chooseHandle, unpinned, none_found, Bool.false_eq_true, if_false]

end Unpinned

end Sys2Proof.Machine

open Sys2Proof Sys2Proof.Machine

/-- Settles O57, by the pin for the stamp and the entry that stands at its handle, or by handle memory. -/
theorem choiceOfHandle : Obligations.ChoiceOfHandle := by
  intro r ps base st start inside open' opened
  have opens : ∀ conflict mismatch, opened conflict mismatch (chooseOpen r ps base conflict mismatch) := fun _ _ =>
    ⟨fun _ => chooseOpen_dynamic, fun _ => chooseOpen_fallback, chooseOpen_none start inside⟩
  refine ⟨opens false true, fun p pinned => ⟨fun unheld reserved => ?_, fun e held departed stamp => ?_, fun e held live => ?_⟩,
    fun unpinned => ⟨fun pre e post => chooseHandle_memory unpinned, fun unknown => ?_⟩⟩
  · exact chooseHandle_pin_free pinned (free_iff.2 ⟨unheld, reserved⟩)
  · exact (chooseHandle_pin_held pinned held).trans (if_pos ⟨departed, stamp⟩)
  · rw [chooseHandle_pin_held pinned held, if_neg fun restores => live restores.1]
    exact opens true false
  · rw [chooseHandle_unknown unpinned unknown]
    exact opens false false
end

section
/-! NAME_DONE: a naming tried again, failed, or withdrawn at its confirm (O21): R94, R95, R107, R109. -/

namespace Sys2Proof.Machine

variable {s : State} {op : LineOp} {st : Stamp} {n h : Nat} {w : DiscWork} {cells : List LowSample} {l : Leaf} {c : Choice}
  {b : Byte}

/-- The part with the NAME ended and the capture unit at its last low (R29, R39). -/
def State.nameOver (s : State) (op : LineOp) (cells : List LowSample) : State :=
  { s with line := s.line.endedWith s.link.settings (s.lastCell op cells) }

theorem exec_nameDone {reply : Except DecodeFail (List Byte)} (runs : s.Runs (.name st n h) op) (holds : s.Holds (.disc w))
    (decoded : (decodeByteReply s.line.beat op.trim cells).reply = reply) : exec (.nameDone cells) s =
      .next (((s.nameOver op cells).nameEnded w (.name st n h) n h reply).regrant s).kick := by
  obtain ⟨flight, kind⟩ := runs
  obtain ⟨k, a, trim, frame, gap⟩ := op
  subst kind decoded
  show execNameDone cells s = _
  simp only [execNameDone, flight, State.work, show s.jobq.grant = _ from holds, Option.map_some]
  rfl

/-! ### The retries of a NAME (R107, R109) -/

theorem sendDrop_eq (why : DropCause) (holds : s.Holds (.disc w)) : s.sendDrop w why h = { s with
    line := s.line.started (s.lineOp .drop h)
    jobq := s.jobq.granted (.disc { w with dropping := some why, used := 0 }) } :=
  putDiscWork_startOp_eq .drop h holds

theorem nameEnded_again (k : OpKind) (e : DecodeFail) (holds : s.Holds (.disc w)) (more : w.nameUsed < w.nameRetries) :
    s.nameEnded w k n h (.error e) = { s with
      line := s.line.started (s.lineOp k 0), jobq := s.jobq.granted (.disc { w with nameUsed := w.nameUsed + 1 }) } :=
  (if_pos more).trans (putDiscWork_startOp_eq k 0 holds)

theorem nameEnded_failed (k : OpKind) (e : DecodeFail) (last : w.nameRetries ≤ w.nameUsed) :
    s.nameEnded w k n h (.error e) = s.sendDrop w .failed h := if_neg (Nat.not_lt.2 last)

/-! ### The confirm (R94, R95) -/

theorem nameEnded_confirmed (k : OpKind) (leaf : s.disc.leaf = some l) (choice : l.choice = some c) :
    s.nameEnded w k n h (.ok [b]) = s.confirm w l c n b := by
  simp only [State.nameEnded, leaf, choice, List.headD_cons]

/-- A pin expects another kind than the one confirmed (R94). -/
def Choice.Unlike (c : Choice) (b : Byte) : Prop := c.source = .pin ∧ ∃ x, c.expected = some x ∧ x ≠ b

theorem unlike_iff : c.source = .pin ∧ c.expected.any (fun k => k != b) = true ↔ c.Unlike b := by
  simp only [Choice.Unlike, Option.any_eq_true, bne_iff_ne]

theorem confirm_unlike (unlike : c.Unlike b) : s.confirm w l c n b = s.withdraw w l c.handle true :=
  if_pos (unlike_iff.2 unlike)

/-- The entry to restore was forgotten, and its handle is now pinned for another stamp (R95). -/
theorem confirm_repinned {p : Pin} (alike : ¬c.Unlike b) (restores : c.restores = true) (gone : s.rstr.find c.handle = none)
    (pinned : pinAt s.pins c.handle = some p) (other : p.stamp ≠ l.stamp) :
    s.confirm w l c n b = s.withdraw w l c.handle false := by
  have withdrawn : c.restores = true ∧ (s.rstr.find c.handle).isNone = true ∧
      (pinAt s.pins c.handle).any (fun p => p.stamp != l.stamp) = true := by
    simp only [restores, gone, pinned, Option.isNone_none, Option.any_some, bne_iff_ne.2 other, and_self]
  rw [State.confirm, if_neg (mt unlike_iff.1 alike), if_pos withdrawn]

theorem withdraw_eq (mismatch : Bool) (holds : s.Holds (.disc w)) : s.withdraw w l h mismatch = { s with
    line := s.line.started (s.lineOp .drop h)
    jobq := s.jobq.granted (.disc { w with dropping := some .withdrawn, used := 0 })
    disc := { s.disc with leaf := some { l with choice := none, mismatch } } } :=
  sendDrop_eq (s := s.putLeaf (some { l with choice := none, mismatch })) .withdrawn holds

end Sys2Proof.Machine

open Sys2Proof Sys2Proof.Machine

/-- Settles O21: a decode outcome by the retries left, a confirm by which of the two withdrawals strikes it. -/
theorem nameFailureDrops : Obligations.NameFailureDrops := by
  intro s op st n h w cells runs holds line
  have held : (s.nameOver op cells).Holds (.disc w) := holds
  -- the discovery keeps the line, so nothing is granted at the end of the step
  have ends : ∀ {reply : Except DecodeFail (List Byte)} {t : State} {g : Grant},
      (decodeByteReply s.line.beat op.trim cells).reply = reply →
      (s.nameOver op cells).nameEnded w (.name st n h) n h reply = t → t.jobq.grant = some g →
      exec (.nameDone cells) s = .next t.kick := fun decoded went grant => by
    rw [exec_nameDone runs holds decoded, went, regrant_of_holder grant]
  refine ⟨fun e misreads more => ?_, fun e misreads last => ?_, fun l c k reads leaf choice => ?_⟩
  · exact ends misreads (nameEnded_again _ e held more) rfl
  · exact ends misreads ((nameEnded_failed _ e last).trans (sendDrop_eq .failed held)) rfl
  · have withdraws : ∀ mismatch, (s.nameOver op cells).confirm w l c n k = (s.nameOver op cells).withdraw w l c.handle mismatch →
        exec (.nameDone cells) s = .next (State.kick { s with
          line := line.started (s.lineOp .drop c.handle)
          jobq := s.jobq.granted (.disc { w with dropping := some .withdrawn, used := 0 })
          disc := { s.disc with leaf := some { l with choice := none, mismatch } } }) := fun mismatch taken =>
      ends reads (((nameEnded_confirmed (s := s.nameOver op cells) _ leaf choice).trans taken).trans (withdraw_eq mismatch held)) rfl
    exact ⟨fun unlike => withdraws true (confirm_unlike unlike), fun p alike restores gone pinned other =>
      withdraws false (confirm_repinned (s := s.nameOver op cells) alike restores gone pinned other)⟩
end

section
/-! SUPPORT. The pin table: what a pin put in or taken out changes, and what a sound table keeps (R86, R87, R89). -/

namespace Sys2Proof.Machine

variable {ps : List Pin} {p q : Pin} {st x : Stamp} {h : Nat}

/-! ### Pins found -/

theorem pinFor_some (found : pinFor ps st = some p) : p ∈ ps ∧ p.stamp = st :=
  ⟨List.mem_of_find?_eq_some found, by simpa using List.find?_some found⟩

theorem pinAt_some (found : pinAt ps h = some p) : p ∈ ps ∧ p.handle = h :=
  ⟨List.mem_of_find?_eq_some found, by simpa using List.find?_some found⟩

theorem pinFor_eq_none : pinFor ps st = none ↔ ∀ q ∈ ps, q.stamp ≠ st := by simp [pinFor]

theorem pinAt_eq_none : pinAt ps h = none ↔ ∀ q ∈ ps, q.handle ≠ h := by simp [pinAt]

/-- No two pins of a sound table have one handle (R86). -/
theorem pin_eq_of_handle (sound : pinsValid ps) (hp : p ∈ ps) (hq : q ∈ ps) (same : p.handle = q.handle) : p = q := by
  obtain ⟨-, ascending, -, -⟩ := sound
  have apart := List.pairwise_iff_getElem.1 (List.pairwise_map.1 ascending)
  obtain ⟨i, hi, rfl⟩ := List.getElem_of_mem hp
  obtain ⟨j, hj, rfl⟩ := List.getElem_of_mem hq
  rcases Nat.lt_trichotomy i j with before | rfl | after
  · exact absurd same (Nat.ne_of_lt (apart i j hi hj before))
  · rfl
  · exact absurd same.symm (Nat.ne_of_lt (apart j i hj hi after))

/-! ### A pin taken out (R89) -/

theorem mem_dropPin : q ∈ dropPin ps st ↔ q ∈ ps ∧ q.stamp ≠ st := by simp [dropPin]

theorem pinFor_dropPin_other (other : x ≠ st) : pinFor (dropPin ps st) x = pinFor ps x := by
  have kept : (fun q : Pin => decide ((q.stamp != st) = true ∧ (q.stamp == x) = true)) = fun q => q.stamp == x := by
    funext q
    by_cases same : q.stamp = x
    · simp [same, other]
    · simp [same]
  rw [pinFor, dropPin, List.find?_filter, kept, pinFor]

theorem dropPin_valid (sound : pinsValid ps) : pinsValid (dropPin ps st) := by
  obtain ⟨room, ascending, distinct, handles⟩ := sound
  have sub : (dropPin ps st).Sublist ps := List.filter_sublist
  exact ⟨Nat.le_trans sub.length_le room, ascending.sublist (sub.map _), distinct.sublist (sub.map _),
    fun q hq => handles q (sub.subset hq)⟩

/-- The handle of a pin taken out of a sound table is not pinned afterwards (R89). -/
theorem pinAt_dropPin (sound : pinsValid ps) (found : pinFor ps st = some p) : pinAt (dropPin ps st) p.handle = none := by
  obtain ⟨held, stamp⟩ := pinFor_some found
  refine pinAt_eq_none.2 fun q kept same => ?_
  obtain ⟨hq, other⟩ := mem_dropPin.1 kept
  exact other (pin_eq_of_handle sound hq held same ▸ stamp)

/-! ### A pin put in (R87) -/

theorem insertPin_perm (p : Pin) : ∀ ps, (insertPin p ps).Perm (p :: ps)
  | [] => .refl _
  | q :: qs => by
    unfold insertPin
    split
    · exact .refl _
    · exact ((insertPin_perm p qs).cons q).trans (.swap p q qs)

/-- Insertion keeps the ascending order when no pin has the handle. -/
theorem insertPin_ascending (p : Pin) : ∀ ps : List Pin, (ps.map (fun q => q.handle)).Pairwise (· < ·) →
    (∀ q ∈ ps, q.handle ≠ p.handle) → ((insertPin p ps).map (fun q => q.handle)).Pairwise (· < ·)
  | [], _, _ => by simp [insertPin]
  | q :: qs, ascending, apart => by
    simp only [List.pairwise_map] at ascending ⊢
    obtain ⟨above, rest⟩ := List.pairwise_cons.1 ascending
    unfold insertPin
    split
    · next before =>
      exact List.pairwise_cons.2 ⟨List.forall_mem_cons.2 ⟨before, fun x hx => Nat.lt_trans before (above x hx)⟩, ascending⟩
    · next after =>
      refine List.pairwise_cons.2 ⟨fun x hx => ?_, List.pairwise_map.1 (insertPin_ascending p qs (List.pairwise_map.2 rest)
        fun x hx => apart x (List.mem_cons_of_mem _ hx))⟩
      rcases List.mem_cons.1 ((insertPin_perm p qs).mem_iff.1 hx) with rfl | hx
      · exact Nat.lt_of_le_of_ne (Nat.not_lt.1 after) (apart q List.mem_cons_self)
      · exact above x hx

theorem pinFor_insertPin_same (p : Pin) : ∀ ps : List Pin, (∀ q ∈ ps, q.stamp ≠ p.stamp) →
    pinFor (insertPin p ps) p.stamp = some p
  | [], _ => by simp [insertPin, pinFor]
  | q :: qs, fresh => by
    have later := pinFor_insertPin_same p qs fun x hx => fresh x (List.mem_cons_of_mem _ hx)
    have apart := fresh q List.mem_cons_self
    unfold insertPin
    split
    · simp [pinFor]
    · simpa [pinFor, apart] using later

theorem pinFor_insertPin_other (other : x ≠ p.stamp) : ∀ ps : List Pin, pinFor (insertPin p ps) x = pinFor ps x
  | [] => by simp [insertPin, pinFor, other.symm]
  | q :: qs => by
    have later := pinFor_insertPin_other other qs
    unfold insertPin
    split
    · simp [pinFor, other.symm]
    · simp only [pinFor, List.find?_cons] at later ⊢
      rw [later]

/-- A pin of a new stamp and a new handle put into a sound table with room (R86). -/
theorem insertPin_valid (sound : pinsValid ps) (room : ps.length < Config.pinRoom) (handle : handleValid p.handle)
    (stamp : ∀ q ∈ ps, q.stamp ≠ p.stamp) (apart : ∀ q ∈ ps, q.handle ≠ p.handle) : pinsValid (insertPin p ps) := by
  obtain ⟨-, ascending, distinct, handles⟩ := sound
  have perm := insertPin_perm p ps
  refine ⟨Nat.le_trans (Nat.le_of_eq perm.length_eq) room, insertPin_ascending p ps ascending apart, ?_, fun q hq => ?_⟩
  · refine (perm.map _).nodup_iff.2 (List.nodup_cons.2 ⟨fun twin => ?_, distinct⟩)
    obtain ⟨q, hq, same⟩ := List.mem_map.1 twin
    exact stamp q hq same
  · rcases List.mem_cons.1 (perm.mem_iff.1 hq) with rfl | hq
    · exact handle
    · exact handles q hq

/-! ### The table shown from a handle on (R89) -/

/-- More than so many pins stand in an ascending list if one of them is above all of the first ones. -/
theorem more_than_taken_iff (ascending : (ps.map (fun q => q.handle)).Pairwise (· < ·)) (n : Nat) :
    n < ps.length ↔ ∃ p ∈ ps, ∀ q ∈ ps.take n, q.handle < p.handle := by
  constructor
  · intro more
    refine ⟨ps[n], List.getElem_mem more, fun q hq => ?_⟩
    rw [← List.take_append_drop n ps, List.pairwise_map] at ascending
    exact (List.pairwise_append.1 ascending).2.2 q hq _ (List.drop_eq_getElem_cons more ▸ List.mem_cons_self)
  · rintro ⟨p, hp, above⟩
    refine Nat.lt_of_not_le fun few => ?_
    rw [List.take_of_length_le (few)] at above
    exact Nat.lt_irrefl _ (above p hp)

end Sys2Proof.Machine
end

section
/-! PIN, UNPIN and PINS (O43, O44): R86 to R89, Table 6-2, Table 11-3. -/

namespace Sys2Proof.Machine

variable {s : State} {tag : Byte} {st : Stamp} {h : Nat} {k : Option Byte} {ps : List Pin} {r : Rstr}

/-! ### The table of PIN (Table 6-2) -/

/-- The handle is pinned for another stamp. -/
def PinClash (ps : List Pin) (st : Stamp) (h : Nat) : Prop := ∃ p, pinAt ps h = some p ∧ p.stamp ≠ st

/-- An entry of another stamp holds the handle, or it is reserved. -/
def HandleTaken (r : Rstr) (st : Stamp) (h : Nat) : Prop := (∃ e, r.find h = some e ∧ e.stamp ≠ st) ∨ r.reserved = h

/-- There is no room for the pin of a new stamp. -/
def PinFull (ps : List Pin) (st : Stamp) : Prop := pinFor ps st = none ∧ 32 ≤ ps.length

theorem pinClash_iff : (pinAt ps h).any (fun p => p.stamp != st) = true ↔ PinClash ps st h := by
  simp only [PinClash, Option.any_eq_true, bne_iff_ne]

theorem handleTaken_iff : ((r.find h).any (fun e => e.stamp != st) || r.reserved == h) = true ↔ HandleTaken r st h := by
  simp only [HandleTaken, Bool.or_eq_true, Option.any_eq_true, bne_iff_ne, beq_iff_eq]

theorem pinFull_iff : ((pinFor ps st).isNone && decide (Config.pinRoom ≤ ps.length)) = true ↔ PinFull ps st := by
  simp only [PinFull, Bool.and_eq_true, Option.isNone_iff_eq_none, decide_eq_true_eq, Config.pinRoom]

theorem not_handleValid_iff : h = 0 ∨ Config.topHandle < h ↔ ¬handleValid h := by
  unfold handleValid
  omega

theorem pinRequest_badValue (outside : ¬handleValid h) : pinRequest ps r st h k = (.badValue, ps) :=
  if_pos (not_handleValid_iff.2 outside)

section InRange

variable (range : handleValid h)
include range

theorem pinRequest_pinClash (clash : PinClash ps st h) : pinRequest ps r st h k = (.pinClash, ps) := by
  rw [pinRequest, if_neg (fun outside => not_handleValid_iff.1 outside range), if_pos (pinClash_iff.2 clash)]

theorem pinRequest_handleTaken (clear : ¬PinClash ps st h) (taken : HandleTaken r st h) :
    pinRequest ps r st h k = (.handleTaken, ps) := by
  rw [pinRequest, if_neg (fun outside => not_handleValid_iff.1 outside range), if_neg (mt pinClash_iff.1 clear),
    if_pos (handleTaken_iff.2 taken)]

theorem pinRequest_pinFull (clear : ¬PinClash ps st h) (untaken : ¬HandleTaken r st h) (full : PinFull ps st) :
    pinRequest ps r st h k = (.pinFull, ps) := by
  rw [pinRequest, if_neg (fun outside => not_handleValid_iff.1 outside range), if_neg (mt pinClash_iff.1 clear),
    if_neg (mt handleTaken_iff.1 untaken), if_pos (pinFull_iff.2 full)]

theorem pinRequest_ok (clear : ¬PinClash ps st h) (untaken : ¬HandleTaken r st h) (room : ¬PinFull ps st) :
    pinRequest ps r st h k = (.ok, insertPin ⟨st, h, k⟩ (dropPin ps st)) := by
  rw [pinRequest, if_neg (fun outside => not_handleValid_iff.1 outside range), if_neg (mt pinClash_iff.1 clear),
    if_neg (mt handleTaken_iff.1 untaken), if_neg (mt pinFull_iff.1 room)]

/-- An accepted pin keeps the table sound (R86). -/
theorem accepted_valid (sound : pinsValid ps) (clear : ¬PinClash ps st h) (room : ¬PinFull ps st) :
    pinsValid (insertPin ⟨st, h, k⟩ (dropPin ps st)) := by
  refine insertPin_valid (dropPin_valid sound) ?_ range (fun q hq => (mem_dropPin.1 hq).2) fun q hq same => ?_
  · cases found : pinFor ps st with
    | none =>
      have spare : ps.length < 32 := Nat.not_le.1 fun many => room ⟨found, many⟩
      exact Nat.lt_of_le_of_lt (List.length_filter_le ..) spare
    | some p =>
      obtain ⟨held, stamp⟩ := pinFor_some found
      have fewer : (dropPin ps st).length < ps.length :=
        List.length_filter_lt_length_iff_exists.2 ⟨p, held, by simp [stamp]⟩
      exact Nat.lt_of_lt_of_le fewer sound.1
  · obtain ⟨hq, other⟩ := mem_dropPin.1 hq
    cases found : pinAt ps h with
    | none => exact pinAt_eq_none.1 found q hq same
    | some p =>
      obtain ⟨held, handle⟩ := pinAt_some found
      exact clear ⟨p, found, pin_eq_of_handle sound held hq (handle.trans same.symm) ▸ other⟩

end InRange

/-! ### Requests to PINS (R160, R161) -/

/-- A request taken in whose owner leaves a table of pins and answers at once. -/
theorem takeIn_pins {kind : Byte} {owner : State → State} {code : Result} {payload : List Byte} (takes : s.Takes tag)
    (does : owner (s.frameOver.reserveSlot tag kind) =
      ((s.frameOver.reserveSlot tag kind).withPins ps).answer tag code payload) :
    s.takeIn tag kind owner = { s with pins := ps, link := s.link.replied ⟨kind + 0x80#8, tag, code, payload⟩ } := by
  rw [takeIn_takes _ _ takes, does]
  obtain ⟨-, -, -, fresh⟩ := takes
  exact answer_reserved (s := s.frameOver.withPins ps) tag kind code payload fresh

theorem ownPin_eq {code : Result} (outcome : pinRequest s.pins s.rstr st h k = (code, ps)) :
    s.ownPin tag st h k = (s.withPins ps).answer tag code [] := by
  simp only [State.ownPin, outcome]

theorem exec_pin {b : Byte} {code : Result} (takes : s.Takes tag)
    (outcome : pinRequest s.pins s.rstr st b.toNat k = (code, ps)) : exec (.pin tag st b k) s =
      .next (State.kick { s with pins := ps, link := s.link.replied ⟨0x84#8, tag, code, []⟩ }) :=
  congrArg (fun t => Host.Outcome.next (State.kick t)) (takeIn_pins takes (ownPin_eq outcome))

theorem exec_unpin_found {p : Pin} (takes : s.Takes tag) (found : pinFor s.pins st = some p) : exec (.unpin tag st) s =
    .next (State.kick { s with pins := dropPin s.pins st, link := s.link.replied ⟨0x85#8, tag, .ok, []⟩ }) :=
  congrArg (fun t => Host.Outcome.next (State.kick t))
    (takeIn_pins takes (if_pos (Option.isSome_iff_exists.2 ⟨p, found⟩)))

theorem exec_unpin_unknown (takes : s.Takes tag) (unknown : pinFor s.pins st = none) : exec (.unpin tag st) s =
    .next (State.kick { s with link := s.link.replied ⟨0x85#8, tag, .notFound, []⟩ }) :=
  congrArg (fun t => Host.Outcome.next (State.kick t))
    (takeIn_pins takes (if_neg (Option.not_isSome_iff_eq_none.2 unknown)))

theorem exec_pins (takes : s.Takes tag) (first : Byte) : exec (.pins tag first) s =
    .next (State.kick { s with link := s.link.replied ⟨0x86#8, tag, .ok, pinsPayload s.pins first.toNat⟩ }) :=
  congrArg (fun t => Host.Outcome.next (State.kick t)) (takeIn_pins takes rfl)

theorem flagByte_decide (c : Prop) [Decidable c] : flagByte (decide c) = if c then 1#8 else 0#8 := by
  simp only [flagByte, decide_eq_true_eq]

/-- The pins at or above a handle, lowest first (R89). -/
def pinsFrom (ps : List Pin) (first : Nat) : List Pin := ps.filter (fun p => decide (first ≤ p.handle))

theorem mem_pinsFrom {p : Pin} {first : Nat} : p ∈ pinsFrom ps first ↔ p ∈ ps ∧ first ≤ p.handle := by
  simp only [pinsFrom, List.mem_filter, decide_eq_true_eq]

theorem pinsPayload_eq (first : Nat) : pinsPayload ps first =
    [byteOf ps.length, if 8 < (pinsFrom ps first).length then 1#8 else 0#8, byteOf ((pinsFrom ps first).take 8).length] ++
      ((pinsFrom ps first).take 8).flatMap Pin.bytes := by
  rw [← flagByte_decide]
  rfl

theorem pinsFrom_ascending (sound : pinsValid ps) (first : Nat) :
    ((pinsFrom ps first).map (fun p => p.handle)).Pairwise (· < ·) := by
  obtain ⟨-, ascending, -, -⟩ := sound
  exact ascending.sublist (List.filter_sublist.map _)

/-- No pin stands above the last handle (R86). -/
theorem pinsFrom_beyond {first : Nat} (sound : pinsValid ps) (beyond : Config.topHandle < first) : pinsFrom ps first = [] := by
  obtain ⟨-, -, -, handles⟩ := sound
  refine List.eq_nil_iff_forall_not_mem.2 fun p hp => ?_
  obtain ⟨held, above⟩ := mem_pinsFrom.1 hp
  exact absurd (Nat.lt_of_lt_of_le beyond above) (Nat.not_lt.2 (handles p held).2)

end Sys2Proof.Machine

open Sys2Proof Sys2Proof.Machine

/-- Settles O43, along the rows of Table 6-2. -/
theorem pinRequests : Obligations.PinRequests := by
  intro s tag st h k takes refused range clash taken full
  refine ⟨fun outside => ?_, fun inside clashes => ?_, fun inside clear held => ?_, fun inside clear untaken crowded => ?_,
    fun inside clear untaken room => ⟨insertPin ⟨st, h.toNat, k⟩ (dropPin s.pins st), ?_, ?_, fun x other => ?_, fun sound => ?_⟩⟩
  · exact exec_pin takes (pinRequest_badValue outside)
  · exact exec_pin takes (pinRequest_pinClash inside clashes)
  · exact exec_pin takes (pinRequest_handleTaken inside clear held)
  · exact exec_pin takes (pinRequest_pinFull inside clear untaken crowded)
  · exact exec_pin takes (pinRequest_ok inside clear untaken room)
  · exact pinFor_insertPin_same _ _ fun q hq => (mem_dropPin.1 hq).2
  · rw [pinFor_insertPin_other (p := ⟨st, h.toNat, k⟩) other, pinFor_dropPin_other other]
  · exact accepted_valid inside sound clear room

/-- Settles O44: UNPIN by the pin for the stamp, PINS by the pins at or above the handle. -/
theorem unpinAndPins : Obligations.UnpinAndPins := by
  intro s tag takes
  refine ⟨fun st p found => ⟨exec_unpin_found takes found, fun sound => pinAt_dropPin sound found⟩,
    fun st => exec_unpin_unknown takes, ?_⟩
  intro first above shown
  constructor
  · rw [exec_pins takes first, pinsPayload_eq]
    rfl
  · intro sound
    have ascending : (above.map (fun p => p.handle)).Pairwise (· < ·) := pinsFrom_ascending sound first.toNat
    have highest : (∃ p ∈ above, ∀ x ∈ shown, x.handle < p.handle) ↔
        ∃ p ∈ s.pins, first.toNat ≤ p.handle ∧ ∀ x ∈ shown, x.handle < p.handle :=
      exists_congr fun p => (and_congr_left' mem_pinsFrom).trans and_assoc
    exact ⟨ascending.sublist ((List.take_sublist 8 above).map _),
      fun beyond => congrArg (List.take 8) (pinsFrom_beyond sound beyond), (more_than_taken_iff ascending 8).trans highest⟩
end

section
/-! The replies of a flush, in order (O15): at a trip, at a session end, and at a PARK, whose own reply comes last. -/

namespace Sys2Proof.Machine

variable {s : State} {tag : Byte}

/-- The part with the discovery ended for a reason and JOBQ flushed (R116, R155). -/
def State.flushed (s : State) (why : AbortReason) (code : Result) : State := (s.abortDiscovery why .aborted).flushJobs code

/-- The discovery is answered first, then JOBQ, whatever the reason. -/
theorem flushed_answers (why : AbortReason) (code : Result) (ready : s.FlushReady) :
    s.link.Answers (s.flushed why code).link (s.flushSays code) := by
  obtain ⟨own, owed⟩ := ready
  rw [flushTags_eq .aborted] at own owed
  obtain ⟨-, ownJobs, apart⟩ := List.nodup_append.1 own
  have disc := abortDiscovery_answers why .aborted fun tag requested run =>
    owed tag (List.mem_append_left _ (by simp [State.discReplies, requested, run]))
  have jobq : (s.abortDiscovery why .aborted).jobq = s.jobq := by
    obtain ⟨d, held, replies, outstanding, notices, aborted⟩ := abortDiscovery_frame (s := s) why .aborted
    rw [aborted]
  have flush := flushJobs_answers code (jobq ▸ ownJobs) fun tag h =>
    disc.owed (owed tag (List.mem_append_right _ (jobq ▸ h))) fun mem => apart tag mem tag (jobq ▸ h) rfl
  rw [← endReplies_flushSays]
  exact disc.trans (jobq ▸ flush)

theorem lineOff_link : s.lineOff.link = s.link := rfl

theorem departAll_link : s.departAll.1.link = s.link := rfl

theorem raise_said (n : Notice) : (s.raise n).said = s.said := rfl

/-- After its flush a trip gives no reply (R21, R26). -/
theorem trip_says (cause : TripCause) (ready : s.FlushReady) : (s.trip cause).kick.said = s.said ++ s.flushSays .supplyOff := by
  rw [State.said, kick_replies]
  exact (flushed_answers .supply .supplyOff ready).said

/-- After its flush a session end gives no reply (R11, R12). -/
theorem endSession_says (cause : EndCause) (ready : s.FlushReady) :
    (s.endSession cause).kick.said = s.said ++ s.flushSays .sessionLost := by
  rw [State.said, kick_replies, ← endReplies_flushSays]
  exact (sessionEnd_answers .sessionLost .aborted ready).said

/-- The part flushed, unpowered and its roster departed by a PARK, before the PARK's own reply (R23). -/
def State.parkedOff (s : State) : State :=
  let off := (s.flushed .parked .parked).lineOff
  (off.withSsw { off.ssw.unpowered .off with parked := true }).departAll.1

theorem parkedOff_link : s.parkedOff.link = (s.flushed .parked .parked).link := by
  rw [State.parkedOff, departAll_link, withSsw_link, lineOff_link]

/-- After the reply of the PARK comes the SUPPLY notice alone (R23, R26). -/
theorem parkSupply_ends : ∃ n, s.parkSupply tag = (s.parkedOff.answer tag .ok []).raise n := ⟨_, rfl⟩

/-- The supply parked: the flush, and then the reply of the PARK (R23, R155). -/
theorem parkSupply_says (ready : s.FlushReady) (own : s.link.Owed tag) (apart : tag ∉ s.flushTags) :
    (s.parkSupply tag).said = s.said ++ (s.flushSays .parked ++ [(tag, .ok)]) := by
  have flush : s.link.Answers s.parkedOff.link (s.flushSays .parked) := by
    rw [parkedOff_link]
    exact flushed_answers .parked .parked ready
  have unflushed : tag ∉ (s.flushSays .parked).map Prod.fst := by
    rwa [← endReplies_flushSays, endReplies_tags]
  obtain ⟨n, ends⟩ := parkSupply_ends (s := s) (tag := tag)
  rw [ends, raise_said]
  exact (flush.trans (answer_answers .ok [] (flush.owed own unflushed))).said

/-- The part with the frame over and the slot of a PARK reserved (R158, R159). -/
def State.parkTaken (s : State) (tag : Byte) : State := s.frameOver.reserveSlot tag 0x12#8

/-- A PARK in MATED, not parked yet, parks the supply (R23). -/
theorem exec_park_accepted (takes : s.Takes tag) (mated : s.mmon.state = .mated) (unparked : s.ssw.parked = false) :
    exec (.park tag) s = .next ((s.parkTaken tag).parkSupply tag).kick := by
  have taken : s.takePark tag = (s.parkTaken tag).ownPark tag := takeIn_takes _ _ takes
  have parks : (s.parkTaken tag).ownPark tag = (s.parkTaken tag).parkSupply tag :=
    (if_neg (not_not_intro mated)).trans (if_neg (Bool.eq_false_iff.1 unparked))
  exact congrArg (fun t => Host.Outcome.next (State.kick t)) (taken.trans parks)

/-- What a flush answers stays owed beside the PARK just taken in. -/
theorem parkTaken_flushReady (ready : s.FlushReady) : (s.parkTaken tag).FlushReady := by
  obtain ⟨own, owed⟩ := ready
  refine ⟨own, fun x hx => ?_⟩
  obtain ⟨q, outstanding, named⟩ := owed x hx
  exact ⟨q, List.mem_append_left _ outstanding, named⟩

/-- The PARK's own request is answered after those of the flush (R155, R162). -/
theorem park_says (takes : s.Takes tag) (ready : s.FlushReady) :
    ((s.parkTaken tag).parkSupply tag).kick.said = s.said ++ s.flushSays .parked ++ [(tag, .ok)] := by
  have own : (s.parkTaken tag).link.Owed tag :=
    ⟨⟨tag, 0x12#8⟩, List.mem_append_right _ (List.mem_singleton_self _), rfl⟩
  have apart : tag ∉ (s.parkTaken tag).flushTags := tag_not_flushed (s := s) takes ready
  rw [State.said, kick_replies, List.append_assoc]
  exact parkSupply_says (parkTaken_flushReady ready) own apart

end Sys2Proof.Machine

open Sys2Proof Sys2Proof.Machine

/-- Settles O15: the discovery's end and the flush of JOBQ answer one after another, and only a PARK replies after them. -/
theorem flushAnswersInOrder : Obligations.FlushAnswersInOrder := by
  refine fun s ready =>
    ⟨fun holding timer => ?_, fun on timer => ?_, fun suspect timer => ?_, fun tag takes mated unparked => ?_⟩
  · exact ⟨_, if_pos ⟨holding, timer⟩, trip_says _ ready⟩
  · exact ⟨_, if_pos ⟨on, timer⟩, trip_says _ ready⟩
  · exact ⟨_, if_pos ⟨suspect, timer⟩, endSession_says _ ready⟩
  · exact ⟨_, exec_park_accepted takes mated unparked, park_says takes ready⟩
end

section
/-! SUPPORT. What a CALL round makes of the stack of frames, and what the rounds of the walk leave behind (R39, R97, R103 to R106). -/

namespace Sys2Proof.Machine

variable {s t : State} {op : LineOp} {w : DiscWork} {slots : List LowSample}

/-! ### The end of a round -/

/-- The part with a round ended and the capture unit at its last slot (R29, R39). -/
def State.roundOver (s : State) (slots : List LowSample) : State :=
  { s with line := s.line.endedWith s.link.settings (roundLast s.line.beat slots) }

theorem exec_callDone {ds : List Nibble} (runs : s.Runs (.call ds) op) (holds : s.Holds (.disc w)) : exec (.callDone slots) s =
    .next ((((s.roundOver slots).called w.frame (answeredSlots s.line.beat slots)).regrant s).kick) := by
  obtain ⟨flight, kind⟩ := runs
  obtain ⟨k, a, trim, frame, gap⟩ := op
  subst kind
  show execCallDone slots s = _
  simp only [execCallDone, flight, State.work, show s.jobq.grant = _ from holds, Option.map_some]
  rfl

theorem exec_echoDone {st : Stamp} (runs : s.Runs (.echo st) op) (holds : s.Holds (.disc w)) : exec (.echoDone slots) s =
    .next ((((s.roundOver slots).echoed (answeredSlots s.line.beat slots)).regrant s).kick) := by
  obtain ⟨flight, kind⟩ := runs
  obtain ⟨k, a, trim, frame, gap⟩ := op
  subst kind
  show execEchoDone slots s = _
  simp only [execEchoDone, flight, State.work, show s.jobq.grant = _ from holds, Option.map_some]
  rfl

/-! ### The stack of frames (R103, R104) -/

/-- DISC with a frame pushed for each answered slot, the lowest on top; the lowest slots find no room when the stack fills up. -/
def Disc.pushed (d : Disc) (f : List Nibble) (hit : List Nat) : Disc :=
  let room := 48 - d.frames.length
  { d with
    frames := (hit.drop (hit.length - room)).map (fun n => f ++ [BitVec.ofNat 4 n]) ++ d.frames
    pass := { d.pass with overflowed := d.pass.overflowed || decide (room < hit.length) } }

theorem pushed_nil (d : Disc) (f : List Nibble) : d.pushed f [] = d := by
  simp [Disc.pushed]

theorem pushed_frames_length (d : Disc) (f : List Nibble) (hit : List Nat) :
    (d.pushed f hit).frames.length = min hit.length (48 - d.frames.length) + d.frames.length := by
  simp only [Disc.pushed, List.length_append, List.length_map, List.length_drop]
  omega

/-- One more push, of a slot below those pushed. -/
theorem pushFrame_pushed (d : Disc) (f : List Nibble) (n : Nat) (hit : List Nat) :
    pushFrame (d.pushed f hit) (f ++ [BitVec.ofNat 4 n]) = d.pushed f (n :: hit) := by
  have deep := pushed_frames_length d f hit
  by_cases full : 48 - d.frames.length ≤ hit.length
  · have beyond : 48 - d.frames.length < hit.length + 1 := Nat.lt_succ_of_le full
    rw [pushFrame, if_pos (show 48 ≤ (d.pushed f hit).frames.length by omega)]
    simp [Disc.pushed, Nat.succ_sub full, beyond]
  · have fits : hit.length + 1 ≤ 48 - d.frames.length := Nat.lt_of_not_le full
    have fit : hit.length ≤ 48 - d.frames.length := Nat.le_of_succ_le fits
    rw [pushFrame, if_neg (show ¬48 ≤ (d.pushed f hit).frames.length by omega)]
    simp [Disc.pushed, Nat.sub_eq_zero_of_le fits, Nat.sub_eq_zero_of_le fit, Nat.not_lt.2 fits, Nat.not_lt.2 fit]

/-- The pushes of a round, highest slot first. -/
theorem foldl_pushFrame (d : Disc) (f : List Nibble) (hit : List Nat) :
    hit.reverse.foldl (fun d n => pushFrame d (f ++ [digitOf n])) d = d.pushed f hit := by
  rw [List.foldl_reverse]
  induction hit with
  | nil => exact (pushed_nil d f).symm
  | cons n hit ih => rw [List.foldr_cons, ih]; exact pushFrame_pushed d f n hit

/-- A round above the leaf pushes its frames; one at 11 digits without an answered slot changes nothing (R103, R105). -/
theorem called_pushes {f : List Nibble} {hit : List Nat} (above : f.length + 1 < 12 ∨ hit = []) :
    s.called f hit = State.stepDone { s with disc := s.disc.pushed f hit } := by
  rcases Nat.lt_or_ge (f.length + 1) 12 with short | full
  · rw [State.called, if_pos short, foldl_pushFrame]
    rfl
  · obtain rfl := above.resolve_left (Nat.not_lt.2 full)
    rw [State.called, if_neg (Nat.not_lt.2 full), pushed_nil]
    rfl

/-- A round at 11 digits makes the leaf record of its lowest answered slot (R105). -/
theorem called_leaf {f : List Nibble} {d : Nat} {rest : List Nat} (full : 12 ≤ f.length + 1) :
    s.called f (d :: rest) = State.stepDone { s with disc := { s.disc with
      leaf := some (Leaf.first f (digitOf d) (rest.map digitOf)) } } := by
  rw [State.called, if_neg (Nat.not_lt.2 full)]
  rfl

/-! ### The tries of a leaf (R106) -/

/-- The leaf once its tries are over, the answered slots of the last one its nonces to name. -/
def Leaf.tried (l : Leaf) (hit : List Nat) : Leaf :=
  { l with tries := l.tries + 1, nonces := some hit, twins := decide (2 ≤ hit.length) }

section Tries
variable {l : Leaf} {limit : Nat} {hit : List Nat} (leaf : s.disc.leaf = some l) (bound : l.tryLimit = some limit)
include leaf bound

theorem echoed_again (few : hit.length < 2) (more : l.tries + 1 < limit) :
    s.echoed hit = State.stepDone (s.putLeaf (some { l with tries := l.tries + 1 })) := by
  have goes : ¬(2 ≤ hit.length ∨ l.tryLimit.getD 0 ≤ l.tries + 1) := by
    rw [bound, Option.getD_some]
    omega
  simp only [State.echoed, leaf, goes, if_false]

theorem echoed_nonces (found : hit ≠ []) (ended : 2 ≤ hit.length ∨ limit ≤ l.tries + 1) :
    s.echoed hit = State.stepDone (s.putLeaf (some (l.tried hit))) := by
  have ends : 2 ≤ hit.length ∨ l.tryLimit.getD 0 ≤ l.tries + 1 := by rwa [bound, Option.getD_some]
  simp only [State.echoed, leaf, ends, found, if_true, if_false]
  rfl

/-- The last try without an answered slot: a phantom. -/
theorem echoed_phantom (last : limit ≤ l.tries + 1) : s.echoed [] = State.stepDone
    ((s.record (fun r => { r with phantoms := min (r.phantoms + 1) 255 })).putLeaf (some (l.tried []))) := by
  have ends : 2 ≤ ([] : List Nat).length ∨ l.tryLimit.getD 0 ≤ l.tries + 1 := .inr (by rwa [bound, Option.getD_some])
  simp only [State.echoed, leaf, ends, if_true]
  rfl

end Tries

/-! ### The step over while DISC walks (R97) -/

section Walks
variable {b : State} (walks : t.Walks)
include walks

theorem stepDone_leaf {l : Leaf} (leaf : t.disc.leaf = some l) :
    t.stepDone = State.leafNext { t with jobq := t.jobq.released } l := by
  obtain ⟨running, drop, top, below, levels, walking⟩ := walks
  exact (if_neg (Bool.eq_false_iff.1 running)).trans
    (discNext_leaf (s := { t with jobq := t.jobq.released }) levels drop walking leaf)

theorem stepDone_walk (leaf : t.disc.leaf = none) : t.stepDone = State.walkNext { t with jobq := t.jobq.released } := by
  obtain ⟨running, drop, top, below, levels, walking⟩ := walks
  exact (if_neg (Bool.eq_false_iff.1 running)).trans
    (discNext_walk (s := { t with jobq := t.jobq.released }) levels drop walking leaf)

theorem onward_walk (leaf : t.disc.leaf = none) :
    t.onward b = ((State.walkNext { t with jobq := t.jobq.released }).regrant b).kick := by
  rw [← stepDone_walk walks leaf]
  obtain ⟨running, -, -⟩ := walks
  exact (stepDone_onward running).symm

end Walks

end Sys2Proof.Machine
end

section
/-! CALL_DONE and ECHO_DONE (O18, O19): the holder's step is over, and DISC goes on with what the round has left it. -/

namespace Sys2Proof.Machine

variable {s : State} {op : LineOp} {w : DiscWork} {slots : List LowSample}

/-- The part with a CALL round over and its frames pushed, DISC without the line (R103, R104). -/
def State.callOver (s : State) (f : List Nibble) (slots : List LowSample) : State := { s.roundOver slots with
  jobq := s.jobq.released, disc := s.disc.pushed f (answeredSlots s.line.beat slots) }

/-- The end of a CALL round that leaves no leaf in hand goes on with the frames. -/
theorem exec_callDone_pushes {ds : List Nibble} (runs : s.Runs (.call ds) op) (holds : s.Holds (.disc w)) (walks : s.Walks)
    (leaf : s.disc.leaf = none) (above : w.frame.length + 1 < 12 ∨ answeredSlots s.line.beat slots = []) :
    exec (.callDone slots) s = .next (((s.callOver w.frame slots).walkNext.regrant s).kick) := by
  have next := stepDone_walk (t := { s.roundOver slots with disc := s.disc.pushed w.frame (answeredSlots s.line.beat slots) })
    walks leaf
  rw [exec_callDone runs holds, called_pushes (s := s.roundOver slots) above]
  exact congrArg (fun u => Host.Outcome.next (State.regrant u s).kick) next

/-- A round without an answered slot leaves DISC as it is. -/
theorem callOver_silent (f : List Nibble) (silent : answeredSlots s.line.beat slots = []) :
    s.callOver f slots = { s.roundOver slots with jobq := s.jobq.released } := by
  rw [State.callOver, silent, pushed_nil]
  rfl

end Sys2Proof.Machine

open Sys2Proof Sys2Proof.Machine

/-- Settles O18: the pushes of a round make one stack, and with no frame left the pass ends. -/
theorem callPushesFrames : Obligations.CallPushesFrames := by
  intro s op ds w slots runs holds walks hit room fs line after
  refine ⟨fun leaf begun above => ?_, fun d rest full answered => ?_⟩
  · have pushes := exec_callDone_pushes runs holds walks leaf above
    refine ⟨fun left => ?_, fun silent empty again => ?_, fun top below silent empty last levels => ?_⟩
    · rw [walkNext_call (s := s.callOver w.frame slots) begun left, ask_eq] at pushes
      exact pushes
    · rw [callOver_silent _ silent, walkNext_passEnd (by exact begun) (by exact empty), passEnd_again (by exact again), ask_eq]
        at pushes
      exact pushes
    · obtain ⟨-, drop, -⟩ := walks
      rw [callOver_silent _ silent, walkNext_passEnd (by exact begun) (by exact empty),
        passEnd_last (by exact levels) (by exact drop) (by exact last)] at pushes
      exact pushes
  · have next := exec_callDone (slots := slots) runs holds
    rw [show answeredSlots s.line.beat slots = d :: rest from answered, called_leaf full,
      stepDone_leaf (by exact walks) rfl, leafNext_echo rfl rfl, ask_eq] at next
    exact next

/-- Settles O19, by what the round and the tries so far leave: another try, nonces to name, or a phantom. -/
theorem echoEndsTries : Obligations.EchoEndsTries := by
  intro s op st w slots l limit runs holds walks leaf calib nonces bound hit after
  have ends := exec_echoDone (slots := slots) runs holds
  refine ⟨fun few more => ?_, fun found ended => ?_, fun silent last => ?_⟩
  · rw [echoed_again (s := s.roundOver slots) leaf bound few more, stepDone_leaf (by exact walks) rfl,
      leafNext_echo (by exact calib) (by exact nonces), ask_eq] at ends
    exact ends
  · obtain ⟨n, ns, answered⟩ := List.exists_cons_of_ne_nil found
    rw [echoed_nonces (s := s.roundOver slots) leaf bound found ended, stepDone_leaf (by exact walks) rfl,
      leafNext_naming (by exact calib) (by exact congrArg some answered), ask_eq] at ends
    exact ends
  · rw [show answeredSlots s.line.beat slots = [] from silent, echoed_phantom (s := s.roundOver slots) leaf bound last,
      stepDone_leaf (by exact walks) rfl] at ends
    refine ⟨fun d ds more => ?_, fun final => ?_⟩
    · rw [leafNext_following (by exact calib) rfl (by exact more), ask_eq] at ends
      exact ends
    · rw [leafNext_over (by exact calib) rfl (by exact final)] at ends
      rw [onward_walk (by exact walks) rfl]
      exact ends
end

section
/-! The end of a leg settle, at which the switch goes on for whoever holds the line (O30). -/

namespace Sys2Proof.Machine

variable {s : State} {w : Work} {sw : Switch}

/-! ### LEG_SETTLE_EXPIRY (R124, R125) -/

section Expiry
variable (grant : s.jobq.grant = some ⟨w, some sw, none⟩) (runs : sw.settle.isSome = true)
include grant runs

/-- Outside MATED, or with the line not idle, the switch is marked to go on at the return (R125). -/
theorem exec_legSettleExpiry_waits (away : s.mmon.state ≠ .mated ∨ s.line.state ≠ .idle) : exec .legSettleExpiry s = .next
    { s with jobq := { s.jobq with grant := some ⟨w, some { sw with settle := none, resume := true }, none⟩ } } := by
  have stays : ¬(s.mmon.state = .mated ∧ s.line.state = .idle) := fun ⟨mated, idle⟩ => away.elim (· mated) (· idle)
  show execLegSettleExpiry s = _
  simp only [execLegSettleExpiry, State.putSwitch, grant, runs, stays, if_true, if_false, Option.map_some]
  rfl

theorem exec_legSettleExpiry_goes (mated : s.mmon.state = .mated) (idle : s.line.state = .idle) :
    exec .legSettleExpiry s = .next (State.kick (State.regrant (State.switchWent (s.switchNext sw) w) s)) := by
  show execLegSettleExpiry s = _
  simp only [execLegSettleExpiry, grant, runs, mated, idle, and_self, if_true]

end Expiry

/-! ### A leg opened by DISC (R128, R129) -/

/-- A step that ends with a level pushed: DISC walks the new segment, its first pass not begun, and asks for its hail (R102, R129). -/
theorem pushLevel_stepDone (route : Route) (entry : Option RouteStep) (running : s.disc.cancelled = false)
    (drop : s.disc.pendingDrop = none) : (s.pushLevel route entry).stepDone = { s.pushLevel route entry with
      jobq := s.jobq.released, disc := (s.pushLevel route entry).disc.decided .hail } :=
  calc (s.pushLevel route entry).stepDone
    _ = State.discNext { s.pushLevel route entry with jobq := s.jobq.released } := stepDone_of_running running
    _ = State.walkNext { s.pushLevel route entry with jobq := s.jobq.released } := discNext_walk rfl drop rfl rfl
    _ = State.ask { s.pushLevel route entry with jobq := s.jobq.released } .hail := walkNext_first rfl
    _ = _ := ask_eq .hail

section Opening
variable {d : DiscWork} (grant : s.jobq.grant = some ⟨.disc d, some sw, none⟩) (opens : sw.purpose = .opening)
  (target : sw.target = s.line.route)
include grant opens target

/-- An opening that has reached its target ends with the status of its leg. -/
theorem switchWent_opened : State.switchWent (s.switchNext sw) (.disc d) =
    State.openingEnded { s with jobq := s.jobq.granted (.disc d) } ⟨.done, sw.afresh⟩ := by
  have purpose : sw.afresh.purpose = .opening := opens
  rw [switchNext_done grant target]
  simp only [State.switchWent, State.switchEnded, purpose]

/-- A CONNECTED leg: DISC goes one level deeper (R129). -/
theorem switchWent_connected (status : sw.status = some 1) (running : s.disc.cancelled = false)
    (drop : s.disc.pendingDrop = none) :
    State.switchWent (s.switchNext sw) (.disc d) = { s.pushLevel s.line.route s.disc.cursorStep with
      jobq := s.jobq.released, disc := (s.pushLevel s.line.route s.disc.cursorStep).disc.decided .hail } := by
  rw [switchWent_opened grant opens target]
  exact (if_pos status).trans
    (pushLevel_stepDone (s := { s with jobq := s.jobq.granted (.disc d) }) _ _ running drop)

/-- An EMPTY leg: DISC closes it under the same grant (R128, log 44). -/
theorem switchWent_empty {st : RouteStep} (status : sw.status = some 2) (route : s.line.route = s.disc.levelRoute ++ [st]) :
    State.switchWent (s.switchNext sw) (.disc d) = { s with
      line := s.line.started (s.lineOp (.legClose st.leg) st.junction)
      jobq := { s.jobq with grant := some ⟨.disc d, some ⟨.closing, s.disc.levelRoute, s.disc.levelRoute.length, sw.retries,
        s.link.settings.legSettleMs, 0, none, false, none, false⟩, none⟩ } } := by
  have empty : sw.afresh.status ≠ some 1 := by simp [Switch.afresh, status]
  rw [switchWent_opened grant opens target]
  exact (if_neg empty).trans (closeLeg_eq (s := { s with jobq := s.jobq.granted (.disc d) }) sw.retries rfl route)

end Opening

end Sys2Proof.Machine

open Sys2Proof Sys2Proof.Machine

/-- Settles O30: the settle's end is kept for the return or lets the switch go on, and DISC's opening at its target ends by the
status of its leg. -/
theorem legSettleEnds : Obligations.LegSettleEnds := by
  refine ⟨fun s w sw grant runs away => exec_legSettleExpiry_waits grant runs away, fun s w sw grant runs mated idle => ?_⟩
  have goes := exec_legSettleExpiry_goes grant runs mated idle
  refine ⟨fun v on => ?_, fun d work running => ⟨fun opens target status drop => ?_, fun st opens target status route => ?_⟩⟩
  · rw [goes, switchWent_of_goesOn grant on]
  · subst work
    rw [goes, switchWent_connected grant opens target status running drop]
    rfl
  · subst work
    rw [goes, switchWent_empty grant opens target status route, regrant_of_holder rfl]
end

section
/-! SUPPORT. The buffers and settings that every request and every shared operation keeps in their bounds: LINK's slots and
notices, the settings table and the BEAT in use, and the lanes (R138, R139, R160, R162, R163, R166, R167). -/

namespace Sys2Proof.Machine

variable {s t x : State}

/-- `t` is sound in its slots, notices, settings and lanes where `s` is. -/
structure BuffersKept (s t : State) : Prop where
  slots : s.SlotsBounded → t.SlotsBounded
  notices : s.NoticesDistinct → t.NoticesDistinct
  settings : s.SettingsSound → t.SettingsSound
  lanes : s.LanesBounded → t.LanesBounded

theorem BuffersKept.refl : BuffersKept s s := ⟨id, id, id, id⟩

theorem BuffersKept.trans (h : BuffersKept s t) (k : BuffersKept t x) : BuffersKept s x :=
  ⟨k.slots ∘ h.slots, k.notices ∘ h.notices, k.settings ∘ h.settings, k.lanes ∘ h.lanes⟩

/-- The last of two changes, after the first. -/
theorem BuffersKept.after (k : BuffersKept t x) (h : BuffersKept s t) : BuffersKept s x := h.trans k

/-- The work of a holder frees slots and lanes, and leaves the settings and BEAT alone. -/
theorem Kept.buffers (h : Kept s t) : BuffersKept s t where
  slots bounded := Nat.le_trans h.slots bounded
  notices := h.notices
  settings := fun ⟨table, beat⟩ => ⟨h.settings ▸ table, h.beat ▸ beat⟩
  lanes := fun ⟨urgent, normal⟩ => ⟨Nat.le_trans h.urgent urgent, Nat.le_trans h.normal normal⟩

/-- What the buffers' bounds speak of, LINK's slots apart. -/
def State.unslotted (s : State) : List Notice × Settings × Nat × List Job × List Job :=
  (s.link.notices, s.link.settings, s.line.beat, s.jobq.urgent, s.jobq.normal)

/-- A change that takes or frees slots, and leaves the other buffers and the settings as they are. -/
theorem BuffersKept.of_slots (slots : s.SlotsBounded → t.SlotsBounded) (same : t.unslotted = s.unslotted) :
    BuffersKept s t := by
  simp only [State.unslotted, Prod.mk.injEq] at same
  obtain ⟨notices, settings, beat, urgent, normal⟩ := same
  exact ⟨slots, fun distinct => by rw [State.NoticesDistinct, notices]; exact distinct,
    fun sound => by rw [State.SettingsSound, settings, beat]; exact sound,
    fun bounded => by rw [State.LanesBounded, urgent, normal]; exact bounded⟩

/-- A change outside the buffers and settings. -/
theorem BuffersKept.of_same (link : t.link = s.link) (same : t.unslotted = s.unslotted) : BuffersKept s t :=
  .of_slots (fun bounded => by rw [State.SlotsBounded, link]; exact bounded) same

/-! ### LINK (R158 to R163) -/

theorem buffers_kick : BuffersKept s s.kick where
  slots bounded := by rw [State.SlotsBounded, kick_replies, kick_outstanding]; exact bounded
  notices distinct := by
    rcases kick_notices (s := s) with all | ⟨n, sent⟩
    · rw [State.NoticesDistinct, all]; exact distinct
    · rw [State.NoticesDistinct, sent, List.map_cons] at distinct
      exact distinct.of_cons
  settings sound := by rw [State.SettingsSound, kick_settings, kick_line]; exact sound
  lanes bounded := by rw [State.LanesBounded, kick_jobq]; exact bounded

theorem buffers_frameOver : BuffersKept s s.frameOver := .of_slots id rfl

theorem buffers_putFrame (rx : RxState) (f : List Byte) : BuffersKept s (s.putFrame rx f) := .of_slots id rfl

/-- A reply goes into a slot that is free (R160). -/
theorem buffers_pushReply (r : Reply) (room : s.link.freeSlots ≠ 0) : BuffersKept s (s.pushReply r) := by
  refine .of_slots (fun _ => ?_) rfl
  simp only [Link.freeSlots] at room
  simp only [State.SlotsBounded, State.pushReply, withLink_link, List.length_append, List.length_singleton]
  omega

/-- A frame taken in reserves a slot that is free, or is refused by a reply in one (R159, R161). -/
theorem buffers_takeIn (tag kind : Byte) {owner : State → State} (does : ∀ y, BuffersKept y (owner y)) :
    BuffersKept s (s.takeIn tag kind owner) := by
  unfold State.takeIn
  split
  · exact .refl
  · dsimp only
    refine buffers_frameOver.trans ?_
    split
    · exact .refl
    · next room =>
      split
      · exact buffers_pushReply _ room
      · split
        · exact buffers_pushReply _ room
        · exact .trans (.of_slots (fun _ => reserveSlot_slots tag kind room) rfl) (does _)

theorem buffers_takeBad (tag kind : Byte) : BuffersKept s (s.takeBad tag kind) := by
  unfold State.takeBad
  split
  · exact .refl
  · dsimp only
    refine buffers_frameOver.trans ?_
    split
    · exact .refl
    · next room => exact buffers_pushReply _ room

theorem buffers_badCheck : BuffersKept s s.badCheck := by
  unfold State.badCheck
  split
  · exact .refl
  · dsimp only
    refine buffers_frameOver.trans ?_
    split
    · exact .refl
    · next room => exact buffers_pushReply _ room

theorem buffers_answer (tag : Byte) (r : Result) (p : List Byte) : BuffersKept s (s.answer tag r p) :=
  (kept_answer tag r p (.refl s)).buffers

theorem buffers_raise (n : Notice) : BuffersKept s (s.raise n) := (kept_raise n (.refl s)).buffers

/-! ### Settings (R166, R167) -/

theorem bring_range {lo hi v : Nat} (h : lo ≤ hi) : lo ≤ bring lo hi v ∧ bring lo hi v ≤ hi := by
  unfold bring; omega

theorem bringBeat_valid (v : Nat) : beatValid (bringBeat v) = true := by
  unfold bringBeat
  split
  · rfl
  · split <;> rfl

/-- The ranges of Table 10-4 are not empty. -/
theorem settingRange_le {id lo hi : Nat} (range : settingRange id = some (lo, hi)) : lo ≤ hi := by
  unfold settingRange at range
  split at range <;> cases range <;> decide

/-- A value in the range of its setting keeps the table valid. -/
theorem store_valid {t : Settings} {id v lo hi : Nat} (range : settingRange id = some (lo, hi)) (low : lo ≤ v) (high : v ≤ hi)
    (valid : t.valid = true) : (t.store id v).valid = true := by
  simp only [Settings.valid, Bool.and_eq_true, decide_eq_true_eq] at valid
  obtain ⟨⟨⟨beat, power⟩, line⟩, work⟩ := valid
  unfold settingRange at range
  split at range <;> cases range
  all_goals
    simp only [Settings.valid, Settings.store, Bool.and_eq_true, decide_eq_true_eq]
    exact ⟨⟨⟨beat, by omega⟩, by omega⟩, by omega⟩

/-- The enumerated settings have no range to leave. -/
theorem store_code_valid {t : Settings} {id v n : Nat} (codes : settingCodes id = some n) : (t.store id v).valid = t.valid := by
  unfold settingCodes at codes
  split at codes <;> cases codes <;> rfl

theorem set_valid {t t' : Settings} {id v : Nat} {code : Result} (stored : t.set id v = some (t', code))
    (valid : t.valid = true) : t'.valid = true := by
  unfold Settings.set at stored
  split at stored
  · next range =>
    cases stored
    obtain ⟨low, high⟩ := bring_range (v := v) (settingRange_le range)
    exact store_valid range low high valid
  · split at stored
    · next codes =>
      split at stored
      · cases stored
        exact (store_code_valid codes).trans valid
      · cases stored
    · cases stored

/-- The settings table replaced by a valid one, and the deferred mark beside it. -/
theorem buffers_settings {table : Settings} (deferred : Bool) (valid : s.link.settings.valid = true → table.valid = true) :
    BuffersKept s (s.withLink { s.link with settings := table, deferred }) :=
  ⟨id, id, fun ⟨old, beat⟩ => ⟨valid old, beat⟩, id⟩

theorem buffers_ownSetBeat (tag : Byte) (v : Nat) : BuffersKept s (s.ownSetBeat tag v) := by
  refine (buffers_settings _ fun valid => ?_).trans (buffers_answer ..)
  simp only [Settings.valid, Bool.and_eq_true] at valid ⊢
  obtain ⟨⟨⟨-, times⟩, line⟩, rest⟩ := valid
  exact ⟨⟨⟨bringBeat_valid v, times⟩, line⟩, rest⟩

theorem buffers_resetKeepalive (ms : Nat) : BuffersKept s (s.resetKeepalive ms) := by
  unfold State.resetKeepalive
  split
  · exact .of_same rfl rfl
  · split
    · exact .of_same rfl rfl
    · exact .refl

theorem buffers_ownSetKeepalive (tag : Byte) (v : Nat) : BuffersKept s (s.ownSetKeepalive tag v) := by
  obtain ⟨low, high⟩ := bring_range (v := v) (show 0 ≤ 5000 by omega)
  have stored : BuffersKept s (s.putSettings { s.link.settings with keepaliveMs := bring 0 5000 v }) :=
    buffers_settings s.link.deferred (store_valid (id := 0x0A) rfl low high)
  exact (stored.trans (buffers_resetKeepalive _)).trans (buffers_answer ..)

theorem buffers_ownSet (tag id : Byte) (v : Nat) : BuffersKept s (s.ownSet tag id v) := by
  unfold State.ownSet
  split
  · exact buffers_ownSetBeat tag v
  · split
    · exact buffers_ownSetKeepalive tag v
    · split
      · exact buffers_answer ..
      · next stored => exact (buffers_settings s.link.deferred (set_valid stored)).trans (buffers_answer ..)

/-! ### JOBQ (R138, R139, R155, R156) -/

/-- A lane holds as many jobs as it has room for (R138). -/
abbrev State.LaneFull (s : State) (urgent : Bool) : Prop :=
  if urgent then 4 ≤ s.jobq.urgent.length else 12 ≤ s.jobq.normal.length

theorem laneRefusal_eq (urgent : Bool) : s.laneRefusal urgent = if s.LaneFull urgent then some .queueFull else none := rfl

theorem laneRefusal_none {urgent : Bool} (room : s.laneRefusal urgent = none) : ¬s.LaneFull urgent := fun full => by
  rw [laneRefusal_eq, if_pos full] at room
  cases room

/-- A job joins a lane that has room (R138). -/
theorem buffers_enqueue (j : Job) (room : s.laneRefusal j.urgent = none) : BuffersKept s (s.enqueue j) where
  slots := id
  notices := id
  settings := id
  lanes := fun ⟨urgent, normal⟩ => by
    have free := laneRefusal_none room
    simp only [State.LanesBounded, Config.urgentRoom, Config.normalRoom] at urgent normal ⊢
    cases lane : j.urgent <;> simp only [State.LaneFull, State.enqueue, lane, Bool.false_eq_true, if_true, if_false,
      withJobq_jobq, List.length_append, List.length_singleton] at free ⊢ <;> omega

theorem buffers_arbitrate : BuffersKept s s.arbitrate := (kept_arbitrate (.refl s)).buffers

theorem buffers_ownJob (tag : Byte) (h : Nat) (urgent : Bool) (k : JobKind) : BuffersKept s (s.ownJob tag h urgent k) := by
  unfold State.ownJob
  split
  · exact buffers_answer ..
  · next accepted =>
    simp only [State.jobRefusal, Option.or_eq_none_iff] at accepted
    obtain ⟨-, -, -, room⟩ := accepted
    exact (buffers_enqueue _ room).trans buffers_arbitrate

theorem buffers_ownWake (tag count low high : Byte) : BuffersKept s (s.ownWake tag count low high) := by
  unfold State.ownWake
  split
  · exact buffers_answer ..
  · next accepted =>
    obtain ⟨-, room⟩ := Option.or_eq_none_iff.1 accepted
    exact (buffers_enqueue _ room).trans buffers_arbitrate

theorem buffers_ownSweep (tag : Byte) (count : Nat) (stop : Bool) (interval : Nat) :
    BuffersKept s (s.ownSweep tag count stop interval) := by
  unfold State.ownSweep
  split
  · exact buffers_answer ..
  · exact (kept_arbitrate (kept_sweepLook (kept_putSweep _ (.refl s)))).buffers

theorem buffers_ownForget (tag : Byte) (h : Nat) : BuffersKept s (s.ownForget tag h) := by
  unfold State.ownForget
  split
  · exact buffers_answer ..
  · split
    · exact buffers_answer ..
    · exact buffers_answer ..
    · exact (kept_answer _ _ _ (kept_removeTree h (.refl s))).buffers
    · unfold State.forgetSilent
      split
      · exact buffers_answer ..
      · split
        · exact buffers_answer ..
        · next accepted =>
          obtain ⟨-, room⟩ := Option.or_eq_none_iff.1 accepted
          exact (buffers_enqueue _ room).trans buffers_arbitrate

/-- A flush empties the lanes and answers requests that hold slots (R155). -/
theorem kept_flushJobs (code : Result) : Kept s (s.flushJobs code) := by
  rw [flushJobs_eq]
  have emptied : Kept s s.unqueued := kept_withJobq _ (.refl s) (Nat.zero_le _) (Nat.zero_le _)
  exact kept_endSweep _ (emptied.trans (same_answerJobs code s.jobq.jobs).toSame.kept)

/-! ### The end of a discovery, and LINE OFF (R28, R116) -/

theorem kept_abortDiscovery (why : AbortReason) (code : Result) : Kept s (s.abortDiscovery why code) := by
  unfold State.abortDiscovery
  split
  · exact kept_endDiscovery _ _ _ (.refl s)
  · split
    · exact kept_withDisc_none _ (.refl s) rfl (Nat.zero_le _)
    · exact .refl s

/-- An operation cut short leaves BEAT as it is. -/
theorem unslotted_cut (same : t.unslotted = (s.withLine s.line.cut).unslotted) : t.unslotted = s.unslotted := by
  rw [same, State.unslotted, withLine_line, cut_beat]
  rfl

theorem buffers_lineOff : BuffersKept s s.lineOff := .of_same rfl (unslotted_cut rfl)

/-- An end of the discovery, the flush of JOBQ and LINE OFF, as a trip, a PARK and a session end begin. -/
theorem buffers_flushedOff (why : AbortReason) (discCode code : Result) :
    BuffersKept s ((s.abortDiscovery why discCode).flushJobs code).lineOff :=
  ((kept_abortDiscovery why discCode).trans (kept_flushJobs code)).buffers.trans buffers_lineOff

/-! ### The supply (R16, R21 to R24) -/

theorem buffers_rampStart : BuffersKept s s.rampStart := .of_same rfl rfl

theorem buffers_departAll : BuffersKept s s.departAll.1 := .of_same rfl rfl

theorem buffers_trip (cause : TripCause) : BuffersKept s (s.trip cause) :=
  (buffers_flushedOff .supply .aborted .supplyOff).trans ((buffers_raise _).after (.of_same rfl rfl))

theorem buffers_parkSupply (tag : Byte) : BuffersKept s (s.parkSupply tag) :=
  (buffers_flushedOff .parked .aborted .parked).trans
    ((buffers_raise _).after ((buffers_answer tag .ok []).after (.of_same rfl rfl)))

theorem buffers_cycle : BuffersKept s s.cycle :=
  (same_dropHolder .supplyOff).kept.buffers.trans (buffers_lineOff.trans (.of_same rfl rfl))

theorem buffers_arm : BuffersKept s s.arm := by
  rw [arm_eq]
  exact .of_same rfl rfl

theorem buffers_ownPark (tag : Byte) : BuffersKept s (s.ownPark tag) := by
  unfold State.ownPark
  split
  · exact buffers_answer ..
  · split
    · exact buffers_answer ..
    · exact buffers_parkSupply tag

theorem buffers_ownPower (tag : Byte) : BuffersKept s (s.ownPower tag) := by
  have powered : BuffersKept s (((s.withSsw { s.ssw with parked := false }).rampStart.arm).answer tag .ok []) :=
    (buffers_answer ..).after (buffers_arm.after (.of_same rfl rfl))
  unfold State.ownPower
  split
  · exact buffers_answer ..
  · split
    case h_5 | h_6 => exact powered
    all_goals exact buffers_answer ..

/-! ### DISCOVER and CANCEL (R99 to R101, R117, R154) -/

theorem buffers_discoverStart (m : DiscMode) : BuffersKept s (s.discoverStart m) := by
  cases m
  case rescan => exact .refl
  case full => exact buffers_departAll.trans buffers_cycle
  case clean => exact buffers_cycle.after (.of_same rfl rfl)

theorem buffers_ownDiscover (tag : Byte) (m : DiscMode) : BuffersKept s (s.ownDiscover tag m) := by
  unfold State.ownDiscover
  split
  · exact buffers_answer ..
  · exact (kept_arbitrate (kept_leaveArmed (.refl _))).buffers.after ((buffers_discoverStart m).after (.of_same rfl rfl))

theorem buffers_cancelDisc (tag : Byte) : BuffersKept s (s.cancelDisc tag) := by
  unfold State.cancelDisc
  split
  · exact (buffers_answer ..).after (.of_same rfl rfl)
  · split
    · exact buffers_answer ..
    · split
      · exact (buffers_answer ..).after (.of_same rfl rfl)
      · exact (kept_answer _ _ _ (kept_endDiscovery _ _ _ (.refl s))).buffers

theorem buffers_cancelSweep (tag : Byte) : BuffersKept s (s.cancelSweep tag) := by
  unfold State.cancelSweep
  split
  · exact buffers_answer ..
  · split
    · exact buffers_answer ..
    · split
      · exact (kept_answer _ _ _ (kept_putSweep _ (.refl s))).buffers
      · exact (kept_answer _ _ _ (kept_endSweep _ (.refl s))).buffers

theorem buffers_cancelTag (tag target : Byte) : BuffersKept s (s.cancelTag tag target) := by
  unfold State.cancelTag
  split
  · have dequeued : Kept s (s.withJobq (s.jobq.without target)) :=
      kept_withJobq _ (.refl s) (List.length_filter_le _ _) (List.length_filter_le _ _)
    exact (kept_answer _ _ _ (kept_answer _ _ _ dequeued)).buffers
  · split
    · exact buffers_answer ..
    · split
      · exact buffers_cancelSweep tag
      · split
        · exact buffers_cancelDisc tag
        · exact buffers_answer ..

/-! ### Sessions (R6, R7, R11, R14, R168, R169) -/

theorem buffers_sessionEnd (code discCode : Result) : BuffersKept s (s.sessionEnd code discCode) :=
  (buffers_flushedOff .sessionEnd discCode code).trans (.of_same rfl rfl)

theorem buffers_closed (cause : EndCause) : BuffersKept s (s.closed cause) := (buffers_raise _).after (.of_same rfl rfl)

theorem buffers_endSession (cause : EndCause) : BuffersKept s (s.endSession cause) :=
  (buffers_sessionEnd .sessionLost .aborted).trans (buffers_closed cause)

/-- The session start brings the BEAT setting into use (R27). -/
theorem buffers_sessionStart : BuffersKept s s.sessionStart := by
  rw [sessionStart_eq]
  refine ⟨id, fun distinct => (putNotice_kinds _ _ distinct).1, fun ⟨table, _⟩ => ⟨table, ?_⟩, id⟩
  have valid := table
  simp only [Settings.valid, Bool.and_eq_true] at valid
  obtain ⟨⟨⟨beat, -⟩, -⟩, -⟩ := valid
  exact beat

theorem buffers_ownRestartSession (tag : Byte) : BuffersKept s (s.ownRestartSession tag) := by
  unfold State.ownRestartSession
  split
  · exact ((buffers_sessionEnd .sessionLost .aborted).trans (buffers_answer ..)).trans (buffers_closed .restart)
  · exact (buffers_answer ..).after (.of_same rfl rfl)

theorem kept_answerOthers (tag : Byte) : ∀ (qs : List Request) {s : State}, Kept s (s.answerOthers tag qs)
  | [], s => .refl s
  | q :: qs, s => by
    unfold State.answerOthers
    split
    · exact kept_answerOthers tag qs
    · exact (kept_answer _ _ _ (.refl s)).trans (kept_answerOthers tag qs)

theorem buffers_ownRestartFull (tag : Byte) : BuffersKept s (s.ownRestartFull tag) := by
  have ended : BuffersKept s s.restartEnd := by
    unfold State.restartEnd
    split
    · exact buffers_sessionEnd ..
    · exact .refl
  have answered := (ended.trans (kept_answerOthers tag s.restartEnd.link.outstanding).buffers).trans (buffers_answer tag .ok [])
  exact answered.trans (.of_slots id rfl)

/-- The values of power-on are within every bound (R170). -/
theorem buffers_powerOn : BuffersKept s s.powerOn where
  slots _ := Nat.zero_le _
  notices _ := List.nodup_nil
  settings _ := ⟨rfl, rfl⟩
  lanes _ := ⟨Nat.zero_le _, Nat.zero_le _⟩

/-! ### Requests by their row (Table 11-2) -/

theorem buffers_ownPin (tag : Byte) (stamp : Stamp) (h : Nat) (k : Option Byte) : BuffersKept s (s.ownPin tag stamp h k) :=
  (buffers_answer ..).after (.of_same rfl rfl)

theorem buffers_ownUnpin (tag : Byte) (stamp : Stamp) : BuffersKept s (s.ownUnpin tag stamp) := by
  unfold State.ownUnpin
  split
  · exact (buffers_answer ..).after (.of_same rfl rfl)
  · exact buffers_answer ..

theorem buffers_ownGet (tag id : Byte) : BuffersKept s (s.ownGet tag id) := by
  unfold State.ownGet
  split <;> exact buffers_answer ..

theorem buffers_ownEntry (tag h : Byte) : BuffersKept s (s.ownEntry tag h) := by
  unfold State.ownEntry
  split <;> exact buffers_answer ..

theorem buffers_ownClearMarks (tag h : Byte) : BuffersKept s (s.ownClearMarks tag h) := by
  unfold State.ownClearMarks
  split
  · exact buffers_answer ..
  · exact (buffers_answer ..).after (.of_same rfl rfl)

theorem buffers_ownClearMarksAll (tag : Byte) : BuffersKept s (s.ownClearMarksAll tag) :=
  (buffers_answer ..).after (.of_same rfl rfl)

/-- A request, by its owner; a row that is no request does nothing here. -/
theorem buffers_request (i : Instr) : BuffersKept s (s.request i) := by
  cases i
  case status => exact buffers_takeIn _ _ fun _ => buffers_answer ..
  case get => exact buffers_takeIn _ _ fun _ => buffers_ownGet ..
  case set => exact buffers_takeIn _ _ fun _ => buffers_ownSet ..
  case setBeat => exact buffers_takeIn _ _ fun _ => buffers_ownSetBeat ..
  case setKeepaliveMs => exact buffers_takeIn _ _ fun _ => buffers_ownSetKeepalive ..
  case pin => exact buffers_takeIn _ _ fun _ => buffers_ownPin ..
  case unpin => exact buffers_takeIn _ _ fun _ => buffers_ownUnpin ..
  case pins => exact buffers_takeIn _ _ fun _ => buffers_answer ..
  case roster => exact buffers_takeIn _ _ fun _ => buffers_answer ..
  case entry => exact buffers_takeIn _ _ fun _ => buffers_ownEntry ..
  case clearMarks => exact buffers_takeIn _ _ fun _ => buffers_ownClearMarks ..
  case clearMarksAll => exact buffers_takeIn _ _ fun _ => buffers_ownClearMarksAll _
  case forget => exact buffers_takeIn _ _ fun _ => buffers_ownForget ..
  case discoverRescan => exact buffers_takeIn _ _ fun _ => buffers_ownDiscover ..
  case discoverFull => exact buffers_takeIn _ _ fun _ => buffers_ownDiscover ..
  case discoverClean => exact buffers_takeIn _ _ fun _ => buffers_ownDiscover ..
  case exchange => exact buffers_takeIn _ _ fun _ => buffers_ownJob ..
  case roll => exact buffers_takeIn _ _ fun _ => buffers_ownJob ..
  case calibrateRecord => exact buffers_takeIn _ _ fun _ => buffers_ownJob ..
  case calibrateProbe => exact buffers_takeIn _ _ fun _ => buffers_ownJob ..
  case wake => exact buffers_takeIn _ _ fun _ => buffers_ownWake ..
  case sweep => exact buffers_takeIn _ _ fun _ => buffers_ownSweep ..
  case cancel => exact buffers_takeIn _ _ fun _ => buffers_cancelTag ..
  case cancelRunningDiscovery => exact buffers_takeIn _ _ fun _ => buffers_cancelDisc _
  case cancelRunningSweep => exact buffers_takeIn _ _ fun _ => buffers_cancelSweep _
  case park => exact buffers_takeIn _ _ fun _ => buffers_ownPark _
  case power => exact buffers_takeIn _ _ fun _ => buffers_ownPower _
  case restartSession => exact buffers_takeIn _ _ fun _ => buffers_ownRestartSession _
  case restartFull => exact buffers_takeIn _ _ fun _ => buffers_ownRestartFull _
  all_goals exact .refl

/-- A request command is its row's request, and then the transmitter's start (R159, R162). -/
theorem exec_request {c : Instr} {row : Byte × Byte × List Byte} (frame : requestFields c = some row) :
    exec c s = .next (s.request c).kick := by
  cases c
  case pin => rfl
  all_goals
    cases frame <;> rfl

end Sys2Proof.Machine
end

section
/-! SUPPORT. The events of the coupling, the supply, the line and the link keep the buffers and settings in their bounds (R7 to
R11, R30, R44, R45, R157 to R159). -/

namespace Sys2Proof.Machine

variable {s t x : State}

/-! ### The events of the coupling (R7 to R10) -/

theorem buffers_suspect (filter : Nat) : BuffersKept s (s.suspect filter) := by
  cases flight : s.line.op with
  | none => rw [suspect_of_idle filter flight]; exact .of_same rfl rfl
  | some op =>
    by_cases train : ∃ train, op.kind = .startUp train
    · obtain ⟨train, kind⟩ := train
      rw [suspect_of_startUp filter flight kind]
      exact .of_same rfl (unslotted_cut rfl)
    · rw [suspect_of_op filter flight train]
      exact .of_same rfl (unslotted_cut rfl)

theorem kept_holderResumes : Kept s s.holderResumes := by
  unfold State.holderResumes
  split
  · exact .refl s
  · split
    · exact kept_dealTaint _ _ (.refl s)
    · split
      · exact kept_switchWent _ _ (kept_switchNext _ (.refl s))
      · exact .refl s
    · exact .refl s

theorem kept_startTrain (o : OwedTrain) : Kept s (s.startTrain o) :=
  kept_startOp _ _ (kept_withLine _ (.refl s) rfl id)

theorem buffers_comeBack : BuffersKept s s.comeBack := by
  have returned : BuffersKept s s.returned := .of_same rfl rfl
  by_cases idle : s.line.state = .idle
  · cases owed : s.line.startUp with
    | some o => rw [comeBack_owed idle owed]; exact returned.trans (kept_startTrain o).buffers
    | none => rw [comeBack_resumes idle owed]; exact returned.trans (kept_regrant s kept_holderResumes).buffers
  · rw [comeBack_unlit idle]
    exact .of_same rfl rfl

theorem buffers_takeInput : BuffersKept s s.takeInput := by
  have evaluated : BuffersKept s s.evaluate := .of_same rfl rfl
  unfold State.takeInput
  split
  case h_1 | h_3 | h_4 => exact evaluated
  case h_2 | h_5 | h_8 => exact .refl
  case h_6 =>
    unfold State.takeBreak
    dsimp only
    split
    · exact buffers_endSession _
    · exact buffers_suspect _
  case h_7 => exact buffers_comeBack

/-! ### The events of the supply and the line (R30, R44, R45) -/

theorem kept_startUp : Kept s s.startUp := by
  unfold State.startUp
  dsimp only
  split
  · exact kept_arbitrate (kept_lineOpen (kept_armWatch (kept_withLine _ (.refl s) rfl id)))
  · split
    · exact kept_startTrain _
    · exact kept_withLine _ (.refl s) rfl id

theorem kept_supplyReady : Kept s s.supplyReady := by
  unfold State.supplyReady
  split
  · have lit : Kept s (s.withLine { s.line with state := .idle }) := kept_withLine _ (.refl s) rfl (fun _ => by simp)
    exact lit.trans kept_startUp
  · exact .refl s

theorem buffers_stuck : BuffersKept s s.stuck := by
  have faulted : BuffersKept s s.faulted := .of_same rfl (unslotted_cut rfl)
  have ends : BuffersKept s s.faultEnds := by
    unfold State.faultEnds
    split
    · exact faulted.trans (kept_endDiscovery _ _ _ (.refl _)).buffers
    · exact faulted
  rw [stuck_eq]
  exact ends.trans ((same_dropHolder .lineFault).kept.buffers.trans (buffers_raise _))

theorem kept_clearFault : Kept s s.clearFault := by
  have cleared : Kept s ((s.withLine { s.line with
      state := .idle, sampler := none, highWatch := none, keepalive := keepaliveFrom s.link.settings }).raise
        (.line true .nothing s.line.route)) :=
    kept_raise _ (kept_withLine _ (.refl s) rfl (fun _ => by simp))
  unfold State.clearFault
  dsimp only
  split
  · exact cleared.trans kept_startUp
  · exact kept_arbitrate (kept_leaveArmed cleared)

/-! ### The receiver (R157, R158, R159) -/

theorem buffers_serve (kind tag : Byte) (p : List Byte) : BuffersKept s (s.serve kind tag p) := by
  unfold State.serve
  split
  · exact buffers_takeBad tag kind
  · exact buffers_takeIn tag kind fun _ => buffers_answer ..
  · exact buffers_request _

theorem buffers_judgeFrame (body : List Byte) (check : BitVec 16) : BuffersKept s (s.judgeFrame body check) := by
  unfold State.judgeFrame
  split
  · split
    · exact buffers_serve ..
    · exact buffers_frameOver
  · exact buffers_badCheck

theorem buffers_rxHeader (f : List Byte) : BuffersKept s (s.rxHeader f) := by
  unfold State.rxHeader
  split
  · exact buffers_frameOver
  · split
    · exact buffers_putFrame ..
    · exact buffers_putFrame ..

theorem buffers_rxByte (b : Byte) : BuffersKept s (s.rxByte b) := by
  unfold State.rxByte
  dsimp only
  split
  · split
    · exact buffers_putFrame ..
    · exact .refl
  · exact buffers_rxHeader _
  · exact buffers_putFrame ..
  · split
    · exact buffers_putFrame ..
    · exact buffers_judgeFrame ..

theorem rxBad_eq : s.rxBad = if s.link.rx = .hunt then s else s.frameOver := by
  unfold State.rxBad
  cases s.link.rx <;> rfl

end Sys2Proof.Machine
end

section
/-! Every command as a step that keeps the buffers and settings sound (O58). -/

namespace Sys2Proof.Machine

variable {s t x : State}

/-! ### A command's step -/

/-- A command's outcome keeps the buffers and settings sound, and leaves nothing waiting for a free transmitter (R162). -/
def SoundStep (s : State) (o : Out) : Prop := ∀ t, o = .next t → BuffersKept s t ∧ (s.Settled → t.Settled)

/-- A step that ends with the transmitter's start. -/
theorem soundStep_kick (kept : BuffersKept s x) : SoundStep s (.next x.kick) := by
  rintro t ⟨⟩
  exact ⟨kept.trans buffers_kick, fun _ => kick_settled⟩

/-- What the transmitter looks at when it is free (R162, R169). -/
def Link.toSend (k : Link) : Option TxFrame × List Reply × Bool × List Notice := (k.tx, k.replies, k.restarting, k.notices)

/-- A step that leaves what the transmitter looks at alone. -/
theorem soundStep_still (kept : BuffersKept s x) (same : x.link.toSend = s.link.toSend) : SoundStep s (.next x) := by
  rintro t ⟨⟩
  refine ⟨kept, fun settled => ?_⟩
  simp only [Link.toSend, Prod.mk.injEq] at same
  obtain ⟨tx, replies, restarting, notices⟩ := same
  unfold State.Settled
  rw [tx, replies, restarting, notices]
  exact settled

theorem soundStep_same : SoundStep s (.next s) := soundStep_still .refl rfl

/-- A command whose timer or condition does not hold has no effect (log 3). -/
theorem soundStep_guarded {c : Prop} [Decidable c] {o : Out} (does : c → SoundStep s o) :
    SoundStep s (if c then o else .next s) := by
  split
  · next holds => exact does holds
  · exact soundStep_same

/-- The values of power-on leave nothing to send. -/
theorem powerOn_settled : s.powerOn.Settled := fun _ => ⟨rfl, .inr rfl⟩

/-! ### The coupling and RESET_N -/

theorem soundStep_inputChange (i : PlugInput) (made : Bool) : SoundStep s (execInputChange i made s) := by
  have plugged : BuffersKept s (s.plugged i made) := .of_same rfl rfl
  unfold execInputChange
  split
  · exact soundStep_same
  · dsimp only
    split
    · exact soundStep_still plugged rfl
    · exact soundStep_kick (plugged.trans buffers_takeInput)

theorem soundStep_resetAssert : SoundStep s (execResetAssert s) := by
  rintro t ⟨⟩
  exact ⟨buffers_powerOn.trans (.of_same rfl rfl), fun _ => powerOn_settled (s := s)⟩

theorem soundStep_resetRelease (b1 b0 : Bool) : SoundStep s (execResetRelease b1 b0 s) := by
  refine soundStep_guarded fun _ => ?_
  rintro t ⟨⟩
  exact ⟨buffers_powerOn.trans (.of_slots id rfl), fun _ => powerOn_settled (s := s)⟩

theorem soundStep_restartFullReset : SoundStep s (execRestartFullReset s) := by
  refine soundStep_guarded fun _ => ?_
  rintro t ⟨⟩
  exact ⟨buffers_powerOn.trans (.of_same rfl rfl), fun _ => powerOn_settled (s := s)⟩

/-! ### The supply -/

theorem soundStep_ovlAsserted : SoundStep s (execOvlAsserted s) := by
  unfold execOvlAsserted
  split
  · exact soundStep_same
  · dsimp only
    split
    · exact soundStep_still (.of_same rfl rfl) rfl
    · split <;> exact soundStep_still (.of_same rfl rfl) rfl

theorem soundStep_ovlReleased : SoundStep s (execOvlReleased s) := by
  unfold execOvlReleased
  split
  · exact soundStep_same
  · dsimp only
    split
    · exact soundStep_still (.of_same rfl rfl) rfl
    · split <;> exact soundStep_still (.of_same rfl rfl) rfl

theorem soundStep_dwellExpiry : SoundStep s (execDwellExpiry s) := by
  refine soundStep_guarded fun _ => ?_
  split <;> exact soundStep_still (.of_same rfl rfl) rfl

/-! ### The ends of line operations -/

theorem soundStep_startUpTrainDone : SoundStep s (execStartUpTrainDone s) := by
  have ended : Kept s (s.endOp.withLine { s.endOp.line with startUp := none }) :=
    kept_withLine _ (kept_endOp (.refl s)) rfl id
  unfold execStartUpTrainDone
  split
  · exact soundStep_kick (kept_arbitrate (kept_lineOpen ended)).buffers
  · exact soundStep_same

/-- The holder takes the end of its operation, and the arbiter grants what it may. -/
theorem soundStep_regrant (does : Kept s.endOp x) : SoundStep s (.next (x.regrant s).kick) :=
  soundStep_kick (kept_regrant s ((kept_endOp (.refl s)).trans does)).buffers

theorem soundStep_hailDone (lows : List Nat) : SoundStep s (execHailDone lows s) := by
  unfold execHailDone
  split
  · exact soundStep_regrant (kept_hailed _ (.refl _))
  · exact soundStep_same

theorem soundStep_callDone (slots : List LowSample) : SoundStep s (execCallDone slots s) := by
  unfold execCallDone
  split
  · exact soundStep_regrant (kept_called _ _ (kept_setCapture _ (.refl _)))
  · exact soundStep_same

theorem soundStep_echoDone (slots : List LowSample) : SoundStep s (execEchoDone slots s) := by
  unfold execEchoDone
  split
  · exact soundStep_regrant (kept_echoed _ (kept_setCapture _ (.refl _)))
  · exact soundStep_same

theorem soundStep_nameDone (cells : List LowSample) : SoundStep s (execNameDone cells s) := by
  unfold execNameDone
  split
  · exact soundStep_regrant (kept_nameEnded _ _ _ _ _ (kept_setCapture _ (.refl _)))
  · exact soundStep_same

theorem soundStep_measureDone (low : LowSample) : SoundStep s (execMeasureDone low s) := by
  unfold execMeasureDone
  split
  · exact soundStep_regrant (kept_discMeasured _ _ (kept_setCapture _ (.refl _)))
  · exact soundStep_regrant (kept_jobMeasured _ _ (kept_setCapture _ (.refl _)))
  · exact soundStep_same

theorem soundStep_rollDone (cells : List LowSample) : SoundStep s (execRollDone cells s) := by
  unfold execRollDone
  split
  · dsimp only
    split
    · exact soundStep_regrant (kept_checkRolled _ _ _ (kept_setCapture _ (.refl _)))
    · exact soundStep_regrant (kept_jobRolled _ _ _ _ (kept_setCapture _ (.refl _)))
    · exact soundStep_regrant (kept_sweepRolled _ _ _ _ (kept_setCapture _ (.refl _)))
    · exact soundStep_same
  · exact soundStep_same

theorem soundStep_legDone (k : OpKind) (j : Nat) (trim : Int) (cells : List LowSample) :
    SoundStep s (.next (s.legDone k j trim cells)) := by
  unfold State.legDone
  split
  · exact soundStep_regrant (kept_switchWent _ _ (kept_legEnded _ _ _ _ (kept_setCapture _ (.refl _))))
  · exact soundStep_same

theorem soundStep_legOpenDone (cells : List LowSample) : SoundStep s (execLegOpenDone cells s) := by
  unfold execLegOpenDone
  split
  · exact soundStep_legDone _ _ _ _
  · exact soundStep_same

theorem soundStep_legCloseDone (cells : List LowSample) : SoundStep s (execLegCloseDone cells s) := by
  unfold execLegCloseDone
  split
  · exact soundStep_legDone _ _ _ _
  · exact soundStep_same

theorem soundStep_dropDone : SoundStep s (execDropDone s) := by
  unfold execDropDone
  split
  · exact soundStep_regrant (kept_discDropped _ _ (.refl _))
  · exact soundStep_regrant (kept_jobDropped _ (.refl _))
  · exact soundStep_same

theorem soundStep_dataDone (cells : List LowSample) : SoundStep s (execDataDone cells s) := by
  unfold execDataDone
  split
  · exact soundStep_regrant (kept_jobExchanged _ _ _ _ _ (kept_setCapture _ (.refl _)))
  · exact soundStep_same

theorem soundStep_wakeTrainDone : SoundStep s (execWakeTrainDone s) := by
  unfold execWakeTrainDone
  split
  · exact soundStep_regrant (kept_jobWoken _ _ (.refl _))
  · exact soundStep_same

theorem soundStep_keepaliveTrainDone : SoundStep s (execKeepaliveTrainDone s) := by
  unfold execKeepaliveTrainDone
  split
  · exact soundStep_regrant
      (kept_withJobq _ (kept_withLine _ (.refl _) rfl id) (Nat.le_refl _) (Nat.le_refl _))
  · exact soundStep_same

/-! ### The timers and the level of the line -/

theorem soundStep_legSettleExpiry : SoundStep s (execLegSettleExpiry s) := by
  unfold execLegSettleExpiry
  split
  · refine soundStep_guarded fun _ => ?_
    split
    · exact soundStep_kick (kept_regrant _ (kept_switchWent _ _ (kept_switchNext _ (.refl s)))).buffers
    · exact soundStep_still (kept_putSwitch _ (.refl s)).buffers rfl
  · exact soundStep_same

theorem soundStep_sweepRestExpiry : SoundStep s (execSweepRestExpiry s) := by
  unfold execSweepRestExpiry
  split
  · exact soundStep_guarded fun _ => soundStep_kick (kept_arbitrate (kept_sweepLook (kept_putSweep _ (.refl s)))).buffers
  · exact soundStep_same

theorem soundStep_tlLevelChange (high : Bool) : SoundStep s (execTlLevelChange high s) := by
  unfold execTlLevelChange
  split
  · exact soundStep_same
  · split
    · exact soundStep_still (.of_same rfl rfl) rfl
    · dsimp only
      split
      · exact soundStep_still (.of_same rfl rfl) rfl
      · split <;> exact soundStep_still (.of_same rfl rfl) rfl
      · split <;> exact soundStep_still (.of_same rfl rfl) rfl
      · exact soundStep_still (.of_same rfl rfl) rfl

/-! ### The link port -/

theorem soundStep_receivedByte (rx : RxByte) : SoundStep s (execReceivedByte rx s) := by
  have abandoned : SoundStep s (.next s.rxBad) := by
    rw [rxBad_eq]
    split
    · exact soundStep_same
    · exact soundStep_still buffers_frameOver rfl
  unfold execReceivedByte
  split
  · exact soundStep_same
  · cases rx
    case good b => exact soundStep_kick (buffers_rxByte b)
    case bad | breakLow => exact abandoned

/-- A frame sent frees the slot of its reply (R160, R162). -/
theorem soundStep_txFrameDone : SoundStep s (execTxFrameDone s) := by
  unfold execTxFrameDone
  split
  · refine soundStep_kick (.of_slots (fun bounded => Nat.le_trans (Nat.add_le_add_right ?_ _) bounded) rfl)
    rw [withLink_link, List.length_tail]
    exact Nat.sub_le _ _
  · exact soundStep_kick (.of_slots id rfl)
  · exact soundStep_same

/-! ### Every command -/

/-- An event of the coupling, the supply, the line or the link, by its row. -/
theorem soundStep_event {c : Instr} (event : requestFields c = none) : SoundStep s (exec c s) := by
  cases c
  case inputChange i made => exact soundStep_inputChange i made
  case alignmentExpiry => exact soundStep_guarded fun _ => soundStep_kick ((buffers_raise _).after (.of_same rfl rfl))
  case debounceExpiry => exact soundStep_guarded fun _ => soundStep_kick buffers_sessionStart
  case breakFilterExpiry => exact soundStep_guarded fun _ => soundStep_kick (buffers_endSession _)
  case resetAssert => exact soundStep_resetAssert
  case resetRelease b1 b0 => exact soundStep_resetRelease b1 b0
  case ovlAsserted => exact soundStep_ovlAsserted
  case ovlReleased => exact soundStep_ovlReleased
  case dwellExpiry => exact soundStep_dwellExpiry
  case holdExpiry => exact soundStep_guarded fun _ => soundStep_kick (buffers_trip _)
  case tripExpiry => exact soundStep_guarded fun _ => soundStep_kick (buffers_trip _)
  case settleExpiry => exact soundStep_guarded fun _ => soundStep_kick (kept_supplyReady.buffers.after (.of_same rfl rfl))
  case cycleOffSpanExpiry => exact soundStep_guarded fun _ => soundStep_still buffers_rampStart rfl
  case startUpTrainDone => exact soundStep_startUpTrainDone
  case hailDone lows => exact soundStep_hailDone lows
  case callDone slots => exact soundStep_callDone slots
  case echoDone slots => exact soundStep_echoDone slots
  case nameDone cells => exact soundStep_nameDone cells
  case measureDone low => exact soundStep_measureDone low
  case rollDone cells => exact soundStep_rollDone cells
  case legOpenDone cells => exact soundStep_legOpenDone cells
  case legCloseDone cells => exact soundStep_legCloseDone cells
  case dropDone => exact soundStep_dropDone
  case dataDone cells => exact soundStep_dataDone cells
  case wakeTrainDone => exact soundStep_wakeTrainDone
  case keepaliveTrainDone => exact soundStep_keepaliveTrainDone
  case keepaliveExpiry => exact soundStep_guarded fun _ => soundStep_kick (buffers_arbitrate.after (.of_same rfl rfl))
  case stuckLineExpiry => exact soundStep_guarded fun _ => soundStep_kick buffers_stuck
  case faultSample => exact soundStep_guarded fun _ => soundStep_still (.of_same rfl rfl) rfl
  case faultClear => exact soundStep_guarded fun _ => soundStep_kick kept_clearFault.buffers
  case legSettleExpiry => exact soundStep_legSettleExpiry
  case sweepRestExpiry => exact soundStep_sweepRestExpiry
  case linkGapExpiry => exact soundStep_guarded fun _ => soundStep_still buffers_frameOver rfl
  case frameCheck body check => exact soundStep_kick (buffers_judgeFrame body check)
  case badRequest kind tag p => exact soundStep_kick (buffers_serve kind tag p)
  case txFrameDone => exact soundStep_txFrameDone
  case restartFullReset => exact soundStep_restartFullReset
  case receivedByte rx => exact soundStep_receivedByte rx
  case tlLevelChange high => exact soundStep_tlLevelChange high
  case pwmPeriod => exact soundStep_guarded fun _ => soundStep_still (.of_same rfl rfl) rfl
  case pin tag stamp h k => cases k <;> cases event
  all_goals cases event

/-- Every command, as a request or as an event. -/
theorem soundStep_exec (c : Instr) (s : State) : SoundStep s (exec c s) := by
  cases frame : requestFields c with
  | none => exact soundStep_event frame
  | some row => rw [exec_request frame]; exact soundStep_kick (buffers_request c)

end Sys2Proof.Machine

open Sys2Proof Sys2Proof.Machine

/-- Settles O58: each command keeps what it can of the buffers, and ends with the transmitter's start where it leaves
anything to send. -/
theorem buffersStaySound : Obligations.BuffersStaySound := by
  refine ⟨fun c s t runs => ?_, fun c s t bounded runs => ?_⟩
  · obtain ⟨⟨slots, notices, settings, -⟩, settled⟩ := soundStep_exec c s t runs
    exact ⟨slots, notices, settings, settled⟩
  · obtain ⟨⟨-, -, -, lanes⟩, -⟩ := soundStep_exec c s t runs
    exact lanes bounded
end

section
/-! The order of claims on the tool line (O24): R141, R143, Table 9-4. -/

namespace Sys2Proof.Machine

variable {s before : State} {w : Sweep} {st : DiscStep} {after : Bool}

/-! ### Claims (Table 9-4) -/

/-- A claim is the urgent lane's, DISC's, or one of those below it. -/
theorem claim_mem {c : Claim} (claim : s.claim after = some c) :
    s.urgentClaim = some c ∨ s.discClaim = some c ∨ s.lowClaim = some c := by
  unfold State.claim at claim
  split at claim
  · simp only [Option.or_eq_some_iff] at claim
    rcases claim with disc | ⟨-, urgent | ⟨-, low⟩⟩
    · exact .inr (.inl disc)
    · exact .inl urgent
    · exact .inr (.inr low)
  · simp only [Option.or_eq_some_iff] at claim
    rcases claim with urgent | ⟨-, disc | ⟨-, low⟩⟩
    · exact .inl urgent
    · exact .inr (.inl disc)
    · exact .inr (.inr low)

theorem urgentClaim_cons {j : Job} {js : List Job} (urgent : s.jobq.urgent = j :: js) :
    s.urgentClaim = some (.urgent j js) := by
  simp only [State.urgentClaim, urgent]

theorem urgentClaim_nil (urgent : s.jobq.urgent = []) : s.urgentClaim = none := by simp only [State.urgentClaim, urgent]

/-- DISC waits for the line with its next step. -/
theorem discClaim_waiting (begun : s.disc.state ≠ .idle) (past : s.disc.state ≠ .armed) (waiting : s.disc.waiting = true)
    (next : s.disc.next = some st) : s.discClaim = some (.disc st) := by
  have running : s.disc.running = true := by simp [Disc.running, Disc.arming, begun, past]
  rw [State.discClaim, if_pos ⟨running, past, waiting⟩, next]
  rfl

/-- With the urgent lane empty and DISC quiet the claims below decide. -/
theorem claim_low (urgent : s.jobq.urgent = []) (disc : s.discClaim = none) : s.claim after = s.lowClaim := by
  cases after <;> simp [State.claim, urgentClaim_nil urgent, disc]

/-- Where DISC is quiet, the release of an urgent job makes no difference. -/
theorem claim_quiet (disc : s.discClaim = none) : s.claim after = s.claim false := by
  cases after <;> simp [State.claim, disc]

theorem lowClaim_normal {j : Job} {js : List Job} (normal : s.jobq.normal = j :: js) : s.lowClaim = some (.normal j js) := by
  simp only [State.lowClaim, normal]

theorem lowClaim_idleLane (normal : s.jobq.normal = []) : s.lowClaim =
    if s.jobq.sweep.any (fun w => w.phase == .rolling) then some .sweep
    else if s.line.keepaliveDue then some .keepalive else none := by
  simp only [State.lowClaim, normal]

/-- Only a sweep in ROLLING claims the line (R151). -/
theorem claim_sweep (claim : s.claim after = some .sweep) (sweep : s.jobq.sweep = some w) : w.phase = .rolling := by
  rcases claim_mem claim with urgent | disc | low
  · unfold State.urgentClaim at urgent
    split at urgent <;> cases urgent
  · unfold State.discClaim at disc
    split at disc
    · obtain ⟨st, -, step⟩ := Option.map_eq_some_iff.1 disc
      cases step
    · cases disc
  · cases normal : s.jobq.normal with
    | cons j js => rw [lowClaim_normal normal] at low; cases low
    | nil =>
      rw [lowClaim_idleLane normal] at low
      split at low
      · next rolling => simpa [sweep] using rolling
      · split at low <;> cases low

/-! ### Opportunities (R141, R143) -/

theorem arbitrateFrom_of_not_free (n : Nat) (taken : ¬s.Free) : s.arbitrateFrom n after = s := by
  cases n with
  | zero => rfl
  | succ n => rw [State.arbitrateFrom, if_neg (mt canGrant_iff.1 taken)]

theorem arbitrateFrom_of_none (n : Nat) (none : s.claim after = none) : s.arbitrateFrom n after = s := by
  cases n with
  | zero => rfl
  | succ n =>
    simp only [State.arbitrateFrom, none]
    exact ite_self s

/-- An opportunity at the release of an urgent job is any other where DISC is quiet. -/
theorem arbitrateFrom_quiet (n : Nat) (disc : s.discClaim = none) : s.arbitrateFrom n after = s.arbitrateFrom n false := by
  cases n with
  | zero => rfl
  | succ n => simp only [State.arbitrateFrom, claim_quiet disc (after := after)]

/-- The line was held by an urgent job. -/
def State.HeldUrgently (s : State) : Prop := ∃ (j : Job) (r u : Nat) (sw : Option Switch) (t : Option LineOp),
  s.jobq.grant = some ⟨.job j r u, sw, t⟩ ∧ j.urgent = true

theorem heldUrgently_iff : s.jobq.inFlight.any (fun j => j.urgent) = true ↔ s.HeldUrgently := by
  unfold Jobq.inFlight State.HeldUrgently
  constructor
  · intro any
    split at any
    · next j r u sw t grant => exact ⟨j, r, u, sw, t, grant, any⟩
    · cases any
  · rintro ⟨j, r, u, sw, t, grant, urgent⟩
    rw [grant]
    exact urgent

theorem regrant_urgent (held : before.HeldUrgently) : s.regrant before = s.arbitrateFrom 200 true := by
  rw [State.regrant, heldUrgently_iff.2 held, Config.grantFuel]

theorem regrant_other (other : ¬before.HeldUrgently) : s.regrant before = s.arbitrate := by
  rw [State.regrant, Bool.eq_false_iff.2 (mt heldUrgently_iff.1 other), State.arbitrate]

/-- An opportunity that a sweep in ROLLING takes (R151, R153). -/
theorem grantClaim_roll {e : Entry} (sweep : s.jobq.sweep = some w) (next : s.rstr.nextLive w.position = some e) :
    s.grantClaim .sweep = (s.beginRoll e, false) := by
  simp only [State.grantClaim, sweep, Option.bind_some, next]

theorem grantClaim_passOver {v : State} (sweep : s.jobq.sweep = some w) (rolling : w.phase = .rolling)
    (none : s.rstr.nextLive w.position = none) (on : s.SweepGoesOn w v) : s.grantClaim .sweep = (v, false) := by
  have looks : s.sweepOn w = s.sweepLook := by
    rw [State.sweepOn, if_neg (by simp [rolling]), State.putSweep, ← sweep]
    rfl
  simp only [State.grantClaim, sweep, Option.bind_some, none]
  rw [← looks, sweepOn_of_goesOn on]

end Sys2Proof.Machine

open Sys2Proof Sys2Proof.Machine

/-- Settles O24: the claims in the order of the table, then one opportunity by the claim that it grants. -/
theorem arbiterOrder : Obligations.ArbiterOrder := by
  refine ⟨fun s => ⟨rfl, arbitrate_of_not_free⟩, ?_, ?_, ?_, ?_, fun s before => arbitrateFrom_of_not_free _, ?_, ?_, ?_⟩
  · intro s j js urgent
    simp [State.claim, urgentClaim_cons urgent]
  · intro s st ⟨begun, past, waiting, next⟩
    have disc := discClaim_waiting begun past waiting next
    exact ⟨by simp [State.claim, disc], fun urgent => by simp [State.claim, urgentClaim_nil urgent, disc]⟩
  · intro s urgent quiet
    rw [claim_low urgent (discClaim_none quiet)]
    refine ⟨fun j js normal => lowClaim_normal normal, fun normal rolling => ?_, fun normal rests due => ?_⟩
    · simp [lowClaim_idleLane normal, rolling]
    · simp [lowClaim_idleLane normal, rests, due]
  · intro s urgent normal sweep due quiet
    refine arbitrateFrom_of_none _ ?_
    rw [claim_low urgent (discClaim_none quiet), lowClaim_idleLane normal]
    simp [sweep, due]
  · intro s before st held free ⟨begun, past, waiting, next⟩
    have claim : s.claim true = some (.disc st) := by simp [State.claim, discClaim_waiting begun past waiting next]
    have grants : s.regrant before = (s.beginStep st).arbitrateFrom 199 false := by
      rw [regrant_urgent held]
      exact arbitrateFrom_of_claim 199 free claim rfl
    refine ⟨grants, fun keeps => ?_⟩
    obtain ⟨g, grant⟩ := Option.ne_none_iff_exists'.1 keeps
    rw [grants, arbitrateFrom_of_holder _ _ grant]
  · rintro s before (other | quiet)
    · exact regrant_other other
    · exact arbitrateFrom_quiet _ (discClaim_none quiet)
  · intro s n after free
    refine ⟨fun j js claim => ?_, fun st claim => ?_, fun j js claim => ?_,
      fun w claim sweep => ⟨fun e next => ?_, fun v none on => ?_⟩, fun claim => ?_, fun none => ?_⟩
    · exact arbitrateFrom_of_claim n free claim rfl
    · exact arbitrateFrom_of_claim n free claim rfl
    · exact arbitrateFrom_of_claim n free claim rfl
    · exact arbitrateFrom_of_claim n free claim (grantClaim_roll sweep next)
    · exact arbitrateFrom_of_claim n free claim (grantClaim_passOver sweep (claim_sweep claim sweep) none on)
    · rw [arbitrateFrom_of_claim n free claim rfl]
      exact arbitrateFrom_of_holder (s := s.beginKeepalive) n false rfl
    · exact arbitrateFrom_of_none (n + 1) none
end

section
/-! A request for line work at its acceptance (O47): the tests of Table 9-3, and what is answered or queued (R138 to R140,
R147, R148). -/

namespace Sys2Proof.Machine

variable {s : State} {tag : Byte} {h : Nat}

/-! ### A request taken in (R159 to R161) -/

/-- The part with the frame over and the request's slot reserved (R158, R159). -/
def State.taken (s : State) (tag kind : Byte) : State := s.frameOver.reserveSlot tag kind

theorem takeIn_taken {kind : Byte} (owner : State → State) (takes : s.Takes tag) :
    s.takeIn tag kind owner = owner (s.taken tag kind) := takeIn_takes kind owner takes

theorem taken_owes (kind : Byte) (takes : s.Takes tag) : (s.taken tag kind).Owes ⟨tag, kind⟩ := by
  obtain ⟨-, -, -, fresh⟩ := takes
  have others : s.link.outstanding.find? (fun q => q.tag == tag) = none :=
    List.find?_eq_none.2 fun q hq => by simpa using List.all_eq_true.1 fresh q hq
  simp [State.Owes, State.taken, State.reserveSlot, State.frameOver, List.find?_append, others]

theorem taken_answered (kind : Byte) (r : Result) (p : List Byte) (takes : s.Takes tag) :
    (s.taken tag kind).link.answered ⟨tag, kind⟩ r p = s.link.replied ⟨kind + 0x80#8, tag, r, p⟩ := by
  have answered : (s.taken tag kind).answer tag r p = { s.taken tag kind with
      link := (s.taken tag kind).link.answered ⟨tag, kind⟩ r p } := answer_of_owes r p (taken_owes kind takes) rfl
  obtain ⟨-, -, -, fresh⟩ := takes
  exact congrArg State.link (answered.symm.trans (answer_reserved (s := s.frameOver) tag kind r p fresh))

/-- A request refused by its owner. -/
theorem takeIn_refused {kind : Byte} {owner : State → State} {code : Result} (takes : s.Takes tag)
    (refuses : owner (s.taken tag kind) = (s.taken tag kind).answer tag code []) :
    s.takeIn tag kind owner = { s with link := s.link.replied ⟨kind + 0x80#8, tag, code, []⟩ } :=
  takeIn_pins takes refuses

/-! ### The tests (Table 9-3) -/

/-- The supply is parked off, or tripped. -/
def State.Dark (s : State) : Prop := s.ssw.state = .off ∧ s.ssw.parked = true ∨ s.ssw.state = .tripped

theorem session_live_iff : s.live = true ↔ s.mmon.state = .mated ∨ s.mmon.state = .suspect := by simp [State.live]

theorem lineRefusal_notReady (ended : ¬(s.mmon.state = .mated ∨ s.mmon.state = .suspect)) :
    s.lineRefusal = some .notReady :=
  if_pos (Bool.eq_false_iff.2 (mt session_live_iff.1 ended))

theorem lineRefusal_live (live : s.mmon.state = .mated ∨ s.mmon.state = .suspect) :
    s.lineRefusal = if s.ssw.state = .off ∧ s.ssw.parked = true ∨ s.ssw.state = .tripped then some .supplyOff else none :=
  if_neg (by simp [session_live_iff.2 live])

theorem lineRefusal_supplyOff (live : s.mmon.state = .mated ∨ s.mmon.state = .suspect) (dark : s.Dark) :
    s.lineRefusal = some .supplyOff := (lineRefusal_live live).trans (if_pos dark)

theorem lineRefusal_none (live : s.mmon.state = .mated ∨ s.mmon.state = .suspect) (lit : ¬s.Dark) :
    s.lineRefusal = none := (lineRefusal_live live).trans (if_neg lit)

/-- The entry must be known and live; its lane is looked at last. -/
theorem entryRefusal_of_lookup {e : Entry} (found : s.rstr.lookup h = some e) :
    s.entryRefusal h = if e.state = .departed then some .notLive else none := by
  simp only [State.entryRefusal, found]
  cases state : e.state <;> simp [Entry.live, state]

/-- A job for a handle in range, in a live session with the supply not dark, is tested by its entry and its lane. -/
theorem jobRefusal_inRange (urgent : Bool) (low : 1 ≤ h) (high : h ≤ 126) :
    s.jobRefusal h urgent = s.lineRefusal.or ((s.entryRefusal h).or (s.laneRefusal urgent)) := by
  have range : rangeRefusal h = none := if_neg (by simp only [Config.topHandle]; omega)
  rw [State.jobRefusal, range]
  rfl

/-! ### Jobs queued (R138, R140) -/

theorem ownJob_refused {urgent : Bool} {k : JobKind} {code : Result} (refused : s.jobRefusal h urgent = some code) :
    s.ownJob tag h urgent k = s.answer tag code [] := by
  simp only [State.ownJob, refused]

/-- JOBQ with a job at the end of its lane. -/
def Jobq.joined (q : Jobq) (j : Job) : Jobq :=
  if j.urgent then { q with urgent := q.urgent ++ [j] } else { q with normal := q.normal ++ [j] }

theorem ownJob_queued {urgent : Bool} {k : JobKind} {e : Entry} (found : s.rstr.lookup h = some e)
    (accepted : s.jobRefusal h urgent = none) : s.ownJob tag h urgent k =
      State.arbitrate { s with jobq := s.jobq.joined ⟨tag, k, urgent, h, e.namedAt⟩ } := by
  simp only [State.ownJob, accepted, find_of_lookup found]
  rfl

end Sys2Proof.Machine

open Sys2Proof Sys2Proof.Machine

/-- Settles O47, along the rows of Table 9-3; the four requests differ in their kind byte, lane and work alone. -/
theorem lineJobsQueued : Obligations.LineJobsQueued := by
  intro s tag h takes live dark jobs c k urgent work job refused full j
  have runs : exec c s = .next (s.takeIn tag k (fun s => s.ownJob tag h.toNat urgent work)).kick := by
    rcases job with ⟨p, rfl, rfl, rfl⟩ | ⟨rfl, rfl, rfl⟩ | ⟨m, g, rfl, rfl, rfl, rfl⟩ | ⟨m, g, rfl, rfl, rfl, rfl⟩ <;> rfl
  have refuses : ∀ {code}, s.jobRefusal h.toNat urgent = some code → refused code := fun {code} test => by
    show exec c s = _
    rw [runs, takeIn_refused takes (ownJob_refused (s := s.taken tag k) test)]
  refine ⟨fun outside => refuses ?_, fun low high => ?_⟩
  · rw [State.jobRefusal, show rangeRefusal h.toNat = _ from if_pos outside]
    rfl
  have tests := jobRefusal_inRange (s := s) urgent low high
  refine ⟨fun ended => refuses ?_, fun live dark => refuses ?_, fun live lit => ?_⟩
  · rw [tests, lineRefusal_notReady ended]; rfl
  · rw [tests, lineRefusal_supplyOff live dark]; rfl
  rw [lineRefusal_none live lit, Option.none_or] at tests
  refine ⟨fun unknown => refuses ?_, fun e found => ?_⟩
  · rw [tests, State.entryRefusal, unknown]; rfl
  rw [entryRefusal_of_lookup found] at tests
  refine ⟨fun departed => refuses ?_, fun here full => refuses ?_, fun here room => ?_⟩
  · rw [tests, if_pos departed]; rfl
  · rw [tests, if_neg here, laneRefusal_eq, if_pos full]; rfl
  · rw [if_neg here, laneRefusal_eq, if_neg room, Option.none_or] at tests
    rw [runs, takeIn_taken _ takes, ownJob_queued (s := s.taken tag k) found tests]
    rfl
end

section
/-! WAKE and SWEEP at their acceptance (O48): R139, R140, R151, R153, R172. -/

namespace Sys2Proof.Machine

variable {s : State} {tag : Byte}

/-! ### WAKE (R140) -/

theorem exec_wake_refused {count low high : Byte} {code : Result} (takes : s.Takes tag)
    (test : s.lineRefusal.or (s.laneRefusal false) = some code) : exec (.wake tag count low high) s =
      .next (State.kick { s with link := s.link.replied ⟨0x8F#8, tag, code, []⟩ }) := by
  have refuses : (s.taken tag 0x0F#8).ownWake tag count low high = (s.taken tag 0x0F#8).answer tag code [] := by
    have same : (s.taken tag 0x0F#8).lineRefusal.or ((s.taken tag 0x0F#8).laneRefusal false) = some code := test
    simp only [State.ownWake, same]
  exact congrArg (fun t => Host.Outcome.next (State.kick t)) (takeIn_refused takes refuses)

theorem exec_wake_queued {count low high : Byte} (takes : s.Takes tag)
    (test : s.lineRefusal.or (s.laneRefusal false) = none) : exec (.wake tag count low high) s =
      .next (State.kick (State.arbitrate { s with
        jobq := s.jobq.joined ⟨tag, .wake (wakeTrain s.link.settings count low high).1
          (wakeTrain s.link.settings count low high).2, false, 0, 0⟩
        link := s.link.held tag 0x0F#8 })) := by
  have queued : (s.taken tag 0x0F#8).ownWake tag count low high = State.arbitrate { s with
      jobq := s.jobq.joined ⟨tag, .wake (wakeTrain s.link.settings count low high).1
        (wakeTrain s.link.settings count low high).2, false, 0, 0⟩
      link := s.link.held tag 0x0F#8 } := by
    have same : (s.taken tag 0x0F#8).lineRefusal.or ((s.taken tag 0x0F#8).laneRefusal false) = none := test
    simp only [State.ownWake, same]
    rfl
  exact congrArg (fun t => Host.Outcome.next (State.kick t)) ((takeIn_taken _ takes).trans queued)

/-! ### SWEEP (R151, R153) -/

/-- The sweep that a SWEEP request fills the slot with (R140, R151). -/
def Sweep.asked (tag : Byte) (count : Nat) (stop : Bool) (interval : Nat) : Sweep :=
  { tag, count, stopOnChange := stop, interval := min interval 10000, clamped := decide (10000 < interval), passes := 0
    position := 0, passChanges := 0, totalChanges := 0, phase := .rolling, rest := none, rolled := false }

/-- The test on the sweep slot (Table 9-3, row 6). -/
abbrev State.sweepRefusal (s : State) : Option Result := s.lineRefusal.or (if s.jobq.sweep.isSome then some .busy else none)

variable {count : Byte} {stop : Bool} {interval : BitVec 16}

theorem exec_sweep_refused {code : Result} (takes : s.Takes tag) (test : s.sweepRefusal = some code) :
    exec (.sweep tag count stop interval) s =
      .next (State.kick { s with link := s.link.replied ⟨0x90#8, tag, code, []⟩ }) := by
  have refuses : (s.taken tag 0x10#8).ownSweep tag count.toNat stop interval.toNat =
      (s.taken tag 0x10#8).answer tag code [] := by
    have same : (s.taken tag 0x10#8).sweepRefusal = some code := test
    simp only [State.ownSweep, same]
  exact congrArg (fun t => Host.Outcome.next (State.kick t)) (takeIn_refused takes refuses)

/-- A sweep that fills its slot goes on as one without the line does. -/
theorem exec_sweep_goesOn {u : State} (takes : s.Takes tag) (test : s.sweepRefusal = none)
    (on : (s.taken tag 0x10#8).SweepGoesOn (.asked tag count.toNat stop interval.toNat) u) :
    exec (.sweep tag count stop interval) s = .next u.arbitrate.kick := by
  have filled : (s.taken tag 0x10#8).ownSweep tag count.toNat stop interval.toNat =
      ((s.taken tag 0x10#8).sweepOn (.asked tag count.toNat stop interval.toNat)).arbitrate := by
    have same : (s.taken tag 0x10#8).sweepRefusal = none := test
    simp only [State.ownSweep, same]
    rfl
  rw [sweepOn_of_goesOn on] at filled
  exact congrArg (fun t => Host.Outcome.next (State.kick t)) ((takeIn_taken _ takes).trans filled)

/-- A first pass without an entry ends a sweep of one pass, with nothing changed (R153). -/
theorem emptyPass_ends (interval : Nat) (takes : s.Takes tag) :
    (s.taken tag 0x10#8).PassOver (.asked tag 1 stop interval) { s with
      jobq := { s.jobq with sweep := none }
      link := s.link.replied ⟨0x90#8, tag, if decide (10000 < interval) then .clamped else .ok,
        word16 1 ++ word16 0 ++ word16 (min interval 10000)⟩ } := by
  refine .inr ⟨⟨tag, 0x10#8⟩, .inl ⟨Nat.le_refl 1, rfl⟩, taken_owes _ takes, rfl, ?_⟩
  have answered (r : Result) (p : List Byte) : s.link.replied ⟨0x90#8, tag, r, p⟩ =
      (s.taken tag 0x10#8).link.answered ⟨tag, 0x10#8⟩ r p := (taken_answered 0x10#8 r p takes).symm
  rw [answered]
  rfl

/-- A first pass without an entry is followed by a rest of 100 ms at the least, unless it was the last (R153). -/
theorem emptyPass_rests {count : Nat} (interval : Nat) (more : count ≠ 1) :
    (s.taken tag 0x10#8).PassOver (.asked tag count stop interval) { s with
      jobq := { s.jobq with sweep := some { Sweep.asked tag count stop interval with
        passes := 1, phase := .resting, rest := some (max 100 (min interval 10000)) } }
      link := s.link.held tag 0x10#8 } := by
  have rest : (if (Sweep.asked tag count stop interval).rolled = false ∧ min interval 10000 < 100 then 100
      else min interval 10000) = max 100 (min interval 10000) := by
    simp only [Sweep.asked, true_and]
    split <;> omega
  have runs : max 100 (min interval 10000) ≠ 0 := by omega
  refine .inl ⟨?_, ?_⟩
  · rintro (⟨-, last⟩ | ⟨-, changes⟩)
    · exact more last.symm
    · exact absurd changes (Nat.not_succ_le_zero 0)
  · rw [show (Sweep.asked tag count stop interval).interval = min interval 10000 from rfl, rest, if_neg runs, if_neg runs]
    rfl

end Sys2Proof.Machine

open Sys2Proof Sys2Proof.Machine

/-- Settles O48, along the rows of Table 9-3; a sweep that is accepted goes on by its first entry, or by the end of its
first pass. -/
theorem wakeAndSweepAccepted : Obligations.WakeAndSweepAccepted := by
  intro s tag takes live dark
  refine ⟨fun count low high => ?_, fun count stop interval => ?_⟩
  · refine ⟨fun ended => ?_, fun live dark => ?_, fun live lit full => ?_, fun live lit room => ?_⟩
    · exact exec_wake_refused takes (by rw [lineRefusal_notReady ended]; rfl)
    · exact exec_wake_refused takes (by rw [lineRefusal_supplyOff live dark]; rfl)
    · exact exec_wake_refused takes (by rw [lineRefusal_none live lit]; exact if_pos full)
    · exact exec_wake_queued takes (by rw [lineRefusal_none live lit]; exact if_neg (Nat.not_le.2 room))
  · refine ⟨fun ended => ?_, fun live dark => ?_, fun live lit held => ?_, fun live lit slot => ?_⟩
    · exact exec_sweep_refused takes (by rw [State.sweepRefusal, lineRefusal_notReady ended]; rfl)
    · exact exec_sweep_refused takes (by rw [State.sweepRefusal, lineRefusal_supplyOff live dark]; rfl)
    · exact exec_sweep_refused takes (by rw [State.sweepRefusal, lineRefusal_none live lit]; exact if_pos held)
    have test : s.sweepRefusal = none := by
      rw [State.sweepRefusal, lineRefusal_none live lit, slot]
      rfl
    refine ⟨fun next => ?_, fun none once => ?_, fun none more => ?_⟩
    · exact exec_sweep_goesOn takes test (.inl ⟨rfl, next, rfl⟩)
    · subst once
      exact exec_sweep_goesOn takes test (.inr (.inl ⟨rfl, none, emptyPass_ends _ takes, fun ⟨_, gone, _⟩ => nomatch gone⟩))
    · have several : count.toNat ≠ 1 := fun one => more (BitVec.eq_of_toNat_eq one)
      refine exec_sweep_goesOn takes test (.inr (.inl ⟨rfl, none, emptyPass_rests _ several, ?_⟩))
      rintro ⟨y, ⟨⟩, ⟨⟩⟩
end

section
/-! SUPPORT. Request frames: what a frame that is a request says of its command, and the taking in of a request (R158, R159, R161,
R171, R172). -/

namespace Sys2Proof.Machine

variable {s : State} {c : Instr} {kind tag : Byte} {p : List Byte}

/-! ### Frames read as requests (R161, R172) -/

/-- Each request command by the law of its row; the other commands have no frame. -/
theorem request_reads_back (c : Instr) : Laws.RequestRoundTrip.Statement c := by
  cases c
  case status => exact Laws.RequestRoundTrip.status _
  case get => exact Laws.RequestRoundTrip.get _ _
  case set => exact Laws.RequestRoundTrip.set _ _ _
  case setBeat => exact Laws.RequestRoundTrip.setBeat _ _
  case setKeepaliveMs => exact Laws.RequestRoundTrip.setKeepaliveMs _ _
  case pin => exact Laws.RequestRoundTrip.pin _ _ _ _
  case unpin => exact Laws.RequestRoundTrip.unpin _ _
  case pins => exact Laws.RequestRoundTrip.pins _ _
  case roster => exact Laws.RequestRoundTrip.roster _ _ _
  case entry => exact Laws.RequestRoundTrip.entry _ _
  case clearMarks => exact Laws.RequestRoundTrip.clearMarks _ _
  case clearMarksAll => exact Laws.RequestRoundTrip.clearMarksAll _
  case forget => exact Laws.RequestRoundTrip.forget _ _
  case discoverRescan => exact Laws.RequestRoundTrip.discoverRescan _
  case discoverFull => exact Laws.RequestRoundTrip.discoverFull _
  case discoverClean => exact Laws.RequestRoundTrip.discoverClean _
  case exchange => exact Laws.RequestRoundTrip.exchange _ _ _ _
  case roll => exact Laws.RequestRoundTrip.roll _ _ _
  case calibrateRecord => exact Laws.RequestRoundTrip.calibrateRecord _ _ _ _
  case calibrateProbe => exact Laws.RequestRoundTrip.calibrateProbe _ _ _ _
  case wake => exact Laws.RequestRoundTrip.wake _ _ _ _
  case sweep => exact Laws.RequestRoundTrip.sweep _ _ _ _
  case cancel => exact Laws.RequestRoundTrip.cancel _ _
  case cancelRunningDiscovery => exact Laws.RequestRoundTrip.cancelRunningDiscovery _
  case cancelRunningSweep => exact Laws.RequestRoundTrip.cancelRunningSweep _
  case park => exact Laws.RequestRoundTrip.park _
  case power => exact Laws.RequestRoundTrip.power _
  case restartSession => exact Laws.RequestRoundTrip.restartSession _
  case restartFull => exact Laws.RequestRoundTrip.restartFull _
  all_goals exact Laws.RequestRoundTrip.of_no_frame rfl

/-- The longest request is an EXCHANGE of 32 bytes (Table 11-2, R172). -/
theorem request_length (formed : c.wellFormed = true) (frame : requestFields c = some (kind, tag, p)) : p.length ≤ 35 := by
  cases c
  case exchange h urgent q =>
    obtain ⟨-, room⟩ := Bool.and_eq_true_iff.1 formed
    cases frame
    exact Nat.add_le_add_right (of_decide_eq_true room) 3
  case pin st h k => cases k <;> cases frame <;> simp [stampBytes]
  all_goals
    cases frame <;> simp [word16, stampBytes]

/-- A frame of tag 0 would be no request (R161). -/
theorem request_tag_ne_zero (formed : c.wellFormed = true) (frame : requestFields c = some (kind, tag, p)) : tag ≠ 0#8 := by
  rintro rfl
  exact absurd (request_reads_back c formed kind 0#8 p frame) FrameReading.noConfusion

/-! ### Requests taken in (R158, R159, R161) -/

/-- Every request is taken in under its own tag and kind, with an owner that acts on it. -/
theorem request_takeIn (frame : requestFields c = some (kind, tag, p)) :
    ∃ owner, ∀ s : State, s.request c = s.takeIn tag kind owner := by
  cases c
  case pin k => cases k <;> cases frame <;> exact ⟨_, fun _ => by unfold State.request; rfl⟩
  all_goals
    cases frame <;> exact ⟨_, fun _ => by unfold State.request; rfl⟩

/-- What the receiver holds of the frame plays no part in the taking in. -/
theorem takeIn_frameOver (owner : State → State) (hears : s.deaf = false) :
    s.frameOver.takeIn tag kind owner = s.takeIn tag kind owner := by
  have still : s.frameOver.deaf = false := hears
  rw [State.takeIn, State.takeIn, if_neg (ne_true_of_eq_false hears), if_neg (ne_true_of_eq_false still)]
  rfl

theorem takeIn_crowded (owner : State → State) (hears : s.deaf = false) (crowded : s.link.freeSlots = 0) :
    s.takeIn tag kind owner = s.frameOver := by
  rw [State.takeIn, if_neg (ne_true_of_eq_false hears)]
  exact if_pos crowded

theorem takeIn_tagInUse (owner : State → State) (hears : s.deaf = false) (room : s.link.freeSlots ≠ 0) (usable : tag ≠ 0#8)
    (used : ∃ q ∈ s.link.outstanding, q.tag = tag) :
    s.takeIn tag kind owner = { s with link := s.link.replied ⟨kind + 0x80#8, tag, .tagInUse, []⟩ } := by
  have held : s.link.outstanding.any (fun q => q.tag == tag) = true := by simpa using used
  rw [State.takeIn, if_neg (ne_true_of_eq_false hears)]
  exact (if_neg room).trans ((if_neg usable).trans (if_pos held))

end Sys2Proof.Machine
end

section
/-! Request frames and the bytes that spell them (O35, O36): R157 to R159, R161, R171, R172. -/

namespace Sys2Proof.Machine

variable {s t : State} {kind tag : Byte} {p f : List Byte}

/-! ### LEN (R158, R171) -/

/-- LEN is read from the first two bytes: 0 before both are there, and the same from then on. -/
theorem lenOf_append (f q : List Byte) : (f.length < 2 ∧ lenOf f = 0) ∨ lenOf (f ++ q) = lenOf f := by
  match f with
  | [] => exact .inl ⟨by decide, rfl⟩
  | [_] => exact .inl ⟨Nat.one_lt_two, rfl⟩
  | _ :: _ :: _ => exact .inr rfl

theorem lenOf_frameBody (short : p.length ≤ 35) (q : List Byte) : lenOf (frameBody kind tag p ++ q) = p.length := by
  have fits : (BitVec.ofNat 16 p.length).toNat = p.length := by rw [BitVec.toNat_ofNat]; omega
  have joined := congrArg BitVec.toNat (Laws.RequestRoundTrip.word16_join (BitVec.ofNat 16 p.length))
  rw [fits] at joined
  exact joined

theorem frameBody_length : (frameBody kind tag p).length = 4 + p.length := by
  simp only [frameBody, word16, List.length_append, List.length_cons, List.length_nil]

/-! ### The receiver amid a frame (R158) -/

/-- Where the receiver stands with these bytes of a frame in hand (Table 10-1). -/
def rxAt (f : List Byte) : RxState :=
  if f.length < 4 then .header else if f.length < 4 + lenOf f then .payload else .check

/-- The part with the receiver amid a frame of which it holds these bytes, the gap timer restarted (R158). -/
def State.amid (s : State) (f : List Byte) : State := s.putFrame (rxAt f) f

/-- A byte of a frame that is not its last one joins the bytes in hand. -/
theorem rxByte_amid {b : Byte} (short : lenOf (f ++ [b]) ≤ 80) (room : f.length < 5 + lenOf (f ++ [b])) :
    (s.amid f).rxByte b = s.amid (f ++ [b]) := by
  have longer : (f ++ [b]).length = f.length + 1 := List.length_append
  by_cases header : f.length < 4
  · have rx : rxAt f = .header := if_pos header
    have judged : ¬((f ++ [b]).length = 2 ∧ 80 < lenOf (f ++ [b])) := fun ⟨_, long⟩ => by omega
    have step : (s.amid f).rxByte b = (s.amid f).rxHeader (f ++ [b]) := by
      simp only [State.rxByte, State.amid, State.putFrame, withLink_link, rx]
    rw [step, State.rxHeader, if_neg judged]
    simp only [State.amid, State.putFrame, rxAt, longer]
    split
    · rfl
    · by_cases empty : lenOf (f ++ [b]) = 0
      · rw [if_pos empty, if_neg (by omega)]
        rfl
      · rw [if_neg empty, if_pos (by omega)]
        rfl
  · have len : lenOf (f ++ [b]) = lenOf f := (lenOf_append f [b]).resolve_left (by omega)
    have after : rxAt (f ++ [b]) = if f.length + 1 < 4 + lenOf f then .payload else .check := by
      rw [rxAt, longer, len, if_neg (by omega)]
    by_cases payload : f.length < 4 + lenOf f
    · have rx : rxAt f = .payload := by rw [rxAt, if_neg header, if_pos payload]
      simp only [State.rxByte, State.amid, State.putFrame, withLink_link, rx, after, longer, len]
      rfl
    · have rx : rxAt f = .check := by rw [rxAt, if_neg header, if_neg payload]
      simp only [State.rxByte, State.amid, State.putFrame, withLink_link, rx, after, longer, len]
      rw [if_pos (by omega), if_neg (by omega)]
      rfl

/-- The last byte of a frame has it judged (R158, R159). -/
theorem rxByte_complete {body : List Byte} {hi lo : Byte} (whole : body.length = 4 + lenOf (body ++ [hi])) :
    (s.amid (body ++ [hi])).rxByte lo = (s.amid (body ++ [hi])).judgeFrame body (hi ++ lo) := by
  have rx : rxAt (body ++ [hi]) = .check := by
    rw [rxAt, List.length_append, List.length_singleton, if_neg (by omega), if_neg (by omega)]
  have len : lenOf (body ++ [hi] ++ [lo]) = lenOf (body ++ [hi]) :=
    (lenOf_append (body ++ [hi]) [lo]).resolve_left fun ⟨less, _⟩ => by
      rw [List.length_append, List.length_singleton] at less
      omega
  have long : (body ++ [hi] ++ [lo]).length = 6 + lenOf (body ++ [hi]) := by
    rw [List.length_append, List.length_append, List.length_singleton, List.length_singleton]
    omega
  have next : 5 + lenOf (body ++ [hi]) = body.length + 1 := by omega
  have high : (body ++ [hi] ++ [lo]).getD body.length 0#8 = hi := by simp
  have low : (body ++ [hi] ++ [lo]).getD (body.length + 1) 0#8 = lo := by simp
  have start : (body ++ [hi] ++ [lo]).take body.length = body := by simp
  simp only [State.rxByte, State.amid, State.putFrame, withLink_link, rx, long, len, ← whole, next, high, low, start]
  rw [if_neg (Nat.lt_irrefl _)]

/-! ### Bytes received one after another (R157, R158) -/

theorem exec_good (b : Byte) (hears : s.deaf = false) : exec (.receivedByte (.good b)) s = .next (s.rxByte b).kick :=
  if_neg (ne_true_of_eq_false hears)

theorem receive_cons {b : Byte} (bs : List Byte) (hears : s.deaf = false) :
    s.receive (b :: bs) = (s.rxByte b).kick.receive bs := by
  rw [State.receive, exec_good b hears]

theorem kick_putFrame (rx : RxState) (settled : s.Settled) : (s.putFrame rx f).kick = s.putFrame rx f := kick_of_settled settled

theorem receive_sync (bs : List Byte) (hears : s.deaf = false) (settled : s.Settled) (hunts : s.link.rx = .hunt) :
    s.receive (0xD5#8 :: bs) = (s.amid []).receive bs := by
  have step : s.rxByte 0xD5#8 = s.amid [] := by
    simp only [State.rxByte, hunts]
    rfl
  rw [receive_cons bs hears, step]
  exact congrArg (fun t => State.receive t bs) (kick_putFrame _ settled)

/-- The bytes of a frame of at most 80 payload bytes join what is in hand, up to the frame's last byte. -/
theorem receive_amid (q bs f : List Byte) (hears : s.deaf = false) (settled : s.Settled) (short : lenOf (f ++ q) ≤ 80)
    (room : (f ++ q).length ≤ 5 + lenOf (f ++ q)) : (s.amid f).receive (q ++ bs) = (s.amid (f ++ q)).receive bs := by
  induction q generalizing f with
  | nil => rw [List.append_nil, List.nil_append]
  | cons b q ih =>
    have joins : f ++ b :: q = f ++ [b] ++ q := List.append_cons f b q
    rw [joins] at short room ⊢
    have step : (s.amid f).rxByte b = s.amid (f ++ [b]) := by
      have long : (f ++ [b] ++ q).length = f.length + 1 + q.length := by
        rw [List.length_append, List.length_append, List.length_singleton]
      have few : (f ++ [b]).length = f.length + 1 := List.length_append
      refine rxByte_amid ?_ ?_ <;> rcases lenOf_append (f ++ [b]) q with ⟨_, zero⟩ | same <;> omega
    rw [List.cons_append, receive_cons (s := s.amid f) _ hears, step]
    exact (congrArg (fun t => State.receive t _) (kick_putFrame _ settled)).trans (ih _ short room)

/-- A whole frame with its own check, received in HUNT, is served (R158, R159, R161). -/
theorem receive_linkFrame (kind tag : Byte) (p : List Byte) (hears : s.deaf = false) (settled : s.Settled)
    (hunts : s.link.rx = .hunt) (short : p.length ≤ 35) : ∃ t : State, t.frameOver = s.frameOver ∧ t.deaf = false ∧
      s.receive (linkFrame (frameBody kind tag p)) = .next (t.serve kind tag p).kick := by
  let body := frameBody kind tag p
  let check := crc16 body
  let hi := byteOf (check.toNat / 256)
  let lo := byteOf check.toNat
  have len : lenOf (body ++ [hi]) = p.length := lenOf_frameBody short [hi]
  have long : (body ++ [hi]).length = 5 + p.length := by
    rw [List.length_append, frameBody_length, List.length_singleton, Nat.add_right_comm]
  have joined : hi ++ lo = check := Laws.RequestRoundTrip.word16_join check
  have judged : (s.amid (body ++ [hi])).judgeFrame body check = (s.amid (body ++ [hi])).serve kind tag p := if_pos rfl
  refine ⟨s.amid (body ++ [hi]), rfl, hears, ?_⟩
  calc s.receive (linkFrame body)
    _ = (s.amid []).receive (body ++ [hi] ++ [lo]) := by
      rw [List.append_assoc]
      exact receive_sync _ hears settled hunts
    _ = (s.amid (body ++ [hi])).receive [lo] := by
      refine receive_amid (body ++ [hi]) [lo] [] hears settled ?_ ?_ <;> rw [List.nil_append] <;> omega
    _ = .next ((s.amid (body ++ [hi])).serve kind tag p).kick := by
      have whole : body.length = 4 + lenOf (body ++ [hi]) := by rw [len]; exact frameBody_length
      rw [receive_cons (s := s.amid (body ++ [hi])) [] hears, rxByte_complete whole, joined, judged, State.receive]

/-- The frame of a request command, received in HUNT, is taken in as the command is (R161). -/
theorem receive_request {c : Instr} (formed : c.wellFormed = true) (frame : requestFields c = some (kind, tag, p))
    (hears : s.deaf = false) (settled : s.Settled) (hunts : s.link.rx = .hunt) :
    s.receive (linkFrame (frameBody kind tag p)) = exec c s := by
  obtain ⟨t, ended, still, received⟩ := receive_linkFrame kind tag p hears settled hunts (request_length formed frame)
  obtain ⟨owner, taken⟩ := request_takeIn frame
  have served : t.serve kind tag p = t.request c := by
    simp only [State.serve, request_reads_back c formed kind tag p frame]
  rw [received, served, exec_request frame, taken, taken, ← takeIn_frameOver owner still, ended, takeIn_frameOver owner hears]

end Sys2Proof.Machine

open Sys2Proof Sys2Proof.Machine

/-- Settles O35, row by row of Table 11-2. -/
theorem requestFramesReadBack : Obligations.RequestFramesReadBack := request_reads_back

/-- Settles O36, by the bytes that the receiver has in hand. -/
theorem bytesMakeTheirRequest : Obligations.BytesMakeTheirRequest :=
  fun _ _ _ _ _ formed frame settled hears hunts _ _ => receive_request formed frame hears settled hunts
end

section
/-! What the receiver abandons, and the frames that are refused or discarded (O37): R157 to R159, R161, R172. -/

namespace Sys2Proof.Machine

variable {s : State} {kind tag : Byte} {p : List Byte}

/-! ### Frames abandoned (R157, R158) -/

theorem exec_notGood {b : RxByte} (hears : s.deaf = false) (bad : b = .bad ∨ b = .breakLow) :
    exec (.receivedByte b) s = .next (if s.link.rx = .hunt then s else s.frameOver) := by
  rw [← rxBad_eq]
  rcases bad with rfl | rfl <;> exact if_neg (ne_true_of_eq_false hears)

theorem rxByte_hunt (b : Byte) (hunts : s.link.rx = .hunt) :
    s.rxByte b = if b = 0xD5#8 then s.putFrame .header [] else s := by
  simp only [State.rxByte, hunts]

/-- The second byte of a frame completes LEN, which is judged at once (R158, log 28). -/
theorem rxByte_len {hi : Byte} (lo : Byte) (rx : s.link.rx = .header) (first : s.link.frame = [hi]) :
    s.rxByte lo = if 80 < (hi ++ lo).toNat then s.frameOver else s.putFrame .header [hi, lo] := by
  have step : s.rxByte lo = s.rxHeader [hi, lo] := by
    simp only [State.rxByte, rx, first, List.singleton_append]
  have early : [hi, lo].length < 4 := show 2 < 4 by decide
  rw [step, State.rxHeader, if_pos early]
  by_cases long : 80 < (hi ++ lo).toNat
  · rw [if_pos long]
    exact if_pos ⟨rfl, long⟩
  · rw [if_neg long]
    exact if_neg fun ⟨_, over80⟩ => long over80

/-! ### Frames refused (R159, R161) -/

/-- A complete frame that is refused by a reply of LINK's own, in a slot that is free. -/
def State.refusedBy (s : State) (r : Reply) : State := { s with
  link := if s.link.freeSlots = 0 then { s.link with rx := .hunt, frame := [], gap := none } else s.link.replied r }

theorem frameOver_refusedBy (r : Reply) :
    (if s.link.freeSlots = 0 then s.frameOver else s.frameOver.pushReply r) = s.refusedBy r := by
  unfold State.refusedBy
  split <;> rfl

theorem badCheck_eq (hears : s.deaf = false) : s.badCheck = s.refusedBy ⟨0x80#8, 0#8, .frameCheck, [0x00#8]⟩ :=
  (if_neg (ne_true_of_eq_false hears)).trans (frameOver_refusedBy _)

theorem takeBad_eq (hears : s.deaf = false) : s.takeBad tag kind = s.refusedBy ⟨0x80#8, tag, .badRequest, [kind]⟩ :=
  (if_neg (ne_true_of_eq_false hears)).trans (frameOver_refusedBy _)

theorem exec_frameCheck {body : List Byte} {check : BitVec 16} (wrong : crc16 body ≠ check) (hears : s.deaf = false) :
    exec (.frameCheck body check) s = .next (s.refusedBy ⟨0x80#8, 0#8, .frameCheck, [0x00#8]⟩).kick :=
  congrArg (fun t => Host.Outcome.next (State.kick t)) ((if_neg wrong).trans (badCheck_eq hears))

theorem exec_badRequest (formed : (Instr.badRequest kind tag p).wellFormed = true) (hears : s.deaf = false) :
    exec (.badRequest kind tag p) s = .next (s.refusedBy ⟨0x80#8, tag, .badRequest, [kind]⟩).kick := by
  obtain ⟨-, read⟩ := Bool.and_eq_true_iff.1 formed
  have served : s.serve kind tag p = s.takeBad tag kind := by simp only [State.serve, eq_of_beq read]
  exact congrArg (fun t => Host.Outcome.next (State.kick t)) (served.trans (takeBad_eq hears))

/-! ### Fields outside their codes (R172) -/

theorem ne_of_above {a b : Byte} {n : Nat} (above : n < a.toNat) (most : b.toNat ≤ n) : a ≠ b :=
  fun same => absurd most (Nat.not_le.2 (same ▸ above))

theorem readPin_badValue {st : Stamp} {h present k : Byte} (outside : 1 < present.toNat) :
    readPin tag st h present k = .badValue := by
  rw [readPin, if_neg (ne_of_above outside (by decide)), if_neg (ne_of_above outside (by decide))]

theorem readDiscover_badValue {mode : Byte} (outside : 2 < mode.toNat) : readDiscover tag mode = .badValue := by
  rw [readDiscover, if_neg (ne_of_above outside (by decide)), if_neg (ne_of_above outside (by decide)),
    if_neg (ne_of_above outside (by decide))]

theorem readCancel_badValue {type target : Byte} (outside : 2 < type.toNat) : readCancel tag type target = .badValue := by
  rw [readCancel, if_neg (ne_of_above outside (by decide)), if_neg (ne_of_above outside (by decide)),
    if_neg (ne_of_above outside (by decide))]

theorem readRestart_badValue {mode : Byte} (outside : 1 < mode.toNat) : readRestart tag mode = .badValue := by
  rw [readRestart, if_neg (ne_of_above outside (by decide)), if_neg (ne_of_above outside (by decide))]

theorem ofCode_eq_none {n : Nat} (outside : 3 < n) : RoundMode.ofCode n = none := by
  obtain ⟨m, rfl⟩ := Nat.exists_eq_add_of_le' outside
  rfl

/-- CALIBRATE: its form, its override or its IGNORE_INEXACT byte lies outside its codes. -/
theorem readCalibrate_badValue {h form override ignore : Byte}
    (outside : 1 < form.toNat ∨ (3 < override.toNat ∧ override ≠ 0xFF#8) ∨ 1 < ignore.toNat) :
    readCalibrate tag h form override ignore = .badValue := by
  unfold readCalibrate
  rcases outside with form | ⟨override, given⟩ | ignore
  · dsimp only
    split
    · rfl
    · rw [if_neg (ne_of_above form (by decide)), if_neg (ne_of_above form (by decide))]
      exact ite_self _
  · rw [if_neg given, ofCode_eq_none override]
    rfl
  · dsimp only
    split
    · rfl
    · exact if_pos ignore

/-- A frame with a field outside its codes, received in HUNT, is taken in and refused (R161, R172). -/
theorem receive_badValue (takes : s.Takes tag) (settled : s.Settled) (hunts : s.link.rx = .hunt) (short : p.length ≤ 35)
    (read : readRequest kind tag p = .badValue) : s.receive (linkFrame (frameBody kind tag p)) =
      .next (State.kick { s with link := s.link.replied ⟨kind + 0x80#8, tag, .badValue, []⟩ }) := by
  have ⟨hears, _⟩ := takes
  obtain ⟨t, ended, still, received⟩ := receive_linkFrame kind tag p hears settled hunts short
  have served : t.serve kind tag p = t.takeIn tag kind (fun t => t.answer tag .badValue []) := by
    simp only [State.serve, read]
  rw [received, served, ← takeIn_frameOver _ still, ended, takeIn_frameOver _ hears, takeIn_refused takes rfl]

/-! ### Request frames without a slot, or with a tag in use (R159, R161) -/

theorem exec_request_crowded {c : Instr} (frame : requestFields c = some (kind, tag, p)) (hears : s.deaf = false)
    (crowded : s.link.freeSlots = 0) : exec c s = .next s.frameOver.kick := by
  obtain ⟨owner, taken⟩ := request_takeIn frame
  rw [exec_request frame, taken, takeIn_crowded owner hears crowded]

theorem exec_request_tagInUse {c : Instr} (formed : c.wellFormed = true) (frame : requestFields c = some (kind, tag, p))
    (hears : s.deaf = false) (room : s.link.freeSlots ≠ 0) (used : ∃ q ∈ s.link.outstanding, q.tag = tag) :
    exec c s = .next (State.kick { s with link := s.link.replied ⟨kind + 0x80#8, tag, .tagInUse, []⟩ }) := by
  obtain ⟨owner, taken⟩ := request_takeIn frame
  rw [exec_request frame, taken, takeIn_tagInUse owner hears room (request_tag_ne_zero formed frame) used]

end Sys2Proof.Machine

open Sys2Proof Sys2Proof.Machine

/-- Settles O37, from the bytes of a frame to the frame as a whole. -/
theorem receiverAndRefusedFrames : Obligations.ReceiverAndRefusedFrames := by
  refine ⟨⟨fun s runs => if_pos runs, fun s stopped => if_neg (by simp [stopped]), fun s b deaf => if_pos deaf,
    fun s b hears bad => ?_, fun s b hears settled hunts => ?_, fun s hi lo hears settled rx first => ?_,
    fun s body check wrong hears => ?_, fun s kind tag p formed hears => ?_⟩,
    fun s tag k p takes settled hunts _ _ outside => ?_, fun c k t p s formed frame hears => ?_⟩
  · rw [exec_notGood hears bad]
    exact ⟨fun hunts => congrArg _ (if_pos hunts), fun amid => congrArg _ (if_neg amid)⟩
  · rw [exec_good _ hears, exec_good _ hears, rxByte_hunt _ hunts, rxByte_hunt _ hunts, if_pos rfl]
    refine ⟨fun other => ?_, congrArg _ (kick_putFrame _ settled)⟩
    rw [if_neg other, kick_of_settled settled]
  · rw [exec_good _ hears, rxByte_len _ rx first]
    refine ⟨fun long => ?_, fun short => ?_⟩
    · rw [if_pos long]
      exact congrArg _ (kick_of_settled (s := s.frameOver) settled)
    · rw [if_neg (Nat.not_lt.2 short), kick_putFrame _ settled, State.putFrame, ← rx]
      rfl
  · exact exec_frameCheck wrong hears
  · exact exec_badRequest formed hears
  · have ⟨_, _, usable, _⟩ := takes
    have refused (short : p.length ≤ 35) (read : (if k.toNat ≤ 0x0A then readLow k.toNat tag p else readHigh k.toNat tag p) =
        .badValue) := receive_badValue takes settled hunts short ((if_neg usable).trans read)
    rcases outside with ⟨rfl, a, b, c, d, e, f, h, present, x, rfl, out⟩ | ⟨rfl, mode, rfl, out⟩ |
      ⟨rfl, h, form, override, ignore, rfl, out⟩ | ⟨rfl, type, target, rfl, out⟩ | ⟨rfl, mode, rfl, out⟩
    · exact refused (by simp) (readPin_badValue out)
    · exact refused (by simp) (readDiscover_badValue out)
    · exact refused (by simp) (readCalibrate_badValue out)
    · exact refused (by simp) (readCancel_badValue out)
    · exact refused (by simp) (readRestart_badValue out)
  · exact ⟨exec_request_crowded frame hears, exec_request_tagInUse formed frame hears⟩
end

section
/-! TX_FRAME_DONE and RDY (O38): R160, R162, R163, R169. -/

namespace Sys2Proof.Machine

variable {s : State}

/-! ### The next frame (R162, R163, R169) -/

theorem kick_reply {r : Reply} {rs : List Reply} (free : s.link.tx = none) (oldest : s.link.replies = r :: rs) :
    s.kick = { s with link := { s.link with tx := some (.reply r) } } := by
  simp only [State.kick, free, oldest]
  rfl

theorem kick_notice {n : Notice} {ns : List Notice} (free : s.link.tx = none) (unreplied : s.link.replies = [])
    (runs : s.link.restarting = false) (head : s.link.notices = n :: ns) :
    s.kick = { s with link := { s.link with tx := some (.notice n), notices := ns } } := by
  simp only [State.kick, free, unreplied, runs, head]
  rfl

/-- With no reply, and no notice that may go out, the transmitter stays free. -/
theorem kick_idle (unreplied : s.link.replies = []) (quiet : s.link.restarting = true ∨ s.link.notices = []) : s.kick = s :=
  kick_of_settled fun _ => ⟨unreplied, quiet⟩

/-! ### A frame sent (R160, R162) -/

theorem exec_txFrameDone_idle (free : s.link.tx = none) : exec .txFrameDone s = .next s := by
  show execTxFrameDone s = _
  simp only [execTxFrameDone, free]

theorem exec_txFrameDone_reply {r : Reply} {rs : List Reply} (sent : s.link.tx = some (.reply r))
    (oldest : s.link.replies = r :: rs) :
    exec .txFrameDone s = .next (State.kick { s with link := { s.link with tx := none, replies := rs } }) := by
  show execTxFrameDone s = _
  simp only [execTxFrameDone, sent, oldest]
  rfl

theorem exec_txFrameDone_notice {n : Notice} (sent : s.link.tx = some (.notice n)) :
    exec .txFrameDone s = .next (State.kick { s with link := { s.link with tx := none } }) := by
  show execTxFrameDone s = _
  simp only [execTxFrameDone, sent]
  rfl

/-! ### RDY (R157, R160) -/

theorem rdy_iff : s.rdy = true ↔ s.resetHeld = false ∧ s.link.replies.length + s.link.outstanding.length + 2 ≤ 24 := by
  have slots : 2 ≤ s.link.freeSlots ↔ s.link.replies.length + s.link.outstanding.length + 2 ≤ 24 := by
    simp only [Link.freeSlots, Config.replySlots]
    omega
  rw [State.rdy, Bool.and_eq_true, Bool.not_eq_true', decide_eq_true_iff, slots]

end Sys2Proof.Machine

open Sys2Proof Sys2Proof.Machine

/-- Settles O38: what was sent leaves TXD, and the transmitter starts on what is left. -/
theorem transmitterTakesNext : Obligations.TransmitterTakesNext := by
  refine fun s => ⟨exec_txFrameDone_idle, fun r r' rest sent held => ?_, fun n r rest sent held => ?_,
    fun n m ns sent unreplied runs held => ?_, fun n sent unreplied quiet => ?_, fun r n ns sent last runs held => ?_,
    fun r sent last quiet => ?_, rdy_iff⟩
  · rw [exec_txFrameDone_reply sent held]
    exact congrArg _ (kick_reply rfl rfl)
  · rw [exec_txFrameDone_notice sent]
    exact congrArg _ (kick_reply rfl held)
  · rw [exec_txFrameDone_notice sent]
    exact congrArg _ (kick_notice rfl unreplied runs held)
  · rw [exec_txFrameDone_notice sent]
    exact congrArg _ (kick_idle unreplied quiet)
  · rw [exec_txFrameDone_reply sent last]
    exact congrArg _ (kick_notice rfl rfl runs held)
  · rw [exec_txFrameDone_reply sent last]
    exact congrArg _ (kick_idle rfl quiet)
end

section
/-! SUPPORT. The settings table: the value of each id, and what a value stored at one id makes of it (R165, R166, Table 10-4). -/

namespace Sys2Proof.Machine

variable {t : Settings} {n id v : Nat}

/-- Each id from 01h to 18h names a setting. -/
theorem settingValue_isSome (low : 1 ≤ n) (high : n ≤ 0x18) : (t.value n).isSome = true := by
  have named : (List.range' 1 0x18).all (fun n => (t.value n).isSome) = true := rfl
  exact List.all_eq_true.1 named n (List.mem_range'_1.2 ⟨low, Nat.lt_succ_of_le high⟩)

/-- The ids that name no setting. -/
theorem settingValue_eq_none_iff : t.value n = none ↔ n = 0 ∨ 0x18 < n := by
  constructor
  · intro unknown
    by_cases inside : 1 ≤ n ∧ n ≤ 0x18
    · obtain ⟨low, high⟩ := inside
      have named := settingValue_isSome (t := t) low high
      rw [unknown] at named
      cases named
    · omega
  · rintro (rfl | beyond)
    · rfl
    · obtain ⟨m, rfl⟩ := Nat.exists_eq_add_of_le' beyond
      rfl

/-- The rows of Table 10-4, each with the value that the table holds. -/
def Settings.rows (t : Settings) : List (Byte × Nat) :=
  (List.range' 1 0x18).map (fun n => (BitVec.ofNat 8 n, (t.value n).getD 0))

theorem mem_rows_iff {id : Byte} : (id, v) ∈ t.rows ↔ t.value id.toNat = some v := by
  simp only [Settings.rows, List.mem_map, List.mem_range'_1, Prod.mk.injEq]
  constructor
  · rintro ⟨n, ⟨low, high⟩, rfl, rfl⟩
    have same : (BitVec.ofNat 8 n).toNat = n := by rw [BitVec.toNat_ofNat]; omega
    obtain ⟨v, held⟩ := Option.isSome_iff_exists.1 (settingValue_isSome (t := t) low (by omega))
    rw [same, held]
    rfl
  · intro held
    have known : ¬(id.toNat = 0 ∨ 0x18 < id.toNat) := fun outside => by
      rw [settingValue_eq_none_iff.2 outside] at held
      cases held
    exact ⟨id.toNat, by omega, BitVec.ofNat_toNat 8 id, by rw [held]; rfl⟩

theorem not_mem_rows_iff {id : Byte} : (∀ v, (id, v) ∉ t.rows) ↔ t.value id.toNat = none := by
  simp only [mem_rows_iff, Option.eq_none_iff_forall_ne_some, ne_eq]

/-- A value stored at one id leaves the others as they are: each id has a field of its own. -/
theorem store_value_other (other : n ≠ id) : (t.store id v).value n = t.value n := by
  unfold Settings.store
  split
  case h_25 => rfl
  all_goals
    unfold Settings.value
    split <;> simp at other ⊢

/-- A numeric setting holds the value that was stored. -/
theorem store_value_range {r : Nat × Nat} (range : settingRange id = some r) : (t.store id v).value id = some v := by
  unfold settingRange at range
  split at range
  case h_21 => cases range
  all_goals rfl

/-- An enumerated setting holds the code that was stored. -/
theorem store_value_code {codes : Nat} (range : settingCodes id = some codes) (inside : v < codes) :
    (t.store id v).value id = some v := by
  have all : (List.range codes).all (fun v => (t.store id v).value id == some v) = true := by
    unfold settingCodes at range
    split at range <;> cases range <;> rfl
  exact eq_of_beq (List.all_eq_true.1 all v (List.mem_range.2 inside))

theorem set_unknown (unknown : id = 0 ∨ 0x18 < id) : t.set id v = none := by
  rcases unknown with rfl | beyond
  · rfl
  · obtain ⟨m, rfl⟩ := Nat.exists_eq_add_of_le' beyond
    rfl

theorem set_range {lo hi : Nat} (range : settingRange id = some (lo, hi)) :
    t.set id v = some (t.store id (bring lo hi v), if bring lo hi v = v then .ok else .clamped) := by
  simp only [Settings.set, range]

theorem set_code {codes : Nat} (noRange : settingRange id = none) (range : settingCodes id = some codes) :
    t.set id v = if v < codes then some (t.store id v, .ok) else none := by
  simp only [Settings.set, noRange, range]

end Sys2Proof.Machine
end

section
/-! GET and SET (O40, O41): R165, R166, Tables 10-4 and 11-3. -/

namespace Sys2Proof.Machine

variable {s : State} {tag id : Byte}

/-- A request that its owner answers at once, and that changes nothing else. -/
theorem takeIn_answered {kind : Byte} {owner : State → State} {code : Result} {payload : List Byte} (takes : s.Takes tag)
    (does : owner (s.taken tag kind) = (s.taken tag kind).answer tag code payload) :
    s.takeIn tag kind owner = { s with link := s.link.replied ⟨kind + 0x80#8, tag, code, payload⟩ } :=
  takeIn_pins takes does

/-! ### GET (R165) -/

theorem exec_get {v : Nat} (takes : s.Takes tag) (held : s.link.settings.value id.toNat = some v) : exec (.get tag id) s =
    .next (State.kick { s with link := s.link.replied ⟨0x82#8, tag, .ok, [id, byteOf (v / 256), byteOf v]⟩ }) := by
  have does : (s.taken tag 0x02#8).ownGet tag id = (s.taken tag 0x02#8).answer tag .ok (id :: word16 v) := by
    have same : (s.taken tag 0x02#8).link.settings.value id.toNat = some v := held
    simp only [State.ownGet, same]
  exact congrArg (fun t => Host.Outcome.next (State.kick t)) (takeIn_answered takes does)

theorem exec_get_unknown (takes : s.Takes tag) (unknown : s.link.settings.value id.toNat = none) : exec (.get tag id) s =
    .next (State.kick { s with link := s.link.replied ⟨0x82#8, tag, .badValue, []⟩ }) := by
  have does : (s.taken tag 0x02#8).ownGet tag id = (s.taken tag 0x02#8).answer tag .badValue [] := by
    have same : (s.taken tag 0x02#8).link.settings.value id.toNat = none := unknown
    simp only [State.ownGet, same]
  exact congrArg (fun t => Host.Outcome.next (State.kick t)) (takeIn_answered takes does)

/-! ### SET (R166) -/

/-- The numeric settings, with their ranges (Table 10-4); BEAT and KEEPALIVE_MS have commands of their own. -/
def numericRows : List (Byte × Nat × Nat) :=
  [(0x01#8, 2, 250), (0x02#8, 0, 20), (0x03#8, 1, 100), (0x04#8, 1, 50), (0x05#8, 1, 200), (0x07#8, 0, 64), (0x08#8, 1, 15),
    (0x09#8, 1, 15), (0x0B#8, 3, 31), (0x0C#8, 1, 8), (0x0D#8, 1, 8), (0x0E#8, 0, 3), (0x0F#8, 0, 3), (0x10#8, 0, 3),
    (0x11#8, 0, 4), (0x12#8, 1, 100), (0x13#8, 1, 15), (0x14#8, 0, 127), (0x16#8, 1, 126)]

/-- The enumerated settings, with the number of their codes (Table 10-4). -/
def codeRows : List (Byte × Nat) := [(0x15#8, 4), (0x17#8, 2), (0x18#8, 2)]

/-- The id is neither that of BEAT nor that of KEEPALIVE_MS. -/
def PlainId (id : Byte) : Prop := id ≠ 0x06#8 ∧ id ≠ 0x0A#8

theorem numericRows_range : ∀ r ∈ numericRows, settingRange r.1.toNat = some r.2 ∧ r.1 ≠ 0x06#8 ∧ r.1 ≠ 0x0A#8 := by decide

theorem codeRows_codes : ∀ r ∈ codeRows,
    (settingRange r.1.toNat = none ∧ settingCodes r.1.toNat = some r.2) ∧ r.1 ≠ 0x06#8 ∧ r.1 ≠ 0x0A#8 := by decide

theorem plainId_of_unknown (unknown : id.toNat = 0 ∨ 0x18 < id.toNat) : PlainId id := by
  constructor <;> rintro rfl <;> simp at unknown

variable {v : BitVec 16}

theorem exec_set_stored {t : Settings} {code : Result} {x : Nat} (takes : s.Takes tag) (plain : PlainId id)
    (stored : s.link.settings.set id.toNat v.toNat = some (t, code)) (held : t.value id.toNat = some x) :
    exec (.set tag id v) s = .next (State.kick { s with
      link := Link.replied { s.link with settings := t } ⟨0x83#8, tag, code, [id, byteOf (x / 256), byteOf x, 0#8]⟩ }) := by
  obtain ⟨notBeat, notKeepalive⟩ := plain
  have ⟨_, _, _, fresh⟩ := takes
  have does : (s.taken tag 0x03#8).ownSet tag id v.toNat =
      ((s.frameOver.putSettings t).reserveSlot tag 0x03#8).answer tag code [id, byteOf (x / 256), byteOf x, 0#8] := by
    have same : (s.taken tag 0x03#8).link.settings.set id.toNat v.toNat = some (t, code) := stored
    simp only [State.ownSet, if_neg notBeat, if_neg notKeepalive, same, setPayload, held]
    rfl
  exact congrArg (fun t => Host.Outcome.next (State.kick t))
    ((takeIn_taken _ takes).trans (does.trans (answer_reserved tag 0x03#8 code _ (by exact fresh))))

/-- A SET that is refused carries the id and the value held, unless the id names no setting (log 13). -/
theorem exec_set_refused (takes : s.Takes tag) (plain : PlainId id)
    (refused : s.link.settings.set id.toNat v.toNat = none) :
    exec (.set tag id v) s = .next (State.kick { s with link := s.link.replied ⟨0x83#8, tag, .badValue,
      if (s.link.settings.value id.toNat).isSome then setPayload s.link.settings id false else []⟩ }) := by
  obtain ⟨notBeat, notKeepalive⟩ := plain
  have does : (s.taken tag 0x03#8).ownSet tag id v.toNat = (s.taken tag 0x03#8).refuseSet tag id := by
    have same : (s.taken tag 0x03#8).link.settings.set id.toNat v.toNat = none := refused
    simp only [State.ownSet, if_neg notBeat, if_neg notKeepalive, same]
  exact congrArg (fun t => Host.Outcome.next (State.kick t)) (takeIn_answered takes does)

end Sys2Proof.Machine

open Sys2Proof Sys2Proof.Machine

/-- Settles O40, by the rows of Table 10-4. -/
theorem getReadsSetting : Obligations.GetReadsSetting := by
  intro s tag id takes t table
  have rows : table = t.rows := rfl
  rw [rows]
  exact ⟨fun v row => exec_get takes (mem_rows_iff.1 row),
    fun unknown => exec_get_unknown takes (not_mem_rows_iff.1 unknown)⟩

/-- Settles O41, by the rows of the numeric and of the enumerated settings. -/
theorem setStoresInRange : Obligations.SetStoresInRange := by
  intro s tag id v takes ranges codes stored
  have stores {x : Nat} {code : Result} (plain : PlainId id)
      (result : s.link.settings.set id.toNat v.toNat = some (s.link.settings.store id.toNat x, code))
      (held : (s.link.settings.store id.toNat x).value id.toNat = some x) : stored x code :=
    ⟨s.link.settings.store id.toNat x, exec_set_stored takes plain result held, held, fun _ other => store_value_other other⟩
  refine ⟨fun lo hi row => ?_, fun n row inside => ?_, fun n x row outside held => ?_, fun unknown => ?_⟩
  · obtain ⟨range, plain⟩ := numericRows_range (id, lo, hi) row
    exact stores plain (set_range range) (store_value_range range)
  · obtain ⟨⟨noRange, range⟩, plain⟩ := codeRows_codes (id, n) row
    exact stores plain ((set_code noRange range).trans (if_pos inside)) (store_value_code range inside)
  · obtain ⟨⟨noRange, range⟩, plain⟩ := codeRows_codes (id, n) row
    rw [exec_set_refused takes plain ((set_code noRange range).trans (if_neg (Nat.not_lt.2 outside))), setPayload, held]
    rfl
  · rw [exec_set_refused takes (plainId_of_unknown unknown) (set_unknown unknown), settingValue_eq_none_iff.2 unknown]
    rfl
end

section
/-! STATUS (O39): R164, Table 11-8. -/

namespace Sys2Proof.Machine

variable {s : State} {tag : Byte}

/-! ### The fields of the picture -/

theorem TripCause.double_code (c : TripCause) : 2 * c.code = if c = .run then 2 else 0 := by cases c <;> rfl

theorem routeSteps_length (r : Route) : (r.flatMap (fun st => [byteOf st.junction, byteOf st.leg])).length = 2 * r.length := by
  induction r with
  | nil => rfl
  | cons st r ih =>
    rw [List.flatMap_cons, List.length_append, ih, List.length_cons, List.length_cons, List.length_cons, List.length_nil]
    omega

/-- A route of Table 11-8: its length, its steps, and 00h for the steps that it has not. -/
theorem routeBytes_eq (r : Route) : routeBytes r = byteOf r.length ::
    (r.flatMap (fun st => [byteOf st.junction, byteOf st.leg]) ++ List.replicate (8 - 2 * r.length) 0#8) := by
  rw [← routeSteps_length]
  rfl

theorem routeBytes_length {r : Route} (short : r.length ≤ 4) : (routeBytes r).length = 9 := by
  rw [routeBytes_eq, List.length_cons, List.length_append, routeSteps_length, List.length_replicate]
  omega

/-- The slot that a request has reserved is one free slot less (R160, R164). -/
theorem taken_freeSlots (kind : Byte) : (s.taken tag kind).link.freeSlots = s.link.freeSlots - 1 := by
  simp only [State.taken, State.reserveSlot, State.frameOver, Link.freeSlots, withLink_link, List.length_append,
    List.length_singleton]
  omega

@[simp] theorem taken_disc (kind : Byte) : (s.taken tag kind).disc = s.disc := rfl
@[simp] theorem taken_jobq (kind : Byte) : (s.taken tag kind).jobq = s.jobq := rfl

theorem exec_status {picture : List Byte} (takes : s.Takes tag) (shown : (s.taken tag 0x01#8).statusBytes = picture) :
    exec (.status tag) s = .next (State.kick { s with link := s.link.replied ⟨0x81#8, tag, .ok, picture⟩ }) :=
  congrArg (fun t => Host.Outcome.next (State.kick t)) (takeIn_answered takes (by rw [shown]))

end Sys2Proof.Machine

open Sys2Proof Sys2Proof.Machine

/-- Settles O39: the picture is taken with the slot of its own reply reserved; its two optional fields by case. -/
theorem statusPicture : Obligations.StatusPicture := by
  intro s tag takes p
  have shown : (s.taken tag 0x01#8).statusBytes = p := by
    simp only [p, State.statusBytes, routeBytes_eq, taken_freeSlots, taken_disc, taken_jobq, TripCause.double_code, word16,
      List.append_assoc, List.cons_append, List.nil_append, List.map_cons, List.map_nil]
    cases s.jobq.sweep <;> rcases s.disc.result.bind (fun r => r.outcome) with _ | _ | _ | _ <;> rfl
  refine ⟨exec_status takes shown, fun short => ?_⟩
  have route : (routeBytes (s.taken tag 0x01#8).line.route).length = 9 := routeBytes_length short
  rw [← shown]
  simp only [State.statusBytes, word16, List.length_append, List.length_cons, List.length_nil, route]
end

section
/-! SUPPORT. The queue of commands that wait, through each request and each shared operation: none of them reads it or changes it
(log 1). -/

namespace Sys2Proof.Machine

variable {s : State}

/-! ### LINK (R158 to R163) -/

@[simp] theorem answer_pending (tag : Byte) (r : Result) (p : List Byte) : (s.answer tag r p).pending = s.pending :=
  (kept_answer tag r p (.refl s)).pending

@[simp] theorem raise_pending (n : Notice) : (s.raise n).pending = s.pending := rfl

@[simp] theorem frameOver_pending : s.frameOver.pending = s.pending := rfl

/-- A frame taken in leaves the queue to its owner. -/
theorem takeIn_pending (tag kind : Byte) {owner : State → State} (does : ∀ y, (owner y).pending = y.pending) :
    (s.takeIn tag kind owner).pending = s.pending := by
  unfold State.takeIn
  split
  · rfl
  · dsimp only
    split
    · rfl
    · split
      · rfl
      · split
        · rfl
        · exact does _

@[simp] theorem takeBad_pending (tag kind : Byte) : (s.takeBad tag kind).pending = s.pending := by
  unfold State.takeBad
  split
  · rfl
  · dsimp only
    split <;> rfl

@[simp] theorem badCheck_pending : s.badCheck.pending = s.pending := by
  unfold State.badCheck
  split
  · rfl
  · dsimp only
    split <;> rfl

/-! ### Settings (R166, R167) -/

@[simp] theorem resetKeepalive_pending (ms : Nat) : (s.resetKeepalive ms).pending = s.pending := by
  unfold State.resetKeepalive
  split
  · rfl
  · split <;> rfl

@[simp] theorem ownSetBeat_pending (tag : Byte) (v : Nat) : (s.ownSetBeat tag v).pending = s.pending := answer_pending ..

@[simp] theorem ownSetKeepalive_pending (tag : Byte) (v : Nat) : (s.ownSetKeepalive tag v).pending = s.pending :=
  (answer_pending ..).trans (resetKeepalive_pending _)

@[simp] theorem ownSet_pending (tag id : Byte) (v : Nat) : (s.ownSet tag id v).pending = s.pending := by
  unfold State.ownSet
  split
  · exact ownSetBeat_pending ..
  · split
    · exact ownSetKeepalive_pending ..
    · split <;> exact answer_pending ..

@[simp] theorem ownGet_pending (tag id : Byte) : (s.ownGet tag id).pending = s.pending := by
  unfold State.ownGet
  split <;> exact answer_pending ..

/-! ### The pin table and the roster (R82, R84, R89) -/

@[simp] theorem ownUnpin_pending (tag : Byte) (stamp : Stamp) : (s.ownUnpin tag stamp).pending = s.pending := by
  unfold State.ownUnpin
  split <;> exact answer_pending ..

@[simp] theorem ownEntry_pending (tag h : Byte) : (s.ownEntry tag h).pending = s.pending := by
  unfold State.ownEntry
  split <;> exact answer_pending ..

@[simp] theorem ownClearMarks_pending (tag h : Byte) : (s.ownClearMarks tag h).pending = s.pending := by
  unfold State.ownClearMarks
  split <;> exact answer_pending ..

/-! ### JOBQ (R138, R139, R155, R156) -/

@[simp] theorem arbitrate_pending : s.arbitrate.pending = s.pending := (kept_arbitrate (.refl s)).pending

@[simp] theorem endSweep_pending (code : Result) : (s.endSweep code).pending = s.pending := (kept_endSweep code (.refl s)).pending

@[simp] theorem flushJobs_pending (code : Result) : (s.flushJobs code).pending = s.pending := (kept_flushJobs code).pending

@[simp] theorem dropHolder_pending (code : Result) : (s.dropHolder code).pending = s.pending := (same_dropHolder code).kept.pending

@[simp] theorem ownJob_pending (tag : Byte) (h : Nat) (urgent : Bool) (k : JobKind) :
    (s.ownJob tag h urgent k).pending = s.pending := by
  unfold State.ownJob
  split
  · exact answer_pending ..
  · exact arbitrate_pending

@[simp] theorem ownWake_pending (tag count low high : Byte) : (s.ownWake tag count low high).pending = s.pending := by
  unfold State.ownWake
  split
  · exact answer_pending ..
  · exact arbitrate_pending

@[simp] theorem sweepLook_pending : s.sweepLook.pending = s.pending := (kept_sweepLook (.refl s)).pending

@[simp] theorem ownSweep_pending (tag : Byte) (count : Nat) (stop : Bool) (interval : Nat) :
    (s.ownSweep tag count stop interval).pending = s.pending := by
  unfold State.ownSweep
  split
  · exact answer_pending ..
  · exact arbitrate_pending.trans sweepLook_pending

@[simp] theorem forgetSilent_pending (tag : Byte) (e : Entry) : (s.forgetSilent tag e).pending = s.pending := by
  unfold State.forgetSilent
  split
  · exact answer_pending ..
  · split
    · exact answer_pending ..
    · exact arbitrate_pending

@[simp] theorem ownForget_pending (tag : Byte) (h : Nat) : (s.ownForget tag h).pending = s.pending := by
  unfold State.ownForget
  split
  · exact answer_pending ..
  · split
    case h_4 => exact forgetSilent_pending ..
    all_goals exact answer_pending ..

/-! ### The end of a discovery, and LINE OFF (R28, R116) -/

@[simp] theorem endDiscovery_pending (o : DiscOutcome) (why : Option AbortReason) (code : Result) :
    (s.endDiscovery o why code).pending = s.pending :=
  (kept_endDiscovery o why code (.refl s)).pending

@[simp] theorem abortDiscovery_pending (why : AbortReason) (code : Result) : (s.abortDiscovery why code).pending = s.pending :=
  (kept_abortDiscovery why code).pending

@[simp] theorem lineOff_pending : s.lineOff.pending = s.pending := rfl

/-! ### The supply (R16, R21 to R24) -/

@[simp] theorem rampStart_pending : s.rampStart.pending = s.pending := rfl

@[simp] theorem arm_pending : s.arm.pending = s.pending := by rw [arm_eq]

@[simp] theorem departAll_pending : s.departAll.1.pending = s.pending := rfl

@[simp] theorem trip_pending (cause : TripCause) : (s.trip cause).pending = s.pending := by
  simp [State.trip]

@[simp] theorem parkSupply_pending (tag : Byte) : (s.parkSupply tag).pending = s.pending := by
  simp [State.parkSupply]

@[simp] theorem cycle_pending : s.cycle.pending = s.pending := dropHolder_pending .supplyOff

@[simp] theorem ownPark_pending (tag : Byte) : (s.ownPark tag).pending = s.pending := by
  unfold State.ownPark
  split
  · exact answer_pending ..
  · split
    · exact answer_pending ..
    · exact parkSupply_pending tag

@[simp] theorem ownPower_pending (tag : Byte) : (s.ownPower tag).pending = s.pending := by
  have powered : (((s.withSsw { s.ssw with parked := false }).rampStart.arm).answer tag .ok []).pending = s.pending :=
    (answer_pending ..).trans arm_pending
  unfold State.ownPower
  split
  · exact answer_pending ..
  · split
    case h_5 | h_6 => exact powered
    all_goals exact answer_pending ..

/-! ### DISCOVER and CANCEL (R99 to R101, R117, R154) -/

@[simp] theorem leaveArmed_pending : s.leaveArmed.pending = s.pending := (kept_leaveArmed (.refl s)).pending

@[simp] theorem discoverStart_pending (m : DiscMode) : (s.discoverStart m).pending = s.pending := by
  cases m
  case rescan => rfl
  case full | clean => exact cycle_pending

@[simp] theorem ownDiscover_pending (tag : Byte) (m : DiscMode) : (s.ownDiscover tag m).pending = s.pending := by
  unfold State.ownDiscover
  split
  · exact answer_pending ..
  · exact arbitrate_pending.trans (leaveArmed_pending.trans (discoverStart_pending m))

@[simp] theorem cancelDisc_pending (tag : Byte) : (s.cancelDisc tag).pending = s.pending := by
  unfold State.cancelDisc
  split
  · exact answer_pending ..
  · split
    · exact answer_pending ..
    · split
      · exact answer_pending ..
      · exact (answer_pending ..).trans (endDiscovery_pending ..)

@[simp] theorem cancelSweep_pending (tag : Byte) : (s.cancelSweep tag).pending = s.pending := by
  unfold State.cancelSweep
  split
  · exact answer_pending ..
  · split
    · exact answer_pending ..
    · split
      · exact answer_pending ..
      · exact (answer_pending ..).trans (endSweep_pending _)

@[simp] theorem cancelTag_pending (tag target : Byte) : (s.cancelTag tag target).pending = s.pending := by
  unfold State.cancelTag
  split
  · exact (answer_pending ..).trans (answer_pending ..)
  · split
    · exact answer_pending ..
    · split
      · exact cancelSweep_pending tag
      · split
        · exact cancelDisc_pending tag
        · exact answer_pending ..

/-! ### Sessions (R6, R7, R11, R14, R168, R169) -/

@[simp] theorem evaluate_pending : s.evaluate.pending = s.pending := rfl

@[simp] theorem sessionStart_pending : s.sessionStart.pending = s.pending := by rw [sessionStart_eq]

@[simp] theorem sessionEnd_pending (code discCode : Result) : (s.sessionEnd code discCode).pending = s.pending := by
  rw [sessionEnd_frame]

@[simp] theorem endSession_pending (cause : EndCause) : (s.endSession cause).pending = s.pending := by
  simp [State.endSession]

@[simp] theorem restartEnd_pending : s.restartEnd.pending = s.pending := by
  unfold State.restartEnd
  split
  · exact sessionEnd_pending ..
  · rfl

@[simp] theorem ownRestartSession_pending (tag : Byte) : (s.ownRestartSession tag).pending = s.pending := by
  unfold State.ownRestartSession
  split
  · exact (answer_pending tag .ok []).trans (sessionEnd_pending ..)
  · exact answer_pending ..

@[simp] theorem ownRestartFull_pending (tag : Byte) : (s.ownRestartFull tag).pending = s.pending :=
  (answer_pending tag .ok []).trans ((kept_answerOthers tag s.restartEnd.link.outstanding).pending.trans restartEnd_pending)

/-! ### Requests by their row (Table 11-2) -/

/-- A request, by its owner; a row that is no request does nothing here. -/
@[simp] theorem request_pending (i : Instr) : (s.request i).pending = s.pending := by
  cases i
  case status => exact takeIn_pending _ _ fun _ => answer_pending ..
  case get => exact takeIn_pending _ _ fun _ => ownGet_pending ..
  case set => exact takeIn_pending _ _ fun _ => ownSet_pending ..
  case setBeat => exact takeIn_pending _ _ fun _ => ownSetBeat_pending ..
  case setKeepaliveMs => exact takeIn_pending _ _ fun _ => ownSetKeepalive_pending ..
  case pin => exact takeIn_pending _ _ fun _ => answer_pending ..
  case unpin => exact takeIn_pending _ _ fun _ => ownUnpin_pending ..
  case pins => exact takeIn_pending _ _ fun _ => answer_pending ..
  case roster => exact takeIn_pending _ _ fun _ => answer_pending ..
  case entry => exact takeIn_pending _ _ fun _ => ownEntry_pending ..
  case clearMarks => exact takeIn_pending _ _ fun _ => ownClearMarks_pending ..
  case clearMarksAll => exact takeIn_pending _ _ fun _ => answer_pending ..
  case forget => exact takeIn_pending _ _ fun _ => ownForget_pending ..
  case discoverRescan | discoverFull | discoverClean => exact takeIn_pending _ _ fun _ => ownDiscover_pending ..
  case exchange | roll | calibrateRecord | calibrateProbe => exact takeIn_pending _ _ fun _ => ownJob_pending ..
  case wake => exact takeIn_pending _ _ fun _ => ownWake_pending ..
  case sweep => exact takeIn_pending _ _ fun _ => ownSweep_pending ..
  case cancel => exact takeIn_pending _ _ fun _ => cancelTag_pending ..
  case cancelRunningDiscovery => exact takeIn_pending _ _ fun _ => cancelDisc_pending _
  case cancelRunningSweep => exact takeIn_pending _ _ fun _ => cancelSweep_pending _
  case park => exact takeIn_pending _ _ fun _ => ownPark_pending _
  case power => exact takeIn_pending _ _ fun _ => ownPower_pending _
  case restartSession => exact takeIn_pending _ _ fun _ => ownRestartSession_pending _
  case restartFull => exact takeIn_pending _ _ fun _ => ownRestartFull_pending _
  all_goals rfl

/-! ### The events of the coupling and the line (R7 to R10, R44, R45) -/

@[simp] theorem suspect_pending (filter : Nat) : (s.suspect filter).pending = s.pending := by
  cases flight : s.line.op with
  | none => rw [suspect_of_idle filter flight]
  | some op =>
    by_cases train : ∃ train, op.kind = .startUp train
    · obtain ⟨train, kind⟩ := train
      rw [suspect_of_startUp filter flight kind]
    · rw [suspect_of_op filter flight train]

@[simp] theorem comeBack_pending : s.comeBack.pending = s.pending := by
  by_cases idle : s.line.state = .idle
  · cases owed : s.line.startUp with
    | some o => rw [comeBack_owed idle owed]; exact (kept_startTrain o).pending
    | none => rw [comeBack_resumes idle owed]; exact (kept_regrant s kept_holderResumes).pending
  · rw [comeBack_unlit idle]

@[simp] theorem takeBreak_pending : s.takeBreak.pending = s.pending := by
  unfold State.takeBreak
  dsimp only
  split
  · exact endSession_pending _
  · exact suspect_pending _

@[simp] theorem takeInput_pending : s.takeInput.pending = s.pending := by
  unfold State.takeInput
  split
  case h_6 => exact takeBreak_pending
  case h_7 => exact comeBack_pending
  all_goals rfl

@[simp] theorem faultEnds_pending : s.faultEnds.pending = s.pending := by
  unfold State.faultEnds
  split
  · exact endDiscovery_pending ..
  · rfl

@[simp] theorem stuck_pending : s.stuck.pending = s.pending := by
  rw [stuck_eq]
  exact (dropHolder_pending .lineFault).trans faultEnds_pending

/-! ### The receiver (R157, R158, R159) -/

@[simp] theorem serve_pending (kind tag : Byte) (p : List Byte) : (s.serve kind tag p).pending = s.pending := by
  unfold State.serve
  split
  · exact takeBad_pending ..
  · exact takeIn_pending _ _ fun _ => answer_pending ..
  · exact request_pending _

@[simp] theorem judgeFrame_pending (body : List Byte) (check : BitVec 16) : (s.judgeFrame body check).pending = s.pending := by
  unfold State.judgeFrame
  split
  · split
    · exact serve_pending ..
    · rfl
  · exact badCheck_pending

@[simp] theorem rxHeader_pending (f : List Byte) : (s.rxHeader f).pending = s.pending := by
  unfold State.rxHeader
  split
  · rfl
  · split <;> rfl

@[simp] theorem rxByte_pending (b : Byte) : (s.rxByte b).pending = s.pending := by
  unfold State.rxByte
  dsimp only
  split
  · split <;> rfl
  · exact rxHeader_pending _
  · rfl
  · split
    · rfl
    · exact judgeFrame_pending ..

@[simp] theorem rxBad_pending : s.rxBad.pending = s.pending := by
  rw [rxBad_eq]
  split <;> rfl

end Sys2Proof.Machine
end

section
/-! The front of the queue, and every command as a step that completes (O1, O2). -/

namespace Sys2Proof.Machine

variable {s x : State}

/-! ### A command's step -/

/-- A command's outcome is a next state, with the queue as it was (log 1, log 27). -/
def Completes (s : State) (o : Out) : Prop := ∃ t, o = .next t ∧ t.pending = s.pending

/-- A step that does not ask the transmitter to start. -/
theorem completes_next (kept : x.pending = s.pending) : Completes s (.next x) := ⟨x, rfl, kept⟩

/-- A step that ends with the transmitter's start (R162). -/
theorem completes_kick (kept : x.pending = s.pending) : Completes s (.next x.kick) :=
  completes_next (kick_pending.trans kept)

theorem completes_same : Completes s (.next s) := completes_next rfl

/-- A command whose timer or condition does not hold has no effect (log 3). -/
theorem completes_guarded {c : Prop} [Decidable c] {o : Out} (does : Completes s o) :
    Completes s (if c then o else .next s) := by
  split
  · exact does
  · exact completes_same

/-- The holder takes the end of its operation, and the arbiter grants what it may. -/
theorem completes_regrant (does : Kept s.endOp x) : Completes s (.next (x.regrant s).kick) :=
  completes_kick (kept_regrant s ((kept_endOp (.refl s)).trans does)).pending

/-! ### The coupling and the supply -/

theorem completes_inputChange (i : PlugInput) (made : Bool) : Completes s (execInputChange i made s) := by
  unfold execInputChange
  split
  · exact completes_same
  · dsimp only
    split
    · exact completes_next rfl
    · exact completes_kick takeInput_pending

theorem completes_ovlAsserted : Completes s (execOvlAsserted s) := by
  unfold execOvlAsserted
  split
  · exact completes_same
  · dsimp only
    split
    · exact completes_next rfl
    · split <;> exact completes_next rfl

theorem completes_ovlReleased : Completes s (execOvlReleased s) := by
  unfold execOvlReleased
  split
  · exact completes_same
  · dsimp only
    split
    · exact completes_next rfl
    · split <;> exact completes_next rfl

theorem completes_dwellExpiry : Completes s (execDwellExpiry s) := by
  refine completes_guarded ?_
  split <;> exact completes_next rfl

/-! ### The ends of line operations -/

theorem completes_startUpTrainDone : Completes s (execStartUpTrainDone s) := by
  have ended : Kept s (s.endOp.withLine { s.endOp.line with startUp := none }) :=
    kept_withLine _ (kept_endOp (.refl s)) rfl id
  unfold execStartUpTrainDone
  split
  · exact completes_kick (kept_arbitrate (kept_lineOpen ended)).pending
  · exact completes_same

theorem completes_hailDone (lows : List Nat) : Completes s (execHailDone lows s) := by
  unfold execHailDone
  split
  · exact completes_regrant (kept_hailed _ (.refl _))
  · exact completes_same

theorem completes_callDone (slots : List LowSample) : Completes s (execCallDone slots s) := by
  unfold execCallDone
  split
  · exact completes_regrant (kept_called _ _ (kept_setCapture _ (.refl _)))
  · exact completes_same

theorem completes_echoDone (slots : List LowSample) : Completes s (execEchoDone slots s) := by
  unfold execEchoDone
  split
  · exact completes_regrant (kept_echoed _ (kept_setCapture _ (.refl _)))
  · exact completes_same

theorem completes_nameDone (cells : List LowSample) : Completes s (execNameDone cells s) := by
  unfold execNameDone
  split
  · exact completes_regrant (kept_nameEnded _ _ _ _ _ (kept_setCapture _ (.refl _)))
  · exact completes_same

theorem completes_measureDone (low : LowSample) : Completes s (execMeasureDone low s) := by
  unfold execMeasureDone
  split
  · exact completes_regrant (kept_discMeasured _ _ (kept_setCapture _ (.refl _)))
  · exact completes_regrant (kept_jobMeasured _ _ (kept_setCapture _ (.refl _)))
  · exact completes_same

theorem completes_rollDone (cells : List LowSample) : Completes s (execRollDone cells s) := by
  unfold execRollDone
  split
  · dsimp only
    split
    · exact completes_regrant (kept_checkRolled _ _ _ (kept_setCapture _ (.refl _)))
    · exact completes_regrant (kept_jobRolled _ _ _ _ (kept_setCapture _ (.refl _)))
    · exact completes_regrant (kept_sweepRolled _ _ _ _ (kept_setCapture _ (.refl _)))
    · exact completes_same
  · exact completes_same

theorem completes_legDone (k : OpKind) (j : Nat) (trim : Int) (cells : List LowSample) :
    Completes s (.next (s.legDone k j trim cells)) := by
  unfold State.legDone
  split
  · exact completes_regrant (kept_switchWent _ _ (kept_legEnded _ _ _ _ (kept_setCapture _ (.refl _))))
  · exact completes_same

theorem completes_legOpenDone (cells : List LowSample) : Completes s (execLegOpenDone cells s) := by
  unfold execLegOpenDone
  split
  · exact completes_legDone _ _ _ _
  · exact completes_same

theorem completes_legCloseDone (cells : List LowSample) : Completes s (execLegCloseDone cells s) := by
  unfold execLegCloseDone
  split
  · exact completes_legDone _ _ _ _
  · exact completes_same

theorem completes_dropDone : Completes s (execDropDone s) := by
  unfold execDropDone
  split
  · exact completes_regrant (kept_discDropped _ _ (.refl _))
  · exact completes_regrant (kept_jobDropped _ (.refl _))
  · exact completes_same

theorem completes_dataDone (cells : List LowSample) : Completes s (execDataDone cells s) := by
  unfold execDataDone
  split
  · exact completes_regrant (kept_jobExchanged _ _ _ _ _ (kept_setCapture _ (.refl _)))
  · exact completes_same

theorem completes_wakeTrainDone : Completes s (execWakeTrainDone s) := by
  unfold execWakeTrainDone
  split
  · exact completes_regrant (kept_jobWoken _ _ (.refl _))
  · exact completes_same

theorem completes_keepaliveTrainDone : Completes s (execKeepaliveTrainDone s) := by
  unfold execKeepaliveTrainDone
  split
  · exact completes_regrant (kept_withJobq _ (kept_withLine _ (.refl _) rfl id) (Nat.le_refl _) (Nat.le_refl _))
  · exact completes_same

/-! ### The timers and the level of the line -/

theorem completes_legSettleExpiry : Completes s (execLegSettleExpiry s) := by
  unfold execLegSettleExpiry
  split
  · refine completes_guarded ?_
    split
    · exact completes_kick (kept_regrant _ (kept_switchWent _ _ (kept_switchNext _ (.refl s)))).pending
    · exact completes_next rfl
  · exact completes_same

theorem completes_sweepRestExpiry : Completes s (execSweepRestExpiry s) := by
  unfold execSweepRestExpiry
  split
  · exact completes_guarded (completes_kick (arbitrate_pending.trans sweepLook_pending))
  · exact completes_same

theorem completes_tlLevelChange (high : Bool) : Completes s (execTlLevelChange high s) := by
  unfold execTlLevelChange
  split
  · exact completes_same
  · split
    · exact completes_next rfl
    · dsimp only
      split <;> exact completes_next rfl

/-! ### The link port -/

theorem completes_receivedByte (rx : RxByte) : Completes s (execReceivedByte rx s) := by
  unfold execReceivedByte
  split
  · exact completes_same
  · cases rx
    case good b => exact completes_kick (rxByte_pending b)
    case bad | breakLow => exact completes_next rxBad_pending

theorem completes_txFrameDone : Completes s (execTxFrameDone s) := by
  unfold execTxFrameDone
  split
  · exact completes_kick rfl
  · exact completes_kick rfl
  · exact completes_same

/-! ### Every command -/

/-- An event of the coupling, the supply, the line or the link, by its row. -/
theorem completes_event {c : Instr} (event : requestFields c = none) : Completes s (exec c s) := by
  cases c
  case inputChange i made => exact completes_inputChange i made
  case alignmentExpiry => exact completes_guarded (completes_kick rfl)
  case debounceExpiry => exact completes_guarded (completes_kick sessionStart_pending)
  case breakFilterExpiry => exact completes_guarded (completes_kick (endSession_pending _))
  case resetAssert => exact completes_next rfl
  case resetRelease b1 b0 => exact completes_guarded (completes_next rfl)
  case ovlAsserted => exact completes_ovlAsserted
  case ovlReleased => exact completes_ovlReleased
  case dwellExpiry => exact completes_dwellExpiry
  case holdExpiry => exact completes_guarded (completes_kick (trip_pending _))
  case tripExpiry => exact completes_guarded (completes_kick (trip_pending _))
  case settleExpiry => exact completes_guarded (completes_kick kept_supplyReady.pending)
  case cycleOffSpanExpiry => exact completes_guarded (completes_next rampStart_pending)
  case startUpTrainDone => exact completes_startUpTrainDone
  case hailDone lows => exact completes_hailDone lows
  case callDone slots => exact completes_callDone slots
  case echoDone slots => exact completes_echoDone slots
  case nameDone cells => exact completes_nameDone cells
  case measureDone low => exact completes_measureDone low
  case rollDone cells => exact completes_rollDone cells
  case legOpenDone cells => exact completes_legOpenDone cells
  case legCloseDone cells => exact completes_legCloseDone cells
  case dropDone => exact completes_dropDone
  case dataDone cells => exact completes_dataDone cells
  case wakeTrainDone => exact completes_wakeTrainDone
  case keepaliveTrainDone => exact completes_keepaliveTrainDone
  case keepaliveExpiry => exact completes_guarded (completes_kick arbitrate_pending)
  case stuckLineExpiry => exact completes_guarded (completes_kick stuck_pending)
  case faultSample => exact completes_guarded (completes_next rfl)
  case faultClear => exact completes_guarded (completes_kick kept_clearFault.pending)
  case legSettleExpiry => exact completes_legSettleExpiry
  case sweepRestExpiry => exact completes_sweepRestExpiry
  case linkGapExpiry => exact completes_guarded (completes_next frameOver_pending)
  case frameCheck body check => exact completes_kick (judgeFrame_pending body check)
  case badRequest kind tag p => exact completes_kick (serve_pending kind tag p)
  case txFrameDone => exact completes_txFrameDone
  case restartFullReset => exact completes_guarded (completes_next rfl)
  case receivedByte rx => exact completes_receivedByte rx
  case tlLevelChange high => exact completes_tlLevelChange high
  case pwmPeriod => exact completes_guarded (completes_next rfl)
  case pin tag stamp h k => cases k <;> cases event
  all_goals cases event

/-- Every command, as a request or as an event. -/
theorem completes_exec (c : Instr) (s : State) : Completes s (exec c s) := by
  cases frame : requestFields c with
  | none => exact completes_event frame
  | some row => rw [exec_request frame]; exact completes_kick (request_pending c)

/-! ### The front of the queue -/

/-- A step with a command at the front of the queue runs it on what is left. -/
theorem step_cons (c : Instr) (rest : List Instr) : step { s with pending := c :: rest } = exec c { s with pending := rest } := rfl

/-- A step with no command waiting idles (log 1). -/
theorem step_nil (idle : s.pending = []) : step s = .next s := by
  unfold step
  rw [idle]

end Sys2Proof.Machine

open Sys2Proof Sys2Proof.Machine

/-- Settles O2: a request's owner and an event's work each answer a next state and leave the queue alone. -/
theorem commandsCompleteAndKeepQueue : Obligations.CommandsCompleteAndKeepQueue := completes_exec

/-- Settles O1, by whether a command waits. -/
theorem stepRunsFrontCommand : Obligations.StepRunsFrontCommand :=
  ⟨fun c rest _ => step_cons c rest, fun _ idle => step_nil idle⟩
end
